-- ==== Sys2Proof/Word.lean ====
section
/-! DEFINITION. The word types of HPC (00_scope.md R10, R11) and their plainest arithmetic. -/

namespace Sys2Proof

/-- A 32-bit register or command word (10_state.md R22). -/
abbrev Word := BitVec 32

/-- One byte of the shared memory (20_memory.md R60). -/
abbrev Byte := BitVec 8

/-- A bit string, first bit first (00_scope.md R11). -/
abbrev Bits := List Bool

/-- `v mod 2^32` as a register word (00_scope.md R10). -/
def word (v : Nat) : Word := BitVec.ofNat 32 v

/-- `v mod 2^8` as a byte (00_scope.md R10). -/
def byte (v : Nat) : Byte := BitVec.ofNat 8 v

end Sys2Proof
end

