-- ==== Sys2Proof/Machine/Memory.lean ====
section
/-! DEFINITION. The shared memory (20_memory.md R60) as a canonical list of cells, read and written byte by byte. -/

namespace Sys2Proof.Machine

/-- The shared memory: (address, byte) pairs, addresses strictly rising, no byte equal to what an unlisted address
reads as. -/
abbrev Memory := List Host.Cell

/-- What an address that nothing has written reads as (DESIGN CHOICE, unsafe; log 3). -/
def memDefault : Byte := 0#8

/-- The byte at an address (20_memory.md R64, `M[a]`). -/
def Memory.read : Memory → Nat → Byte
  | [], _ => memDefault
  | (b, w) :: m, a => if a = b then w else Memory.read m a

/-- The cells with one byte put in front, unless it is what an unlisted address reads as. -/
def Memory.put (a : Nat) (v : Byte) (m : Memory) : Memory := if v = memDefault then m else (a, v) :: m

/-- The memory after `M[a] <- v` (20_memory.md R65), in canonical form. -/
def Memory.write : Memory → Nat → Byte → Memory
  | [], a, v => Memory.put a v []
  | (b, w) :: m, a, v =>
    if a < b then Memory.put a v ((b, w) :: m)
    else if a = b then Memory.put a v m
    else (b, w) :: Memory.write m a v

/-- The canonical form holds: addresses below 2^32 and strictly rising, no cell equal to an unlisted one. -/
def Memory.wf : Memory → Bool
  | [] => true
  | (a, v) :: m => decide (a < 2 ^ 32) && v != memDefault && m.all (fun c => decide (a < c.1)) && Memory.wf m

/-- The bytes at addresses `a .. a + n - 1` (00_scope.md R14). -/
def Memory.slice (m : Memory) (a n : Nat) : List Byte := (List.range n).map (fun i => m.read (a + i))

end Sys2Proof.Machine
end

