-- ==== Sys2Proof/Config.lean ====
section
/-! DEFINITION. What an implementation fixes: the constants and parameters of 00_scope.md R9, and the free
values of the model. -/

namespace Sys2Proof

namespace Config

/-- MAX_BUF, the largest SRC_LEN or DST_CAP (00_scope.md R9). -/
def maxBuf : Nat := 2 ^ 29 - 1

/-- MAXCODE, the longest code a slot holds, in bits (00_scope.md R9). -/
def maxCode : Nat := 64

/-- VINT_WIDTHS, the bucket widths, symbol k to width (00_scope.md R9). -/
def vintWidths : List Nat := [5, 8, 10, 12, 16, 20, 24, 31]

/-- UV_MAXBYTES, the longest standard uvarint the decoder accepts (00_scope.md R9). -/
def uvMaxBytes : Nat := 10

/-- KEY_BYTES, the key length of the match finder (00_scope.md R9). -/
def keyBytes : Nat := 4

/-- K, the number of candidate tables (00_scope.md R9). -/
def candidates : Nat := 4

/-- HINT_CAP, the cap on the container's hint; it has no observable effect (00_scope.md R9, 45_lz77.md R303). -/
def hintCap : Nat := 16777216

/-- The constant that ID is hard-wired to (10_state.md R23). -/
def idValue : Word := 0x48504307#32

/-- FREE VALUE. What the n-th host read of RES0 to RES2, ERRINFO, RPOS or WPOS during a command returns: any word
(10_state.md R34; log 7). -/
opaque busyRead : Nat → Word

/-- FREE VALUE. The byte left at a destination address by a command that reset abandons: any byte
(70_reset_and_hazards.md R360; log 8). -/
opaque abandonedByte : Nat → Byte

/-- FREE VALUE. The prefix-code builder of a platform that has its own: weights to code strings; `build` takes it where it
has the properties of 41_prefix_table.md R171 (log 13). -/
opaque platformBuild : Nat → List Nat → List Bits

end Config

/-- The parameter BUILD (41_prefix_table.md R171): the reference builder of R172 and R173, which is the default, or
a platform's own builder, about which the model knows R171's properties alone (log 13). -/
inductive Builder where
  | reference
  | platform (id : Nat)
deriving DecidableEq, Repr

/-- The OPEN parameters of 00_scope.md R9, as plain data, and with them TEXT_AMOUNTS, which R9 fixes and the model leaves
open too (DESIGN CHOICE; log 1). -/
structure Params where
  /-- MemOK: the address ranges (base, size) that the engine may access (20_memory.md R60; log 2). -/
  memRegions : List (Nat × Nat)
  /-- SNAPPY_BIAS (43_format_walker.md R239). -/
  snappyBias : Nat
  /-- BUILD (41_prefix_table.md R171). -/
  builder : Builder
  /-- VINT_WEIGHTS (42_varint.md R210). -/
  vintWeights : List Word
  /-- META_WEIGHTS (45_lz77.md R296). -/
  metaWeights : List Word
  /-- HAM_LOW, by byte value (41_prefix_table.md R187). -/
  hamLow : List Word
  /-- HAM_HIGH, by byte value (41_prefix_table.md R187). -/
  hamHigh : List Word
  /-- TEXT_AMOUNTS, one increment for each class of TEXT_SETS (41_prefix_table.md R186). R9 fixes it at 50, 8, 40, 77 and
28; 93_implementation_defined.md I8 and 90_conflicts.md C1 let a model treat it as open, and this one does (DESIGN CHOICE,
log 1); at reset it holds R9's values. -/
  textAmounts : List Word
  /-- TEXT_SETS, the byte classes of the text table (41_prefix_table.md R186). Which classes the parameter covers is left
open: R9 says "character classes of the text table", 92_eei_decisions.md D10 opens the two of punctuation and whitespace
alone. The model leaves every class open, the letters and the digits too (DESIGN CHOICE, log 25). -/
  textSets : List (List Byte)
deriving DecidableEq, Repr

end Sys2Proof
end

