-- ==== Sys2Proof/Machine/Bits.lean ====
section
/-! DEFINITION. Bit strings and raw fields, most significant bit first (30_encoding.md R100 to R103). -/

namespace Sys2Proof.Machine

/-- The `n`-bit raw field of value `v`: its low `n` bits, most significant first (30_encoding.md R101). -/
def natBits : Nat → Nat → Bits
  | 0, _ => []
  | n + 1, v => v.testBit n :: natBits n v

/-- value(s): a bit string read as a binary number, first bit most significant (40_bitstream.md R145). -/
def bitsVal (b : Bits) : Nat := b.foldl (fun v x => 2 * v + x.toNat) 0

/-- The stream bits of a byte sequence: the first bit is bit 7 of the first byte (30_encoding.md R100). -/
def bytesBits (bs : List Byte) : Bits := bs.flatMap (fun b => natBits 8 b.toNat)

/-- The number of one bits of a value below 2^8 (00_scope.md R11). -/
def popcount (v : Nat) : Nat := ((natBits 8 v).filter id).length

/-- Bit `7 - p mod 8` of a byte: the stream bit at position `p` (30_encoding.md R100). -/
def byteBit (b : Byte) (p : Nat) : Bool := b.getLsbD (7 - p % 8)

/-- A byte with the stream bit at position `p` replaced (20_memory.md R72). -/
def setByteBit (b : Byte) (p : Nat) (x : Bool) : Byte :=
  let m : Byte := 1#8 <<< (7 - p % 8)
  if x then b ||| m else b &&& ~~~m

end Sys2Proof.Machine
end

