-- ==== Sys2Proof/Machine/Builder.lean ====
section
/-! DEFINITION. BUILD, the prefix-code builder (41_prefix_table.md R171), and the reference builder that is its default
(R172, R173). -/

namespace Sys2Proof.Machine

/-- A prefix-code tree (41_prefix_table.md R170): following a 0 bit goes left, a 1 bit right. -/
inductive CodeTree where
  | leaf (symbol : Nat)
  | node (left right : CodeTree)
deriving DecidableEq, Repr

/-- A node of the reference builder: its weight, its rank, the tree below it (41_prefix_table.md R172). -/
structure BuildNode where
  weight : Nat
  rank : Nat
  tree : CodeTree
deriving DecidableEq, Repr

/-- The first pair is lexicographically less. -/
def pairBefore (x y : Nat × Nat) : Bool :=
  bif Nat.beq x.1 y.1 then Nat.blt x.2 y.2 else Nat.blt x.1 y.1

/-- The order of the live nodes: by (weight, rank), lexicographic (41_prefix_table.md R172). -/
def nodeBefore (x y : BuildNode) : Bool := pairBefore (x.weight, x.rank) (y.weight, y.rank)

/-- `x` and then what `tail` makes of the rest, merged into a rising list. -/
def mergeHead {α : Type} (before : α → α → Bool) (x : α) (tail : List α → List α) : List α → List α
  | [] => x :: tail []
  | y :: ys => bif before y x then y :: mergeHead before x tail ys else x :: tail (y :: ys)

/-- Two rising lists merged into one. -/
def mergeSorted {α : Type} (before : α → α → Bool) : List α → List α → List α
  | [] => fun ys => ys
  | x :: xs => mergeHead before x (mergeSorted before xs)

/-- Neighbouring lists merged two by two. -/
def mergePairs {α : Type} (before : α → α → Bool) : List (List α) → List (List α)
  | a :: b :: rest => mergeSorted before a b :: mergePairs before rest
  | l => l

/-- Merging rounds until one list is left; `fuel` bounds the rounds. -/
def mergeRounds {α : Type} (before : α → α → Bool) : Nat → List (List α) → List α
  | _, [] => []
  | _, [l] => l
  | 0, l => l.flatten
  | fuel + 1, l => mergeRounds before fuel (mergePairs before l)

/-- A list sorted to rise in the given order. -/
def sortBy {α : Type} (before : α → α → Bool) (l : List α) : List α :=
  mergeRounds before l.length (l.map (fun x => [x]))

/-- The leaves of a vector of `a` weights, from symbol `s` on: leaf `s` has weight w[s] and rank `a - 1 - s`
(41_prefix_table.md R172). -/
def leafNodes (a : Nat) : Nat → List Nat → List BuildNode
  | _, [] => []
  | s, w :: ws => ⟨w, a - 1 - s, .leaf s⟩ :: leafNodes a (s + 1) ws

/-- The least live node, and the live nodes left without it. The live nodes are held as the leaves and the internal
nodes, each list rising, so the least of all is the lesser of the two heads. -/
def takeLeast : List BuildNode → List BuildNode → Option (BuildNode × List BuildNode × List BuildNode)
  | [], [] => none
  | x :: xs, [] => some (x, xs, [])
  | [], y :: ys => some (y, [], ys)
  | x :: xs, y :: ys => bif nodeBefore x y then some (x, xs, y :: ys) else some (y, x :: xs, ys)

/-- The loop of RefLengths (41_prefix_table.md R172): while two nodes are live, the two least, x then y, become the
children of a new internal node of weight x + y and rank `a + j`, which goes behind the earlier internal nodes since
neither weights nor ranks of internal nodes ever fall. `fuel` bounds the rounds; `a` weights need `a`. -/
def mergeNodes (a : Nat) : Nat → Nat → List BuildNode → List BuildNode → CodeTree
  | 0, _, _, _ => .leaf 0
  | fuel + 1, j, leaves, inner =>
    match takeLeast leaves inner with
    | none => .leaf 0
    | some (x, leaves, inner) =>
      match takeLeast leaves inner with
      | none => x.tree
      | some (y, leaves, inner) =>
        mergeNodes a fuel (j + 1) leaves (inner ++ [⟨x.weight + y.weight, a + j, .node x.tree y.tree⟩])

/-- The tree of a weight vector by Huffman's procedure with R172's ranks. -/
def huffmanTree (w : List Nat) : CodeTree :=
  mergeNodes w.length w.length 0 (sortBy nodeBefore (leafNodes w.length 0 w)) []

/-- (symbol, depth) of every leaf of a tree whose root has the given depth. -/
def leafDepths : CodeTree → Nat → List (Nat × Nat)
  | .leaf s, d => [(s, d)]
  | .node l r, d => leafDepths l (d + 1) ++ leafDepths r (d + 1)

/-- RefLengths: len[s] is the depth of leaf s, listed in symbol order (41_prefix_table.md R172). -/
def refLengths (w : List Nat) : List Nat :=
  (sortBy pairBefore (leafDepths (huffmanTree w) 0)).map Prod.snd

/-- The codes of the symbols after the first in (length, symbol) order: each is the code before it plus one, shifted
left by the growth in length (41_prefix_table.md R173). -/
def assignNext : Nat → Nat → List (Nat × Nat) → List (Nat × Bits)
  | _, _, [] => []
  | code, prev, (len, s) :: rest =>
    (s, natBits len ((code + 1) <<< (len - prev))) :: assignNext ((code + 1) <<< (len - prev)) len rest

/-- (symbol, code) for the symbols in (length, symbol) order; the first code is 0 (41_prefix_table.md R173). -/
def assignCodes : List (Nat × Nat) → List (Nat × Bits)
  | [] => []
  | (len, s) :: rest => (s, natBits len 0) :: assignNext 0 len rest

/-- RefCodes: the canonical code of each symbol, listed in symbol order (41_prefix_table.md R173). -/
def refCodes (len : List Nat) : List Bits :=
  let order := sortBy pairBefore (len.zip (List.range len.length))
  (sortBy (fun x y => Nat.blt x.1 y.1) (assignCodes order)).map Prod.snd

/-- The reference builder (41_prefix_table.md R172, R173). -/
def referenceBuild (w : List Nat) : List Bits := refCodes (refLengths w)

/-- The longest code length of a code table. -/
def maxCodeLen (codes : List Bits) : Nat := codes.foldl (fun m c => max m c.length) 0

/-- No code is empty and none begins with another: R171 item 1, as a test. -/
def prefixFreeTest : List Bits → Bool
  | [] => true
  | c :: cs => c != [] && cs.all (fun d => !c.isPrefixOf d && !d.isPrefixOf c) && prefixFreeTest cs

/-- Below the node `p` every path comes to a code within `fuel` bits: the tree is full (41_prefix_table.md R171), as a
test. -/
def completeTest (codes : List Bits) : Nat → Bits → Bool
  | 0, p => codes.any (fun c => c.isPrefixOf p)
  | fuel + 1, p =>
    codes.any (fun c => c.isPrefixOf p) ||
      (completeTest codes fuel (p ++ [false]) && completeTest codes fuel (p ++ [true]))

/-- Σ w[s]·|c[s]|, what an optimal code makes least (41_prefix_table.md R171 item 3). -/
def codeCost (w : List Nat) (codes : List Bits) : Nat := (w.zipWith (fun v c => v * c.length) codes).sum

/-- A code table has the properties R171 asks of BUILD for the weights `w`: prefix-free, one code for each symbol, full,
and no dearer than the optimal table of the reference builder (R174; log 13). -/
def buildAllowed (w : List Nat) (codes : List Bits) : Bool :=
  prefixFreeTest codes && codes.length == w.length && completeTest codes (maxCodeLen codes) [] &&
    decide (codeCost w codes ≤ codeCost w (referenceBuild w))

/-- BUILD (41_prefix_table.md R171): the code table of a weight vector. A platform's builder has R171's properties; where
the free value lacks them it is no BUILD, and the default stands in (log 13). -/
def build : Builder → List Nat → List Bits
  | .reference, w => referenceBuild w
  | .platform id, w =>
    if buildAllowed w (Config.platformBuild id w) then Config.platformBuild id w else referenceBuild w

end Sys2Proof.Machine
end

