-- ==== Sys2Proof/Machine/Presets.lean ====
section
/-! DEFINITION. The default parameters of 00_scope.md R9 and the weights of the preset tables (41_prefix_table.md R185
to R187, 42_varint.md R210, 45_lz77.md R296). -/

namespace Sys2Proof.Machine

/-- The byte values `lo .. hi`. -/
def byteRange (lo hi : Nat) : List Byte := (List.range (hi + 1 - lo)).map (fun i => byte (lo + i))

/-- TEXT_SETS, the default classes of R186: lowercase, uppercase, digits, TEXT_COMMON, TEXT_SECONDARY. That the first three
are classes of the parameter too, and not fixed beside it, is the model's choice (log 25); R186 gives all five these
bytes. -/
def defaultTextSets : List (List Byte) :=
  [ byteRange 0x61 0x7A,
    byteRange 0x41 0x5A,
    byteRange 0x30 0x39,
    [0x20#8, 0x0A#8, 0x2C#8, 0x2E#8],
    [0x09#8, 0x0D#8, 0x21#8, 0x22#8, 0x27#8, 0x28#8, 0x29#8, 0x2D#8, 0x3A#8, 0x3B#8, 0x3F#8] ]

/-- The defaults of 00_scope.md R9. The spec gives MemOK no default; the range is that of its own test vectors
(95_test_vectors.md section 0: 64 KiB at address 0; log 2). -/
def defaultParams : Params where
  memRegions := [(0, 0x10000)]
  snappyBias := 0
  builder := .reference
  vintWeights := [8, 7, 6, 5, 4, 3, 2, 1]
  metaWeights := [4, 3, 2, 1]
  hamLow := (List.range 256).map (fun b => word (9 - popcount b))
  hamHigh := (List.range 256).map (fun b => word (1 + popcount b))
  textAmounts := [50, 8, 40, 77, 28]
  textSets := defaultTextSets

/-- A weight vector after `increment(charset, amount)` of a class: the amount added to a byte's weight for each time
the byte stands in the class (41_prefix_table.md R182, R186). -/
def addClass (w : List Word) (cls : List Byte × Word) : List Word :=
  w.zipIdx.map (fun (v, s) => v + word (cls.1.countP (fun b => b.toNat == s)) * cls.2)

/-- The text-optimized weights over `a` symbols: every weight 1, then the increments of the classes (41_prefix_table.md
R186; 90_conflicts.md C1). -/
def textWeights (p : Params) (a : Nat) : List Word :=
  (p.textSets.zip p.textAmounts).foldl addClass (List.replicate a 1#32)

/-- The weights of the preset slots 0 to 7 (10_state.md R41). -/
def presetWeights (p : Params) : Nat → List Word
  | 0 => List.replicate 257 1#32
  | 1 => textWeights p 257
  | 2 => textWeights p 256
  | 3 => p.hamLow
  | 4 => p.hamHigh
  | 5 => List.replicate 256 1#32
  | 6 => p.vintWeights
  | 7 => p.metaWeights
  | _ => []

/-- MemOK(a): address `a` of the 32-bit space is backed by memory the engine may access (20_memory.md R60). -/
def memOk (p : Params) (a : Nat) : Bool :=
  decide (a < 2 ^ 32) && p.memRegions.any (fun r => decide (r.1 ≤ a) && decide (a < r.1 + r.2))

end Sys2Proof.Machine
end

