-- ==== Sys2Proof/Machine/Slots.lean ====
section
/-! DEFINITION. The table slots (10_state.md R40 to R43) and the slot file after reset (R49). -/

namespace Sys2Proof.Machine

/-- A(t), the alphabet of a table slot: one of 0 (the slot is empty), 4, 8, 256, 257 symbols (10_state.md R40). -/
inductive Alphabet where
  | empty
  | a4
  | a8
  | a256
  | a257
deriving DecidableEq, Repr

/-- The number of symbols of an alphabet (10_state.md R40). -/
def Alphabet.size : Alphabet → Nat
  | .empty => 0
  | .a4 => 4
  | .a8 => 8
  | .a256 => 256
  | .a257 => 257

/-- A table slot (10_state.md R40). -/
structure Slot where
  /-- A(t). -/
  alpha : Alphabet
  /-- Wt(t, s), listed by symbol. -/
  weights : List Word
  /-- F(t): the slot is finalized. -/
  final : Bool
  /-- P(t): a preset slot, read-only. -/
  preset : Bool
  /-- C(t, s), listed by symbol; meaningful when F(t) = 1. -/
  codes : List Bits
deriving DecidableEq, Repr

/-- A preset slot (10_state.md R42): P = 1, F = 1, its codes BUILD of its weights. -/
def presetSlot (p : Params) (alpha : Alphabet) (i : Nat) : Slot where
  alpha := alpha
  weights := presetWeights p i
  final := true
  preset := true
  codes := build p.builder ((presetWeights p i).map BitVec.toNat)

/-- An EMPTY user slot: A = 0, F = 0, P = 0 (10_state.md R43, R49; log 10). -/
def emptySlot : Slot where
  alpha := .empty
  weights := []
  final := false
  preset := false
  codes := []

/-- The slot file after reset (10_state.md R41, R49). -/
def resetSlots (p : Params) : Vector Slot 16 :=
  #v[presetSlot p .a257 0, presetSlot p .a257 1, presetSlot p .a256 2, presetSlot p .a256 3,
     presetSlot p .a256 4, presetSlot p .a256 5, presetSlot p .a8 6, presetSlot p .a4 7,
     emptySlot, emptySlot, emptySlot, emptySlot, emptySlot, emptySlot, emptySlot, emptySlot]

end Sys2Proof.Machine
end

