-- ==== Sys2Proof/Machine/State.lean ====
section
/-! DEFINITION. The state of HPC (10_state.md), the reasons a step can stop, and the state after reset
(70_reset_and_hazards.md R361). -/

namespace Sys2Proof.Machine

/-- The engine-internal state that lives for one command (10_state.md R45); its phase is STATUS.BUSY. -/
structure Engine where
  /-- KM, the match-finder key map: key and offset, at most one entry per key (10_state.md R46). -/
  keyMap : List (Word × Nat)
  /-- HIST, the literal histogram: 256 counters by byte value (10_state.md R47). -/
  hist : List Nat
  /-- begin, the pending-literal start (45_lz77.md R286). -/
  scanBegin : Nat
  /-- end, the scan cursor (45_lz77.md R286). -/
  scanEnd : Nat
  /-- outLen, the bytes that LZ.DECOMP has reconstructed (45_lz77.md R300). -/
  outLen : Nat
  /-- lit, the literal slots that the walker still has to transform (10_state.md R45). -/
  lit : Nat
  /-- requested (43_format_walker.md R233). -/
  requested : Nat
  /-- completed (43_format_walker.md R233). -/
  completed : Nat
  /-- literals, the literal tokens that LZ.COMP has written (45_lz77.md R298). -/
  literals : Nat
  /-- substitutions, the substitution tokens that LZ.COMP has written (45_lz77.md R298). -/
  substitutions : Nat
deriving DecidableEq, Repr

/-- The engine-internal state while no command runs: unspecified and unread in the spec, every item empty here
(DESIGN CHOICE; log 9). -/
def Engine.idle : Engine where
  keyMap := []
  hist := []
  scanBegin := 0
  scanEnd := 0
  outLen := 0
  lit := 0
  requested := 0
  completed := 0
  literals := 0
  substitutions := 0

/-- One action of the host: a register access at a byte offset from BASE (10_state.md R22, R36), with its bytes in bus
order, an access to a byte of the shared memory (20_memory.md R60), or `CHECK`, the read of STATUS that a program does not go
on after when it finds an error (30_encoding.md R98). -/
inductive HostOp where
  | regWrite (offset : Nat) (data : List Byte)
  | regRead (offset size : Nat)
  | store (addr : Word) (value : Byte)
  | load (addr : Word)
  | check
deriving DecidableEq, Repr

/-- What comes next: an action of the host, a turn of the engine, or the reset input (00_scope.md R18,
70_reset_and_hazards.md R360; log 5). -/
inductive Event where
  | host (op : HostOp)
  | engine
  | reset
deriving DecidableEq, Repr

/-- The machine: the registers of 10_state.md R22 that hold a value, the slot file of R40, the engine-internal state
of R45, the shared memory of 20_memory.md R60, and the model's own fields. -/
structure State where
  ctrl : Word
  status : Word
  cmd : Word
  arg0 : Word
  arg1 : Word
  arg2 : Word
  res0 : Word
  res1 : Word
  res2 : Word
  errInfo : Word
  srcAddr : Word
  srcLen : Word
  rpos : Word
  dstAddr : Word
  dstCap : Word
  wpos : Word
  slots : Vector Slot 16
  eng : Engine
  mem : Memory
  /-- The model's own: the parameters of the implementation, which no step changes (log 1). -/
  params : Params
  /-- The model's own: the coming actions, the next one first (log 5). -/
  events : List Event
  /-- The model's own: the bytes that the host's last read returned, in bus order (log 19). -/
  hostData : List Byte
  /-- The model's own: how many free values have been drawn (log 7). -/
  freeCount : Nat
deriving DecidableEq, Repr

/-- Why a run is marked faulted. -/
inductive Fault where
  /-- HOST_RACE (20_memory.md R74): raised by a host access to a byte of the running command's source or destination
  buffer. Safe: the spec makes no claim about such a run. -/
  | hostRace
deriving DecidableEq, Repr

/-- What the model refuses to give a meaning. -/
inductive Refusal where
  /-- An instruction whose meaning is not written: raised by its arm of `exec`. Safe: nothing follows. -/
  | notModelled (mnemonic : String)
  /-- A register access that is not an aligned 32-bit word inside the window (10_state.md R36: "A model refuses a host
  program that makes one"): raised by the host's access. Safe: nothing follows. -/
  | registerAccess
deriving DecidableEq, Repr

/-- The state after reset under given parameters, with the shared memory and the model's own fields given
(70_reset_and_hazards.md R361). -/
def State.afterReset (p : Params) (m : Memory) (events : List Event) (hostData : List Byte) (freeCount : Nat) :
    State where
  ctrl := 0#32
  status := 0#32
  cmd := 0#32
  arg0 := 0#32
  arg1 := 0#32
  arg2 := 0#32
  res0 := 0#32
  res1 := 0#32
  res2 := 0#32
  errInfo := 0#32
  srcAddr := 0#32
  srcLen := 0#32
  rpos := 0#32
  dstAddr := 0#32
  dstCap := 0#32
  wpos := 0#32
  slots := resetSlots p
  eng := Engine.idle
  mem := m
  params := p
  events := events
  hostData := hostData
  freeCount := freeCount

/-- The machine right after reset, with the default parameters, nothing written in memory and no action pending. -/
def State.reset : State := State.afterReset defaultParams [] [] [] 0

end Sys2Proof.Machine
end

