-- ==== Sys2Proof/Machine/Flags.lean ====
section
/-! DEFINITION. The fields of STATUS and CTRL (10_state.md R24, R25), the completion interrupt (60_exceptions.md R330)
and every update of the flags. -/

namespace Sys2Proof.Machine

/-- A STATUS word from its fields: ERR in bits 15:8, LOST bit 2, DONE bit 1, BUSY bit 0, every other bit 0
(10_state.md R25). -/
def statusWord (busy done lost : Bool) (err : Byte) : Word :=
  0#16 ++ err ++ 0#5 ++ BitVec.ofBool lost ++ BitVec.ofBool done ++ BitVec.ofBool busy

/-- STATUS.BUSY (10_state.md R25). -/
def State.busy (s : State) : Bool := s.status.getLsbD 0

/-- STATUS.DONE (10_state.md R25). -/
def State.done (s : State) : Bool := s.status.getLsbD 1

/-- STATUS.LOST (10_state.md R25). -/
def State.lost (s : State) : Bool := s.status.getLsbD 2

/-- STATUS.ERR (10_state.md R25). -/
def State.err (s : State) : Byte := s.status.extractLsb' 8 8

/-- CTRL.IE (10_state.md R24). -/
def State.ie (s : State) : Bool := s.ctrl.getLsbD 0

/-- The interrupt output: `IRQ = CTRL.IE and STATUS.DONE` (60_exceptions.md R330). -/
def State.irq (s : State) : Bool := s.ie && s.done

/-- The flags when a command is accepted: BUSY set, DONE and ERR cleared, LOST kept (60_exceptions.md R320 step 1). -/
def statusAccepted (lost : Bool) : Word := statusWord true false lost 0#8

/-- The flags when a command completes with an error code: BUSY cleared, DONE set, ERR the code, LOST kept
(60_exceptions.md R320 step 4). -/
def statusCompleted (lost : Bool) (code : Byte) : Word := statusWord false true lost code

/-- The flags after a host write ignored because BUSY = 1: LOST set (10_state.md R33). -/
def State.setLost (s : State) : State := { s with status := statusWord s.busy s.done true s.err }

/-- A host write of `v` to STATUS: DONE and LOST are cleared where `v` has a 1, nothing else changes
(10_state.md R25). It is the host's acknowledgement of a completion (60_exceptions.md R332). -/
def State.acknowledge (s : State) (v : Word) : State :=
  { s with status := statusWord s.busy (s.done && !v.getLsbD 1) (s.lost && !v.getLsbD 2) s.err }

/-- A host write of `v` to CTRL: IE takes bit 0, the reserved bits stay 0 (10_state.md R24). -/
def State.writeCtrl (s : State) (v : Word) : State := { s with ctrl := v &&& 1#32 }

end Sys2Proof.Machine
end

