-- ==== Sys2Proof/Machine/Ops.lean ====
section
/-! DEFINITION. The operations every command is made of: engine accesses to memory (20_memory.md R64, R65), raising an
error and completing (60_exceptions.md R320 to R322), accepting a command, result registers. -/

namespace Sys2Proof.Machine

/-- An error that ends a command, with what its ERRINFO word is made from (60_exceptions.md R321). -/
inductive Raised where
  /-- ERR_TRUNCATED: RPOS at the failure. -/
  | truncated (rpos : Nat)
  /-- ERR_CORRUPT_REF: the offset. -/
  | corruptRef (offset : Nat)
  /-- ERR_OVERFLOW: the value, the least symbol, the code length or the bytes consumed. -/
  | overflow (info : Nat)
  /-- ERR_UNBUILT: the slot number. -/
  | unbuilt (slot : Nat)
  /-- ERR_ILLEGAL_CMD: the command word. -/
  | illegalCmd (c : Nat)
  /-- ERR_BAD_OPERAND: the operand code of R325. -/
  | badOperand (code : Nat)
  /-- ERR_ILLEGAL_STATE: the slot number. -/
  | illegalState (slot : Nat)
  /-- ERR_OUTPUT_FULL: WPOS at the failing write. -/
  | outputFull (wpos : Nat)
  /-- ERR_BUS: the byte address. -/
  | bus (addr : Nat)
deriving DecidableEq, Repr

/-- The code that STATUS.ERR takes (60_exceptions.md R321). -/
def Raised.code : Raised → Byte
  | .truncated _ => 1#8
  | .corruptRef _ => 2#8
  | .overflow _ => 3#8
  | .unbuilt _ => 4#8
  | .illegalCmd _ => 5#8
  | .badOperand _ => 6#8
  | .illegalState _ => 7#8
  | .outputFull _ => 8#8
  | .bus _ => 9#8

/-- The information that ERRINFO takes, before it is reduced mod 2^32 (60_exceptions.md R321). -/
def Raised.info : Raised → Nat
  | .truncated n | .corruptRef n | .overflow n | .unbuilt n | .illegalCmd n => n
  | .badOperand n | .illegalState n | .outputFull n | .bus n => n

/-- A run of the engine: it reads and changes the state, and ends with a value or with an error raised in the state
reached (60_exceptions.md R322: every effect before the raise stays). -/
abbrev Eng := EStateM Raised State

/-- A run that may also end in a read failure: FAIL of a reader, `stop` of a walk (00_scope.md R13). -/
abbrev Rd := OptionT Eng

/-! ### Completion, errors, acceptance -/

/-- Completion with an error code, 0 for success (60_exceptions.md R320 step 4). The engine-internal state does not
survive the command (10_state.md R45). -/
def State.complete (s : State) (code : Byte) : State :=
  { s with status := statusCompleted s.lost code, eng := Engine.idle }

/-- `raise`: ERRINFO takes the information mod 2^32 and the command completes with the error's code (60_exceptions.md
R322, R331). The partial results of R329 are written before, by `reporting`. -/
def State.takeError (s : State) (e : Raised) : State := { s with errInfo := word e.info }.complete e.code

/-- The state after a command word is accepted (10_state.md R26, 60_exceptions.md R320 step 1). -/
def State.accept (s : State) (c : Word) : State :=
  { s with cmd := c, status := statusAccepted s.lost, errInfo := 0#32 }

/-- A command's execution and completion (60_exceptions.md R320 steps 3 and 4). -/
def runCommand (m : Eng Unit) (s : State) : Host.Outcome State Fault Refusal :=
  match m.run s with
  | .ok _ t => .next (t.complete 0#8)
  | .error e t => .next (t.takeError e)

/-- A run whose errors leave partial results behind: on an error, `report` writes them (60_exceptions.md R322,
R329). -/
def reporting {α : Type} (report : State → State) (m : Eng α) : Eng α := fun s =>
  match m s with
  | .ok a t => .ok a t
  | .error e t => .error e (report t)

/-- A primitive read command turns a read failure into ERR_TRUNCATED at the RPOS then reached (00_scope.md R13,
60_exceptions.md R326). -/
def orTruncated {α : Type} (m : Rd α) : Eng α := do
  match ← m.run with
  | some a => pure a
  | none => throw (.truncated (← get).rpos.toNat)

/-! ### Shared memory -/

/-- `MemRead(a, 1)` (20_memory.md R64). -/
def memRead (a : Nat) : Eng Byte := do
  let s ← get
  if memOk s.params a then pure (s.mem.read a) else throw (.bus a)

/-- `MemWrite(a, 1, v)` (20_memory.md R65). -/
def memWrite (a : Nat) (v : Byte) : Eng Unit := do
  let s ← get
  if memOk s.params a then set { s with mem := s.mem.write a v } else throw (.bus a)

/-! ### Result registers and cursors -/

/-- `x[RES0] <- v`. -/
def setRes0 (v : Nat) : Eng Unit := modify (fun s => { s with res0 := word v })

/-- `x[RES1] <- v`. -/
def setRes1 (v : Nat) : Eng Unit := modify (fun s => { s with res1 := word v })

/-- `x[RES2] <- v`. -/
def setRes2 (v : Nat) : Eng Unit := modify (fun s => { s with res2 := word v })

/-- ceil(WPOS / 8), the bytes the output has touched (43_format_walker.md R242). -/
def State.outputBytes (s : State) : Nat := (s.wpos.toNat + 7) / 8

/-- The start of a high-level command after its checks: both cursors at 0 and the engine-internal state at its
initial value (60_exceptions.md R320 step 3, 10_state.md R45). -/
def startHighLevel : Eng Unit := modify (fun s => { s with rpos := 0#32, wpos := 0#32, eng := Engine.idle })

/-- A change of the engine-internal state. -/
def modifyEng (f : Engine → Engine) : Eng Unit := modify (fun s => { s with eng := f s.eng })

/-- Slot `t` of the slot file. -/
def State.slot (s : State) (t : Fin 16) : Slot := s.slots[t]

/-- A change of slot `t`. -/
def setSlot (t : Fin 16) (sl : Slot) : Eng Unit := modify (fun s => { s with slots := s.slots.set t sl })

end Sys2Proof.Machine
end

