-- ==== Sys2Proof/Syntax.lean ====
section
/-! DEFINITION. The commands of HPC, one constructor per row of the opcode map (30_encoding.md R93). -/

namespace Sys2Proof

/-- A command. `t` is the table slot of the T field (0..15), `wide` the Z field (true: 257 symbols), `n` the bit
count of the N field (30_encoding.md R90, R91). The F field is part of the constructor (R92). -/
inductive Instr where
  | nop
  | bsRbit
  | bsRbyte
  | bsRbits (n : Nat)
  | bsWbit
  | bsWbyte
  | bsWbits (n : Nat)
  | bsAlign
  | bsClose
  | tblCreate (t : Fin 16) (wide : Bool)
  | tblIncr (t : Fin 16)
  | tblIncs (t : Fin 16)
  | tblFin (t : Fin 16)
  | tblCode (t : Fin 16)
  | tblDec (t : Fin 16)
  | tblInfo (t : Fin 16)
  | tblWgt (t : Fin 16)
  | viEnc
  | viDec
  | uvEnc
  | uvDec
  | wkInspectLz4
  | wkInspectSnappy
  | wkCompLz4 (t : Fin 16)
  | wkCompSnappy (t : Fin 16)
  | wkDecompLz4 (t : Fin 16)
  | wkDecompSnappy (t : Fin 16)
  | blkEnc (t : Fin 16)
  | blkDec (t : Fin 16)
  | lzComp
  | lzDecomp
deriving DecidableEq, Repr

end Sys2Proof
end

