-- ==== Sys2Proof/Machine/Operands.lean ====
section
/-! DEFINITION. Buffers (10_state.md R31), the operand and slot checks with their codes (60_exceptions.md R323, R325),
and which buffers a command reaches (20_memory.md R62). -/

namespace Sys2Proof.Machine

/-- A buffer (B, L) is well-formed: `L <= MAX_BUF and B + L <= 2^32` (10_state.md R31). -/
def bufferOk (base len : Word) : Bool :=
  decide (len.toNat ≤ Config.maxBuf) && decide (base.toNat + len.toNat ≤ 2 ^ 32)

/-- The byte at address `a` belongs to the buffer (B, L) (10_state.md R31). -/
def inBuffer (base len : Word) (a : Nat) : Bool :=
  decide (base.toNat ≤ a) && decide (a < base.toNat + len.toNat)

/-- The source buffer is well-formed (60_exceptions.md R325 code 5). -/
def State.sourceOk (s : State) : Bool := bufferOk s.srcAddr s.srcLen

/-- The destination buffer is well-formed (60_exceptions.md R325 code 6). -/
def State.destOk (s : State) : Bool := bufferOk s.dstAddr s.dstCap

/-- The source and destination buffers do not overlap (60_exceptions.md R325 code 7). -/
def State.disjoint (s : State) : Bool :=
  s.srcLen == 0#32 || s.dstCap == 0#32 || decide (s.srcAddr.toNat + s.srcLen.toNat ≤ s.dstAddr.toNat) ||
    decide (s.dstAddr.toNat + s.dstCap.toNat ≤ s.srcAddr.toNat)

/-- A check: the error unless the condition holds in the current state. -/
def require (cond : State → Bool) (e : Raised) : Eng Unit := do
  if cond (← get) then pure () else throw e

/-- `N field <= 32`, code 1 (60_exceptions.md R325). -/
def checkCount (n : Nat) : Eng Unit := require (fun _ => decide (n ≤ 32)) (.badOperand 1)

/-- The source buffer check, code 5 (60_exceptions.md R325). -/
def checkSource : Eng Unit := require State.sourceOk (.badOperand 5)

/-- The destination buffer check, code 6 (60_exceptions.md R325). -/
def checkDest : Eng Unit := require State.destOk (.badOperand 6)

/-- The checks of a high-level command's buffers, codes 5, 6, 7 in that order (60_exceptions.md R323, R325). -/
def checkBuffers : Eng Unit := do
  checkSource
  checkDest
  require State.disjoint (.badOperand 7)

/-- `if F(t) = 0: raise ERR_UNBUILT(t)` (41_prefix_table.md R184). -/
def checkBuilt (t : Fin 16) : Eng Unit := require (fun s => (s.slot t).final) (.unbuilt t.val)

/-- `if P(t) = 1 or A(t) = 0 or F(t) = 1: raise ERR_ILLEGAL_STATE(t)`: the slot is BUILDING (41_prefix_table.md
R181, R182). -/
def checkBuilding (t : Fin 16) : Eng Unit :=
  require (fun s => !(s.slot t).preset && (s.slot t).alpha != .empty && !(s.slot t).final) (.illegalState t.val)

/-- Whether a command reads the source buffer (20_memory.md R62). -/
def readsSource : Instr → Bool
  | .nop | .tblCreate _ _ | .tblIncr _ | .tblFin _ | .tblCode _ | .tblInfo _ | .tblWgt _ => false
  | .tblIncs _ => true
  | .bsRbit | .bsRbyte | .bsRbits _ | .tblDec _ | .viDec | .uvDec => true
  | .bsWbit | .bsWbyte | .bsWbits _ | .bsAlign | .bsClose | .viEnc | .uvEnc => false
  | .wkInspectLz4 | .wkInspectSnappy | .wkCompLz4 _ | .wkCompSnappy _ | .wkDecompLz4 _ | .wkDecompSnappy _ => true
  | .blkEnc _ | .blkDec _ | .lzComp | .lzDecomp => true

/-- Whether a command writes the destination buffer (20_memory.md R62). -/
def writesDest : Instr → Bool
  | .nop | .tblCreate _ _ | .tblIncr _ | .tblIncs _ | .tblFin _ | .tblCode _ | .tblInfo _ | .tblWgt _ => false
  | .bsRbit | .bsRbyte | .bsRbits _ | .tblDec _ | .viDec | .uvDec => false
  | .bsWbit | .bsWbyte | .bsWbits _ | .bsAlign | .bsClose | .viEnc | .uvEnc => true
  | .wkInspectLz4 | .wkInspectSnappy | .wkCompLz4 _ | .wkCompSnappy _ | .wkDecompLz4 _ | .wkDecompSnappy _ => true
  | .blkEnc _ | .blkDec _ | .lzComp | .lzDecomp => true

end Sys2Proof.Machine
end

