-- ==== Sys2Proof/Machine/BitStream.lean ====
section
/-! DEFINITION. The bit-stream multiplexer: bit reader, bit writer and the BS.* commands (40_bitstream.md). -/

namespace Sys2Proof.Machine

/-! ### Reader -/

/-- `avail = 8·SRC_LEN - RPOS`, and 0 when RPOS is past the end (40_bitstream.md R140). -/
def State.avail (s : State) : Nat := 8 * s.srcLen.toNat - s.rpos.toNat

/-- `ReadBit()` (40_bitstream.md R141). -/
def readBit : Rd Bool := do
  let s ← get
  if s.avail < 1 then failure
  let b ← memRead (s.srcAddr.toNat + s.rpos.toNat / 8)
  modify (fun s => { s with rpos := s.rpos + 1#32 })
  return byteBit b s.rpos.toNat

/-- `repeat n times: v <- 2·v + ReadBit()` (40_bitstream.md R142). -/
def readBitsLoop : Nat → Nat → Rd Nat
  | 0, v => pure v
  | n + 1, v => do
    let b ← readBit
    readBitsLoop n (2 * v + b.toNat)

/-- `ReadBits(n)`: all or nothing (40_bitstream.md R142). -/
def readBits (n : Nat) : Rd Nat := do
  if (← get).avail < n then failure
  readBitsLoop n 0

/-- `ReadByte()` is `ReadBits(8)` (40_bitstream.md R143). -/
def readByte : Rd Byte := do
  let v ← readBits 8
  return byte v

/-! ### Writer -/

/-- `WriteBit(b)`, one read-modify-write of a destination byte (40_bitstream.md R144, 20_memory.md R72). -/
def writeBit (b : Bool) : Eng Unit := do
  let s ← get
  if 8 * s.dstCap.toNat ≤ s.wpos.toNat then throw (.outputFull s.wpos.toNat)
  let a := s.dstAddr.toNat + s.wpos.toNat / 8
  let old ← memRead a
  memWrite a (setByteBit old s.wpos.toNat b)
  modify (fun s => { s with wpos := s.wpos + 1#32 })

/-- The bits of a string written one by one. -/
def writeBitList : Bits → Eng Unit
  | [] => pure ()
  | b :: bs => do
    writeBit b
    writeBitList bs

/-- A bit string written all or nothing: `WriteBits(value(s), |s|)` of 40_bitstream.md R145. -/
def writeString (bs : Bits) : Eng Unit := do
  let s ← get
  if 8 * s.dstCap.toNat < s.wpos.toNat + bs.length then throw (.outputFull s.wpos.toNat)
  writeBitList bs

/-- `WriteBits(v, n)`: the low `n` bits of `v`, most significant first (40_bitstream.md R145). -/
def writeBits (v n : Nat) : Eng Unit := writeString (natBits n v)

/-- `WriteByte(v)` (40_bitstream.md R146). -/
def writeByte (v : Byte) : Eng Unit := writeBits v.toNat 8

/-- The loop of `Align()`: zero bits until WPOS is a multiple of 8 (40_bitstream.md R147). At most 7 bits are needed,
so `fuel` 8 never runs out. -/
def alignLoop : Nat → Eng Unit
  | 0 => pure ()
  | fuel + 1 => do
    if (← get).wpos.toNat % 8 ≠ 0 then
      writeBit false
      alignLoop fuel

/-- `Align()` (40_bitstream.md R147). -/
def align : Eng Unit := alignLoop 8

/-- `Close()`: Align, then the number of bytes the stream occupies (40_bitstream.md R148). -/
def close : Eng Nat := do
  align
  return (← get).wpos.toNat / 8

/-! ### Commands -/

/-- BS.RBIT (40_bitstream.md R151). -/
def execBsRbit (s : State) : Host.Outcome State Fault Refusal := runCommand (do
  checkSource
  let b ← orTruncated readBit
  setRes0 b.toNat) s

/-- BS.RBYTE (40_bitstream.md R152). -/
def execBsRbyte (s : State) : Host.Outcome State Fault Refusal := runCommand (do
  checkSource
  let v ← orTruncated readByte
  setRes0 v.toNat) s

/-- BS.RBITS n (40_bitstream.md R153). -/
def execBsRbits (n : Nat) (s : State) : Host.Outcome State Fault Refusal := runCommand (do
  checkCount n
  checkSource
  let v ← orTruncated (readBits n)
  setRes0 v) s

/-- BS.WBIT: bit 0 of ARG0 (40_bitstream.md R154). -/
def execBsWbit (s : State) : Host.Outcome State Fault Refusal := runCommand (do
  checkDest
  writeBit (s.arg0.getLsbD 0)) s

/-- BS.WBYTE: bits 7:0 of ARG0 (40_bitstream.md R155). -/
def execBsWbyte (s : State) : Host.Outcome State Fault Refusal := runCommand (do
  checkDest
  writeByte (s.arg0.extractLsb' 0 8)) s

/-- BS.WBITS n: the low `n` bits of ARG0 (40_bitstream.md R156). -/
def execBsWbits (n : Nat) (s : State) : Host.Outcome State Fault Refusal := runCommand (do
  checkCount n
  checkDest
  writeBits s.arg0.toNat n) s

/-- BS.ALIGN (40_bitstream.md R157). -/
def execBsAlign (s : State) : Host.Outcome State Fault Refusal := runCommand (do
  checkDest
  align) s

/-- BS.CLOSE (40_bitstream.md R158). -/
def execBsClose (s : State) : Host.Outcome State Fault Refusal := runCommand (do
  checkDest
  let n ← close
  setRes0 n) s

end Sys2Proof.Machine
end

