-- ==== Sys2Proof/Machine/PrefixTable.lean ====
section
/-! DEFINITION. The prefix tables: code and decode primitives and the TBL.* commands (41_prefix_table.md). -/

namespace Sys2Proof.Machine

/-! ### Code and decode primitives -/

/-- C(t, s) (41_prefix_table.md R190). Every caller checks F(t) = 1 and s < A(t) first. -/
def Slot.code (sl : Slot) (symbol : Nat) : Bits := sl.codes.getD symbol []

/-- `len(t, s) = |C(t, s)|` (41_prefix_table.md R190). -/
def Slot.codeLen (sl : Slot) (symbol : Nat) : Nat := (sl.code symbol).length

/-- `WriteCode(t, s)` (41_prefix_table.md R190). -/
def writeCode (t : Fin 16) (symbol : Nat) : Eng Unit := do
  writeString (((← get).slot t).code symbol)

/-- The symbol whose code is `p`, if any: the first from symbol `s` on. -/
def findCode (p : Bits) : List Bits → Nat → Option Nat
  | [], _ => none
  | c :: cs, s => if c = p then some s else findCode p cs (s + 1)

/-- The loop of `DecodeNext(t)` with the bits `p` read so far (41_prefix_table.md R192). Each round reads one bit, so
`fuel` above the bits left never runs out. -/
def decodeLoop (t : Fin 16) : Nat → Bits → Rd Nat
  | 0, _ => failure
  | fuel + 1, p => do
    let b ← readBit
    match findCode (p ++ [b]) ((← get).slot t).codes 0 with
    | some s => pure s
    | none => decodeLoop t fuel (p ++ [b])

/-- `DecodeNext(t)`: the bit walk from the root to a leaf (41_prefix_table.md R192, R193). -/
def decodeNext (t : Fin 16) : Rd Nat := do
  decodeLoop t ((← get).avail + 1) []

/-! ### Weights -/

/-- The weights with an amount for each symbol added; the addition does not pass 2^32 - 1 when `firstOverflow` finds
nothing (41_prefix_table.md R181, R182). -/
def addWeights (w : List Word) (amount : Nat → Nat) : List Word :=
  w.zipIdx.map (fun (v, s) => v + word (amount s))

/-- The least symbol whose weight would pass 2^32 - 1 (41_prefix_table.md R181, R182). -/
def firstOverflow (w : List Word) (amount : Nat → Nat) : Option Nat :=
  (w.zipIdx.find? (fun (v, s) => decide (2 ^ 32 ≤ v.toNat + amount s))).map Prod.snd

/-- The weight update that TBL.INCR and TBL.INCS share: ERR_OVERFLOW before any weight changes, else every weight
raised (41_prefix_table.md R181, R182). -/
def raiseWeights (t : Fin 16) (amount : Nat → Nat) : Eng Unit := do
  let sl := (← get).slot t
  match firstOverflow sl.weights amount with
  | some s => throw (.overflow s)
  | none => setSlot t { sl with weights := addWeights sl.weights amount }

/-- `cnt[b] <- cnt[b] + 1` (41_prefix_table.md R182, 45_lz77.md R294). -/
def countByte (cnt : List Nat) (b : Byte) : List Nat := cnt.modify b.toNat (· + 1)

/-- The read pass over `n` bytes from address `a`, counting each byte value (41_prefix_table.md R182). -/
def countSource : Nat → Nat → List Nat → Eng (List Nat)
  | 0, _, cnt => pure cnt
  | n + 1, a, cnt => do
    let b ← memRead a
    countSource n (a + 1) (countByte cnt b)

/-! ### Commands -/

/-- TBL.CREATE t, aZ (41_prefix_table.md R180). -/
def execTblCreate (t : Fin 16) (wide : Bool) (s : State) : Host.Outcome State Fault Refusal := runCommand (do
  require (fun s => !(s.slot t).preset) (.illegalState t.val)
  let alpha := if wide then Alphabet.a257 else Alphabet.a256
  setSlot t { (← get).slot t with
    alpha := alpha, weights := List.replicate alpha.size 1#32, final := false, codes := [] }) s

/-- TBL.INCR t: lo = ARG0, hi = ARG1, amount = ARG2, the range inclusive (41_prefix_table.md R181). -/
def execTblIncr (t : Fin 16) (s : State) : Host.Outcome State Fault Refusal := runCommand (do
  require (fun s => decide (s.arg0.toNat ≤ 255)) (.badOperand 2)
  require (fun s => decide (s.arg1.toNat ≤ 255)) (.badOperand 3)
  checkBuilding t
  raiseWeights t (fun x => if s.arg0.toNat ≤ x ∧ x ≤ s.arg1.toNat then s.arg2.toNat else 0)) s

/-- TBL.INCS t: each source byte raises its weight by ARG2 (41_prefix_table.md R182). -/
def execTblIncs (t : Fin 16) (s : State) : Host.Outcome State Fault Refusal := runCommand (do
  checkSource
  checkBuilding t
  let cnt ← countSource s.srcLen.toNat s.srcAddr.toNat (List.replicate 256 0)
  raiseWeights t (fun x => cnt.getD x 0 * s.arg2.toNat)) s

/-- TBL.FIN t (41_prefix_table.md R183). -/
def execTblFin (t : Fin 16) (s : State) : Host.Outcome State Fault Refusal := runCommand (do
  let sl := (← get).slot t
  if sl.preset then pure ()
  else
    require (fun _ => sl.alpha != .empty) (.illegalState t.val)
    let codes := build s.params.builder (sl.weights.map BitVec.toNat)
    if Config.maxCode < maxCodeLen codes then throw (.overflow (maxCodeLen codes))
    setSlot t { sl with final := true, codes := codes }) s

/-- TBL.CODE t: the code of symbol ARG0, right-justified in RES1:RES0, and its length (41_prefix_table.md R194). -/
def execTblCode (t : Fin 16) (s : State) : Host.Outcome State Fault Refusal := runCommand (do
  checkBuilt t
  require (fun s => decide (s.arg0.toNat < (s.slot t).alpha.size)) (.badOperand 2)
  let code := ((← get).slot t).code s.arg0.toNat
  setRes0 (bitsVal code)
  setRes1 (bitsVal code / 2 ^ 32)
  setRes2 code.length) s

/-- TBL.DEC t: one symbol decoded at RPOS, and the bits it took (41_prefix_table.md R195). -/
def execTblDec (t : Fin 16) (s : State) : Host.Outcome State Fault Refusal := runCommand (do
  checkSource
  checkBuilt t
  let r0 := (← get).rpos.toNat
  let symbol ← orTruncated (decodeNext t)
  setRes0 symbol
  setRes2 ((← get).rpos.toNat - r0)) s

/-- TBL.INFO t: A, F and P of the slot (41_prefix_table.md R196). -/
def execTblInfo (t : Fin 16) (s : State) : Host.Outcome State Fault Refusal := runCommand (do
  let sl := (← get).slot t
  setRes0 sl.alpha.size
  setRes1 sl.final.toNat
  setRes2 sl.preset.toNat) s

/-- TBL.WGT t: the weight of symbol ARG0 (41_prefix_table.md R197). -/
def execTblWgt (t : Fin 16) (s : State) : Host.Outcome State Fault Refusal := runCommand (do
  require (fun s => (s.slot t).alpha != .empty) (.illegalState t.val)
  require (fun s => decide (s.arg0.toNat < (s.slot t).alpha.size)) (.badOperand 2)
  setRes0 (((← get).slot t).weights.getD s.arg0.toNat 0#32).toNat) s

end Sys2Proof.Machine
end

