-- ==== Sys2Proof/Machine/BlockCodec.lean ====
section
/-! DEFINITION. The whole-block static codec, BLK.ENC and BLK.DEC (44_block_codec.md). -/

namespace Sys2Proof.Machine

/-- The end-of-block sentinel, symbol 256 (44_block_codec.md R270). -/
def sentinel : Nat := 256

/-- The prologue of both block commands (44_block_codec.md R270). -/
def blockPrologue (t : Fin 16) : Eng Unit := do
  checkBuffers
  checkBuilt t
  require (fun s => (s.slot t).alpha == .a257) (.badOperand 8)
  startHighLevel

/-- The result of a block command that an error ends: RES0 = ceil(WPOS / 8) (60_exceptions.md R329). -/
def blockReport (s : State) : State := { s with res0 := word s.outputBytes }

/-- The encoding loop over `n` source bytes; the read cannot fail while bytes are left (44_block_codec.md R271). -/
def encodeLoop (t : Fin 16) : Nat → Rd Unit
  | 0 => pure ()
  | n + 1 => do
    let b ← readByte
    writeCode t b.toNat
    encodeLoop t n

/-- The decoding loop: symbols until a read failure or a symbol past the byte range (44_block_codec.md R272). Each
round reads a bit, so `fuel` above the bits left never runs out. -/
def blockDecodeLoop (t : Fin 16) : Nat → Rd Unit
  | 0 => failure
  | fuel + 1 => do
    let s ← decodeNext t
    if 256 ≤ s then pure ()
    else
      writeByte (byte s)
      blockDecodeLoop t fuel

/-- BLK.ENC t (44_block_codec.md R271). -/
def execBlkEnc (t : Fin 16) (s : State) : Host.Outcome State Fault Refusal := runCommand (do
  blockPrologue t
  reporting blockReport (do
    let _ ← (encodeLoop t (← get).srcLen.toNat).run
    writeCode t sentinel
    let n ← close
    setRes0 n)) s

/-- BLK.DEC t (44_block_codec.md R272). -/
def execBlkDec (t : Fin 16) (s : State) : Host.Outcome State Fault Refusal := runCommand (do
  blockPrologue t
  reporting blockReport (do
    let _ ← (blockDecodeLoop t ((← get).avail + 1)).run
    let n ← close
    setRes0 n)) s

end Sys2Proof.Machine
end

