-- ==== Sys2Proof/Machine/Varint.lean ====
section
/-! DEFINITION. The bucket varint and the standard uvarint, and the VI.* and UV.* commands (42_varint.md). -/

namespace Sys2Proof.Machine

/-- The VINT preset, slot 6 (10_state.md R41). -/
def vintSlot : Fin 16 := 6

/-- VINT_WIDTHS[k] (42_varint.md R210). -/
def vintWidth (k : Nat) : Nat := Config.vintWidths.getD k 0

/-- The least bucket, counted from `k`, whose width holds `v`. -/
def bucketFrom (v : Nat) : List Nat → Nat → Nat
  | [], k => k
  | w :: ws, k => if v < 2 ^ w then k else bucketFrom v ws (k + 1)

/-- The least k with `v < 2^VINT_WIDTHS[k]` (42_varint.md R211, R213). -/
def bucket (v : Nat) : Nat := bucketFrom v Config.vintWidths 0

/-- `VEncode(v)` (42_varint.md R211). -/
def vEncode (v : Nat) : Eng Unit := do
  if 2 ^ 31 ≤ v then throw (.overflow v)
  writeCode vintSlot (bucket v)
  writeBits v (vintWidth (bucket v))

/-- `VDecode()`: the value and the bucket (42_varint.md R212). -/
def vDecode : Rd (Nat × Nat) := do
  let k ← decodeNext vintSlot
  let v ← readBits (vintWidth k)
  return (v, k)

/-- The bytes of `UVEncode(v)`, low 7-bit group first (42_varint.md R215). `fuel` bounds the continued bytes; a value
below 2^64 has at most nine. -/
def uvBytes : Nat → Nat → List Byte
  | 0, v => [byte v]
  | fuel + 1, v => if 128 ≤ v then byte (128 + v % 128) :: uvBytes fuel (v / 128) else [byte v]

/-- Bytes written one by one, each all or nothing. -/
def writeBytes : List Byte → Eng Unit
  | [] => pure ()
  | b :: bs => do
    writeByte b
    writeBytes bs

/-- `UVEncode(v)`, for v < 2^64 (42_varint.md R215). -/
def uvEncode (v : Nat) : Eng Unit := writeBytes (uvBytes (Config.uvMaxBytes - 1) v)

/-- What `UVDecode()` returns (42_varint.md R216). -/
inductive UvResult where
  | value (v : Nat)
  | fail
  | overflow
deriving DecidableEq, Repr

/-- The loop of `UVDecode()` with `left` bytes still allowed (42_varint.md R216). -/
def uvDecodeLoop : Nat → Nat → Nat → Eng UvResult
  | 0, _, _ => pure .overflow
  | left + 1, x, sh => do
    match ← readByte.run with
    | none => pure .fail
    | some b =>
      if b.toNat < 128 then
        if left = 0 ∧ 1 < b.toNat then pure .overflow
        else pure (.value (x + b.toNat * 2 ^ sh))
      else uvDecodeLoop left (x + b.toNat % 128 * 2 ^ sh) (sh + 7)

/-- `UVDecode()` (42_varint.md R216). -/
def uvDecode : Eng UvResult := uvDecodeLoop Config.uvMaxBytes 0 0

/-! ### Commands -/

/-- VI.ENC (42_varint.md R218). -/
def execViEnc (s : State) : Host.Outcome State Fault Refusal := runCommand (do
  checkDest
  let v := s.arg0.toNat
  vEncode v
  setRes0 (bucket v)
  setRes2 (((← get).slot vintSlot).codeLen (bucket v) + vintWidth (bucket v))) s

/-- VI.DEC (42_varint.md R219). -/
def execViDec (s : State) : Host.Outcome State Fault Refusal := runCommand (do
  checkSource
  let (v, k) ← orTruncated vDecode
  setRes0 v
  setRes1 k
  setRes2 (vintWidth k)) s

/-- UV.ENC: the 64-bit value ARG1, ARG0 (42_varint.md R220). -/
def execUvEnc (s : State) : Host.Outcome State Fault Refusal := runCommand (do
  checkDest
  let n0 := (← get).wpos.toNat
  uvEncode (s.arg1.toNat * 2 ^ 32 + s.arg0.toNat)
  setRes2 (((← get).wpos.toNat - n0) / 8)) s

/-- UV.DEC (42_varint.md R221). -/
def execUvDec (s : State) : Host.Outcome State Fault Refusal := runCommand (do
  checkSource
  let r0 := (← get).rpos.toNat
  match ← uvDecode with
  | .fail => throw (.truncated (← get).rpos.toNat)
  | .overflow => throw (.overflow (((← get).rpos.toNat - r0) / 8))
  | .value v =>
    setRes0 v
    setRes1 (v / 2 ^ 32)
    setRes2 (((← get).rpos.toNat - r0) / 8)) s

end Sys2Proof.Machine
end

