-- ==== Sys2Proof/Machine/Lz77.lean ====
section
/-! DEFINITION. The LZ77 match finder, the adaptive literal coder and the decoder, LZ.COMP and LZ.DECOMP
(45_lz77.md). -/

namespace Sys2Proof.Machine

/-- The META preset, slot 7 (10_state.md R41). -/
def metaSlot : Fin 16 := 7

/-- CANDk, slot 2 + k (10_state.md R41). -/
def candSlot (k : Nat) : Fin 16 := Fin.ofNat 16 (2 + k)

/-! ### Match finder -/

/-- `S[p]`, one engine read (45_lz77.md R285). -/
def srcByte (p : Nat) : Eng Byte := do memRead ((← get).srcAddr.toNat + p)

/-- `key(p)`: four bytes read in order, little-endian (45_lz77.md R287). -/
def keyAt (p : Nat) : Eng Word := do
  let b0 ← srcByte p
  let b1 ← srcByte (p + 1)
  let b2 ← srcByte (p + 2)
  let b3 ← srcByte (p + 3)
  return b3 ++ b2 ++ b1 ++ b0

/-- The offset stored under a key (10_state.md R46). -/
def keyLookup (k : Word) : List (Word × Nat) → Option Nat
  | [] => none
  | (x, p) :: rest => if x = k then some p else keyLookup k rest

/-- `KM[k] <- p`: the offset replaces any older one under the key (10_state.md R46, 45_lz77.md R291). -/
def keyStore (k : Word) (p : Nat) (km : List (Word × Nat)) : List (Word × Nat) :=
  (k, p) :: km.filter (fun e => e.1 != k)

/-- The loop of `CommonPrefix(i, end)` from a common length `cp` on (45_lz77.md R289). Each round lengthens it by one,
so the bytes left, `fuel`, bound the rounds. -/
def commonFrom (i last : Nat) : Nat → Nat → Eng Nat
  | 0, cp => pure cp
  | fuel + 1, cp => do
    let x ← srcByte (i + cp)
    let y ← srcByte (last + cp)
    if x = y then commonFrom i last fuel (cp + 1) else pure cp

/-- `CommonPrefix(i, end)` in a source of `n` bytes (45_lz77.md R289). -/
def commonLength (n i last : Nat) : Eng Nat := commonFrom i last (n - last) 0

/-! ### Adaptive literal coder -/

/-- The counting loop of `Histogram(a, b)` over `r` bytes (45_lz77.md R294). -/
def histogramLoop : Nat → Nat → Eng Unit
  | 0, _ => pure ()
  | r + 1, p => do
    let b ← srcByte p
    modifyEng (fun e => { e with hist := countByte e.hist b })
    histogramLoop r (p + 1)

/-- `HIST <- Histogram(a, b)` (45_lz77.md R294). -/
def histogram (a b : Nat) : Eng Unit := do
  modifyEng (fun e => { e with hist := List.replicate 256 0 })
  histogramLoop (b - a) a

/-- `Cost(h, k) = Σ h[v]·len(2 + k, v) + len(META, k)` (45_lz77.md R295). -/
def cost (s : State) (h : List Nat) (k : Nat) : Nat :=
  (h.zipIdx.map (fun (c, v) => c * (s.slot (candSlot k)).codeLen v)).sum + (s.slot metaSlot).codeLen k

/-- The best of the candidates `ks` and of `best`: a candidate wins only by a lower cost (45_lz77.md R295). -/
def selectFrom (s : State) (h : List Nat) : List Nat → Nat → Nat
  | [], best => best
  | k :: ks, best => selectFrom s h ks (if cost s h k < cost s h best then k else best)

/-- `Select(h)` (45_lz77.md R295). -/
def select (s : State) (h : List Nat) : Nat := selectFrom s h [1, 2, 3] 0

/-- The bytes of a literal run, each under candidate `k` (45_lz77.md R293). -/
def literalLoop (k : Nat) : Nat → Nat → Eng Unit
  | 0, _ => pure ()
  | r + 1, p => do
    let b ← srcByte p
    writeCode (candSlot k) b.toNat
    literalLoop k r (p + 1)

/-- `EmitLiteral(a, b)` (45_lz77.md R293). -/
def emitLiteral (a b : Nat) : Eng Unit := do
  writeBit false
  vEncode (b - a)
  histogram a b
  let k := select (← get) (← get).eng.hist
  writeCode metaSlot k
  literalLoop k (b - a) a
  modifyEng (fun e => { e with literals := e.literals + 1 })

/-- `EmitSubst(i, cp)` (45_lz77.md R297). -/
def emitSubst (i cp : Nat) : Eng Unit := do
  writeBit true
  writeBit true
  vEncode i
  vEncode cp
  modifyEng (fun e => { e with substitutions := e.substitutions + 1 })

/-- `EmitEnd()` (45_lz77.md R297). -/
def emitEnd : Eng Unit := do
  writeBit true
  writeBit false

/-! ### LZ.COMP -/

/-- Step 1 of the scan: record key(end - 4) (45_lz77.md R288). -/
def recordKey : Eng Unit := do
  let last := (← get).eng.scanEnd
  if 4 ≤ last then
    let k ← keyAt (last - 4)
    modifyEng (fun e => { e with keyMap := keyStore k (last - 4) e.keyMap })

/-- Step 2 of the scan: the offset stored under key(end), looked up when four bytes are left (45_lz77.md R288). -/
def lookupKey (n : Nat) : Eng (Option Nat) := do
  let last := (← get).eng.scanEnd
  if last + 4 ≤ n then
    let k ← keyAt last
    return keyLookup k (← get).eng.keyMap
  else return none

/-- One round of the scan's loop (45_lz77.md R288). -/
def scanRound (n : Nat) : Eng Unit := do
  recordKey
  match ← lookupKey n with
  | some i =>
    let last := (← get).eng.scanEnd
    let cp ← commonLength n i last
    emitLiteral (← get).eng.scanBegin last
    emitSubst i cp
    modifyEng (fun e => { e with scanBegin := last + cp, scanEnd := last + cp })
  | none => modifyEng (fun e => { e with scanEnd := e.scanEnd + 1 })

/-- The scan's loop: `while end < n` (45_lz77.md R288). Each round moves `end` on, so `fuel` of the source length never
runs out. -/
def scanLoop (n : Nat) : Nat → Eng Unit
  | 0 => pure ()
  | fuel + 1 => do
    if (← get).eng.scanEnd < n then
      scanRound n
      scanLoop n fuel

/-- `Scan()`: the loop, the final literal if bytes are left, the End token (45_lz77.md R288, R292). -/
def scan (n : Nat) : Eng Unit := do
  scanLoop n n
  let first := (← get).eng.scanBegin
  if first < n then emitLiteral first n
  emitEnd

/-- The results of an LZ.COMP that an error ends (45_lz77.md R298, 60_exceptions.md R329). -/
def lzCompReport (s : State) : State :=
  { s with res0 := word s.outputBytes, res1 := word s.eng.substitutions, res2 := word s.eng.literals }

/-- LZ.COMP (45_lz77.md R298). -/
def execLzComp (s : State) : Host.Outcome State Fault Refusal := runCommand (do
  checkBuffers
  startHighLevel
  reporting lzCompReport (do
    let n := (← get).srcLen.toNat
    uvEncode n
    scan n
    let bytes ← close
    setRes0 bytes
    setRes1 (← get).eng.substitutions
    setRes2 (← get).eng.literals)) s

/-! ### LZ.DECOMP -/

/-- A reconstructed byte: written, and counted in outLen (45_lz77.md R300, R302). -/
def outByte (v : Byte) : Eng Unit := do
  writeByte v
  modifyEng (fun e => { e with outLen := e.outLen + 1 })

/-- The bytes of a literal run of `r` under candidate `k` (45_lz77.md R301). -/
def decodeRun (k : Nat) : Nat → Rd Unit
  | 0 => pure ()
  | r + 1 => do
    let v ← decodeNext (candSlot k)
    outByte (byte v)
    decodeRun k r

/-- The copying loop of `Copy(off, len)` from destination offset `p` (45_lz77.md R302). -/
def copyLoop : Nat → Nat → Eng Unit
  | 0, _ => pure ()
  | len + 1, p => do
    let v ← memRead ((← get).dstAddr.toNat + p)
    outByte v
    copyLoop len (p + 1)

/-- `Copy(off, len)`: ERR_CORRUPT_REF unless the offset is below outLen, checked once (45_lz77.md R302). -/
def copyRef (off len : Nat) : Eng Unit := do
  if (← get).eng.outLen ≤ off then throw (.corruptRef off)
  copyLoop len off

/-- One token; true when it is the End token (45_lz77.md R301, 30_encoding.md R116). -/
def token : Rd Bool := do
  let c ← readBit
  if c then
    let c2 ← readBit
    if c2 then
      let (off, _) ← vDecode
      let (len, _) ← vDecode
      copyRef off len
      return false
    else return true
  else
    let (r, _) ← vDecode
    let k ← decodeNext metaSlot
    decodeRun k r
    return false

/-- The loop of `Tokens()`: until the End token or a read failure (45_lz77.md R301). Each round reads a bit, so `fuel`
above the bits left never runs out. -/
def tokenLoop : Nat → Rd Unit
  | 0 => failure
  | fuel + 1 => do
    if ← token then pure () else tokenLoop fuel

/-- The results of an LZ.DECOMP that an error ends: RES0 = ceil(WPOS / 8) = outLen (60_exceptions.md R329). -/
def lzDecompReport (s : State) : State := { s with res0 := word s.outputBytes }

/-- LZ.DECOMP (45_lz77.md R305). The value of the hint is not used (R303). -/
def execLzDecomp (s : State) : Host.Outcome State Fault Refusal := runCommand (do
  checkBuffers
  startHighLevel
  reporting lzDecompReport (do
    match ← uvDecode with
    | .value _ =>
      let _ ← (tokenLoop ((← get).avail + 1)).run
    | _ => pure ()
    let n ← close
    setRes0 n)) s

end Sys2Proof.Machine
end

