-- ==== Sys2Proof/Machine/System.lean ====
section
/-! DEFINITION. NOP (60_exceptions.md R335). -/

namespace Sys2Proof.Machine

/-- NOP: nothing other than the accept and complete steps (60_exceptions.md R335). -/
def execNop (s : State) : Host.Outcome State Fault Refusal := runCommand (pure ()) s

end Sys2Proof.Machine
end

