-- ==== Sys2Proof/Machine/Walker.lean ====
section
/-! DEFINITION. The format walker: LZ4-shaped and Snappy-shaped machines, the three transforms and the WK.* commands
(43_format_walker.md). -/

namespace Sys2Proof.Machine

/-! ### Framework -/

/-- `CopyByte()`: a structural byte (43_format_walker.md R231). A failed read stops the walk (R234). -/
def copyByte : Rd Byte := do
  let b ← readByte
  writeByte b
  return b

/-- `n` structural bytes copied, their values in order. -/
def copyBytes : Nat → Rd (List Byte)
  | 0 => pure []
  | n + 1 => do
    let b ← copyByte
    let bs ← copyBytes n
    return b :: bs

/-- Passthrough (43_format_walker.md R232). -/
def xformPass : Rd Unit := do
  let b ← readByte
  writeByte b

/-- Compress under table `t` (43_format_walker.md R232). -/
def xformComp (t : Fin 16) : Rd Unit := do
  let b ← readByte
  writeCode t b.toNat

/-- Decompress under table `t`; a symbol past the byte range stops the walk (43_format_walker.md R232, R240). -/
def xformDecomp (t : Fin 16) : Rd Unit := do
  let s ← decodeNext t
  if 256 ≤ s then failure
  writeByte (byte s)

/-- `repeat n times: X()`, `completed` counted up after each transform that returns; `lit` holds the slots still to
come and `fuel` is their number at the start (43_format_walker.md R232, R233; 10_state.md R45). -/
def slotLoop (x : Rd Unit) : Nat → Rd Unit
  | 0 => pure ()
  | fuel + 1 => do
    if (← get).eng.lit = 0 then pure ()
    else
      x
      modifyEng (fun e => { e with lit := e.lit - 1, completed := e.completed + 1 })
      slotLoop x fuel

/-- The literal slots of one token: `requested` raised by their number, then each transformed (43_format_walker.md
R233). -/
def literalSlots (x : Rd Unit) (n : Nat) : Rd Unit := do
  modifyEng (fun e => { e with requested := e.requested + n, lit := n })
  slotLoop x n

/-! ### LZ4-shaped machine -/

/-- The length-extension bytes after a length `n`: each is copied and added, the first below 255 ends them
(43_format_walker.md R235, 30_encoding.md R107). Each round reads a byte, so `fuel` above the bits left never runs
out. -/
def extension : Nat → Nat → Rd Nat
  | 0, _ => failure
  | fuel + 1, n => do
    let e ← copyByte
    if e.toNat < 255 then pure (n + e.toNat) else extension fuel (n + e.toNat)

/-- A 4-bit length code with its extension, present when the code is 15 (43_format_walker.md R235). -/
def nibbleLength (n : Nat) : Rd Nat := do
  if n = 15 then extension ((← get).avail + 1) n else pure n

/-- One sequence of the LZ4-shaped machine (43_format_walker.md R235, 30_encoding.md R106 to R108). -/
def lz4Sequence (x : Rd Unit) : Rd Unit := do
  let tok ← copyByte
  let n ← nibbleLength (tok.toNat / 16)
  literalSlots x n
  let _ ← copyBytes 2
  let _ ← nibbleLength (tok.toNat % 16)

/-- The loop of `WalkLZ4(X)`: sequences until a read failure stops the walk (43_format_walker.md R235). Each round
reads a byte, so `fuel` above the bits left never runs out. -/
def lz4Loop (x : Rd Unit) : Nat → Rd Unit
  | 0 => failure
  | fuel + 1 => do
    lz4Sequence x
    lz4Loop x fuel

/-- `WalkLZ4(X)` (43_format_walker.md R235). -/
def walkLz4 (x : Rd Unit) : Rd Unit := do
  lz4Loop x ((← get).avail + 1)

/-! ### Snappy-shaped machine -/

/-- The Snappy preamble: bytes copied up to and including the first below 128 (43_format_walker.md R237). Each round
reads a byte, so `fuel` above the bits left never runs out. -/
def snappyPreamble : Nat → Rd Unit
  | 0 => failure
  | fuel + 1 => do
    let b ← copyByte
    if b.toNat < 128 then pure () else snappyPreamble fuel

/-- The value of bytes in little-endian order (43_format_walker.md R238). -/
def littleEndian : List Byte → Nat
  | [] => 0
  | b :: bs => b.toNat + 256 * littleEndian bs

/-- The literal length of a tag's selector: itself below 60, else the value of its 1 to 4 length bytes, plus
SNAPPY_BIAS (43_format_walker.md R238, R239 item 1). -/
def snappyLength (sel : Nat) : Rd Nat := do
  if sel < 60 then return sel + (← get).params.snappyBias
  else
    let bs ← copyBytes (sel - 59)
    return littleEndian bs + (← get).params.snappyBias

/-- The bytes of a copy token after its tag, by kind: 1, 2 or 4 (43_format_walker.md R238). -/
def copyTokenBytes (kind : Nat) : Nat := [0, 1, 2, 4].getD kind 0

/-- One token of the Snappy-shaped machine (43_format_walker.md R238, 30_encoding.md R110, R111). -/
def snappyToken (x : Rd Unit) : Rd Unit := do
  let tag ← copyByte
  if tag.toNat % 4 = 0 then
    let n ← snappyLength (tag.toNat / 4)
    literalSlots x n
  else
    let _ ← copyBytes (copyTokenBytes (tag.toNat % 4))

/-- The token loop of `WalkSnappy(X)`, until a read failure stops the walk (43_format_walker.md R238). Each round reads
a byte, so `fuel` above the bits left never runs out. -/
def snappyLoop (x : Rd Unit) : Nat → Rd Unit
  | 0 => failure
  | fuel + 1 => do
    snappyToken x
    snappyLoop x fuel

/-- `WalkSnappy(X)` (43_format_walker.md R238). -/
def walkSnappy (x : Rd Unit) : Rd Unit := do
  snappyPreamble ((← get).avail + 1)
  snappyLoop x ((← get).avail + 1)

/-! ### Prologue, epilogue, commands -/

/-- The results of a walk that an error ends: RES0 = ceil(WPOS / 8), RES1 and RES2 the counters (43_format_walker.md
R242, 60_exceptions.md R329). -/
def walkReport (s : State) : State :=
  { s with res0 := word s.outputBytes, res1 := word s.eng.requested, res2 := word s.eng.completed }

/-- The walk and its epilogue (43_format_walker.md R234, R242). -/
def walkBody (walk : Rd Unit) : Eng Unit := reporting walkReport (do
  let _ ← walk.run
  let n ← close
  setRes0 n
  setRes1 (← get).eng.requested
  setRes2 (← get).eng.completed)

/-- `if A(t) < 256: raise ERR_BAD_OPERAND(8)` (43_format_walker.md R241). -/
def checkByteTable (t : Fin 16) : Eng Unit :=
  require (fun s => decide (256 ≤ (s.slot t).alpha.size)) (.badOperand 8)

/-- A walker command without a table: prologue, walk, epilogue (43_format_walker.md R241, R242). -/
def inspectCommand (walk : Rd Unit) : Eng Unit := do
  checkBuffers
  startHighLevel
  walkBody walk

/-- A walker command with table `t`: prologue, walk, epilogue (43_format_walker.md R241, R242). -/
def tableWalkCommand (t : Fin 16) (walk : Rd Unit) : Eng Unit := do
  checkBuffers
  checkBuilt t
  checkByteTable t
  startHighLevel
  walkBody walk

/-- WK.INSPECT.LZ4 (43_format_walker.md R250). -/
def execWkInspectLz4 (s : State) : Host.Outcome State Fault Refusal :=
  runCommand (inspectCommand (walkLz4 xformPass)) s

/-- WK.INSPECT.SNAPPY (43_format_walker.md R251). -/
def execWkInspectSnappy (s : State) : Host.Outcome State Fault Refusal :=
  runCommand (inspectCommand (walkSnappy xformPass)) s

/-- WK.COMP.LZ4 t (43_format_walker.md R252). -/
def execWkCompLz4 (t : Fin 16) (s : State) : Host.Outcome State Fault Refusal :=
  runCommand (tableWalkCommand t (walkLz4 (xformComp t))) s

/-- WK.COMP.SNAPPY t (43_format_walker.md R253). -/
def execWkCompSnappy (t : Fin 16) (s : State) : Host.Outcome State Fault Refusal :=
  runCommand (tableWalkCommand t (walkSnappy (xformComp t))) s

/-- WK.DECOMP.LZ4 t (43_format_walker.md R254). -/
def execWkDecompLz4 (t : Fin 16) (s : State) : Host.Outcome State Fault Refusal :=
  runCommand (tableWalkCommand t (walkLz4 (xformDecomp t))) s

/-- WK.DECOMP.SNAPPY t (43_format_walker.md R255). -/
def execWkDecompSnappy (t : Fin 16) (s : State) : Host.Outcome State Fault Refusal :=
  runCommand (tableWalkCommand t (walkSnappy (xformDecomp t))) s

end Sys2Proof.Machine
end

