-- ==== Sys2Proof/Machine/Dispatch.lean ====
section
/-! DEFINITION. The meaning of every command (30_encoding.md R93), one arm per constructor: its execution and
completion in the state after its acceptance (60_exceptions.md R320 steps 3 and 4). -/

namespace Sys2Proof.Machine

def exec (i : Instr) (s : State) : Host.Outcome State Fault Refusal :=
  match i with
  | .nop => Sys2Proof.Machine.execNop s
  | .bsRbit => Sys2Proof.Machine.execBsRbit s
  | .bsRbyte => Sys2Proof.Machine.execBsRbyte s
  | .bsRbits n => Sys2Proof.Machine.execBsRbits n s
  | .bsWbit => Sys2Proof.Machine.execBsWbit s
  | .bsWbyte => Sys2Proof.Machine.execBsWbyte s
  | .bsWbits n => Sys2Proof.Machine.execBsWbits n s
  | .bsAlign => Sys2Proof.Machine.execBsAlign s
  | .bsClose => Sys2Proof.Machine.execBsClose s
  | .tblCreate t wide => Sys2Proof.Machine.execTblCreate t wide s
  | .tblIncr t => Sys2Proof.Machine.execTblIncr t s
  | .tblIncs t => Sys2Proof.Machine.execTblIncs t s
  | .tblFin t => Sys2Proof.Machine.execTblFin t s
  | .tblCode t => Sys2Proof.Machine.execTblCode t s
  | .tblDec t => Sys2Proof.Machine.execTblDec t s
  | .tblInfo t => Sys2Proof.Machine.execTblInfo t s
  | .tblWgt t => Sys2Proof.Machine.execTblWgt t s
  | .viEnc => Sys2Proof.Machine.execViEnc s
  | .viDec => Sys2Proof.Machine.execViDec s
  | .uvEnc => Sys2Proof.Machine.execUvEnc s
  | .uvDec => Sys2Proof.Machine.execUvDec s
  | .wkInspectLz4 => Sys2Proof.Machine.execWkInspectLz4 s
  | .wkInspectSnappy => Sys2Proof.Machine.execWkInspectSnappy s
  | .wkCompLz4 t => Sys2Proof.Machine.execWkCompLz4 t s
  | .wkCompSnappy t => Sys2Proof.Machine.execWkCompSnappy t s
  | .wkDecompLz4 t => Sys2Proof.Machine.execWkDecompLz4 t s
  | .wkDecompSnappy t => Sys2Proof.Machine.execWkDecompSnappy t s
  | .blkEnc t => Sys2Proof.Machine.execBlkEnc t s
  | .blkDec t => Sys2Proof.Machine.execBlkDec t s
  | .lzComp => Sys2Proof.Machine.execLzComp s
  | .lzDecomp => Sys2Proof.Machine.execLzDecomp s

end Sys2Proof.Machine
end

