-- ==== Sys2Proof/WellFormed.lean ====
section
/-! DEFINITION. Which commands have an encoding: the field ranges of 30_encoding.md R90 and R97. -/

namespace Sys2Proof

/-- A command is well-formed when its operands fit their fields. The slot number fits T by its type; the bit count
must fit the 6-bit field N, `count := DEC(0..63)` (30_encoding.md R90, R97). A count above 32 is well-formed: it
fails the operand check, not the decoding (R94). -/
def Instr.wellFormed : Instr → Bool
  | .bsRbits n => n < 64
  | .bsWbits n => n < 64
  | .nop | .bsRbit | .bsRbyte | .bsWbit | .bsWbyte | .bsAlign | .bsClose => true
  | .tblCreate _ _ | .tblIncr _ | .tblIncs _ | .tblFin _ | .tblCode _ | .tblDec _ | .tblInfo _ | .tblWgt _ => true
  | .viEnc | .viDec | .uvEnc | .uvDec => true
  | .wkInspectLz4 | .wkInspectSnappy | .wkCompLz4 _ | .wkCompSnappy _ | .wkDecompLz4 _ | .wkDecompSnappy _ => true
  | .blkEnc _ | .blkDec _ | .lzComp | .lzDecomp => true

/-- `Instr.wellFormed` as a proposition. -/
abbrev Instr.WellFormed (i : Instr) : Prop := i.wellFormed = true

end Sys2Proof
end

