-- ==== Sys2Proof/Decode.lean ====
section
/-! DEFINITION. The command decoder of 30_encoding.md R90 to R96 (a word selects the row it matches under the row's
mask; every other word is illegal, rejected by name), and the encoder written from the same table. -/

namespace Sys2Proof

namespace Decode

/-- The OP field, bits 7:0 (30_encoding.md R90). -/
def opField (c : Word) : Byte := c.extractLsb' 0 8

/-- The T field, bits 11:8, as a slot number (30_encoding.md R90, R91). -/
def slotField (c : Word) : Fin 16 := (c.extractLsb' 8 4).toFin

/-- The Z field, bit 13 (30_encoding.md R90). -/
def wideField (c : Word) : Bool := c.getLsbD 13

/-- The F field, bit 12 (30_encoding.md R90). -/
def formatField (c : Word) : Bool := c.getLsbD 12

/-- The N field, bits 21:16, zero-extended (30_encoding.md R90, R91). -/
def countField (c : Word) : Nat := (c.extractLsb' 16 6).toNat

/-- The reserved bits 15:14 and 31:22 (30_encoding.md R90). -/
def reservedMask : Word := 0xFFC0C000#32

end Decode

/-- One row of the opcode map: a word `c` selects it when `c &&& mask = pattern` (30_encoding.md R93). -/
structure Row where
  mask : Word
  pattern : Word
  build : Word → Instr

/-- The word selects the row (30_encoding.md R93). -/
def Row.selects (r : Row) (c : Word) : Bool := (c &&& r.mask) == r.pattern

/-- The opcode map, its 31 rows in the order of 30_encoding.md R93. -/
def opcodeRows : List Row :=
  [ ⟨0xFFFFFFFF#32, 0x00000000#32, fun _ => .nop⟩,
    ⟨0xFFFFFFFF#32, 0x00000010#32, fun _ => .bsRbit⟩,
    ⟨0xFFFFFFFF#32, 0x00000011#32, fun _ => .bsRbyte⟩,
    ⟨0xFFC0FFFF#32, 0x00000012#32, fun c => .bsRbits (Decode.countField c)⟩,
    ⟨0xFFFFFFFF#32, 0x00000014#32, fun _ => .bsWbit⟩,
    ⟨0xFFFFFFFF#32, 0x00000015#32, fun _ => .bsWbyte⟩,
    ⟨0xFFC0FFFF#32, 0x00000016#32, fun c => .bsWbits (Decode.countField c)⟩,
    ⟨0xFFFFFFFF#32, 0x00000018#32, fun _ => .bsAlign⟩,
    ⟨0xFFFFFFFF#32, 0x00000019#32, fun _ => .bsClose⟩,
    ⟨0xFFFFD0FF#32, 0x00000020#32, fun c => .tblCreate (Decode.slotField c) (Decode.wideField c)⟩,
    ⟨0xFFFFF0FF#32, 0x00000021#32, fun c => .tblIncr (Decode.slotField c)⟩,
    ⟨0xFFFFF0FF#32, 0x00000022#32, fun c => .tblIncs (Decode.slotField c)⟩,
    ⟨0xFFFFF0FF#32, 0x00000023#32, fun c => .tblFin (Decode.slotField c)⟩,
    ⟨0xFFFFF0FF#32, 0x00000024#32, fun c => .tblCode (Decode.slotField c)⟩,
    ⟨0xFFFFF0FF#32, 0x00000025#32, fun c => .tblDec (Decode.slotField c)⟩,
    ⟨0xFFFFF0FF#32, 0x00000026#32, fun c => .tblInfo (Decode.slotField c)⟩,
    ⟨0xFFFFF0FF#32, 0x00000027#32, fun c => .tblWgt (Decode.slotField c)⟩,
    ⟨0xFFFFFFFF#32, 0x00000030#32, fun _ => .viEnc⟩,
    ⟨0xFFFFFFFF#32, 0x00000031#32, fun _ => .viDec⟩,
    ⟨0xFFFFFFFF#32, 0x00000032#32, fun _ => .uvEnc⟩,
    ⟨0xFFFFFFFF#32, 0x00000033#32, fun _ => .uvDec⟩,
    ⟨0xFFFFFFFF#32, 0x00000040#32, fun _ => .wkInspectLz4⟩,
    ⟨0xFFFFFFFF#32, 0x00001040#32, fun _ => .wkInspectSnappy⟩,
    ⟨0xFFFFF0FF#32, 0x00000041#32, fun c => .wkCompLz4 (Decode.slotField c)⟩,
    ⟨0xFFFFF0FF#32, 0x00001041#32, fun c => .wkCompSnappy (Decode.slotField c)⟩,
    ⟨0xFFFFF0FF#32, 0x00000042#32, fun c => .wkDecompLz4 (Decode.slotField c)⟩,
    ⟨0xFFFFF0FF#32, 0x00001042#32, fun c => .wkDecompSnappy (Decode.slotField c)⟩,
    ⟨0xFFFFF0FF#32, 0x00000050#32, fun c => .blkEnc (Decode.slotField c)⟩,
    ⟨0xFFFFF0FF#32, 0x00000051#32, fun c => .blkDec (Decode.slotField c)⟩,
    ⟨0xFFFFFFFF#32, 0x00000060#32, fun _ => .lzComp⟩,
    ⟨0xFFFFFFFF#32, 0x00000061#32, fun _ => .lzDecomp⟩ ]

/-- Why a word is illegal, the four grounds of 60_exceptions.md R324. -/
inductive Illegal where
  /-- OP is not in the opcode map (30_encoding.md R94). -/
  | reservedOpcode
  /-- A reserved bit (15:14 or 31:22) is 1 (30_encoding.md R92). -/
  | reservedBit
  /-- The F bit is 1 on a command other than WK.* (30_encoding.md R92). -/
  | formatBit
  /-- A field that the command does not use is nonzero (30_encoding.md R92). -/
  | unusedField
deriving DecidableEq, Repr

/-- The ground on which a word that selects no row is illegal: the first of R324's list that applies. -/
def illegalGround (c : Word) : Illegal :=
  if opcodeRows.all (fun r => Decode.opField r.pattern != Decode.opField c) then .reservedOpcode
  else if c &&& Decode.reservedMask != 0#32 then .reservedBit
  else if Decode.formatField c && !(0x40#8 ≤ Decode.opField c && Decode.opField c ≤ 0x42#8) then .formatBit
  else .unusedField

/-- The command that a word stands for, or the ground on which it is illegal (30_encoding.md R93, R94;
60_exceptions.md R324). -/
def decode (c : Word) : Except Illegal Instr :=
  match opcodeRows.find? (fun r => r.selects c) with
  | some r => .ok (r.build c)
  | none => .error (illegalGround c)

/-- The word of a command whose only field is T (30_encoding.md R90). -/
def encodeSlot (pattern : Word) (t : Fin 16) : Word := pattern ||| (BitVec.ofNat 32 t.val <<< 8)

/-- The word of a command whose only field is N (30_encoding.md R90). -/
def encodeCount (pattern : Word) (n : Nat) : Word := pattern ||| (BitVec.ofNat 32 n <<< 16)

/-- The command word of a well-formed command (30_encoding.md R90, R93). -/
def encode : Instr → Word
  | .nop => 0x00000000#32
  | .bsRbit => 0x00000010#32
  | .bsRbyte => 0x00000011#32
  | .bsRbits n => encodeCount 0x00000012#32 n
  | .bsWbit => 0x00000014#32
  | .bsWbyte => 0x00000015#32
  | .bsWbits n => encodeCount 0x00000016#32 n
  | .bsAlign => 0x00000018#32
  | .bsClose => 0x00000019#32
  | .tblCreate t wide => encodeSlot 0x00000020#32 t ||| (BitVec.ofNat 32 wide.toNat <<< 13)
  | .tblIncr t => encodeSlot 0x00000021#32 t
  | .tblIncs t => encodeSlot 0x00000022#32 t
  | .tblFin t => encodeSlot 0x00000023#32 t
  | .tblCode t => encodeSlot 0x00000024#32 t
  | .tblDec t => encodeSlot 0x00000025#32 t
  | .tblInfo t => encodeSlot 0x00000026#32 t
  | .tblWgt t => encodeSlot 0x00000027#32 t
  | .viEnc => 0x00000030#32
  | .viDec => 0x00000031#32
  | .uvEnc => 0x00000032#32
  | .uvDec => 0x00000033#32
  | .wkInspectLz4 => 0x00000040#32
  | .wkInspectSnappy => 0x00001040#32
  | .wkCompLz4 t => encodeSlot 0x00000041#32 t
  | .wkCompSnappy t => encodeSlot 0x00001041#32 t
  | .wkDecompLz4 t => encodeSlot 0x00000042#32 t
  | .wkDecompSnappy t => encodeSlot 0x00001042#32 t
  | .blkEnc t => encodeSlot 0x00000050#32 t
  | .blkDec t => encodeSlot 0x00000051#32 t
  | .lzComp => 0x00000060#32
  | .lzDecomp => 0x00000061#32

/-- The command decoded from an instruction of `nbits` bits `w`, every bit above them 0. A command is one 32-bit
register write (30_encoding.md R96), so the word is the number itself. -/
def decodeTableWord (nbits w : Nat) : Option Instr := (decode (word (w % 2 ^ nbits))).toOption

end Sys2Proof
end

