-- ==== Sys2Proof/Machine/HostBus.lean ====
section
/-! DEFINITION. The host's side: the register window (10_state.md R22 to R36), the shared memory seen by the host
(20_memory.md R73, R74), and the reset input (70_reset_and_hazards.md R360, R361). -/

namespace Sys2Proof.Machine

/-! ### Register words on the bus -/

/-- A register word as bus bytes: byte offset +0 holds bits [7:0] (10_state.md R36). -/
def busBytes (v : Word) : List Byte :=
  [v.extractLsb' 0 8, v.extractLsb' 8 8, v.extractLsb' 16 8, v.extractLsb' 24 8]

/-- The register word of four bus bytes, lowest offset first; `none` of any other number (10_state.md R36). -/
def busWord : List Byte → Option Word
  | [b0, b1, b2, b3] => some (b3 ++ b2 ++ b1 ++ b0)
  | _ => none

/-- The access is an aligned 32-bit word inside the window of 0x100 bytes (10_state.md R22, R36). -/
def windowWord (offset size : Nat) : Bool :=
  size == 4 && offset % 4 == 0 && decide (offset + 4 ≤ 0x100)

/-! ### Register writes -/

/-- The registers that a write during a command does not reach: the write is ignored and sets LOST (10_state.md
R33). -/
def engineOwned (offset : Nat) : Bool :=
  [0x0C, 0x10, 0x14, 0x18, 0x2C, 0x30, 0x34, 0x38, 0x3C, 0x40].contains offset

/-- A host write of word `v` at an offset while no command runs (10_state.md R22 to R32, R35). A write to CMD is
accepted (R26); read-only and reserved offsets ignore it. -/
def State.writeIdle (s : State) (offset : Nat) (v : Word) : State :=
  match offset with
  | 0x04 => s.writeCtrl v
  | 0x08 => s.acknowledge v
  | 0x0C => s.accept v
  | 0x10 => { s with arg0 := v }
  | 0x14 => { s with arg1 := v }
  | 0x18 => { s with arg2 := v }
  | 0x2C => { s with srcAddr := v }
  | 0x30 => { s with srcLen := v }
  | 0x34 => { s with rpos := v }
  | 0x38 => { s with dstAddr := v }
  | 0x3C => { s with dstCap := v }
  | 0x40 => { s with wpos := v }
  | _ => s

/-- A host write of word `v` at an offset while a command runs: CTRL and STATUS take it, the engine-owned registers
ignore it and set LOST, the rest ignore it (10_state.md R24, R25, R33). -/
def State.writeBusy (s : State) (offset : Nat) (v : Word) : State :=
  if offset = 0x04 then s.writeCtrl v
  else if offset = 0x08 then s.acknowledge v
  else if engineOwned offset then s.setLost
  else s

/-- A host write of word `v` at an offset (10_state.md R26, R33). -/
def State.writeReg (s : State) (offset : Nat) (v : Word) : State :=
  if s.busy then s.writeBusy offset v else s.writeIdle offset v

/-! ### Register reads -/

/-- The value of the register at an offset; reserved offsets read 0 (10_state.md R22). -/
def State.regValue (s : State) (offset : Nat) : Word :=
  match offset with
  | 0x00 => Config.idValue
  | 0x04 => s.ctrl
  | 0x08 => s.status
  | 0x0C => s.cmd
  | 0x10 => s.arg0
  | 0x14 => s.arg1
  | 0x18 => s.arg2
  | 0x1C => s.res0
  | 0x20 => s.res1
  | 0x24 => s.res2
  | 0x28 => s.errInfo
  | 0x2C => s.srcAddr
  | 0x30 => s.srcLen
  | 0x34 => s.rpos
  | 0x38 => s.dstAddr
  | 0x3C => s.dstCap
  | 0x40 => s.wpos
  | _ => 0#32

/-- The registers whose value a read during a command does not return (10_state.md R34): RES0 to RES2, ERRINFO, RPOS,
WPOS. -/
def unstableWhileBusy (offset : Nat) : Bool :=
  [0x1C, 0x20, 0x24, 0x28, 0x34, 0x40].contains offset

/-- A host read at an offset: the register's value, or during a command any value for the registers of R34, drawn as a
free value (10_state.md R34; log 7). -/
def State.readReg (s : State) (offset : Nat) : State :=
  if s.busy && unstableWhileBusy offset then
    { s with hostData := busBytes (Config.busyRead s.freeCount), freeCount := s.freeCount + 1 }
  else { s with hostData := busBytes (s.regValue offset) }

/-- `CHECK` fails: the STATUS word read has a nonzero ERR (30_encoding.md R98). -/
def checkFails (status : Word) : Bool := status.extractLsb' 8 8 != 0#8

/-- `CHECK`: a read of STATUS; when it fails, so does the program, none of whose later actions happens (30_encoding.md R98;
95_test_vectors.md section 11.3). The program's actions are those up to the next reset input (DESIGN CHOICE; log 24). -/
def State.check (s : State) : State :=
  { s with
    hostData := busBytes s.status
    events := if checkFails s.status then s.events.dropWhile (· != .reset) else s.events }

/-! ### Host accesses to the shared memory -/

/-- The command in progress, if one runs and its word is legal (60_exceptions.md R320). -/
def State.running (s : State) : Option Instr := if s.busy then (decode s.cmd).toOption else none

/-- Address `a` is a byte of the running command's source or destination buffer, of those that the command reaches
(20_memory.md R62, R74; log 11). -/
def State.inUse (s : State) (a : Nat) : Bool :=
  match s.running with
  | some i => (readsSource i && inBuffer s.srcAddr s.srcLen a) || (writesDest i && inBuffer s.dstAddr s.dstCap a)
  | none => false

/-- One action of the host (10_state.md R36, 20_memory.md R73, R74, 30_encoding.md R98). -/
def hostAction (op : HostOp) (s : State) : Host.Outcome State Fault Refusal :=
  match op with
  | .regWrite offset data =>
    match busWord data with
    | some v => if windowWord offset data.length then .next (s.writeReg offset v) else .refused .registerAccess
    | none => .refused .registerAccess
  | .regRead offset size =>
    if windowWord offset size then .next (s.readReg offset) else .refused .registerAccess
  | .store a v =>
    if s.inUse a.toNat then .fault .hostRace else .next { s with mem := s.mem.write a.toNat v }
  | .load a =>
    if s.inUse a.toNat then .fault .hostRace else .next { s with hostData := [s.mem.read a.toNat] }
  | .check => .next s.check

/-! ### Reset -/

/-- The memory with free values at `n` addresses from `a`, those below 2^32 (70_reset_and_hazards.md R360; log 8). -/
def scramble : Nat → Nat → Nat → Memory → Memory
  | 0, _, _, m => m
  | n + 1, a, k, m =>
    scramble n (a + 1) (k + 1) (if a < 2 ^ 32 then m.write a (Config.abandonedByte k) else m)

/-- The number of destination bytes that an abandoned command leaves unspecified (70_reset_and_hazards.md R360). -/
def State.abandonedBytes (s : State) : Nat :=
  match s.running with
  | some i => if writesDest i then s.dstCap.toNat else 0
  | none => 0

/-- The reset input (70_reset_and_hazards.md R360, R361): a running command is abandoned and its destination bytes take
any values; the shared memory is not otherwise changed. -/
def State.resetInput (s : State) : State :=
  State.afterReset s.params (scramble s.abandonedBytes s.dstAddr.toNat s.freeCount s.mem) s.events s.hostData
    (s.freeCount + s.abandonedBytes)

end Sys2Proof.Machine
end

