-- ==== Sys2Proof/Machine/Engine.lean ====
section
/-! DEFINITION. The engine's turn (60_exceptions.md R320 steps 2 to 4), and the placing of a command word where the
engine takes its next command from. -/

namespace Sys2Proof.Machine

/-- The engine's turn: idle, it waits; busy, it decodes CMD and runs the command to its completion, or completes with
ERR_ILLEGAL_CMD (60_exceptions.md R320, R324). -/
def engineTurn (s : State) : Host.Outcome State Fault Refusal :=
  if s.busy then
    match decode s.cmd with
    | .ok i => exec i s
    | .error _ => .next (s.takeError (.illegalCmd s.cmd.toNat))
  else .next s

/-- One step: the next event of the list, or the engine's turn when none is left (00_scope.md R18; log 5). -/
def nextEvent (s : State) : Host.Outcome State Fault Refusal :=
  match s.events with
  | [] => engineTurn s
  | .engine :: rest => engineTurn { s with events := rest }
  | .host op :: rest => hostAction op { s with events := rest }
  | .reset :: rest => .next { s with events := rest }.resetInput

/-- The state with command word `c` accepted and the engine's turn next (60_exceptions.md R320 step 1; log 6). -/
def State.withCommand (s : State) (c : Word) : State := { s with events := [] }.accept c

end Sys2Proof.Machine
end

