-- ==== Sys2Proof/Machine/Step.lean ====
section
/-! DEFINITION. One step of the machine, and the state in which the very next step runs a given command word. -/

namespace Sys2Proof.Machine

/-- One step: one action of the host, one turn of the engine, or the reset input (00_scope.md R18, log 5). -/
def step (s : State) : Host.Outcome State Fault Refusal := nextEvent s

/-- The state with the command of `nbits` bits `w` in CMD, accepted, and the engine's turn next (log 6). -/
def State.withFetchWord (s : State) (nbits w : Nat) : State := s.withCommand (word (w % 2 ^ nbits))

end Sys2Proof.Machine
end

