-- ==== Sys2Proof/Machine/Assembly.lean ====
section
/-! DEFINITION. The host's programs: the assembly language of 30_encoding.md R97 and the pseudo-instructions of R98, as
lists of host actions. -/

namespace Sys2Proof.Machine

/-- An operand of a command line (30_encoding.md R97). -/
inductive Operand where
  | slot (t : Fin 16)
  | alpha (wide : Bool)
  | count (n : Nat)
deriving DecidableEq, Repr

/-- The slot names (30_encoding.md R97). -/
def slotNames : List (String × Fin 16) :=
  [ ("t0", 0), ("t1", 1), ("t2", 2), ("t3", 3), ("t4", 4), ("t5", 5), ("t6", 6), ("t7", 7), ("t8", 8), ("t9", 9),
    ("t10", 10), ("t11", 11), ("t12", 12), ("t13", 13), ("t14", 14), ("t15", 15), ("uni257", 0), ("text257", 1),
    ("cand0", 2), ("cand1", 3), ("cand2", 4), ("cand3", 5), ("vint", 6), ("meta", 7), ("user0", 8), ("user1", 9),
    ("user2", 10), ("user3", 11), ("user4", 12), ("user5", 13), ("user6", 14), ("user7", 15) ]

/-- The slot that a name stands for (30_encoding.md R97). -/
def slotNamed (name : String) : Option (Fin 16) := slotNames.lookup name

/-- The operand that a word of a line stands for: a slot, an alphabet, or a decimal count (30_encoding.md R97). -/
def operandNamed (w : String) : Option Operand :=
  if w = "a256" then some (.alpha false)
  else if w = "a257" then some (.alpha true)
  else match slotNamed w with
    | some t => some (.slot t)
    | none => w.toNat?.map .count

/-- The command of a mnemonic and its operands, slot first, then alphabet or count (30_encoding.md R93, R97). -/
def commandOf (mnemonic : String) (operands : List Operand) : Option Instr :=
  match operands with
  | [] =>
    [ ("NOP", Instr.nop), ("BS.RBIT", .bsRbit), ("BS.RBYTE", .bsRbyte), ("BS.WBIT", .bsWbit),
      ("BS.WBYTE", .bsWbyte), ("BS.ALIGN", .bsAlign), ("BS.CLOSE", .bsClose), ("VI.ENC", .viEnc),
      ("VI.DEC", .viDec), ("UV.ENC", .uvEnc), ("UV.DEC", .uvDec), ("WK.INSPECT.LZ4", .wkInspectLz4),
      ("WK.INSPECT.SNAPPY", .wkInspectSnappy), ("LZ.COMP", .lzComp), ("LZ.DECOMP", .lzDecomp) ].lookup mnemonic
  | [.count n] =>
    if n < 64 then [("BS.RBITS", Instr.bsRbits n), ("BS.WBITS", .bsWbits n)].lookup mnemonic else none
  | [.slot t, .alpha wide] => if mnemonic = "TBL.CREATE" then some (.tblCreate t wide) else none
  | [.slot t] =>
    [ ("TBL.INCR", Instr.tblIncr t), ("TBL.INCS", .tblIncs t), ("TBL.FIN", .tblFin t), ("TBL.CODE", .tblCode t),
      ("TBL.DEC", .tblDec t), ("TBL.INFO", .tblInfo t), ("TBL.WGT", .tblWgt t), ("WK.COMP.LZ4", .wkCompLz4 t),
      ("WK.COMP.SNAPPY", .wkCompSnappy t), ("WK.DECOMP.LZ4", .wkDecompLz4 t),
      ("WK.DECOMP.SNAPPY", .wkDecompSnappy t), ("BLK.ENC", .blkEnc t), ("BLK.DEC", .blkDec t) ].lookup mnemonic
  | _ => none

/-- The command of a line's words: mnemonic and operands (30_encoding.md R97). -/
def assemble (mnemonic : String) (operands : List String) : Option Instr :=
  match operands.mapM operandNamed with
  | some ops => commandOf mnemonic ops
  | none => none

/-- A line of a host program: a command, a host operation or a pseudo-instruction (30_encoding.md R97, R98); labels and
comments leave no line. -/
inductive Line where
  | command (i : Instr)
  | wr (offset : Nat) (v : Word)
  | rd (offset : Nat)
  | mem (addr : Word) (bytes : List Byte)
  | wait
  | setSrc (a l : Word)
  | setDst (a c : Word)
  | args (values : List Word)
  | checkOk
deriving DecidableEq, Repr

/-- A host write of a register word (30_encoding.md R97 `wr`). -/
def wrEvent (offset : Nat) (v : Word) : Event := .host (.regWrite offset (busBytes v))

/-- A host read of a register word (30_encoding.md R97 `rd`). -/
def rdEvent (offset : Nat) : Event := .host (.regRead offset 4)

/-- `wait`: the engine's turn, then the poll of STATUS that finds BUSY = 0 (30_encoding.md R98). -/
def waitEvents : List Event := [.engine, rdEvent 0x08]

/-- The host actions of a line (30_encoding.md R97, R98). The bytes of a `mem` line go to rising addresses; that they go on
at address 0 after 2^32 - 1 is the model's choice, since R97 is silent there (DESIGN CHOICE; log 23). -/
def Line.events : Line → List Event
  | .command i => wrEvent 0x0C (encode i) :: waitEvents
  | .wr offset v => [wrEvent offset v]
  | .rd offset => [rdEvent offset]
  | .mem addr bytes => bytes.zipIdx.map (fun (b, i) => .host (.store (addr + word i) b))
  | .wait => waitEvents
  | .setSrc a l => [wrEvent 0x2C a, wrEvent 0x30 l, wrEvent 0x34 0#32]
  | .setDst a c => [wrEvent 0x38 a, wrEvent 0x3C c, wrEvent 0x40 0#32]
  | .args values => (values.take 3).zipIdx.map (fun (v, i) => wrEvent (0x10 + 4 * i) v)
  | .checkOk => [.host .check]

/-- The host actions of a program, up to its end; a `CHECK` that fails ends it before (30_encoding.md R97, R98). -/
def programEvents (lines : List Line) : List Event := lines.flatMap Line.events

/-- The state with a host program about to run (log 6). -/
def State.withProgram (s : State) (lines : List Line) : State := { s with events := programEvents lines }

end Sys2Proof.Machine
end

