-- ==== Sys2Proof/Machine/BuilderRule.lean ====
section
/-! DEFINITION. RefLengths as 41_prefix_table.md R172 words it, one live set searched for its least node each time, and
the properties that R171 asks of a code table: what claims about the builder are stated with. -/

namespace Sys2Proof.Machine

/-- The node of least (weight, rank) among `x` and the others (41_prefix_table.md R172). -/
def leastNode (x : BuildNode) : List BuildNode → BuildNode
  | [] => x
  | y :: ys => leastNode (if nodeBefore y x then y else x) ys

/-- The live nodes without the node of the given rank; ranks are distinct (41_prefix_table.md R172). -/
def withoutRank (r : Nat) (live : List BuildNode) : List BuildNode := live.filter (fun x => x.rank != r)

/-- The loop of RefLengths over the live nodes (41_prefix_table.md R172). `fuel` bounds the rounds; `a` weights need
`a`. -/
def ruleMerge (a : Nat) : Nat → Nat → List BuildNode → CodeTree
  | 0, _, _ => .leaf 0
  | _, _, [] => .leaf 0
  | _, _, [x] => x.tree
  | fuel + 1, j, n :: rest =>
    let x := leastNode n rest
    match withoutRank x.rank (n :: rest) with
    | [] => x.tree
    | m :: rest =>
      let y := leastNode m rest
      ruleMerge a fuel (j + 1) (⟨x.weight + y.weight, a + j, .node x.tree y.tree⟩ :: withoutRank y.rank (m :: rest))

/-- The tree of R172's procedure. -/
def ruleTree (w : List Nat) : CodeTree := ruleMerge w.length w.length 0 (leafNodes w.length 0 w)

/-- len[s], the depth of leaf s in the tree of R172's procedure, for each symbol. -/
def ruleLengths (w : List Nat) : List Nat :=
  (List.range w.length).map (fun s => ((leafDepths (ruleTree w) 0).lookup s).getD 0)

/-- No code is empty and none is a prefix of another (41_prefix_table.md R171 item 1). -/
def PrefixFree (codes : List Bits) : Prop :=
  (∀ c ∈ codes, c ≠ []) ∧ codes.Pairwise (fun c d => ¬ c <+: d ∧ ¬ d <+: c)

/-- Every bit string is a prefix of a code or begins with one: the tree is full (41_prefix_table.md R171, R192). -/
def CompleteCode (codes : List Bits) : Prop := ∀ p : Bits, ∃ c ∈ codes, c <+: p ∨ p <+: c

/-- No prefix-free code table for the weights has a smaller Σ w[s]·|c[s]| (41_prefix_table.md R171 item 3). -/
def OptimalCode (w : List Nat) (codes : List Bits) : Prop :=
  ∀ codes' : List Bits, PrefixFree codes' → codes'.length = w.length → codeCost w codes ≤ codeCost w codes'

end Sys2Proof.Machine
end

