-- ==== Sys2Proof/Machine/Streams.lean ====
section
/-! DEFINITION. The stream formats of 30_encoding.md R103 to R118 as bit strings and byte sequences, apart from any
machine state: what the commands read and write, in the terms that claims use. -/

namespace Sys2Proof.Machine

/-- The zero bits that pad a stream of `n` bits to the next byte boundary (30_encoding.md R103). -/
def padding (n : Nat) : Bits := List.replicate ((8 - n % 8) % 8) false

/-- A stream padded to a byte boundary (30_encoding.md R103). -/
def padded (bs : Bits) : Bits := bs ++ padding bs.length

/-! ### Integers -/

/-- The bucket varint of value `v` in bucket `k`: selector, then raw field (30_encoding.md R104). -/
def vintFieldBits (vint : Slot) (k v : Nat) : Bits := vint.code k ++ natBits (vintWidth k) v

/-- The bucket varint of `v` (30_encoding.md R104). -/
def vintBits (vint : Slot) (v : Nat) : Bits := vintFieldBits vint (bucket v) v

/-- The index of the last byte of the standard uvarint of `v`: the least m with `v >> 7(m+1) = 0` (30_encoding.md
R105). -/
def uvLast (v : Nat) : Nat := Nat.log2 v / 7

/-- The standard uvarint of `v` (30_encoding.md R105). -/
def uvarint (v : Nat) : List Byte :=
  (List.range (uvLast v)).map (fun i => byte (0x80 + (v >>> (7 * i)) % 128)) ++
    [byte ((v >>> (7 * uvLast v)) % 128)]

/-- The value of a uvarint byte sequence: its 7-bit groups, least significant first (30_encoding.md R105). -/
def uvValue : List Byte → Nat
  | [] => 0
  | b :: bs => b.toNat % 128 + 128 * uvValue bs

/-- A byte sequence that `UVDecode()` reads as one value: every byte but the last has bit 7 set, at most ten bytes, and
a tenth byte is at most 1 (42_varint.md R216). -/
def uvWellFormed (bs : List Byte) : Bool :=
  match bs.reverse with
  | [] => false
  | last :: front =>
    decide (last.toNat < 128) && front.all (fun b => decide (128 ≤ b.toNat)) && decide (bs.length ≤ 10) &&
      (decide (bs.length < 10) || decide (last.toNat ≤ 1))

/-! ### Walks, byte by byte -/

/-- What a format machine expects next, of an LZ4-shaped stream (43_format_walker.md R235) or a Snappy-shaped one (R237,
R238). `m` is a token's match-length code, `left` counts the bytes of the item still to come. -/
inductive WalkPhase where
  | lz4Token
  | lz4Extension (n m : Nat)
  | lz4Literals (left m : Nat)
  | lz4Offset (left m : Nat)
  | lz4MatchExtension
  | snappyPreamble
  | snappyTag
  | snappyLength (left scale n : Nat)
  | snappyLiterals (left : Nat)
  | snappyCopy (left : Nat)
deriving DecidableEq, Repr

/-- The literal slots of an LZ4 sequence, then its two offset bytes (43_format_walker.md R235). -/
def lz4After (n m : Nat) : WalkPhase := if n = 0 then .lz4Offset 2 m else .lz4Literals n m

/-- The literal slots of a Snappy literal token, then the next tag (43_format_walker.md R238). -/
def snappyAfter (n : Nat) : WalkPhase := if n = 0 then .snappyTag else .snappyLiterals n

/-- What is expected after the byte `b` (43_format_walker.md R235, R237, R238). -/
def WalkPhase.next (bias : Nat) (b : Byte) : WalkPhase → WalkPhase
  | .lz4Token =>
    if b.toNat / 16 = 15 then .lz4Extension 15 (b.toNat % 16) else lz4After (b.toNat / 16) (b.toNat % 16)
  | .lz4Extension n m => if b.toNat < 255 then lz4After (n + b.toNat) m else .lz4Extension (n + 255) m
  | .lz4Literals left m => if left ≤ 1 then .lz4Offset 2 m else .lz4Literals (left - 1) m
  | .lz4Offset left m =>
    if 2 ≤ left then .lz4Offset (left - 1) m else if m = 15 then .lz4MatchExtension else .lz4Token
  | .lz4MatchExtension => if b.toNat < 255 then .lz4Token else .lz4MatchExtension
  | .snappyPreamble => if b.toNat < 128 then .snappyTag else .snappyPreamble
  | .snappyTag =>
    if b.toNat % 4 = 0 then
      if b.toNat / 4 < 60 then snappyAfter (b.toNat / 4 + bias) else .snappyLength (b.toNat / 4 - 59) 1 0
    else .snappyCopy (copyTokenBytes (b.toNat % 4))
  | .snappyLength left scale n =>
    if left ≤ 1 then snappyAfter (n + b.toNat * scale + bias)
    else .snappyLength (left - 1) (256 * scale) (n + b.toNat * scale)
  | .snappyLiterals left => if left ≤ 1 then .snappyTag else .snappyLiterals (left - 1)
  | .snappyCopy left => if left ≤ 1 then .snappyTag else .snappyCopy (left - 1)

/-- The literal slots still to come, 0 where a structural byte is expected (43_format_walker.md R230). -/
def WalkPhase.slots : WalkPhase → Nat
  | .lz4Literals left _ | .snappyLiterals left => left
  | .lz4Token | .lz4Extension _ _ | .lz4Offset _ _ | .lz4MatchExtension => 0
  | .snappyPreamble | .snappyTag | .snappyLength _ _ _ | .snappyCopy _ => 0

/-- The bytes of a stream, each with whether it fills a literal slot (43_format_walker.md R230). -/
def walkItems (bias : Nat) : WalkPhase → List Byte → List (Bool × Byte)
  | _, [] => []
  | p, b :: bs => (p.slots != 0, b) :: walkItems bias (p.next bias b) bs

/-- What is expected after a stream's bytes. -/
def walkEnd (bias : Nat) : WalkPhase → List Byte → WalkPhase
  | p, [] => p
  | p, b :: bs => walkEnd bias (p.next bias b) bs

/-- `requested` after a stream's bytes: each literal count, added when it is complete (43_format_walker.md R233). -/
def walkRequested (bias : Nat) : WalkPhase → List Byte → Nat
  | _, [] => 0
  | p, b :: bs => (if p.slots = 0 then (p.next bias b).slots else 0) + walkRequested bias (p.next bias b) bs

/-- `completed` after a stream's bytes: the literal slots filled (43_format_walker.md R233). -/
def walkCompleted (bias : Nat) (p : WalkPhase) (xs : List Byte) : Nat := (walkItems bias p xs).countP (·.1)

/-- What stands for each byte of a stream: its eight bits, or its code in a literal slot (43_format_walker.md R231,
R232). -/
def walkUnits (bias : Nat) (code : Byte → Bits) (p : WalkPhase) (xs : List Byte) : List Bits :=
  (walkItems bias p xs).map (fun (slot, b) => if slot then code b else natBits 8 b.toNat)

/-- A decompressing walk that expects `p` stops at the bits `rest`, the last of the source, having consumed some: a
structural byte needs eight; of a literal slot, no code comes, or the sentinel's (43_format_walker.md R232, R240). -/
def walkStop (sl : Slot) (p : WalkPhase) (rest : Bits) : Option Nat :=
  if p.slots = 0 then (if rest.length < 8 then some 0 else none)
  else if sl.codes.all (fun c => !c.isPrefixOf rest) then some rest.length
  else if sl.alpha = .a257 && (sl.code sentinel).isPrefixOf rest then some (sl.codeLen sentinel)
  else none

/-- How many units, from the first on, stand whole in the first `room` bits. -/
def unitsWithin : Nat → List Bits → Nat
  | _, [] => 0
  | room, u :: us => if u.length ≤ room then unitsWithin (room - u.length) us + 1 else 0

/-! ### LZ4-shaped streams -/

/-- The length-extension bytes of a length `n` (30_encoding.md R107): none below 15, else bytes 255 and a last byte
below 255 that sum to `n - 15`. -/
def lz4Extension (n : Nat) : List Byte :=
  if n < 15 then [] else List.replicate ((n - 15) / 255) 255#8 ++ [byte ((n - 15) % 255)]

/-- A 4-bit length code (30_encoding.md R106). -/
def lz4Nibble (n : Nat) : Nat := min n 15

/-- An LZ4 sequence: its literals, its two offset bytes and its match length value (30_encoding.md R108). -/
structure Lz4Seq where
  literals : List Byte
  offset0 : Byte
  offset1 : Byte
  matchLen : Nat
deriving DecidableEq, Repr

/-- The structural bytes before the literals: token and literal extension (30_encoding.md R106, R108). -/
def Lz4Seq.head (q : Lz4Seq) : List Byte :=
  byte (16 * lz4Nibble q.literals.length + lz4Nibble q.matchLen) :: lz4Extension q.literals.length

/-- The structural bytes after the literals: offset and match extension (30_encoding.md R108). -/
def Lz4Seq.tail (q : Lz4Seq) : List Byte := q.offset0 :: q.offset1 :: lz4Extension q.matchLen

/-- The sequence's bytes (30_encoding.md R108). -/
def Lz4Seq.bytes (q : Lz4Seq) : List Byte := q.head ++ q.literals ++ q.tail

/-- The codes of literal bytes under a table (30_encoding.md R113). -/
def literalCodes (sl : Slot) (xs : List Byte) : Bits := xs.flatMap (fun b => sl.code b.toNat)

/-- The sequence in a compressed stream: every literal replaced by its code (30_encoding.md R113). -/
def Lz4Seq.compressed (sl : Slot) (q : Lz4Seq) : Bits :=
  bytesBits q.head ++ literalCodes sl q.literals ++ bytesBits q.tail

/-- An LZ4-shaped stream of whole sequences, and the literal-only sequence that ends a block, which has no offset
(30_encoding.md R108, 43_format_walker.md R236 item 1). `lastMatch` is the value its match nibble encodes. -/
structure Lz4Stream where
  seqs : List Lz4Seq
  last : Option Lz4Seq
deriving DecidableEq, Repr

/-- The stream's bytes; of the last sequence the part before the offset. -/
def Lz4Stream.bytes (z : Lz4Stream) : List Byte :=
  z.seqs.flatMap Lz4Seq.bytes ++ z.last.toList.flatMap (fun q => q.head ++ q.literals)

/-- The compressed stream's bits, before padding (30_encoding.md R113). -/
def Lz4Stream.compressed (sl : Slot) (z : Lz4Stream) : Bits :=
  z.seqs.flatMap (Lz4Seq.compressed sl) ++
    z.last.toList.flatMap (fun q => bytesBits q.head ++ literalCodes sl q.literals)

/-- The number of literals of the stream. -/
def Lz4Stream.literalCount (z : Lz4Stream) : Nat :=
  ((z.seqs ++ z.last.toList).map (fun q => q.literals.length)).sum

/-! ### Snappy-shaped streams -/

/-- A Snappy token (30_encoding.md R110, R111): a literal whose length stands in the selector (`lengthBytes` 0) or in 1
to 4 length bytes, or a copy token of kind 1, 2 or 3 with its six uninterpreted tag bits and its bytes. -/
inductive SnappyToken where
  | literal (lengthBytes : Nat) (literals : List Byte)
  | copy (kind : Nat) (sel : Nat) (rest : List Byte)
deriving DecidableEq, Repr

/-- The `m` little-endian bytes of a value (30_encoding.md R111). -/
def leBytes : Nat → Nat → List Byte
  | 0, _ => []
  | m + 1, v => byte (v % 256) :: leBytes m (v / 256)

/-- The value that encodes a literal length under SNAPPY_BIAS (43_format_walker.md R239 item 1). -/
def snappyValue (bias : Nat) (xs : List Byte) : Nat := xs.length - bias

/-- The token can be written: its length fits its form, a copy token has its kind's number of bytes (30_encoding.md
R111). -/
def SnappyToken.ok (bias : Nat) : SnappyToken → Bool
  | .literal m xs =>
    decide (bias ≤ xs.length) && decide (m ≤ 4) &&
      decide (snappyValue bias xs < if m = 0 then 60 else 256 ^ m)
  | .copy kind sel rest =>
    decide (1 ≤ kind) && decide (kind ≤ 3) && decide (sel < 64) && decide (rest.length = copyTokenBytes kind)

/-- The token's structural bytes: tag and length bytes, or tag and copy bytes (30_encoding.md R110, R111). -/
def SnappyToken.head (bias : Nat) : SnappyToken → List Byte
  | .literal m xs =>
    if m = 0 then [byte (4 * snappyValue bias xs)]
    else byte (4 * (59 + m)) :: leBytes m (snappyValue bias xs)
  | .copy kind sel rest => byte (4 * sel + kind) :: rest

/-- The token's literals. -/
def SnappyToken.literals : SnappyToken → List Byte
  | .literal _ xs => xs
  | .copy _ _ _ => []

/-- A Snappy-shaped stream: the continued preamble bytes, the preamble's last byte, the tokens (30_encoding.md R109,
R112). -/
structure SnappyStream where
  preamble : List Byte
  preambleEnd : Byte
  tokens : List SnappyToken
deriving DecidableEq, Repr

/-- The stream can be written (30_encoding.md R109, R111). -/
def SnappyStream.ok (bias : Nat) (z : SnappyStream) : Bool :=
  z.preamble.all (fun b => decide (128 ≤ b.toNat)) && decide (z.preambleEnd.toNat < 128) &&
    z.tokens.all (SnappyToken.ok bias)

/-- The stream's bytes (30_encoding.md R112). -/
def SnappyStream.bytes (bias : Nat) (z : SnappyStream) : List Byte :=
  z.preamble ++ [z.preambleEnd] ++ z.tokens.flatMap (fun k => k.head bias ++ k.literals)

/-- The compressed stream's bits, before padding (30_encoding.md R113). -/
def SnappyStream.compressed (bias : Nat) (sl : Slot) (z : SnappyStream) : Bits :=
  bytesBits (z.preamble ++ [z.preambleEnd]) ++
    z.tokens.flatMap (fun k => bytesBits (k.head bias) ++ literalCodes sl k.literals)

/-- The number of literals of the stream. -/
def SnappyStream.literalCount (z : SnappyStream) : Nat := (z.tokens.map (fun k => k.literals.length)).sum

/-! ### Whole-block streams -/

/-- The whole-block stream of bytes under a table, before padding (30_encoding.md R114). -/
def blockBits (sl : Slot) (xs : List Byte) : Bits := literalCodes sl xs ++ sl.code sentinel

/-! ### LZ77 containers -/

/-- A token of the LZ77 stream other than the End token (30_encoding.md R116): a literal run with its candidate index,
or a substitution. -/
inductive LzToken where
  | literal (k : Nat) (run : List Byte)
  | substitution (offset length : Nat)
deriving DecidableEq, Repr

/-- The bits of a token under a slot file (30_encoding.md R116). -/
def LzToken.bits (s : State) : LzToken → Bits
  | .literal k run =>
    false :: (vintBits (s.slot vintSlot) run.length ++ (s.slot metaSlot).code k ++
      literalCodes (s.slot (candSlot k)) run)
  | .substitution off len =>
    true :: true :: (vintBits (s.slot vintSlot) off ++ vintBits (s.slot vintSlot) len)

/-- The token has a framing: a candidate index below 4, values below 2^31 (30_encoding.md R104, R116). -/
def LzToken.ok : LzToken → Bool
  | .literal k run => decide (k < 4) && decide (run.length < 2 ^ 31)
  | .substitution off len => decide (off < 2 ^ 31) && decide (len < 2 ^ 31)

/-- The End token (30_encoding.md R116). -/
def endBits : Bits := [true, false]

/-- The bits of an LZ77 container, before padding (30_encoding.md R115). -/
def containerBits (s : State) (hint : List Byte) (ts : List LzToken) : Bits :=
  bytesBits hint ++ ts.flatMap (LzToken.bits s) ++ endBits

/-- A bucket varint as the reader reads it: the selector bit by bit, the raw field all or nothing (42_varint.md R212). -/
def vintFields (vint : Slot) (v : Nat) : List (Bool × Bits) :=
  [(false, vint.code (bucket v)), (true, natBits (vintWidth (bucket v)) v)]

/-- A token as the reader reads it, each field with whether it is read all or nothing (45_lz77.md R301). -/
def LzToken.fields (s : State) : LzToken → List (Bool × Bits)
  | .literal k run =>
    (false, [false]) :: vintFields (s.slot vintSlot) run.length ++ [(false, (s.slot metaSlot).code k)] ++
      run.map (fun b => (false, (s.slot (candSlot k)).code b.toNat))
  | .substitution off len =>
    (false, [true]) :: (false, [true]) :: vintFields (s.slot vintSlot) off ++ vintFields (s.slot vintSlot) len

/-- A container as the reader reads it, and as the writer writes it, field by field (30_encoding.md R115, R116). -/
def containerFields (s : State) (hint : List Byte) (ts : List LzToken) : List (Bool × Bits) :=
  hint.map (fun b => (true, natBits 8 b.toNat)) ++ ts.flatMap (LzToken.fields s) ++ [(false, [true]), (false, [false])]

/-- Where the cursor stands when the fields are cut after `n` bits: a field read all or nothing is not begun, the bits of
any other are consumed (40_bitstream.md R142, 41_prefix_table.md R193). -/
def cutCursor : Nat → List (Bool × Bits) → Nat
  | _, [] => 0
  | n, (whole, u) :: us =>
    if u.length ≤ n then u.length + cutCursor (n - u.length) us else if whole then 0 else n

/-- For each byte that a token gives, the cursor when it is written; the token begins at `r` (45_lz77.md R301, R302). -/
def LzToken.cursors (s : State) (r : Nat) : LzToken → List Nat
  | .literal k run =>
    let sl := s.slot (candSlot k)
    let h := r + ((LzToken.literal k run).bits s).length - (literalCodes sl run).length
    (List.range run.length).map (fun j => h + (literalCodes sl (run.take (j + 1))).length)
  | .substitution off len => List.replicate len (r + ((LzToken.substitution off len).bits s).length)

/-- For each byte of the output, the cursor when it is written; the tokens begin at `r`. -/
def outputCursors (s : State) : Nat → List LzToken → List Nat
  | _, [] => []
  | r, k :: ks => k.cursors s r ++ outputCursors s (r + (k.bits s).length) ks

/-- `len` bytes copied from offset `off` of the output to its end, one at a time (45_lz77.md R302). -/
def copyOut : Nat → Nat → List Byte → List Byte
  | 0, _, out => out
  | len + 1, off, out => copyOut len (off + 1) (out ++ [out.getD off 0#8])

/-- The output that tokens reconstruct from an output so far, `none` where an offset is not below its length
(45_lz77.md R301, R302). -/
def reconstruct : List LzToken → List Byte → Option (List Byte)
  | [], out => some out
  | .literal _ run :: ts, out => reconstruct ts (out ++ run)
  | .substitution off len :: ts, out => if off < out.length then reconstruct ts (copyOut len off out) else none

/-! ### The tokens of LZ.COMP -/

/-- The candidate index of a literal run: the least total of the bytes' code lengths and the selector's, the lowest
index on a tie (45_lz77.md R295). -/
def bestCandidate (s : State) (run : List Byte) : Nat :=
  let total := fun k => (run.map (fun b => (s.slot (candSlot k)).codeLen b.toNat)).sum + (s.slot metaSlot).codeLen k
  [1, 2, 3].foldl (fun best k => if total k < total best then k else best) 0

/-- The literal token of the run `xs[a .. b-1]` (45_lz77.md R293). -/
def literalToken (s : State) (xs : List Byte) (a b : Nat) : LzToken :=
  .literal (bestCandidate s ((xs.drop a).take (b - a))) ((xs.drop a).take (b - a))

/-- The length of the longest common beginning of two byte sequences (45_lz77.md R289). -/
def commonPrefix : List Byte → List Byte → Nat
  | x :: xs, y :: ys => if x = y then commonPrefix xs ys + 1 else 0
  | _, _ => 0

/-- The offset of the match at `last`: of the recorded offsets, latest first, the first where the four bytes at `last`
stand; none when fewer than four bytes are left (45_lz77.md R287, R288, R291). -/
def matchAt (xs : List Byte) (recorded : List Nat) (last : Nat) : Option Nat :=
  if last + 4 ≤ xs.length then recorded.find? (fun p => (xs.drop p).take 4 == (xs.drop last).take 4) else none

/-- The tokens of the scan from `begin = first` and `end = last` on, with the offsets recorded so far, latest first
(45_lz77.md R288, R292). `fuel` of the bytes left suffices. -/
def scanFrom (s : State) (xs : List Byte) : Nat → Nat → Nat → List Nat → List LzToken
  | 0, first, _, _ => if first < xs.length then [literalToken s xs first xs.length] else []
  | fuel + 1, first, last, recorded =>
    if last < xs.length then
      let seen := if 4 ≤ last then (last - 4) :: recorded else recorded
      match matchAt xs seen last with
      | some i =>
        let cp := commonPrefix (xs.drop i) (xs.drop last)
        literalToken s xs first last :: .substitution i cp :: scanFrom s xs fuel (last + cp) (last + cp) seen
      | none => scanFrom s xs fuel first (last + 1) seen
    else if first < xs.length then [literalToken s xs first xs.length] else []

/-- The tokens that LZ.COMP writes for a source, before the End token (45_lz77.md R288). -/
def scanTokens (s : State) (xs : List Byte) : List LzToken := scanFrom s xs xs.length 0 0 []

/-- The token is a substitution. -/
def LzToken.isSubstitution : LzToken → Bool
  | .literal _ _ => false
  | .substitution _ _ => true

end Sys2Proof.Machine
end

