-- ==== Sys2Proof/Safety.lean ====
section
/-! DEFINITION. What claims speak of: stream bits in memory, when a command can read and write, the outcome of a
command, and the invariants of a state. -/

namespace Sys2Proof.Machine

/-! ### Streams in memory -/

/-- The stream bit at position `p` of the buffer at `base` (30_encoding.md R100). -/
def streamBit (m : Memory) (base p : Nat) : Bool := byteBit (m.read (base + p / 8)) p

/-- The `n` stream bits from position `p` of the buffer at `base` (30_encoding.md R100). -/
def streamBits (m : Memory) (base p n : Nat) : Bits := (List.range n).map (fun i => streamBit m base (p + i))

/-- The memory after bits are written from position `p` of the buffer at `base` on, one read-modify-write of a byte for
each (20_memory.md R72). -/
def storeBits (base : Nat) : Nat → Bits → Memory → Memory
  | _, [], m => m
  | p, b :: bs, m => storeBits base (p + 1) bs (m.write (base + p / 8) (setByteBit (m.read (base + p / 8)) p b))

/-- MemOK holds of every byte that holds one of the `n` stream bits from position `p` of the buffer at `base`
(20_memory.md R64, R65). -/
def spanOk (params : Params) (base p n : Nat) : Bool := (List.range n).all (fun i => memOk params (base + (p + i) / 8))

/-- The source bytes S[0 .. SRC_LEN-1]. -/
def State.source (s : State) : List Byte := s.mem.slice s.srcAddr.toNat s.srcLen.toNat

/-- The bits left to read, from RPOS to the end of the source (40_bitstream.md R140). -/
def State.sourceRest (s : State) : Bits := streamBits s.mem s.srcAddr.toNat s.rpos.toNat s.avail

/-- The whole source as stream bits. -/
def State.sourceStream (s : State) : Bits := streamBits s.mem s.srcAddr.toNat 0 (8 * s.srcLen.toNat)

/-- `n` bits can be read at RPOS: the source is well-formed, the bits are left, their bytes may be accessed
(40_bitstream.md R142, 60_exceptions.md R325, 20_memory.md R64). -/
def State.canRead (s : State) (n : Nat) : Bool :=
  s.sourceOk && decide (n ≤ s.avail) && spanOk s.params s.srcAddr.toNat s.rpos.toNat n

/-- `n` bits can be written at WPOS: the destination is well-formed, the bits fit, their bytes may be accessed
(40_bitstream.md R145, 60_exceptions.md R325, 20_memory.md R65). -/
def State.canWrite (s : State) (n : Nat) : Bool :=
  s.destOk && decide (s.wpos.toNat + n ≤ 8 * s.dstCap.toNat) && spanOk s.params s.dstAddr.toNat s.wpos.toNat n

/-- The padding to the next byte boundary can be written; at a boundary there is none, wherever WPOS stands
(40_bitstream.md R147). -/
def State.canAlign (s : State) : Bool :=
  s.destOk && (s.wpos.toNat % 8 == 0 || s.canWrite (padding s.wpos.toNat).length)

/-- A high-level command's buffers pass its checks, the source may be accessed, and `out` bits fit the destination from
its start and may be accessed (60_exceptions.md R325, 20_memory.md R64, R65). -/
def State.ready (s : State) (out : Nat) : Bool :=
  s.sourceOk && s.destOk && s.disjoint && spanOk s.params s.srcAddr.toNat 0 (8 * s.srcLen.toNat) &&
    decide (out ≤ 8 * s.dstCap.toNat) && spanOk s.params s.dstAddr.toNat 0 out

/-- A high-level command's buffers pass its checks (60_exceptions.md R325 codes 5 to 7). -/
def State.buffersOk (s : State) : Bool := s.sourceOk && s.destOk && s.disjoint

/-- Every source byte may be accessed (20_memory.md R64). -/
def State.sourceOpen (s : State) : Bool := spanOk s.params s.srcAddr.toNat 0 (8 * s.srcLen.toNat)

/-- Source byte `f` is the first that may not be accessed (20_memory.md R64). -/
def State.sourceShut (s : State) (f : Nat) : Bool :=
  decide (f < s.srcLen.toNat) && spanOk s.params s.srcAddr.toNat 0 (8 * f) && !memOk s.params (s.srcAddr.toNat + f)

/-- Where writing units, each all or nothing, from position `pos` on stops: the number of the unit, the WPOS reached and
the error; `n` units came before. ERR_OUTPUT_FULL where a unit does not fit, ERR_BUS at its first bit whose byte may not be
accessed, the bits before it written (40_bitstream.md R144, R145, 20_memory.md R65). -/
def writeStopFrom (params : Params) (base cap : Nat) : Nat → Nat → List Bits → Option (Nat × Nat × Raised)
  | _, _, [] => none
  | n, pos, u :: us =>
    if 8 * cap < pos + u.length then some (n, pos, .outputFull pos)
    else match (List.range u.length).find? (fun i => !memOk params (base + (pos + i) / 8)) with
      | some i => some (n, pos + i, .bus (base + (pos + i) / 8))
      | none => writeStopFrom params base cap (n + 1) (pos + u.length) us

/-- Where writing units from the start of the destination stops, if it does. -/
def State.writeStop (s : State) (units : List Bits) : Option (Nat × Nat × Raised) :=
  writeStopFrom s.params s.dstAddr.toNat s.dstCap.toNat 0 0 units

/-- Where writing units at WPOS stops, if it does. -/
def State.writeStopAt (s : State) (units : List Bits) : Option (Nat × Nat × Raised) :=
  writeStopFrom s.params s.dstAddr.toNat s.dstCap.toNat 0 s.wpos.toNat units

/-- Bit `q` from RPOS on is left to read and is the first whose byte may not be accessed (40_bitstream.md R141,
20_memory.md R64). -/
def State.readStopsAt (s : State) (q : Nat) : Bool :=
  decide (q < s.avail) && spanOk s.params s.srcAddr.toNat s.rpos.toNat q &&
    !memOk s.params (s.srcAddr.toNat + (s.rpos.toNat + q) / 8)

/-- No code of the table ends in the source's bits from `p` up to `q`, `q` not before `p` (41_prefix_table.md R192). -/
def State.noCodeWithin (s : State) (sl : Slot) (p q : Nat) : Bool :=
  decide (p ≤ q) && sl.codes.all (fun c => !c.isPrefixOf ((s.sourceStream.drop p).take (q - p)))

/-- The state with bits written at WPOS and WPOS past them: nothing else changes. -/
def State.emit (s : State) (bs : Bits) : State :=
  { s with mem := storeBits s.dstAddr.toNat s.wpos.toNat bs s.mem, wpos := word (s.wpos.toNat + bs.length) }

/-- The state with RPOS moved `n` bits on: nothing else changes. -/
def State.skip (s : State) (n : Nat) : State := { s with rpos := word (s.rpos.toNat + n) }

/-- The state in which a high-level command has read up to bit `r` and written `bs` from the start of the destination,
and reports `n` bytes in RES0: nothing else changes. -/
def State.produced (s : State) (r : Nat) (bs : Bits) (n : Nat) : State :=
  { s with
    rpos := word r
    mem := storeBits s.dstAddr.toNat 0 bs s.mem
    wpos := word bs.length
    res0 := word n }

/-- LZ.COMP when its first `q` bits are written and no more: RES1 and RES2 count the tokens that stand whole in them
(45_lz77.md R298, 60_exceptions.md R329). -/
def State.lzCompAt (s : State) (q : Nat) : State :=
  let hint := uvarint s.srcLen.toNat
  let ts := scanTokens s s.source
  let done := ts.take (unitsWithin (q - 8 * hint.length) (ts.map (LzToken.bits s)))
  { s.produced 0 ((containerBits s hint ts).take q) ((q + 7) / 8) with
    res1 := word (done.countP LzToken.isSubstitution)
    res2 := word (done.countP (fun k => !k.isSubstitution)) }

/-- The command ends with success: its own effect `t`, then completion with ERR = 0 (60_exceptions.md R320 step 4), which
leaves the engine-internal state idle (log 9). -/
def succeeds (i : Instr) (s t : State) : Prop := exec i s = .next (t.complete 0#8)

/-- The command ends with the error `e`, its effects up to then being `t` (60_exceptions.md R322); completion leaves the
engine-internal state idle (log 9). -/
def failsWith (i : Instr) (s : State) (e : Raised) (t : State) : Prop := exec i s = .next (t.takeError e)

/-! ### Families of commands -/

/-- WK.*, BLK.* and LZ.*, the high-level commands (60_exceptions.md R320 step 3). -/
def highLevel : Instr → Bool
  | .wkInspectLz4 | .wkInspectSnappy | .wkCompLz4 _ | .wkCompSnappy _ | .wkDecompLz4 _ | .wkDecompSnappy _ => true
  | .blkEnc _ | .blkDec _ | .lzComp | .lzDecomp => true
  | .nop | .bsRbit | .bsRbyte | .bsRbits _ | .bsWbit | .bsWbyte | .bsWbits _ | .bsAlign | .bsClose => false
  | .tblCreate _ _ | .tblIncr _ | .tblIncs _ | .tblFin _ | .tblCode _ | .tblDec _ | .tblInfo _ | .tblWgt _ => false
  | .viEnc | .viDec | .uvEnc | .uvDec => false

/-- WK.*, the walker commands (43_format_walker.md R241). -/
def walker : Instr → Bool
  | .wkInspectLz4 | .wkInspectSnappy | .wkCompLz4 _ | .wkCompSnappy _ | .wkDecompLz4 _ | .wkDecompSnappy _ => true
  | .blkEnc _ | .blkDec _ | .lzComp | .lzDecomp => false
  | .nop | .bsRbit | .bsRbyte | .bsRbits _ | .bsWbit | .bsWbyte | .bsWbits _ | .bsAlign | .bsClose => false
  | .tblCreate _ _ | .tblIncr _ | .tblIncs _ | .tblFin _ | .tblCode _ | .tblDec _ | .tblInfo _ | .tblWgt _ => false
  | .viEnc | .viDec | .uvEnc | .uvDec => false

/-- The count N of a command, 0 where it has none (30_encoding.md R90). -/
def countOperand : Instr → Nat
  | .bsRbits n | .bsWbits n => n
  | .nop | .bsRbit | .bsRbyte | .bsWbit | .bsWbyte | .bsAlign | .bsClose => 0
  | .tblCreate _ _ | .tblIncr _ | .tblIncs _ | .tblFin _ | .tblCode _ | .tblDec _ | .tblInfo _ | .tblWgt _ => 0
  | .viEnc | .viDec | .uvEnc | .uvDec => 0
  | .wkInspectLz4 | .wkInspectSnappy | .wkCompLz4 _ | .wkCompSnappy _ | .wkDecompLz4 _ | .wkDecompSnappy _ => 0
  | .blkEnc _ | .blkDec _ | .lzComp | .lzDecomp => 0

/-- The table whose codes a command uses, with whether its alphabet suits the command (41_prefix_table.md R184,
60_exceptions.md R325 code 8). -/
def codeTable : Instr → Option (Fin 16 × (Alphabet → Bool))
  | .tblCode t | .tblDec t => some (t, fun _ => true)
  | .wkCompLz4 t | .wkCompSnappy t | .wkDecompLz4 t | .wkDecompSnappy t => some (t, fun a => decide (256 ≤ a.size))
  | .blkEnc t | .blkDec t => some (t, fun a => decide (a.size = 257))
  | .nop | .bsRbit | .bsRbyte | .bsRbits _ | .bsWbit | .bsWbyte | .bsWbits _ | .bsAlign | .bsClose => none
  | .tblCreate _ _ | .tblIncr _ | .tblIncs _ | .tblFin _ | .tblInfo _ | .tblWgt _ => none
  | .viEnc | .viDec | .uvEnc | .uvDec => none
  | .wkInspectLz4 | .wkInspectSnappy | .lzComp | .lzDecomp => none

/-- The table that a command uses, if any, is FINAL and its alphabet suits the command (60_exceptions.md R325). -/
def tableReady (i : Instr) (s : State) : Bool :=
  match codeTable i with
  | some (k, suits) => (s.slot k).final && suits (s.slot k).alpha
  | none => true

/-- The walks whose source is the plain stream, WK.INSPECT and WK.COMP: what is expected first, and what is written for a
literal (43_format_walker.md R232, R250 to R253). -/
def plainWalk (s : State) : Instr → Option (WalkPhase × (Byte → Bits))
  | .wkInspectLz4 => some (.lz4Token, fun b => natBits 8 b.toNat)
  | .wkInspectSnappy => some (.snappyPreamble, fun b => natBits 8 b.toNat)
  | .wkCompLz4 t => some (.lz4Token, fun b => (s.slot t).code b.toNat)
  | .wkCompSnappy t => some (.snappyPreamble, fun b => (s.slot t).code b.toNat)
  | .wkDecompLz4 _ | .wkDecompSnappy _ | .blkEnc _ | .blkDec _ | .lzComp | .lzDecomp => none
  | .nop | .bsRbit | .bsRbyte | .bsRbits _ | .bsWbit | .bsWbyte | .bsWbits _ | .bsAlign | .bsClose => none
  | .tblCreate _ _ | .tblIncr _ | .tblIncs _ | .tblFin _ | .tblCode _ | .tblDec _ | .tblInfo _ | .tblWgt _ => none
  | .viEnc | .viDec | .uvEnc | .uvDec => none

/-- The walks whose source is a compressed stream, WK.DECOMP: what is expected first, and the table
(43_format_walker.md R232, R254, R255). -/
def codedWalk : Instr → Option (WalkPhase × Fin 16)
  | .wkDecompLz4 t => some (.lz4Token, t)
  | .wkDecompSnappy t => some (.snappyPreamble, t)
  | .wkInspectLz4 | .wkInspectSnappy | .wkCompLz4 _ | .wkCompSnappy _ | .blkEnc _ | .blkDec _ | .lzComp | .lzDecomp => none
  | .nop | .bsRbit | .bsRbyte | .bsRbits _ | .bsWbit | .bsWbyte | .bsWbits _ | .bsAlign | .bsClose => none
  | .tblCreate _ _ | .tblIncr _ | .tblIncs _ | .tblFin _ | .tblCode _ | .tblDec _ | .tblInfo _ | .tblWgt _ => none
  | .viEnc | .viDec | .uvEnc | .uvDec => none

/-- The slot that a command may change (20_memory.md R75). -/
def slotChanged : Instr → Option (Fin 16)
  | .tblCreate t _ | .tblIncr t | .tblIncs t | .tblFin t => some t
  | .tblCode _ | .tblDec _ | .tblInfo _ | .tblWgt _ => none
  | .nop | .bsRbit | .bsRbyte | .bsRbits _ | .bsWbit | .bsWbyte | .bsWbits _ | .bsAlign | .bsClose => none
  | .viEnc | .viDec | .uvEnc | .uvDec => none
  | .wkInspectLz4 | .wkInspectSnappy | .wkCompLz4 _ | .wkCompSnappy _ | .wkDecompLz4 _ | .wkDecompSnappy _ => none
  | .blkEnc _ | .blkDec _ | .lzComp | .lzDecomp => none

/-- The result registers that a command writes, RES0, RES1 and RES2 in that order (30_encoding.md R93, column "result
registers"). -/
def resultRegisters : Instr → Bool × Bool × Bool
  | .nop | .bsWbit | .bsWbyte | .bsWbits _ | .bsAlign => (false, false, false)
  | .bsRbit | .bsRbyte | .bsRbits _ | .bsClose => (true, false, false)
  | .tblCreate _ _ | .tblIncr _ | .tblIncs _ | .tblFin _ => (false, false, false)
  | .tblCode _ | .tblInfo _ => (true, true, true)
  | .tblDec _ => (true, false, true)
  | .tblWgt _ => (true, false, false)
  | .viEnc => (true, false, true)
  | .viDec | .uvDec => (true, true, true)
  | .uvEnc => (false, false, true)
  | .wkInspectLz4 | .wkInspectSnappy | .wkCompLz4 _ | .wkCompSnappy _ | .wkDecompLz4 _ | .wkDecompSnappy _ =>
    (true, true, true)
  | .blkEnc _ | .blkDec _ | .lzDecomp => (true, false, false)
  | .lzComp => (true, true, true)

/-- The error codes that a command can end with (60_exceptions.md R321, column "raised by"). -/
def errorCodes : Instr → List Byte
  | .nop | .tblInfo _ => []
  | .bsRbit | .bsRbyte | .bsRbits _ | .viDec => [1, 6, 9]
  | .bsWbit | .bsWbyte | .bsWbits _ | .bsAlign | .bsClose | .uvEnc => [6, 8, 9]
  | .tblCreate _ _ => [7]
  | .tblIncr _ => [3, 6, 7]
  | .tblIncs _ => [3, 6, 7, 9]
  | .tblFin _ => [3, 7]
  | .tblCode _ => [4, 6]
  | .tblDec _ => [1, 4, 6, 9]
  | .tblWgt _ => [6, 7]
  | .viEnc => [3, 6, 8, 9]
  | .uvDec => [1, 3, 6, 9]
  | .wkInspectLz4 | .wkInspectSnappy => [6, 8, 9]
  | .wkCompLz4 _ | .wkCompSnappy _ | .wkDecompLz4 _ | .wkDecompSnappy _ | .blkEnc _ | .blkDec _ => [4, 6, 8, 9]
  | .lzComp => [6, 8, 9]
  | .lzDecomp => [2, 6, 8, 9]

/-- A byte address that a command may read: in S where it reads S, in D where it writes D (20_memory.md R62). -/
def reaches (i : Instr) (s : State) (a : Nat) : Bool :=
  (readsSource i && inBuffer s.srcAddr s.srcLen a) || (writesDest i && inBuffer s.dstAddr s.dstCap a)

/-! ### Command words -/

/-- The opcodes of the opcode map (30_encoding.md R93). -/
def legalOpcodes : List Byte :=
  [0x00, 0x10, 0x11, 0x12, 0x14, 0x15, 0x16, 0x18, 0x19, 0x20, 0x21, 0x22, 0x23, 0x24, 0x25, 0x26, 0x27,
   0x30, 0x31, 0x32, 0x33, 0x40, 0x41, 0x42, 0x50, 0x51, 0x60, 0x61]

/-- The opcodes whose commands use the T field (30_encoding.md R93, column "fields"). -/
def slotOpcodes : List Byte :=
  [0x20, 0x21, 0x22, 0x23, 0x24, 0x25, 0x26, 0x27, 0x41, 0x42, 0x50, 0x51]

/-- The opcodes whose commands use the F field (30_encoding.md R92). -/
def formatOpcodes : List Byte := [0x40, 0x41, 0x42]

/-- The opcodes whose commands use the N field (30_encoding.md R93, column "fields"). -/
def countOpcodes : List Byte := [0x12, 0x16]

/-- The grounds on which a command word is illegal (60_exceptions.md R324): a reserved opcode, a reserved bit, a nonzero
field that the command does not use, the F bit on a command other than WK.*. -/
def illegalWord (c : Word) : Prop :=
  Decode.opField c ∉ legalOpcodes ∨ c &&& Decode.reservedMask ≠ 0#32 ∨
    (Decode.slotField c ≠ 0 ∧ Decode.opField c ∉ slotOpcodes) ∨
    (Decode.wideField c = true ∧ Decode.opField c ≠ 0x20#8) ∨
    (Decode.countField c ≠ 0 ∧ Decode.opField c ∉ countOpcodes) ∨
    (Decode.formatField c = true ∧ Decode.opField c ∉ formatOpcodes)

/-! ### Registers -/

/-- The register map: offset and value of each register (10_state.md R22). -/
def registerMap (s : State) : List (Nat × Word) :=
  [ (0x00, 0x48504307#32), (0x04, s.ctrl), (0x08, s.status), (0x0C, s.cmd), (0x10, s.arg0), (0x14, s.arg1),
    (0x18, s.arg2), (0x1C, s.res0), (0x20, s.res1), (0x24, s.res2), (0x28, s.errInfo), (0x2C, s.srcAddr),
    (0x30, s.srcLen), (0x34, s.rpos), (0x38, s.dstAddr), (0x3C, s.dstCap), (0x40, s.wpos) ]

/-- The offsets of CMD, ARG0 to ARG2, SRC_ADDR, SRC_LEN, RPOS, DST_ADDR, DST_CAP and WPOS (10_state.md R33). -/
def ownedOffsets : List Nat := [0x0C, 0x10, 0x14, 0x18, 0x2C, 0x30, 0x34, 0x38, 0x3C, 0x40]

/-- The offsets of RES0 to RES2, ERRINFO, RPOS and WPOS (10_state.md R34). -/
def movingOffsets : List Nat := [0x1C, 0x20, 0x24, 0x28, 0x34, 0x40]

/-- The offsets of ID, RES0 to RES2 and ERRINFO (10_state.md R22). -/
def readOnlyOffsets : List Nat := [0x00, 0x1C, 0x20, 0x24, 0x28]

/-! ### Invariants -/

/-- The parameters are as 00_scope.md R9 asks: one weight for each symbol of the presets, every weight at least 1
(10_state.md R44 item 2), and no code of a preset is longer than MAXCODE (R44 item 3). -/
def Params.wf (p : Params) : Bool :=
  p.vintWeights.length == 8 && p.metaWeights.length == 4 && p.hamLow.length == 256 && p.hamHigh.length == 256 &&
    (p.vintWeights ++ p.metaWeights ++ p.hamLow ++ p.hamHigh ++ textWeights p 256 ++ textWeights p 257).all (· != 0#32) &&
    (List.range 8).all (fun i =>
      decide (maxCodeLen (build p.builder ((presetWeights p i).map BitVec.toNat)) ≤ Config.maxCode))

/-- A user slot is EMPTY, BUILDING or FINAL, with as many weights as symbols, every weight at least 1, and, exactly when
it is FINAL, the codes BUILD returns for its weights, none longer than MAXCODE (10_state.md R43, R44). That an EMPTY slot stores no
weights, and a slot that is not FINAL no codes, is the model's choice (log 10). -/
def userSlotOk (p : Params) (sl : Slot) : Bool :=
  !sl.preset && sl.weights.length == sl.alpha.size && sl.weights.all (· != 0#32) &&
    [Alphabet.empty, .a256, .a257].contains sl.alpha &&
    (if sl.final then
      sl.alpha != .empty && sl.codes == build p.builder (sl.weights.map BitVec.toNat) &&
        decide (maxCodeLen sl.codes ≤ Config.maxCode)
    else sl.codes == [])

/-- The slot file is as 10_state.md R41 to R44 say: slots 0 to 7 hold their presets, slots 8 to 15 are user slots. -/
def slotsOk (s : State) : Prop :=
  ∀ t : Fin 16, if t.val < 8 then s.slot t = (resetSlots s.params)[t] else userSlotOk s.params (s.slot t) = true

/-- What holds of every state that the machine reaches. -/
structure State.Inv (s : State) : Prop where
  /-- The reserved bits of STATUS read 0 (10_state.md R25). -/
  statusReserved : s.status &&& 0xFFFF00F8#32 = 0#32
  /-- The reserved bits of CTRL read 0 (10_state.md R24). -/
  ctrlReserved : s.ctrl &&& 0xFFFFFFFE#32 = 0#32
  /-- While a command runs, DONE, ERR and ERRINFO are 0 (60_exceptions.md R320 step 1). -/
  busyFlags : s.busy = true → s.done = false ∧ s.err = 0#8 ∧ s.errInfo = 0#32
  /-- Error codes 10 to 255 are never produced (60_exceptions.md R321). -/
  errRange : s.err ≤ 9#8
  /-- ERRINFO is 0 unless an error stands in ERR (60_exceptions.md R321, code 0). -/
  okInfo : s.err = 0#8 → s.errInfo = 0#32
  /-- The engine-internal state does not survive a command (10_state.md R45; log 9). -/
  engineIdle : s.eng = Engine.idle
  /-- The memory is in canonical form (log 3). -/
  memory : Memory.wf s.mem = true
  /-- The slot invariants (10_state.md R44, the spec's own inference). -/
  slotFile : slotsOk s
  /-- The parameters are well-formed. -/
  parameters : Params.wf s.params = true

/-- VINT, META and the candidates have prefix-free codes, one for each symbol (41_prefix_table.md R171, 10_state.md
R41). -/
def selectorsOk (s : State) : Prop :=
  (PrefixFree (s.slot vintSlot).codes ∧ (s.slot vintSlot).codes.length = 8) ∧
  (PrefixFree (s.slot metaSlot).codes ∧ (s.slot metaSlot).codes.length = 4) ∧
  ∀ k, k < 4 → PrefixFree (s.slot (candSlot k)).codes ∧ (s.slot (candSlot k)).codes.length = 256

end Sys2Proof.Machine
end

