-- ==== Sys2Proof/Certificates/Slice0/Obligations.lean ====
section
/-! DEFINITION. The statements about the model, for the provers. -/

open Sys2Proof Sys2Proof.Machine

/-! ### Command words -/

/-- Decoding the word of a well-formed command gives that command back (30_encoding.md R90, R91, R93). -/
def Obligations.DecodeOfEncode : Prop :=
  ∀ i : Instr, i.WellFormed → decode (encode i) = .ok i

/-- Every word that decodes is the word of the command it decodes to: no legal command has two words (30_encoding.md R90,
R92, R93). -/
def Obligations.EncodeOfDecode : Prop :=
  ∀ (c : Word) (i : Instr), decode c = .ok i → i.WellFormed ∧ encode i = c

/-- No word matches two rows of the opcode map (30_encoding.md R93). -/
def Obligations.RowsDisjoint : Prop :=
  opcodeRows.Pairwise (fun r r' => ∀ c : Word, ¬ (r.selects c = true ∧ r'.selects c = true))

/-- The words that 30_encoding.md R97 and R119 write out decode to the commands they stand for. -/
def Obligations.SampleWords : Prop :=
  decode 0x00000000#32 = .ok .nop ∧ decode 0x00000823#32 = .ok (.tblFin 8) ∧
  decode 0x00002820#32 = .ok (.tblCreate 8 true) ∧ decode 0x000C0012#32 = .ok (.bsRbits 12) ∧
  decode 0x00000142#32 = .ok (.wkDecompLz4 1) ∧ decode 0x00050016#32 = .ok (.bsWbits 5) ∧
  decode 0x00001141#32 = .ok (.wkCompSnappy 1)

/-- A word is illegal exactly on the grounds of 60_exceptions.md R324, and then the engine's turn changes nothing but
what completion with ERR_ILLEGAL_CMD(c) changes; that the engine-internal state is then the idle one is the model's choice
(log 9). -/
def Obligations.IllegalWords : Prop :=
  ∀ c : Word, ((∀ r ∈ opcodeRows, r.selects c = false) ↔ illegalWord c) ∧
    ∀ s : State, s.events = [] → s.busy = true → s.cmd = c → illegalWord c →
      step s = .next { s with errInfo := c, status := statusWord false true s.lost 5#8, eng := Engine.idle }

/-! ### The life of a command -/

/-- When CMD holds the word of a command and a command runs, the engine's turn is that command: as the step of a state
with no event left, and as the event `engine`, which leaves the list. While no command runs, the engine's turn keeps
every piece of state (60_exceptions.md R320 steps 2 to 4, R341; log 5). -/
def Obligations.StepRunsDecoded : Prop :=
  ∀ s : State,
    (∀ i, s.busy = true → decode s.cmd = .ok i →
      (s.events = [] → step s = exec i s) ∧
      ∀ rest, s.events = .engine :: rest → step s = exec i { s with events := rest }) ∧
    (s.busy = false →
      (s.events = [] → step s = .next s) ∧
      ∀ rest, s.events = .engine :: rest → step s = .next { s with events := rest })

/-- A host write of a command's word to CMD while no command runs is accepted, and the engine's next turn runs that
command (10_state.md R26, 60_exceptions.md R320 steps 1 to 3). -/
def Obligations.AcceptStartsCommand : Prop :=
  ∀ (s : State) (c : Word) (i : Instr) (rest : List Event), s.busy = false → decode c = .ok i →
    s.events = .host (.regWrite 0x0C (busBytes c)) :: .engine :: rest →
    ∃ t, step s = .next t ∧
      t = { s with events := .engine :: rest, cmd := c, status := statusWord true false s.lost 0#8, errInfo := 0#32 } ∧
      step t = exec i { t with events := rest }

/-- Every command completes, from every state: a next state with BUSY = 0, DONE = 1, LOST as it was, the
engine-internal state gone (60_exceptions.md R320 step 4; R342 is the spec's own inference; the idle engine-internal state
is log 9's). -/
def Obligations.EveryCommandCompletes : Prop :=
  ∀ (i : Instr) (s : State), ∃ t, exec i s = .next t ∧ t.busy = false ∧ t.done = true ∧ t.lost = s.lost ∧
    t.eng = Engine.idle ∧ (t.err = 0#8 → t.errInfo = s.errInfo)

/-- A command ends with success or with one of the error codes that 60_exceptions.md R321 lists for it; so no code above
9, no ERR_TRUNCATED from a high-level command (R326), no ERR_OVERFLOW from LZ.COMP (R328). -/
def Obligations.ErrorCodesRaised : Prop :=
  ∀ (i : Instr) (s t : State), exec i s = .next t → t.err = 0#8 ∨ t.err ∈ errorCodes i

/-- What a command leaves alone: the registers the engine never writes, the parameters and the host's own fields; the
result registers that its rule does not name; RPOS unless it reads through the bit reader or sets both cursors; WPOS
unless it writes the destination (10_state.md R22, R27, R28, 30_encoding.md R93, 70_reset_and_hazards.md R369). -/
def Obligations.RegisterFrame : Prop :=
  ∀ (i : Instr) (s t : State), exec i s = .next t →
    t.ctrl = s.ctrl ∧ t.cmd = s.cmd ∧ t.arg0 = s.arg0 ∧ t.arg1 = s.arg1 ∧ t.arg2 = s.arg2 ∧
    t.srcAddr = s.srcAddr ∧ t.srcLen = s.srcLen ∧ t.dstAddr = s.dstAddr ∧ t.dstCap = s.dstCap ∧
    t.params = s.params ∧ t.events = s.events ∧ t.hostData = s.hostData ∧ t.freeCount = s.freeCount ∧
    ((resultRegisters i).1 = false → t.res0 = s.res0) ∧ ((resultRegisters i).2.1 = false → t.res1 = s.res1) ∧
    ((resultRegisters i).2.2 = false → t.res2 = s.res2) ∧
    (readsSource i = false ∨ (∃ k, i = .tblIncs k) → t.rpos = s.rpos) ∧ (writesDest i = false → t.wpos = s.wpos)

/-- The result registers after an error: unchanged for the primitives and after a failed check; RES0 = ceil(WPOS / 8)
after a runtime error of a high-level command, RES1 and RES2 unchanged for BLK.* and LZ.DECOMP, the walk's counters at the
error for WK.*, the token counts at the error for LZ.COMP (60_exceptions.md R329, 43_format_walker.md R233, R242,
45_lz77.md R298). What was walked or written whole at the error is read off WPOS: of a walk whose source is the plain
stream, the bytes whose bits stand whole in the output; of WK.DECOMP, the bytes of the output; of LZ.COMP, where VINT, META
and the candidates hold codes, the tokens whose bits do. -/
def Obligations.ResultsOnError : Prop :=
  ∀ (i : Instr) (s t : State), exec i s = .next t → t.err ≠ 0#8 →
    (highLevel i = false ∨ t.err ∈ [4#8, 6#8, 7#8] → t.res0 = s.res0 ∧ t.res1 = s.res1 ∧ t.res2 = s.res2) ∧
    (highLevel i = true → t.err ∉ [4#8, 6#8, 7#8] →
      let w := t.wpos.toNat
      let bias := s.params.snappyBias
      t.res0 = word ((w + 7) / 8) ∧
      (walker i = false → i ≠ .lzComp → t.res1 = s.res1 ∧ t.res2 = s.res2) ∧
      (∀ p code, plainWalk s i = some (p, code) → (∀ b, code b ≠ []) →
        let xs := s.source.take (unitsWithin w (walkUnits bias code p s.source))
        t.res1 = word (walkRequested bias p xs) ∧ t.res2 = word (walkCompleted bias p xs)) ∧
      (∀ p k, codedWalk i = some (p, k) → Memory.wf s.mem = true →
        let xs := t.mem.slice s.dstAddr.toNat (w / 8)
        t.res1 = word (walkRequested bias p xs) ∧ t.res2 = word (walkCompleted bias p xs)) ∧
      (i = .lzComp → selectorsOk s → t.res1 = (s.lzCompAt w).res1 ∧ t.res2 = (s.lzCompAt w).res2))

/-- A command changes no byte of memory outside its destination buffer, and none at all when it writes no destination
(20_memory.md R62, R63). -/
def Obligations.MemoryFrame : Prop :=
  ∀ (i : Instr) (s t : State), exec i s = .next t →
    ∀ a, (writesDest i && inBuffer s.dstAddr s.dstCap a) = false → t.mem.read a = s.mem.read a

/-- No command touches a byte outside its buffers: bytes elsewhere are unchanged, and two canonical memories that agree on the
command's buffers give the same outcome in every other field and the same bytes in the buffers (20_memory.md R62; R63 is
the spec's own inference). -/
def Obligations.OnlyItsBuffers : Prop :=
  ∀ (i : Instr) (s t : State) (m : Memory), Memory.wf s.mem = true → Memory.wf m = true →
    (∀ a, reaches i s a = true → m.read a = s.mem.read a) → exec i s = .next t →
    ∃ m', exec i { s with mem := m } = .next { t with mem := m' } ∧
      ∀ a, (reaches i s a = true → m'.read a = t.mem.read a) ∧ (reaches i s a = false → m'.read a = m.read a)

/-- Only TBL.CREATE, TBL.INCR, TBL.INCS and TBL.FIN change a slot, and only the slot they name; an error changes none
(20_memory.md R75, 60_exceptions.md R322). -/
def Obligations.SlotFrame : Prop :=
  ∀ (i : Instr) (s t : State), exec i s = .next t →
    (∀ k, slotChanged i ≠ some k → t.slot k = s.slot k) ∧ (t.err ≠ 0#8 → t.slots = s.slots)

/-! ### The host's side -/

/-- Host writes while a command runs: to an engine-owned register they are lost and set LOST; to CTRL and STATUS they take
effect; to read-only and reserved offsets they are ignored at all times (10_state.md R33). -/
def Obligations.BusyWritesLost : Prop :=
  ∀ (s : State) (offset : Nat) (v : Word) (rest : List Event),
    s.events = .host (.regWrite offset (busBytes v)) :: rest → windowWord offset 4 = true →
    (s.busy = true → offset ∈ ownedOffsets →
      step s = .next { s with events := rest, status := statusWord true s.done true s.err }) ∧
    (s.busy = true → offset = 0x04 → step s = .next { s with events := rest, ctrl := v &&& 1#32 }) ∧
    (s.busy = true → offset = 0x08 →
      step s = .next { s with
        events := rest, status := statusWord true (s.done && !v.getLsbD 1) (s.lost && !v.getLsbD 2) s.err }) ∧
    (offset ∈ readOnlyOffsets ∨ 0x44 ≤ offset → step s = .next { s with events := rest })

/-- Host writes while no command runs: each writable register takes the word, and nothing else changes (10_state.md R22,
R24, R25, R26, R27, R30, R32). -/
def Obligations.IdleWrites : Prop :=
  ∀ (s : State) (v : Word) (rest : List Event), s.busy = false →
    let after := fun offset => step { s with events := .host (.regWrite offset (busBytes v)) :: rest }
    let t := { s with events := rest }
    after 0x04 = .next { t with ctrl := v &&& 1#32 } ∧
    after 0x08 = .next { t with
      status := statusWord false (s.done && !v.getLsbD 1) (s.lost && !v.getLsbD 2) s.err } ∧
    after 0x0C = .next { t with cmd := v, status := statusWord true false s.lost 0#8, errInfo := 0#32 } ∧
    after 0x10 = .next { t with arg0 := v } ∧ after 0x14 = .next { t with arg1 := v } ∧
    after 0x18 = .next { t with arg2 := v } ∧ after 0x2C = .next { t with srcAddr := v } ∧
    after 0x30 = .next { t with srcLen := v } ∧ after 0x34 = .next { t with rpos := v } ∧
    after 0x38 = .next { t with dstAddr := v } ∧ after 0x3C = .next { t with dstCap := v } ∧
    after 0x40 = .next { t with wpos := v }

/-- Host reads: while no command runs every register reads its value and a reserved offset 0; while one runs RES0 to
RES2, ERRINFO, RPOS and WPOS read some word, the others their values (10_state.md R22, R34). That the word read is drawn
with `freeCount` is the model's choice (log 7), and so is the field `hostData` that takes it (log 19). -/
def Obligations.RegisterReads : Prop :=
  ∀ (s : State) (offset : Nat) (rest : List Event), s.events = .host (.regRead offset 4) :: rest →
    (∀ v, (offset, v) ∈ registerMap s → s.busy = false ∨ offset ∉ movingOffsets →
      step s = .next { s with events := rest, hostData := busBytes v }) ∧
    (0x44 ≤ offset → windowWord offset 4 = true →
      step s = .next { s with events := rest, hostData := busBytes 0#32 }) ∧
    (s.busy = true → offset ∈ movingOffsets →
      ∃ v, step s = .next { s with events := rest, hostData := busBytes v, freeCount := s.freeCount + 1 })

/-- A register access that is not an aligned 32-bit word inside the window is refused; a register's word is little-endian
on the bus (10_state.md R36). -/
def Obligations.AccessRefused : Prop :=
  ∀ (s : State) (offset size : Nat) (data : List Byte) (rest : List Event),
    (s.events = .host (.regRead offset size) :: rest → windowWord offset size = false →
      step s = .refused .registerAccess) ∧
    (s.events = .host (.regWrite offset data) :: rest → windowWord offset data.length = false →
      step s = .refused .registerAccess) ∧
    (windowWord offset size = true ↔ size = 4 ∧ offset % 4 = 0 ∧ offset < 0x100) ∧
    ∀ (v : Word) (n : Nat), n < 4 → (busBytes v)[n]? = some (v.extractLsb' (8 * n) 8)

/-- A host access to memory faults as HOST_RACE exactly when a command runs and the byte lies in a buffer that it
reaches; otherwise the host reads or writes that byte and nothing else changes (20_memory.md R62, R74). Which buffers
count is the model's reading (log 11); that any other access takes effect, also outside MemOK, is its choice (log 18), and
so is the field `hostData` (log 19). -/
def Obligations.HostRace : Prop :=
  ∀ (s : State) (a : Word) (v : Byte) (rest : List Event),
    let race := s.busy = true ∧ ∃ i, decode s.cmd = .ok i ∧ reaches i s a.toNat = true
    (s.events = .host (.store a v) :: rest →
      (race → step s = .fault .hostRace) ∧
      (¬ race → step s = .next { s with events := rest, mem := s.mem.write a.toNat v })) ∧
    (s.events = .host (.load a) :: rest →
      (race → step s = .fault .hostRace) ∧
      (¬ race → step s = .next { s with events := rest, hostData := [s.mem.read a.toNat] }))

/-- The reset input: every register 0, the slots at their reset content, memory unchanged but for the destination buffer
of an abandoned command (70_reset_and_hazards.md R360, R361). The model's choices, which R361 leaves unspecified: that the
engine-internal state is then the idle one (log 9), and that slots 8 to 15 store no weights and no codes (log 10). Its
choices too: that only a command that writes its destination leaves bytes open (log 8), and that the host's data stay
(log 19). -/
def Obligations.ResetInput : Prop :=
  ∀ (s : State) (rest : List Event), s.events = .reset :: rest →
    ∃ m n, step s = .next (State.afterReset s.params m rest s.hostData n) ∧
      (s.busy = false → m = s.mem) ∧
      ∀ a, (s.busy = true ∧ (∃ i, decode s.cmd = .ok i ∧ writesDest i = true) ∧
        inBuffer s.dstAddr s.dstCap a = true) ∨ m.read a = s.mem.read a

/-- What reset leaves, as 70_reset_and_hazards.md R361 lists it: all registers 0, IRQ low, slots 0 to 7 final presets of
the sizes of 10_state.md R41, slots 8 to 15 EMPTY. The presets hold the weights that the spec lists (41_prefix_table.md R185
to R187, 42_varint.md R210, 45_lz77.md R296), and their codes are the reference builder's (R188): those that R185, R187, R210
and R296 write out among them. That the parameters have R9's defaults at reset is the model's choice (log 1). -/
def Obligations.ResetState : Prop :=
  let weights := fun k : Nat => (State.reset.slot (Fin.ofNat 16 k)).weights.map BitVec.toNat
  let codes := fun k : Nat => (State.reset.slot (Fin.ofNat 16 k)).codes
  let ones := fun b : Nat => (List.range 8).countP (fun i => b.testBit i)
  let text := fun x : Nat =>
    if 0x61 ≤ x ∧ x ≤ 0x7A then 51
    else if 0x41 ≤ x ∧ x ≤ 0x5A then 9
    else if 0x30 ≤ x ∧ x ≤ 0x39 then 41
    else if x ∈ [0x20, 0x0A, 0x2C, 0x2E] then 78
    else if x ∈ [0x09, 0x0D, 0x21, 0x22, 0x27, 0x28, 0x29, 0x2D, 0x3A, 0x3B, 0x3F] then 29
    else 1
  ((registerMap State.reset).tail.all (fun r => r.2 == 0#32) = true ∧ State.reset.irq = false ∧
    (List.range 16).map (fun k => ((State.reset.slot (Fin.ofNat 16 k)).alpha.size,
        (State.reset.slot (Fin.ofNat 16 k)).final, (State.reset.slot (Fin.ofNat 16 k)).preset)) =
      [(257, true, true), (257, true, true), (256, true, true), (256, true, true), (256, true, true),
       (256, true, true), (8, true, true), (4, true, true)] ++ List.replicate 8 (0, false, false)) ∧
  (weights 0 = List.replicate 257 1 ∧ weights 1 = (List.range 257).map text ∧ weights 2 = (List.range 256).map text ∧
    weights 3 = (List.range 256).map (fun b => 9 - ones b) ∧ weights 4 = (List.range 256).map (fun b => 1 + ones b) ∧
    weights 5 = List.replicate 256 1 ∧ weights 6 = [8, 7, 6, 5, 4, 3, 2, 1] ∧ weights 7 = [4, 3, 2, 1]) ∧
  (∀ k, k < 8 → codes k = referenceBuild (weights k)) ∧
  codes 0 = (List.range 255).map (natBits 8) ++ [natBits 9 510, natBits 9 511] ∧
  codes 5 = (List.range 256).map (natBits 8) ∧
  codes 6 = [natBits 2 0, natBits 2 1, natBits 3 4, natBits 3 5, natBits 3 6, natBits 4 14, natBits 5 30, natBits 5 31] ∧
  codes 7 = [natBits 1 0, natBits 2 2, natBits 3 6, natBits 3 7]

/-- The interrupt line: IE and DONE; so it rises when a command completes with IE set, rises at once when IE is set while
DONE = 1, falls when a command is accepted or DONE is cleared, and LOST does not move it (60_exceptions.md R330). -/
def Obligations.Interrupt : Prop :=
  (∀ (i : Instr) (s t : State), exec i s = .next t → t.irq = s.ie) ∧
  ∀ (s : State) (v : Word), s.irq = (s.ctrl.getLsbD 0 && s.status.getLsbD 1) ∧ (s.writeCtrl v).irq = (v.getLsbD 0 && s.done) ∧
    (s.acknowledge v).irq = (s.irq && !v.getLsbD 1) ∧ (s.accept v).irq = false ∧ s.setLost.irq = s.irq

/-! ### Invariants -/

/-- Every step keeps the invariants: the reserved bits, the flags of a running command, the range of the error codes,
the canonical memory, the slot invariants, and so the presets (10_state.md R24, R25, R42, R43, R45; R44 is the spec's own
inference). The idle engine-internal state (log 9), the canonical form (log 3), and that a slot that is not FINAL stores no
codes and an EMPTY one no weights (log 10) are the model's choices. -/
def Obligations.StepKeepsInvariants : Prop :=
  ∀ s t : State, s.Inv → step s = .next t → t.Inv

/-- The state after reset meets the invariants (70_reset_and_hazards.md R361; R44 is the spec's own inference). Its default
parameters (logs 1 and 2), the memory with nothing listed (log 3), the idle engine-internal state (log 9) and the empty
lists of the EMPTY slots (log 10) are the model's choices. -/
def Obligations.ResetMeetsInvariants : Prop := State.reset.Inv

/-! ### Errors -/

/-- The operand checks come first, in the order of 60_exceptions.md R323, with the codes of R325, and change nothing but
the completion's own fields. -/
def Obligations.BufferChecks : Prop :=
  ∀ (i : Instr) (s : State),
    (32 < countOperand i → failsWith i s (.badOperand 1) s) ∧
    (countOperand i ≤ 32 → readsSource i = true → s.sourceOk = false → failsWith i s (.badOperand 5) s) ∧
    (countOperand i ≤ 32 → (readsSource i = true → s.sourceOk = true) → writesDest i = true → s.destOk = false →
      failsWith i s (.badOperand 6) s) ∧
    (highLevel i = true → s.sourceOk = true → s.destOk = true → s.disjoint = false →
      failsWith i s (.badOperand 7) s)

/-- A command that uses a table's codes, its buffers being right, ends with ERR_UNBUILT when the table is not final, and
with ERR_BAD_OPERAND(8) when the alphabet does not suit it (41_prefix_table.md R184, 60_exceptions.md R323, R325). -/
def Obligations.TableChecks : Prop :=
  ∀ (i : Instr) (k : Fin 16) (suits : Alphabet → Bool) (s : State), codeTable i = some (k, suits) →
    (readsSource i = true → s.sourceOk = true) → (writesDest i = true → s.destOk = true ∧ s.disjoint = true) →
    ((s.slot k).final = false → failsWith i s (.unbuilt k.val) s) ∧
    ((s.slot k).final = true → suits (s.slot k).alpha = false → failsWith i s (.badOperand 8) s)

/-- The bit reads end with ERR_TRUNCATED and consume nothing when too few bits are left, and with ERR_BUS at the first
bit whose byte may not be accessed, the bits before it consumed (40_bitstream.md R141, R142, R151, R152, R153,
20_memory.md R64). -/
def Obligations.BitReadErrors : Prop :=
  ∀ (s : State) (i : Instr) (n : Nat),
    (i = .bsRbit ∧ n = 1) ∨ (i = .bsRbyte ∧ n = 8) ∨ (i = .bsRbits n ∧ n ≤ 32) → s.sourceOk = true →
    (s.avail < n → failsWith i s (.truncated s.rpos.toNat) s) ∧
    ∀ q, q < n → n ≤ s.avail → spanOk s.params s.srcAddr.toNat s.rpos.toNat q = true →
      memOk s.params (s.srcAddr.toNat + (s.rpos.toNat + q) / 8) = false →
      failsWith i s (.bus (s.srcAddr.toNat + (s.rpos.toNat + q) / 8)) (s.skip q)

/-- The bit writes end with ERR_OUTPUT_FULL and write nothing when the bits do not fit, and with ERR_BUS at the first bit
whose byte may not be accessed, the bits before it written (40_bitstream.md R144, R145, R154, R155, R156, 20_memory.md
R65). -/
def Obligations.BitWriteErrors : Prop :=
  ∀ (s : State) (i : Instr) (n : Nat),
    (i = .bsWbit ∧ n = 1) ∨ (i = .bsWbyte ∧ n = 8) ∨ (i = .bsWbits n ∧ n ≤ 32) → s.destOk = true →
    (8 * s.dstCap.toNat < s.wpos.toNat + n → failsWith i s (.outputFull s.wpos.toNat) s) ∧
    ∀ q, q < n → s.wpos.toNat + n ≤ 8 * s.dstCap.toNat →
      spanOk s.params s.dstAddr.toNat s.wpos.toNat q = true →
      memOk s.params (s.dstAddr.toNat + (s.wpos.toNat + q) / 8) = false →
      failsWith i s (.bus (s.dstAddr.toNat + (s.wpos.toNat + q) / 8))
        (s.emit ((natBits n s.arg0.toNat).take q))

/-! ### Results: NOP and the bit stream -/

/-- NOP, whose only word is 0, changes nothing but what completion changes, and with IE set the interrupt rises
(60_exceptions.md R335). That the engine-internal state is then the idle one is the model's choice (log 9). -/
def Obligations.NopCompletes : Prop :=
  (∀ c : Word, decode c = .ok .nop ↔ c = 0#32) ∧
  ∀ s : State, ∃ t, exec .nop s = .next t ∧
    t = { s with status := statusWord false true s.lost 0#8, eng := Engine.idle } ∧ t.irq = s.ie

/-- The bit reads: the next bits of the source, first bit most significant, in RES0, RPOS past them (40_bitstream.md R141,
R142, R143, R151, R152, R153). -/
def Obligations.BitReads : Prop :=
  ∀ s : State,
    (s.canRead 1 = true → succeeds .bsRbit s { s.skip 1 with res0 := word (bitsVal (s.sourceRest.take 1)) }) ∧
    (s.canRead 8 = true → succeeds .bsRbyte s { s.skip 8 with res0 := word (bitsVal (s.sourceRest.take 8)) }) ∧
    ∀ n, n ≤ 32 → s.canRead n = true →
      succeeds (.bsRbits n) s { s.skip n with res0 := word (bitsVal (s.sourceRest.take n)) }

/-- The bit writes: the low bits of ARG0, most significant first, at WPOS (40_bitstream.md R144, R145, R146, R154, R155,
R156). -/
def Obligations.BitWrites : Prop :=
  ∀ s : State,
    (s.canWrite 1 = true → succeeds .bsWbit s (s.emit [s.arg0.getLsbD 0])) ∧
    (s.canWrite 8 = true → succeeds .bsWbyte s (s.emit (natBits 8 s.arg0.toNat))) ∧
    ∀ n, n ≤ 32 → s.canWrite n = true → succeeds (.bsWbits n) s (s.emit (natBits n s.arg0.toNat))

/-- BS.ALIGN and BS.CLOSE write zero bits up to the next byte boundary, and BS.CLOSE reports the bytes of the stream
(40_bitstream.md R147, R148, R157, R158). Off a boundary they end with ERR_BUS when the byte may not be accessed, and,
with the cursor at or past the destination's end, with ERR_OUTPUT_FULL, nothing written (R144; the model's reading of R147
for such a cursor, log 21). -/
def Obligations.AlignAndClose : Prop :=
  ∀ s : State,
    let t := s.emit (padding s.wpos.toNat)
    let a := s.dstAddr.toNat + s.wpos.toNat / 8
    (s.canAlign = true →
      succeeds .bsAlign s t ∧ succeeds .bsClose s { t with res0 := word (t.wpos.toNat / 8) } ∧
      t.wpos.toNat % 8 = 0) ∧
    ∀ i, i = .bsAlign ∨ i = .bsClose → s.destOk = true → s.wpos.toNat % 8 ≠ 0 →
      (8 * s.dstCap.toNat ≤ s.wpos.toNat → failsWith i s (.outputFull s.wpos.toNat) s) ∧
      (s.wpos.toNat < 8 * s.dstCap.toNat → memOk s.params a = false → failsWith i s (.bus a) s)

/-- What storing bits does to memory: the stored positions of the buffer hold the bits, every other position of it holds
what it held, no other byte changes, and the memory stays canonical (20_memory.md R72, 30_encoding.md R100,
70_reset_and_hazards.md R371). -/
def Obligations.StoredBits : Prop :=
  ∀ (base p : Nat) (bs : Bits) (m : Memory), Memory.wf m = true → base + (p + bs.length + 7) / 8 ≤ 2 ^ 32 →
    let m' := storeBits base p bs m
    Memory.wf m' = true ∧
    (∀ q, streamBit m' base q =
      if p ≤ q ∧ q < p + bs.length then bs.getD (q - p) false else streamBit m base q) ∧
    ∀ a, a < base + p / 8 ∨ base + (p + bs.length + 7) / 8 ≤ a → m'.read a = m.read a

/-! ### Results: prefix tables -/

/-- TBL.CREATE starts a user slot afresh: every weight 1, not final; a preset slot is an illegal state
(41_prefix_table.md R180). That the slot then stores no codes, which R180 calls meaningless, is the model's choice
(log 10). -/
def Obligations.TableCreate : Prop :=
  ∀ (k : Fin 16) (wide : Bool) (s : State),
    encode (.tblCreate k wide) = word (0x20 + 2 ^ 8 * k.val + 2 ^ 13 * wide.toNat) ∧
    ((s.slot k).preset = true → failsWith (.tblCreate k wide) s (.illegalState k.val) s) ∧
    ((s.slot k).preset = false → succeeds (.tblCreate k wide) s { s with
      slots := s.slots.set k ⟨if wide then .a257 else .a256, List.replicate (if wide then 257 else 256) 1#32,
        false, false, []⟩ })

/-- TBL.INCR checks ARG0, then ARG1, then that the slot is BUILDING; then it adds ARG2 to the weights of the symbols ARG0
to ARG1, or, when a weight would pass 2^32 - 1, changes nothing and reports the least such symbol (41_prefix_table.md
R181). -/
def Obligations.TableIncrement : Prop :=
  ∀ (k : Fin 16) (s : State),
    let sl := s.slot k
    let notBuilding := sl.preset = true ∨ sl.alpha = .empty ∨ sl.final = true
    let inRange := fun x : Nat => s.arg0.toNat ≤ x ∧ x ≤ s.arg1.toNat
    let tooBig := fun x : Nat => inRange x ∧ ∃ w, sl.weights[x]? = some w ∧ 2 ^ 32 ≤ w.toNat + s.arg2.toNat
    encode (.tblIncr k) = word (0x21 + 2 ^ 8 * k.val) ∧
    (255 < s.arg0.toNat → failsWith (.tblIncr k) s (.badOperand 2) s) ∧
    (s.arg0.toNat ≤ 255 → 255 < s.arg1.toNat → failsWith (.tblIncr k) s (.badOperand 3) s) ∧
    (s.arg0.toNat ≤ 255 → s.arg1.toNat ≤ 255 → notBuilding → failsWith (.tblIncr k) s (.illegalState k.val) s) ∧
    (s.arg0.toNat ≤ 255 → s.arg1.toNat ≤ 255 → ¬ notBuilding →
      ((∀ x, ¬ tooBig x) → succeeds (.tblIncr k) s { s with
        slots := s.slots.set k { sl with
          weights := sl.weights.mapIdx (fun x w => if inRange x then w + s.arg2 else w) } }) ∧
      ∀ x, tooBig x → (∀ y, y < x → ¬ tooBig y) → failsWith (.tblIncr k) s (.overflow x) s)

/-- TBL.INCS checks its source, then that the slot is BUILDING; then it adds ARG2 to a symbol's weight for each time the
byte stands in the source, RPOS unchanged; on an overflow, or at a source byte that may not be accessed, nothing changes
(41_prefix_table.md R182). -/
def Obligations.TableIncrementSource : Prop :=
  ∀ (k : Fin 16) (s : State),
    let sl := s.slot k
    let building := sl.preset = false ∧ sl.alpha ≠ .empty ∧ sl.final = false
    let rise := fun x : Nat => s.source.countP (fun b => b.toNat == x) * s.arg2.toNat
    let tooBig := fun x : Nat => x < 256 ∧ ∃ w, sl.weights[x]? = some w ∧ 2 ^ 32 ≤ w.toNat + rise x
    encode (.tblIncs k) = word (0x22 + 2 ^ 8 * k.val) ∧
    (s.sourceOk = false → failsWith (.tblIncs k) s (.badOperand 5) s) ∧
    (s.sourceOk = true → ¬ building → failsWith (.tblIncs k) s (.illegalState k.val) s) ∧
    (∀ n, n < s.srcLen.toNat → s.sourceOk = true → building →
      (∀ m, m < n → memOk s.params (s.srcAddr.toNat + m) = true) → memOk s.params (s.srcAddr.toNat + n) = false →
      failsWith (.tblIncs k) s (.bus (s.srcAddr.toNat + n)) s) ∧
    (s.sourceOk = true → building → (∀ m, m < s.srcLen.toNat → memOk s.params (s.srcAddr.toNat + m) = true) →
      ((∀ x, ¬ tooBig x) → succeeds (.tblIncs k) s { s with
        slots := s.slots.set k { sl with weights := sl.weights.mapIdx (fun x w => word (w.toNat + rise x)) } }) ∧
      ∀ x, tooBig x → (∀ y, y < x → ¬ tooBig y) → failsWith (.tblIncs k) s (.overflow x) s)

/-- TBL.FIN gives a user slot the codes BUILD returns for its weights when none is longer than MAXCODE, succeeds without
effect on a preset, finds an EMPTY slot in an illegal state, and ends with ERR_OVERFLOW of the longest code's length when
that is above MAXCODE, the slot unchanged (41_prefix_table.md R183). -/
def Obligations.TableFinalize : Prop :=
  ∀ (k : Fin 16) (s : State),
    let sl := s.slot k
    let codes := build s.params.builder (sl.weights.map BitVec.toNat)
    (sl.preset = true → succeeds (.tblFin k) s s) ∧
    (sl.preset = false → sl.alpha = .empty → failsWith (.tblFin k) s (.illegalState k.val) s) ∧
    (sl.preset = false → sl.alpha ≠ .empty → (∀ c ∈ codes, c.length ≤ 64) →
      succeeds (.tblFin k) s { s with slots := s.slots.set k { sl with final := true, codes := codes } }) ∧
    ∀ c ∈ codes, sl.preset = false → sl.alpha ≠ .empty → 64 < c.length → (∀ d ∈ codes, d.length ≤ c.length) →
      failsWith (.tblFin k) s (.overflow c.length) s

/-- TBL.CODE, TBL.INFO and TBL.WGT report a symbol's code, a slot's kind and a symbol's weight, and change nothing else;
the code can be read back from the three result words. TBL.CODE wants a FINAL slot, TBL.WGT a slot that is not EMPTY, both
a symbol of the alphabet (41_prefix_table.md R194, R196, R197). -/
def Obligations.TableQueries : Prop :=
  ∀ (k : Fin 16) (s : State),
    let sl := s.slot k
    let x := s.arg0.toNat
    (encode (.tblCode k) = word (0x24 + 2 ^ 8 * k.val) ∧ encode (.tblInfo k) = word (0x26 + 2 ^ 8 * k.val) ∧
      encode (.tblWgt k) = word (0x27 + 2 ^ 8 * k.val)) ∧
    (sl.final = false → failsWith (.tblCode k) s (.unbuilt k.val) s) ∧
    (sl.final = true → sl.alpha.size ≤ x → failsWith (.tblCode k) s (.badOperand 2) s) ∧
    (sl.final = true → x < sl.alpha.size → (sl.code x).length ≤ 64 → ∃ r0 r1 : Word,
      succeeds (.tblCode k) s { s with res0 := r0, res1 := r1, res2 := word (sl.code x).length } ∧
      natBits (sl.code x).length (2 ^ 32 * r1.toNat + r0.toNat) = sl.code x ∧
      2 ^ 32 * r1.toNat + r0.toNat < 2 ^ (sl.code x).length) ∧
    succeeds (.tblInfo k) s { s with
      res0 := word sl.alpha.size, res1 := word sl.final.toNat, res2 := word sl.preset.toNat } ∧
    (sl.alpha = .empty → failsWith (.tblWgt k) s (.illegalState k.val) s) ∧
    (sl.alpha ≠ .empty → sl.alpha.size ≤ x → failsWith (.tblWgt k) s (.badOperand 2) s) ∧
    ∀ w, sl.alpha ≠ .empty → x < sl.alpha.size → sl.weights[x]? = some w →
      succeeds (.tblWgt k) s { s with res0 := w }

/-- TBL.DEC decodes the symbol whose code comes next, and RPOS moves past the code; when no code comes it ends with
ERR_TRUNCATED, every bit left consumed, and with ERR_BUS at the first bit whose byte may not be accessed, unless a code
ends before it, the bits before it consumed (41_prefix_table.md R192, R193, R195, 20_memory.md R64). -/
def Obligations.TableDecode : Prop :=
  ∀ (k : Fin 16) (s : State), s.sourceOk = true → (s.slot k).final = true → PrefixFree (s.slot k).codes →
    (∀ (x : Nat) (c : Bits), (s.slot k).codes[x]? = some c → c <+: s.sourceRest → s.canRead c.length = true →
      succeeds (.tblDec k) s { s.skip c.length with res0 := word x, res2 := word c.length }) ∧
    ((∀ c ∈ (s.slot k).codes, ¬ c <+: s.sourceRest) → s.canRead s.avail = true →
      failsWith (.tblDec k) s (.truncated (s.rpos.toNat + s.avail)) (s.skip s.avail)) ∧
    ∀ q, s.readStopsAt q = true → (∀ c ∈ (s.slot k).codes, ¬ c <+: s.sourceRest.take q) →
      failsWith (.tblDec k) s (.bus (s.srcAddr.toNat + (s.rpos.toNat + q) / 8)) (s.skip q)

/-! ### Results: integers -/

/-- VI.ENC writes the bucket varint of ARG0 and reports bucket and bits; a value from 2^31 on overflows with nothing
written; when the selector does not fit nothing is written, and when it fits and the raw field does not, it stays written;
where the selector or the raw field cannot be written, for want of room or at a byte that may not be accessed, the bits
before stay written (42_varint.md R211, R218, 40_bitstream.md R145, 20_memory.md R65). -/
def Obligations.VarintEncode : Prop :=
  ∀ s : State,
    let v := s.arg0.toNat
    let selector := (s.slot vintSlot).code (bucket v)
    (v < 2 ^ 31 → s.canWrite (vintBits (s.slot vintSlot) v).length = true →
      succeeds .viEnc s { s.emit (vintBits (s.slot vintSlot) v) with
        res0 := word (bucket v), res2 := word (vintBits (s.slot vintSlot) v).length }) ∧
    (2 ^ 31 ≤ v → s.destOk = true → failsWith .viEnc s (.overflow v) s) ∧
    (v < 2 ^ 31 → s.destOk = true → 8 * s.dstCap.toNat < s.wpos.toNat + selector.length →
      failsWith .viEnc s (.outputFull s.wpos.toNat) s) ∧
    (v < 2 ^ 31 → s.canWrite selector.length = true →
      8 * s.dstCap.toNat < s.wpos.toNat + (vintBits (s.slot vintSlot) v).length →
      failsWith .viEnc s (.outputFull (s.wpos.toNat + selector.length)) (s.emit selector)) ∧
    ∀ n q e, v < 2 ^ 31 → s.destOk = true →
      s.writeStopAt [selector, natBits (vintWidth (bucket v)) v] = some (n, q, e) →
      failsWith .viEnc s e (s.emit ((vintBits (s.slot vintSlot) v).take (q - s.wpos.toNat)))

/-- VI.DEC decodes the bucket varint that comes next; a selector whose raw bits are missing ends with ERR_TRUNCATED, the
selector consumed, and a selector that is cut, every bit left consumed; at the first bit of the selector or of the raw
field whose byte may not be accessed it ends with ERR_BUS, the bits before it consumed (42_varint.md R212, R219,
41_prefix_table.md R193, 20_memory.md R64). -/
def Obligations.VarintDecode : Prop :=
  ∀ s : State, s.sourceOk = true → PrefixFree (s.slot vintSlot).codes →
    (∀ (k v : Nat) (c : Bits), (s.slot vintSlot).codes[k]? = some c → k < 8 →
      (v < 2 ^ vintWidth k → vintFieldBits (s.slot vintSlot) k v <+: s.sourceRest →
        s.canRead (c.length + vintWidth k) = true →
        succeeds .viDec s { s.skip (c.length + vintWidth k) with
          res0 := word v, res1 := word k, res2 := word (vintWidth k) }) ∧
      (c <+: s.sourceRest → s.canRead c.length = true → s.avail < c.length + vintWidth k →
        failsWith .viDec s (.truncated (s.rpos.toNat + c.length)) (s.skip c.length)) ∧
      ∀ q, c <+: s.sourceRest → c.length ≤ q → q < c.length + vintWidth k → c.length + vintWidth k ≤ s.avail →
        s.readStopsAt q = true →
        failsWith .viDec s (.bus (s.srcAddr.toNat + (s.rpos.toNat + q) / 8)) (s.skip q)) ∧
    ((∀ c ∈ (s.slot vintSlot).codes, ¬ c <+: s.sourceRest) → s.canRead s.avail = true →
      failsWith .viDec s (.truncated (s.rpos.toNat + s.avail)) (s.skip s.avail)) ∧
    ∀ q, s.readStopsAt q = true → (∀ c ∈ (s.slot vintSlot).codes, ¬ c <+: s.sourceRest.take q) →
      failsWith .viDec s (.bus (s.srcAddr.toNat + (s.rpos.toNat + q) / 8)) (s.skip q)

/-- The bucket is exact at its boundaries, and decoding what VEncode writes gives the value back (42_varint.md R211, R212;
R213 is the spec's own inference). -/
def Obligations.VarintRoundTrip : Prop :=
  ∀ v : Nat, v < 2 ^ 31 →
    (bucket v < 8 ∧ v < 2 ^ vintWidth (bucket v) ∧ ∀ j, j < bucket v → 2 ^ vintWidth j ≤ v) ∧
    ∀ s u : State, Memory.wf s.mem = true → s.arg0 = word v → PrefixFree (s.slot vintSlot).codes → (s.slot vintSlot).codes.length = 8 →
      s.canWrite (vintBits (s.slot vintSlot) v).length = true →
      u.slots = s.slots → u.srcAddr = s.dstAddr → u.rpos = s.wpos →
      u.canRead (vintBits (s.slot vintSlot) v).length = true →
      ∃ t, exec .viEnc s = .next t ∧ t.err = 0#8 ∧
        (u.mem = t.mem → ∃ u', exec .viDec u = .next u' ∧ u'.err = 0#8 ∧ u'.res0 = s.arg0)

/-- UV.ENC writes the standard uvarint of the 64-bit value and reports its bytes; UV.DEC reads one back, low and high word
and bytes; ten bytes past 64 bits overflow. Where a byte of UV.ENC cannot be written, for want of room, also with WPOS past
the destination, or at a byte that may not be accessed, the bits before stay written; a uvarint that is cut ends UV.DEC with
ERR_TRUNCATED, its bytes consumed, and the first bit whose byte may not be accessed ends it with ERR_BUS, the bits before
consumed (42_varint.md R215, R216, R220, R221, 40_bitstream.md R145, 20_memory.md R64, R65). -/
def Obligations.UvarintCommands : Prop :=
  ∀ s : State,
    let e := uvarint (s.arg1.toNat * 2 ^ 32 + s.arg0.toNat)
    (s.canWrite (8 * e.length) = true →
      succeeds .uvEnc s { s.emit (bytesBits e) with res2 := word e.length }) ∧
    (∀ n, n < e.length → s.canWrite (8 * n) = true → 8 * s.dstCap.toNat < s.wpos.toNat + 8 * (n + 1) →
      failsWith .uvEnc s (.outputFull (s.wpos.toNat + 8 * n)) (s.emit (bytesBits (e.take n)))) ∧
    (∀ n q r, s.destOk = true → s.writeStopAt (e.map (fun y => natBits 8 y.toNat)) = some (n, q, r) →
      failsWith .uvEnc s r (s.emit ((bytesBits e).take (q - s.wpos.toNat)))) ∧
    (∀ (b : List Byte) (q : Nat), b.length < 10 → (∀ y ∈ b, 128 ≤ y.toNat) → bytesBits b <+: s.sourceRest →
      8 * b.length ≤ q → q < 8 * b.length + 8 → 8 * b.length + 8 ≤ s.avail → s.sourceOk = true →
      s.readStopsAt q = true →
      failsWith .uvDec s (.bus (s.srcAddr.toNat + (s.rpos.toNat + q) / 8)) (s.skip q)) ∧
    (∀ b : List Byte, b.length < 10 → (∀ y ∈ b, 128 ≤ y.toNat) → bytesBits b <+: s.sourceRest →
      s.avail < 8 * b.length + 8 → s.canRead (8 * b.length) = true →
      failsWith .uvDec s (.truncated (s.rpos.toNat + 8 * b.length)) (s.skip (8 * b.length))) ∧
    (∀ b, uvWellFormed b = true → bytesBits b <+: s.sourceRest → s.canRead (8 * b.length) = true →
      succeeds .uvDec s { s.skip (8 * b.length) with
        res0 := word (uvValue b), res1 := word (uvValue b / 2 ^ 32), res2 := word b.length }) ∧
    ∀ b x, b.length = 9 → (∀ y ∈ b, 128 ≤ y.toNat) → 1 < x.toNat → bytesBits (b ++ [x]) <+: s.sourceRest →
      s.canRead 80 = true → failsWith .uvDec s (.overflow 10) (s.skip 80)

/-- The standard uvarint of a 64-bit value is one that the decoder accepts, and its value is the value written
(30_encoding.md R105, 42_varint.md R215, R216). -/
def Obligations.UvarintRoundTrip : Prop :=
  ∀ v : Nat, v < 2 ^ 64 → uvWellFormed (uvarint v) = true ∧ uvValue (uvarint v) = v ∧
    (uvarint v).length ≤ 10 ∧ ∀ b, uvWellFormed b = true → uvValue b < 2 ^ 64

/-! ### Results: the format walker -/

/-- The walks of any stream. WK.INSPECT and WK.COMP write, for each source byte, its bits or its code, whatever the
source is and wherever it ends, and report the literal slots asked for and filled; so WK.INSPECT copies its source.
WK.DECOMP gives the bytes of the stream whose items its source holds, and stops where no further item can be read. When an
item cannot be written, or a source byte may not be accessed (inside a byte's item, or inside the sentinel's code or a code
that is not finished), the items before it stay written, and RES0 to RES2 report them (43_format_walker.md R230 to R235, R236
item 2, R237, R238, R240, R242, R250 to R255, 20_memory.md R64, R65; R243 is the spec's own inference). -/
def Obligations.InspectIsIdentity : Prop :=
  ∀ (s : State) (i : Instr), s.buffersOk = true → tableReady i s = true →
    let bias := s.params.snappyBias
    let report := fun (p : WalkPhase) (xs : List Byte) (t : State) =>
      { t with res1 := word (walkRequested bias p xs), res2 := word (walkCompleted bias p xs) }
    (∀ p code, plainWalk s i = some (p, code) →
      let units := walkUnits bias code p s.source
      let out := padded units.flatten
      (s.sourceOpen = true → s.writeStop units = none →
        succeeds i s (report p s.source (s.produced (8 * s.srcLen.toNat) out (out.length / 8)))) ∧
      (∀ n q e, s.sourceOpen = true → s.writeStop units = some (n, q, e) →
        failsWith i s e (report p (s.source.take n) (s.produced (8 * (n + 1)) (units.flatten.take q) ((q + 7) / 8)))) ∧
      ∀ f, s.sourceShut f = true → s.writeStop (units.take f) = none →
        let done := (units.take f).flatten
        failsWith i s (.bus (s.srcAddr.toNat + f))
          (report p (s.source.take f) (s.produced (8 * f) done ((done.length + 7) / 8)))) ∧
    ((i = .wkInspectLz4 ∨ i = .wkInspectSnappy) → s.ready (8 * s.srcLen.toNat) = true →
      ∃ t, exec i s = .next t ∧ t.err = 0#8 ∧ t.mem = storeBits s.dstAddr.toNat 0 (bytesBits s.source) s.mem ∧
        t.res0 = s.srcLen ∧ t.rpos = word (8 * s.srcLen.toNat) ∧ t.wpos = word (8 * s.srcLen.toNat)) ∧
    ∀ p k xs, codedWalk i = some (p, k) →
      let sl := s.slot k
      let units := walkUnits bias (fun b => sl.code b.toNat) p xs
      let read := fun n => (units.take n).flatten.length
      let written := xs.map (fun b => natBits 8 b.toNat)
      PrefixFree sl.codes → sl.codes.length = sl.alpha.size → units.flatten <+: s.sourceStream →
      (∀ r, s.sourceOpen = true → s.writeStop written = none →
        walkStop sl (walkEnd bias p xs) (s.sourceStream.drop units.flatten.length) = some r →
        succeeds i s (report p xs (s.produced (units.flatten.length + r) (bytesBits xs) xs.length))) ∧
      (∀ n q e, s.sourceOpen = true → s.writeStop written = some (n, q, e) →
        failsWith i s e (report p (xs.take n) (s.produced (read (n + 1)) ((bytesBits xs).take q) ((q + 7) / 8)))) ∧
      (∀ f n, s.sourceShut f = true → read n ≤ 8 * f → 8 * f < read (n + 1) → s.writeStop (written.take n) = none →
        failsWith i s (.bus (s.srcAddr.toNat + f)) (report p (xs.take n) (s.produced (8 * f) (bytesBits (xs.take n)) n))) ∧
      ∀ f, s.sourceShut f = true → (walkEnd bias p xs).slots ≠ 0 → s.noCodeWithin sl units.flatten.length (8 * f) = true →
        s.writeStop written = none →
        failsWith i s (.bus (s.srcAddr.toNat + f)) (report p xs (s.produced (8 * f) (bytesBits xs) xs.length))

/-- On an LZ4-shaped stream of whole sequences, WK.COMP.LZ4 writes the compressed stream, WK.DECOMP.LZ4 gives the stream
back from it, and WK.INSPECT.LZ4 counts its literals (30_encoding.md R108, R113, 43_format_walker.md R235, R243 item 2,
R250, R252, R254). -/
def Obligations.Lz4Walks : Prop :=
  ∀ (s : State) (k : Fin 16) (z : Lz4Stream),
    let sl := s.slot k
    let n := z.literalCount
    (s.source = z.bytes → s.ready (8 * s.srcLen.toNat) = true →
      succeeds .wkInspectLz4 s { s.produced (8 * s.srcLen.toNat) (bytesBits z.bytes) z.bytes.length with
        res1 := word n, res2 := word n }) ∧
    (sl.final = true → 256 ≤ sl.alpha.size → s.source = z.bytes →
      s.ready (padded (z.compressed sl)).length = true →
      succeeds (.wkCompLz4 k) s
        { s.produced (8 * s.srcLen.toNat) (padded (z.compressed sl)) ((padded (z.compressed sl)).length / 8) with
          res1 := word n, res2 := word n }) ∧
    (sl.final = true → 256 ≤ sl.alpha.size → PrefixFree sl.codes → sl.codes.length = sl.alpha.size →
      s.sourceStream = padded (z.compressed sl) → s.ready (8 * z.bytes.length) = true →
      succeeds (.wkDecompLz4 k) s
        { s.produced (z.compressed sl).length (bytesBits z.bytes) z.bytes.length with
          res1 := word n, res2 := word n })

/-- On a Snappy-shaped stream of whole tokens, WK.COMP.SNAPPY writes the compressed stream, WK.DECOMP.SNAPPY gives the
stream back from it, and WK.INSPECT.SNAPPY counts its literals, whatever SNAPPY_BIAS is (30_encoding.md R111, R112, R113,
43_format_walker.md R238, R243 item 2, R251, R253, R255). -/
def Obligations.SnappyWalks : Prop :=
  ∀ (s : State) (k : Fin 16) (z : SnappyStream),
    let sl := s.slot k
    let bias := s.params.snappyBias
    let n := z.literalCount
    z.ok bias = true →
    (s.source = z.bytes bias → s.ready (8 * s.srcLen.toNat) = true →
      succeeds .wkInspectSnappy s
        { s.produced (8 * s.srcLen.toNat) (bytesBits (z.bytes bias)) (z.bytes bias).length with
          res1 := word n, res2 := word n }) ∧
    (sl.final = true → 256 ≤ sl.alpha.size → s.source = z.bytes bias →
      s.ready (padded (z.compressed bias sl)).length = true →
      succeeds (.wkCompSnappy k) s
        { s.produced (8 * s.srcLen.toNat) (padded (z.compressed bias sl))
            ((padded (z.compressed bias sl)).length / 8) with
          res1 := word n, res2 := word n }) ∧
    (sl.final = true → 256 ≤ sl.alpha.size → PrefixFree sl.codes → sl.codes.length = sl.alpha.size →
      s.sourceStream = padded (z.compressed bias sl) → s.ready (8 * (z.bytes bias).length) = true →
      succeeds (.wkDecompSnappy k) s
        { s.produced (z.compressed bias sl).length (bytesBits (z.bytes bias)) (z.bytes bias).length with
          res1 := word n, res2 := word n })

/-! ### Results: whole blocks -/

/-- BLK.ENC writes the whole-block stream of its source, padded, and reports its bytes (30_encoding.md R114,
44_block_codec.md R271). -/
def Obligations.BlockEncode : Prop :=
  ∀ (k : Fin 16) (s : State),
    let bs := padded (blockBits (s.slot k) s.source)
    (s.slot k).final = true → (s.slot k).alpha = .a257 → s.ready bs.length = true →
    succeeds (.blkEnc k) s (s.produced (8 * s.srcLen.toNat) bs (bs.length / 8))

/-- BLK.ENC ends with ERR_OUTPUT_FULL at the first code that does not fit the destination: the codes before it stay
written, nothing of that code is, and RES0 counts the bytes begun (44_block_codec.md R271, 40_bitstream.md R145,
60_exceptions.md R329). `n` bytes of the source fit; the next code is that of a byte, or the sentinel's. Likewise BLK.ENC
and BLK.DEC end wherever a code or a byte cannot be written, or a source byte may not be accessed (for BLK.DEC inside a
byte's code, the sentinel's, or one that is not finished): what came before stays written, and RES0 counts
the bytes begun (44_block_codec.md R271, R272, 20_memory.md R64, R65). -/
def Obligations.BlockEncodeFull : Prop :=
  (∀ (k : Fin 16) (s : State) (n : Nat),
    let sl := s.slot k
    let written := literalCodes sl (s.source.take n)
    sl.final = true → sl.alpha = .a257 → n ≤ s.srcLen.toNat → s.ready written.length = true →
    8 * s.dstCap.toNat < (literalCodes sl (s.source.take (n + 1)) ++ if n = s.srcLen.toNat then sl.code sentinel else []).length →
    failsWith (.blkEnc k) s (.outputFull written.length)
      (s.produced (8 * min (n + 1) s.srcLen.toNat) written ((written.length + 7) / 8))) ∧
  ∀ (k : Fin 16) (s : State),
    let sl := s.slot k
    let units := s.source.map (fun b => sl.code b.toNat) ++ [sl.code sentinel]
    sl.final = true → sl.alpha = .a257 → s.buffersOk = true →
    ((∀ n q e, s.sourceOpen = true → s.writeStop units = some (n, q, e) →
        failsWith (.blkEnc k) s e
          (s.produced (8 * min (n + 1) s.srcLen.toNat) (units.flatten.take q) ((q + 7) / 8))) ∧
      ∀ f, s.sourceShut f = true → s.writeStop (units.take f) = none →
        let done := (units.take f).flatten
        failsWith (.blkEnc k) s (.bus (s.srcAddr.toNat + f)) (s.produced (8 * f) done ((done.length + 7) / 8))) ∧
    ∀ xs : List Byte,
      let read := fun n => (literalCodes sl (xs.take n)).length
      let written := xs.map (fun b => natBits 8 b.toNat)
      PrefixFree sl.codes → sl.codes.length = 257 → literalCodes sl xs <+: s.sourceStream →
      (∀ n q e, s.sourceOpen = true → s.writeStop written = some (n, q, e) →
        failsWith (.blkDec k) s e (s.produced (read (n + 1)) ((bytesBits xs).take q) ((q + 7) / 8))) ∧
      (∀ f n, s.sourceShut f = true → read n ≤ 8 * f → 8 * f < read (n + 1) → s.writeStop (written.take n) = none →
        failsWith (.blkDec k) s (.bus (s.srcAddr.toNat + f)) (s.produced (8 * f) (bytesBits (xs.take n)) n)) ∧
      ∀ f, s.sourceShut f = true → s.noCodeWithin sl (literalCodes sl xs).length (8 * f) = true →
        s.writeStop written = none →
        failsWith (.blkDec k) s (.bus (s.srcAddr.toNat + f)) (s.produced (8 * f) (bytesBits xs) xs.length)

/-- BLK.DEC writes the bytes of the whole-block stream at the start of its source, and stops at the sentinel; on a stream
cut short it writes the bytes whose codes are whole (44_block_codec.md R272). -/
def Obligations.BlockDecode : Prop :=
  ∀ (k : Fin 16) (s : State) (xs : List Byte),
    let sl := s.slot k
    sl.final = true → sl.alpha = .a257 → PrefixFree sl.codes → sl.codes.length = 257 →
    s.ready (8 * xs.length) = true →
    (blockBits sl xs <+: s.sourceStream →
      succeeds (.blkDec k) s (s.produced (blockBits sl xs).length (bytesBits xs) xs.length)) ∧
    ∀ rest, s.sourceStream = literalCodes sl xs ++ rest → (∀ c ∈ sl.codes, ¬ c <+: rest) →
      succeeds (.blkDec k) s (s.produced (8 * s.srcLen.toNat) (bytesBits xs) xs.length)

/-- BLK.DEC on the output of BLK.ENC under the same FINAL 257-symbol slot writes the source again (44_block_codec.md
R271, R272; R273 is the spec's own inference). -/
def Obligations.BlockRoundTrip : Prop :=
  ∀ (k : Fin 16) (s u : State),
    (s.slot k).final = true → (s.slot k).alpha = .a257 →
    PrefixFree (s.slot k).codes → (s.slot k).codes.length = 257 → Memory.wf s.mem = true →
    s.ready (padded (blockBits (s.slot k) s.source)).length = true →
    ∃ t, exec (.blkEnc k) s = .next t ∧ t.err = 0#8 ∧
      (u.slots = t.slots → u.mem = t.mem → u.srcAddr = t.dstAddr → u.srcLen = t.res0 →
        u.ready (8 * s.srcLen.toNat) = true →
        ∃ v, exec (.blkDec k) u = .next v ∧ v.err = 0#8 ∧ v.res0 = s.srcLen ∧
          v.mem.slice u.dstAddr.toNat s.srcLen.toNat = s.source)

/-! ### Results: LZ77 -/

/-- LZ.COMP writes the container of the scan's tokens: the source length as hint, the tokens, the End token, padding; and
it reports the bytes, the substitutions and the literals (30_encoding.md R115, R116, 45_lz77.md R288, R289, R293, R295,
R297, R298). Where a field cannot be written, or, the selector tables holding codes as in every state that a run
reaches, the first source byte that may not be accessed is come to, it ends with the error, what was written before kept,
and reports the tokens written whole (R298, 60_exceptions.md R329). -/
def Obligations.LzCompress : Prop :=
  ∀ s : State,
    let ts := scanTokens s s.source
    let bs := padded (containerBits s (uvarint s.srcLen.toNat) ts)
    let fields := (containerFields s (uvarint s.srcLen.toNat) ts).map Prod.snd
    (s.ready bs.length = true →
      succeeds .lzComp s { s.produced 0 bs (bs.length / 8) with
        res1 := word (ts.countP LzToken.isSubstitution)
        res2 := word (ts.countP (fun k => !k.isSubstitution)) }) ∧
    (∀ n q e, s.buffersOk = true → s.sourceOpen = true → s.writeStop fields = some (n, q, e) →
      failsWith .lzComp s e (s.lzCompAt q)) ∧
    ∀ f, selectorsOk s → s.buffersOk = true → s.sourceShut f = true → s.writeStop fields = none →
      ∃ n, failsWith .lzComp s (.bus (s.srcAddr.toNat + f)) (s.lzCompAt (fields.take n).flatten.length)

/-- The scan's tokens: each can be framed, they rebuild the source in order, every substitution copies at least four
bytes, and a source of fewer than eight bytes has none (45_lz77.md R290, R292). -/
def Obligations.ScanTokensRebuild : Prop :=
  ∀ (s : State) (xs : List Byte), xs.length ≤ Config.maxBuf →
    (scanTokens s xs).all LzToken.ok = true ∧ reconstruct (scanTokens s xs) [] = some xs ∧
    (∀ off len, LzToken.substitution off len ∈ scanTokens s xs → 4 ≤ len ∧ off + 4 ≤ xs.length) ∧
    (xs.length < 8 → (scanTokens s xs).all (fun k => !k.isSubstitution) = true)

/-- A destination of 4n + 16 bytes always suffices for LZ.COMP of n bytes under the reset tables of the default
parameters (the spec's own inference in 45_lz77.md R298; logs 1 and 13). -/
def Obligations.LzCapacity : Prop :=
  ∀ (s : State) (xs : List Byte), s.slots = resetSlots defaultParams → xs.length ≤ Config.maxBuf →
    (padded (containerBits s (uvarint xs.length) (scanTokens s xs))).length ≤ 8 * (4 * xs.length + 16)

/-- LZ.DECOMP writes what the tokens of its source rebuild, and stops at the End token; a substitution whose offset is
not below the output length ends it with ERR_CORRUPT_REF before a byte is copied, also when its length is 0
(45_lz77.md R301, R302, R305). A container that is cut short gives the bytes whose fields are whole, and a hint that cannot
be read gives none, both with ERR = 0 (R303, R304). Where a byte cannot be written, or a source byte may not be accessed,
the bytes before it stay written and RES0 counts them (R305). -/
def Obligations.LzDecompress : Prop :=
  ∀ s : State, Memory.wf s.mem = true →
    (∀ (hint : List Byte) (ts : List LzToken) (out : List Byte),
      selectorsOk s → uvWellFormed hint = true → ts.all LzToken.ok = true → reconstruct ts [] = some out →
      (s.ready (8 * out.length) = true →
        (containerBits s hint ts <+: s.sourceStream →
          succeeds .lzDecomp s (s.produced (containerBits s hint ts).length (bytesBits out) out.length)) ∧
        ∀ off len, off < 2 ^ 31 → len < 2 ^ 31 → out.length ≤ off →
          let read := bytesBits hint ++ (ts ++ [LzToken.substitution off len]).flatMap (LzToken.bits s)
          read <+: s.sourceStream →
          failsWith .lzDecomp s (.corruptRef off) (s.produced read.length (bytesBits out) out.length)) ∧
      (s.sourceStream <+: containerBits s hint ts →
        let read := 8 * s.srcLen.toNat
        let done := out.take ((outputCursors s (8 * hint.length) ts).countP (fun r => decide (r ≤ read)))
        s.ready (8 * done.length) = true →
        succeeds .lzDecomp s
          (s.produced (cutCursor read (containerFields s hint ts)) (bytesBits done) done.length)) ∧
      (s.buffersOk = true → containerBits s hint ts <+: s.sourceStream →
        let cursors := outputCursors s (8 * hint.length) ts
        let written := out.map (fun b => natBits 8 b.toNat)
        (∀ n q e, s.sourceOpen = true → s.writeStop written = some (n, q, e) →
          failsWith .lzDecomp s e (s.produced (cursors.getD n 0) ((bytesBits out).take q) ((q + 7) / 8))) ∧
        ∀ f, s.sourceShut f = true → 8 * f < (containerBits s hint ts).length →
          let n := cursors.countP (fun r => decide (r ≤ 8 * f))
          s.writeStop (written.take n) = none →
          failsWith .lzDecomp s (.bus (s.srcAddr.toNat + f)) (s.produced (8 * f) (bytesBits (out.take n)) n))) ∧
    ∀ b : List Byte, (∀ y ∈ b, 128 ≤ y.toNat) → s.ready 0 = true →
      (s.source = b → b.length < 10 → succeeds .lzDecomp s (s.produced (8 * b.length) [] 0)) ∧
      ∀ x, b.length = 9 → 1 < x.toNat → b ++ [x] <+: s.source → succeeds .lzDecomp s (s.produced 80 [] 0)

/-- LZ.DECOMP on the output of LZ.COMP writes the source again (45_lz77.md R298, R305; R306 is the spec's own
inference). -/
def Obligations.LzRoundTrip : Prop :=
  ∀ s u : State, selectorsOk s → Memory.wf s.mem = true →
    s.ready (padded (containerBits s (uvarint s.srcLen.toNat) (scanTokens s s.source))).length = true →
    ∃ t, exec .lzComp s = .next t ∧ t.err = 0#8 ∧
      (u.slots = t.slots → u.mem = t.mem → u.srcAddr = t.dstAddr → u.srcLen = t.res0 →
        u.ready (8 * s.srcLen.toNat) = true →
        ∃ v, exec .lzDecomp u = .next v ∧ v.err = 0#8 ∧ v.res0 = s.srcLen ∧
          v.mem.slice u.dstAddr.toNat s.srcLen.toNat = s.source)

/-- Select takes the candidate of least cost, the lowest index on a tie (45_lz77.md R295). -/
def Obligations.SelectLeastCost : Prop :=
  ∀ (s : State) (h : List Nat), select s h < 4 ∧ (∀ k, k < 4 → cost s h (select s h) ≤ cost s h k) ∧
    ∀ k, k < select s h → cost s h (select s h) < cost s h k

/-- The key map is exact and keeps one offset for each key: a lookup gives the offset last stored under the key, other
keys are untouched (10_state.md R46, 45_lz77.md R287, R291). -/
def Obligations.KeyMapExact : Prop :=
  ∀ (k : Word) (p : Nat) (km : List (Word × Nat)),
    keyLookup k (keyStore k p km) = some p ∧ (∀ j, j ≠ k → keyLookup j (keyStore k p km) = keyLookup j km) ∧
    ((km.map Prod.fst).Nodup → ((keyStore k p km).map Prod.fst).Nodup)

/-! ### The reference builder -/

/-- The model's builder gives the lengths of the procedure that 41_prefix_table.md R172 words: one live set, the two least
nodes joined each round. -/
def Obligations.BuilderFollowsRule : Prop :=
  ∀ w : List Nat, w ≠ [] → refLengths w = ruleLengths w

/-- BUILD has the properties of 41_prefix_table.md R171, whichever builder the parameters name: its codes are prefix-free
and complete, one for each symbol, and none cheaper is prefix-free (that the reference builder has them is the spec's own
general knowledge, R174; a platform's is held to them by the model, log 13). So a FINAL slot's codes are a complete prefix
code over its symbols, of 1 to MAXCODE bits each (10_state.md R44 item 3, the spec's own inference). -/
def Obligations.BuilderCodes : Prop :=
  (∀ w : List Nat, 2 ≤ w.length →
    PrefixFree (referenceBuild w) ∧ CompleteCode (referenceBuild w) ∧ (referenceBuild w).length = w.length) ∧
  (∀ (b : Builder) (w : List Nat), 2 ≤ w.length →
    PrefixFree (build b w) ∧ CompleteCode (build b w) ∧ (build b w).length = w.length ∧ OptimalCode w (build b w)) ∧
  ∀ (s : State) (k : Fin 16), s.Inv → (s.slot k).final = true →
    PrefixFree (s.slot k).codes ∧ CompleteCode (s.slot k).codes ∧
    (s.slot k).codes.length = (s.slot k).alpha.size ∧ ∀ c ∈ (s.slot k).codes, 1 ≤ c.length ∧ c.length ≤ 64
end

