-- ==== Sys2Proof/Laws/Bits.lean ====
section
/-! SUPPORT. Bit strings and raw fields: lengths, values, and codes of one length. -/

namespace Sys2Proof.Machine

@[simp] theorem natBits_length (n v : Nat) : (natBits n v).length = n := by
  induction n with
  | zero => rfl
  | succ n ih => simp [natBits, ih]

theorem bitsVal_foldl (b : Bits) (v : Nat) : b.foldl (fun v x => 2 * v + x.toNat) v = v * 2 ^ b.length + bitsVal b := by
  induction b generalizing v with
  | nil => simp [bitsVal]
  | cons x b ih =>
    have h := ih x.toNat
    have h2 : bitsVal (x :: b) = x.toNat * 2 ^ b.length + bitsVal b := by
      rw [← h, bitsVal, List.foldl_cons, Nat.mul_zero, Nat.zero_add]
    rw [List.foldl_cons, ih, h2, List.length_cons, pow_succ]
    ring

@[simp] theorem bitsVal_nil : bitsVal [] = 0 := rfl

theorem bitsVal_cons (x : Bool) (b : Bits) : bitsVal (x :: b) = x.toNat * 2 ^ b.length + bitsVal b := by
  have h := bitsVal_foldl b x.toNat
  rw [bitsVal, List.foldl_cons, Nat.mul_zero, Nat.zero_add, h]

theorem bitsVal_lt (b : Bits) : bitsVal b < 2 ^ b.length := by
  induction b with
  | nil => simp
  | cons x b ih =>
    rw [bitsVal_cons, List.length_cons, pow_succ]
    have hx : x.toNat ≤ 1 := Bool.toNat_le x
    have : x.toNat * 2 ^ b.length ≤ 1 * 2 ^ b.length := Nat.mul_le_mul_right _ hx
    omega

/-- The value of a raw field: the low bits of the number written. -/
theorem bitsVal_natBits (n v : Nat) : bitsVal (natBits n v) = v % 2 ^ n := by
  induction n with
  | zero => simp [natBits, Nat.mod_one]
  | succ n ih =>
    rw [natBits, bitsVal_cons, ih, natBits_length, Nat.testBit_eq_decide_div_mod_eq]
    have h1 : v % 2 ^ (n + 1) = v % 2 ^ n + 2 ^ n * (v / 2 ^ n % 2) := by rw [pow_succ, Nat.mod_mul]
    rw [h1]
    rcases Nat.mod_two_eq_zero_or_one (v / 2 ^ n) with h | h <;> simp [h, Nat.add_comm]

/-- A field as wide as the bit string, of the string's value, is the string. -/
theorem natBits_bitsVal (b : Bits) : natBits b.length (bitsVal b) = b := by
  induction b with
  | nil => rfl
  | cons x b ih =>
    have hlt := bitsVal_lt b
    have htail : natBits b.length (bitsVal (x :: b)) = natBits b.length (bitsVal b) := by
      have key : ∀ n v w, v % 2 ^ n = w % 2 ^ n → natBits n v = natBits n w := by
        intro n
        induction n with
        | zero => intros; rfl
        | succ n ihn =>
          intro v w h
          have hb : v.testBit n = w.testBit n := by
            have := congrArg (fun x => x.testBit n) h
            simpa [Nat.testBit_mod_two_pow] using this
          have hr : v % 2 ^ n = w % 2 ^ n := by
            have := congrArg (fun x => x % 2 ^ n) h
            simpa [Nat.mod_mod_of_dvd _ (pow_dvd_pow 2 (Nat.le_succ n))] using this
          rw [natBits, natBits, hb, ihn v w hr]
      refine key _ _ _ ?_
      rw [bitsVal_cons, Nat.add_comm, Nat.add_mul_mod_self_right]
    have hhead : (bitsVal (x :: b)).testBit b.length = x := by
      rw [bitsVal_cons, Nat.testBit_eq_decide_div_mod_eq, Nat.add_comm,
        Nat.add_mul_div_right _ _ (Nat.two_pow_pos _), Nat.div_eq_of_lt hlt]
      cases x <;> rfl
    rw [List.length_cons, natBits, hhead, htail, ih]

/-- Raw fields of one width differ when their values differ. -/
theorem natBits_inj {n v w : Nat} (hv : v < 2 ^ n) (hw : w < 2 ^ n) (h : natBits n v = natBits n w) : v = w := by
  have := congrArg bitsVal h
  rwa [bitsVal_natBits, bitsVal_natBits, Nat.mod_eq_of_lt hv, Nat.mod_eq_of_lt hw] at this

@[simp] theorem bytesBits_nil : bytesBits [] = [] := rfl

@[simp] theorem bytesBits_cons (b : Byte) (bs : List Byte) : bytesBits (b :: bs) = natBits 8 b.toNat ++ bytesBits bs :=
  rfl

theorem bytesBits_append (xs ys : List Byte) : bytesBits (xs ++ ys) = bytesBits xs ++ bytesBits ys := by
  simp [bytesBits]

@[simp] theorem bytesBits_length (bs : List Byte) : (bytesBits bs).length = 8 * bs.length := by
  induction bs with
  | nil => rfl
  | cons b bs ih => simp [ih]; omega

theorem padding_length (n : Nat) : (padding n).length = (8 - n % 8) % 8 := by simp [padding]

theorem padded_length (bs : Bits) : (padded bs).length = (bs.length + 7) / 8 * 8 := by
  simp only [padded, List.length_append, padding_length]
  omega

@[simp] theorem streamBits_length (m : Memory) (base p n : Nat) : (streamBits m base p n).length = n := by
  simp [streamBits]

/-- Codes of one length, in the order of their values, are prefix-free. -/
theorem fixed_prefixFree (k n : Nat) (hk : 0 < k) (hn : n ≤ 2 ^ k) :
    PrefixFree ((List.range n).map (natBits k)) := by
  constructor
  · intro c hc
    obtain ⟨v, -, rfl⟩ := List.mem_map.1 hc
    intro h
    have := congrArg List.length h
    simp at this
    omega
  · rw [List.pairwise_map]
    refine List.Pairwise.imp_of_mem ?_ (List.nodup_range (n := n))
    intro v w hv hw hne
    have hv' : v < 2 ^ k := lt_of_lt_of_le (List.mem_range.1 hv) hn
    have hw' : w < 2 ^ k := lt_of_lt_of_le (List.mem_range.1 hw) hn
    constructor
    · exact fun h => hne (natBits_inj hv' hw' (h.eq_of_length (by simp)))
    · exact fun h => hne (natBits_inj hw' hv' (h.eq_of_length (by simp))).symm

end Sys2Proof.Machine
end

