-- ==== Sys2Proof/Laws/Builder.lean ====
section
/-! SUPPORT. What the parts of the reference builder do: sorting permutes, merging keeps every leaf, every length of
RefLengths is the length of a code. -/

namespace Sys2Proof.Machine

/-! ### Sorting permutes -/

theorem mergeHead_perm {α : Type} (before : α → α → Bool) (x : α) (tail : List α → List α) (xs : List α)
    (h : ∀ l, (tail l).Perm (xs ++ l)) : ∀ l, (mergeHead before x tail l).Perm (x :: (xs ++ l))
  | [] => (h []).cons x
  | y :: ys => by
    unfold mergeHead
    cases before y x
    · exact (h (y :: ys)).cons x
    · refine ((mergeHead_perm before x tail xs h ys).cons y).trans ((List.Perm.swap x y _).trans ?_)
      exact (List.perm_middle.symm).cons x

theorem mergeSorted_perm {α : Type} (before : α → α → Bool) :
    ∀ xs ys : List α, (mergeSorted before xs ys).Perm (xs ++ ys)
  | [], _ => List.Perm.refl _
  | x :: xs, ys => mergeHead_perm before x _ xs (mergeSorted_perm before xs) ys

theorem mergePairs_perm {α : Type} (before : α → α → Bool) :
    ∀ l : List (List α), (mergePairs before l).flatten.Perm l.flatten
  | [] => List.Perm.refl _
  | [_] => List.Perm.refl _
  | a :: b :: rest => by
    simpa [mergePairs] using (mergeSorted_perm before a b).append (mergePairs_perm before rest)

theorem mergeRounds_perm {α : Type} (before : α → α → Bool) :
    ∀ (fuel : Nat) (l : List (List α)), (mergeRounds before fuel l).Perm l.flatten
  | _, [] => by simp [mergeRounds]
  | _, [l] => by simp [mergeRounds]
  | 0, a :: b :: rest => by simp [mergeRounds]
  | fuel + 1, a :: b :: rest => by
    simpa [mergeRounds] using (mergeRounds_perm before fuel _).trans (mergePairs_perm before (a :: b :: rest))

/-- `sortBy` gives the same items in another order. -/
theorem sortBy_perm {α : Type} (before : α → α → Bool) (l : List α) : (sortBy before l).Perm l := by
  have h := mergeRounds_perm before l.length (l.map (fun x => [x]))
  have e : (l.map (fun x => [x])).flatten = l := by
    clear h
    induction l <;> simp_all
  rwa [e] at h

/-! ### Merging keeps every leaf -/

/-- The number of leaves of a tree. -/
def leafCount : CodeTree → Nat
  | .leaf _ => 1
  | .node l r => leafCount l + leafCount r

/-- The number of leaves below a list of nodes. -/
def leafTotal (ns : List BuildNode) : Nat := (ns.map (fun n => leafCount n.tree)).sum

theorem takeLeast_perm {l i l' i' : List BuildNode} {x : BuildNode} (h : takeLeast l i = some (x, l', i')) :
    (l ++ i).Perm (x :: (l' ++ i')) := by
  rcases l with - | ⟨a, l⟩ <;> rcases i with - | ⟨b, i⟩ <;> simp only [takeLeast] at h
  · cases h
  · cases h; exact List.Perm.refl _
  · cases h; exact List.Perm.refl _
  · cases hb : nodeBefore a b <;> rw [hb] at h <;> cases h
    · exact List.perm_middle
    · exact List.Perm.refl _

theorem takeLeast_none {l i : List BuildNode} (h : takeLeast l i = none) : l ++ i = [] := by
  rcases l with - | ⟨a, l⟩ <;> rcases i with - | ⟨b, i⟩ <;> simp only [takeLeast] at h
  · rfl
  · cases h
  · cases h
  · cases hb : nodeBefore a b <;> rw [hb] at h <;> cases h

theorem leafTotal_perm {a b : List BuildNode} (h : a.Perm b) : leafTotal a = leafTotal b := (h.map _).sum_eq

/-- With a round for each live node the merging ends in one tree that holds every leaf. -/
theorem mergeNodes_leafCount (a : Nat) : ∀ (fuel j : Nat) (l i : List BuildNode), l ++ i ≠ [] → (l ++ i).length ≤ fuel →
    leafCount (mergeNodes a fuel j l i) = leafTotal (l ++ i)
  | 0, _, l, i, hne, hlen => absurd (List.eq_nil_of_length_eq_zero (Nat.le_zero.1 hlen)) hne
  | fuel + 1, j, l, i, hne, hlen => by
    unfold mergeNodes
    cases h : takeLeast l i with
    | none => exact absurd (takeLeast_none h) hne
    | some r =>
      obtain ⟨x, l1, i1⟩ := r
      have p := takeLeast_perm h
      simp only
      cases h1 : takeLeast l1 i1 with
      | none =>
        rw [leafTotal_perm p, takeLeast_none h1]
        simp [leafTotal]
      | some r =>
        obtain ⟨y, l2, i2⟩ := r
        have p1 := takeLeast_perm h1
        have q := p.length_eq
        have q1 := p1.length_eq
        simp only [List.length_append, List.length_cons] at q q1 hlen
        simp only
        rw [mergeNodes_leafCount a fuel (j + 1) l2 _ (by simp) (by simp; omega), leafTotal_perm p,
          leafTotal_perm (p1.cons x)]
        simp [leafTotal, leafCount]
        omega

theorem leafNodes_leafTotal (a : Nat) : ∀ (s : Nat) (w : List Nat), leafTotal (leafNodes a s w) = w.length
  | _, [] => rfl
  | s, w :: ws => by
    have h := leafNodes_leafTotal a (s + 1) ws
    simp only [leafTotal, leafNodes, List.map_cons, List.sum_cons, leafCount, List.length_cons] at h ⊢
    omega

theorem leafNodes_length (a : Nat) : ∀ (s : Nat) (w : List Nat), (leafNodes a s w).length = w.length
  | _, [] => rfl
  | s, w :: ws => by simp [leafNodes, leafNodes_length a (s + 1) ws]

/-- The tree of a weight vector has one leaf for each weight. -/
theorem huffmanTree_leafCount (w : List Nat) (hw : w ≠ []) : leafCount (huffmanTree w) = w.length := by
  have p := sortBy_perm nodeBefore (leafNodes w.length 0 w)
  have hl : (sortBy nodeBefore (leafNodes w.length 0 w)).length = w.length :=
    p.length_eq.trans (leafNodes_length _ _ _)
  rw [huffmanTree, mergeNodes_leafCount _ _ _ _ _ ?_ (by simp [hl]), List.append_nil, leafTotal_perm p,
    leafNodes_leafTotal]
  intro e
  rw [List.append_nil] at e
  rw [e] at hl
  exact hw (List.eq_nil_of_length_eq_zero hl.symm)

/-! ### Depths, lengths, codes -/

theorem leafDepths_length : ∀ (t : CodeTree) (d : Nat), (leafDepths t d).length = leafCount t
  | .leaf _, _ => rfl
  | .node l r, d => by simp [leafDepths, leafCount, leafDepths_length l, leafDepths_length r]

/-- A tree with many leaves has a deep one. -/
theorem leafDepths_deep : ∀ (t : CodeTree) (d n : Nat), 2 ^ n < leafCount t → ∃ x ∈ leafDepths t d, d + n < x.2
  | .leaf _, _, n, h => absurd h (Nat.not_lt.2 Nat.one_le_two_pow)
  | .node l r, d, 0, _ => by
    have deep : ∀ (t : CodeTree) (d : Nat), ∃ x ∈ leafDepths t d, d ≤ x.2 := by
      intro t
      induction t with
      | leaf s => exact fun d => ⟨(s, d), by simp [leafDepths]⟩
      | node l r ihl _ =>
        intro d
        obtain ⟨x, hx, hd⟩ := ihl (d + 1)
        exact ⟨x, by simp [leafDepths, hx], by omega⟩
    obtain ⟨x, hx, hd⟩ := deep l (d + 1)
    exact ⟨x, by simp [leafDepths, hx], by omega⟩
  | .node l r, d, n + 1, h => by
    simp only [leafCount, Nat.pow_succ] at h
    rcases Nat.lt_or_ge (2 ^ n) (leafCount l) with hl | hl
    · obtain ⟨x, hx, hd⟩ := leafDepths_deep l (d + 1) n hl
      exact ⟨x, by simp [leafDepths, hx], by omega⟩
    · obtain ⟨x, hx, hd⟩ := leafDepths_deep r (d + 1) n (by omega)
      exact ⟨x, by simp [leafDepths, hx], by omega⟩

theorem refLengths_length (w : List Nat) (hw : w ≠ []) : (refLengths w).length = w.length := by
  rw [refLengths, List.length_map, (sortBy_perm _ _).length_eq, leafDepths_length, huffmanTree_leafCount w hw]

/-- More than 2^n weights give a length above n. -/
theorem refLengths_long (w : List Nat) (n : Nat) (h : 2 ^ n < w.length) : ∃ d ∈ refLengths w, n < d := by
  have hw : w ≠ [] := by rintro rfl; simp at h
  obtain ⟨x, hx, hd⟩ := leafDepths_deep (huffmanTree w) 0 n (by rwa [huffmanTree_leafCount w hw])
  exact ⟨x.2, List.mem_map.2 ⟨x, (sortBy_perm _ _).mem_iff.2 hx, rfl⟩, by omega⟩

theorem assignNext_lengths : ∀ (code prev : Nat) (l : List (Nat × Nat)),
    (assignNext code prev l).map (fun x => x.2.length) = l.map Prod.fst
  | _, _, [] => rfl
  | code, prev, (len, s) :: rest => by simp [assignNext, assignNext_lengths _ len rest]

theorem assignCodes_lengths : ∀ l : List (Nat × Nat), (assignCodes l).map (fun x => x.2.length) = l.map Prod.fst
  | [] => rfl
  | (len, s) :: rest => by simp [assignCodes, assignNext_lengths]

/-- The codes have the lengths they are assigned from, in some order. -/
theorem refCodes_lengths (len : List Nat) : ((refCodes len).map List.length).Perm len := by
  have e : (len.zip (List.range len.length)).map Prod.fst = len := List.map_fst_zip (by simp)
  have p := ((sortBy_perm (fun x y : Nat × Bits => Nat.blt x.1 y.1)
    (assignCodes (sortBy pairBefore (len.zip (List.range len.length))))).map (fun x => x.2.length))
  rw [assignCodes_lengths] at p
  have q := p.trans ((sortBy_perm pairBefore (len.zip (List.range len.length))).map Prod.fst)
  rw [e] at q
  simpa [refCodes, List.map_map, Function.comp_def] using q

/-- One code for each weight. -/
theorem referenceBuild_length (w : List Nat) (hw : w ≠ []) : (referenceBuild w).length = w.length := by
  have h := (refCodes_lengths (refLengths w)).length_eq
  rwa [List.length_map, refLengths_length w hw] at h

/-- More than 2^n weights give a code of more than n bits. -/
theorem referenceBuild_long (w : List Nat) (n : Nat) (h : 2 ^ n < w.length) : ∃ c ∈ referenceBuild w, n < c.length := by
  obtain ⟨d, hd, hn⟩ := refLengths_long w n h
  obtain ⟨c, hc, e⟩ := List.mem_map.1 ((refCodes_lengths (refLengths w)).mem_iff.2 hd)
  exact ⟨c, hc, by omega⟩

/-! ### What BUILD can answer -/

theorem prefixFreeTest_iff (codes : List Bits) : prefixFreeTest codes = true ↔ PrefixFree codes := by
  induction codes with
  | nil => simp [prefixFreeTest, PrefixFree]
  | cons c cs ih =>
    simp only [prefixFreeTest, Bool.and_eq_true, ih, PrefixFree, List.pairwise_cons, List.forall_mem_cons,
      List.all_eq_true, bne_iff_ne, Bool.not_eq_true', ← Bool.not_eq_true, List.isPrefixOf_iff_prefix]
    tauto

theorem completeTest_complete (codes : List Bits) : ∀ (fuel : Nat) (p : Bits), completeTest codes fuel p = true →
    ∀ q : Bits, ∃ c ∈ codes, c <+: p ++ q ∨ p ++ q <+: c
  | 0, p, h, q => by
    obtain ⟨c, hc, hp⟩ := List.any_eq_true.1 h
    exact ⟨c, hc, .inl ((List.isPrefixOf_iff_prefix.1 hp).trans (List.prefix_append p q))⟩
  | fuel + 1, p, h, q => by
    simp only [completeTest, Bool.or_eq_true, Bool.and_eq_true, List.any_eq_true, List.isPrefixOf_iff_prefix] at h
    rcases h with ⟨c, hc, hp⟩ | ⟨h0, h1⟩
    · exact ⟨c, hc, .inl (hp.trans (List.prefix_append p q))⟩
    · cases q with
      | nil =>
        obtain ⟨c, hc, hd⟩ := completeTest_complete codes fuel _ h0 []
        rw [List.append_nil] at hd ⊢
        refine ⟨c, hc, ?_⟩
        rcases hd with hd | hd
        · rcases List.prefix_concat_iff.1 hd with e | hd
          · exact .inr (e ▸ List.prefix_append p [false])
          · exact .inl hd
        · exact .inr ((List.prefix_append p [false]).trans hd)
      | cons b q =>
        have hb : completeTest codes fuel (p ++ [b]) = true := by cases b <;> assumption
        simpa using completeTest_complete codes fuel _ hb q

/-- A code table that passes the test has the properties it tests. -/
theorem buildAllowed_spec {w : List Nat} {codes : List Bits} (h : buildAllowed w codes = true) :
    PrefixFree codes ∧ CompleteCode codes ∧ codes.length = w.length ∧ codeCost w codes ≤ codeCost w (referenceBuild w) := by
  simp only [buildAllowed, Bool.and_eq_true, prefixFreeTest_iff, beq_iff_eq, decide_eq_true_eq] at h
  exact ⟨h.1.1.1, completeTest_complete _ _ _ h.1.2, h.1.1.2, h.2⟩

/-- BUILD answers the reference builder's codes, or codes that pass the test. -/
theorem build_cases (b : Builder) (w : List Nat) :
    build b w = referenceBuild w ∨ buildAllowed w (build b w) = true := by
  cases b with
  | reference => exact .inl rfl
  | platform id =>
    simp only [build]
    split
    · rename_i h
      exact .inr h
    · exact .inl rfl

end Sys2Proof.Machine
end

