-- ==== Sys2Proof/Laws/State.lean ====
section
/-! SUPPORT. One lemma for each field under each named update of the state, so that no proof unfolds an update. -/

namespace Sys2Proof.Machine

/-! ### State.complete -/

@[simp] theorem State.complete_ctrl (s : State) (code : Byte) : (s.complete code).ctrl = s.ctrl := rfl
@[simp] theorem State.complete_status (s : State) (code : Byte) :
    (s.complete code).status = statusCompleted s.lost code := rfl
@[simp] theorem State.complete_cmd (s : State) (code : Byte) : (s.complete code).cmd = s.cmd := rfl
@[simp] theorem State.complete_arg0 (s : State) (code : Byte) : (s.complete code).arg0 = s.arg0 := rfl
@[simp] theorem State.complete_arg1 (s : State) (code : Byte) : (s.complete code).arg1 = s.arg1 := rfl
@[simp] theorem State.complete_arg2 (s : State) (code : Byte) : (s.complete code).arg2 = s.arg2 := rfl
@[simp] theorem State.complete_res0 (s : State) (code : Byte) : (s.complete code).res0 = s.res0 := rfl
@[simp] theorem State.complete_res1 (s : State) (code : Byte) : (s.complete code).res1 = s.res1 := rfl
@[simp] theorem State.complete_res2 (s : State) (code : Byte) : (s.complete code).res2 = s.res2 := rfl
@[simp] theorem State.complete_errInfo (s : State) (code : Byte) : (s.complete code).errInfo = s.errInfo := rfl
@[simp] theorem State.complete_srcAddr (s : State) (code : Byte) : (s.complete code).srcAddr = s.srcAddr := rfl
@[simp] theorem State.complete_srcLen (s : State) (code : Byte) : (s.complete code).srcLen = s.srcLen := rfl
@[simp] theorem State.complete_rpos (s : State) (code : Byte) : (s.complete code).rpos = s.rpos := rfl
@[simp] theorem State.complete_dstAddr (s : State) (code : Byte) : (s.complete code).dstAddr = s.dstAddr := rfl
@[simp] theorem State.complete_dstCap (s : State) (code : Byte) : (s.complete code).dstCap = s.dstCap := rfl
@[simp] theorem State.complete_wpos (s : State) (code : Byte) : (s.complete code).wpos = s.wpos := rfl
@[simp] theorem State.complete_slots (s : State) (code : Byte) : (s.complete code).slots = s.slots := rfl
@[simp] theorem State.complete_eng (s : State) (code : Byte) : (s.complete code).eng = Engine.idle := rfl
@[simp] theorem State.complete_mem (s : State) (code : Byte) : (s.complete code).mem = s.mem := rfl
@[simp] theorem State.complete_params (s : State) (code : Byte) : (s.complete code).params = s.params := rfl
@[simp] theorem State.complete_events (s : State) (code : Byte) : (s.complete code).events = s.events := rfl
@[simp] theorem State.complete_hostData (s : State) (code : Byte) : (s.complete code).hostData = s.hostData := rfl
@[simp] theorem State.complete_freeCount (s : State) (code : Byte) : (s.complete code).freeCount = s.freeCount := rfl

/-! ### State.takeError -/

@[simp] theorem State.takeError_ctrl (s : State) (e : Raised) : (s.takeError e).ctrl = s.ctrl := rfl
@[simp] theorem State.takeError_status (s : State) (e : Raised) :
    (s.takeError e).status = statusCompleted s.lost e.code := rfl
@[simp] theorem State.takeError_cmd (s : State) (e : Raised) : (s.takeError e).cmd = s.cmd := rfl
@[simp] theorem State.takeError_arg0 (s : State) (e : Raised) : (s.takeError e).arg0 = s.arg0 := rfl
@[simp] theorem State.takeError_arg1 (s : State) (e : Raised) : (s.takeError e).arg1 = s.arg1 := rfl
@[simp] theorem State.takeError_arg2 (s : State) (e : Raised) : (s.takeError e).arg2 = s.arg2 := rfl
@[simp] theorem State.takeError_res0 (s : State) (e : Raised) : (s.takeError e).res0 = s.res0 := rfl
@[simp] theorem State.takeError_res1 (s : State) (e : Raised) : (s.takeError e).res1 = s.res1 := rfl
@[simp] theorem State.takeError_res2 (s : State) (e : Raised) : (s.takeError e).res2 = s.res2 := rfl
@[simp] theorem State.takeError_errInfo (s : State) (e : Raised) : (s.takeError e).errInfo = word e.info := rfl
@[simp] theorem State.takeError_srcAddr (s : State) (e : Raised) : (s.takeError e).srcAddr = s.srcAddr := rfl
@[simp] theorem State.takeError_srcLen (s : State) (e : Raised) : (s.takeError e).srcLen = s.srcLen := rfl
@[simp] theorem State.takeError_rpos (s : State) (e : Raised) : (s.takeError e).rpos = s.rpos := rfl
@[simp] theorem State.takeError_dstAddr (s : State) (e : Raised) : (s.takeError e).dstAddr = s.dstAddr := rfl
@[simp] theorem State.takeError_dstCap (s : State) (e : Raised) : (s.takeError e).dstCap = s.dstCap := rfl
@[simp] theorem State.takeError_wpos (s : State) (e : Raised) : (s.takeError e).wpos = s.wpos := rfl
@[simp] theorem State.takeError_slots (s : State) (e : Raised) : (s.takeError e).slots = s.slots := rfl
@[simp] theorem State.takeError_eng (s : State) (e : Raised) : (s.takeError e).eng = Engine.idle := rfl
@[simp] theorem State.takeError_mem (s : State) (e : Raised) : (s.takeError e).mem = s.mem := rfl
@[simp] theorem State.takeError_params (s : State) (e : Raised) : (s.takeError e).params = s.params := rfl
@[simp] theorem State.takeError_events (s : State) (e : Raised) : (s.takeError e).events = s.events := rfl
@[simp] theorem State.takeError_hostData (s : State) (e : Raised) : (s.takeError e).hostData = s.hostData := rfl
@[simp] theorem State.takeError_freeCount (s : State) (e : Raised) : (s.takeError e).freeCount = s.freeCount := rfl

/-! ### State.accept -/

@[simp] theorem State.accept_ctrl (s : State) (c : Word) : (s.accept c).ctrl = s.ctrl := rfl
@[simp] theorem State.accept_status (s : State) (c : Word) : (s.accept c).status = statusAccepted s.lost := rfl
@[simp] theorem State.accept_cmd (s : State) (c : Word) : (s.accept c).cmd = c := rfl
@[simp] theorem State.accept_arg0 (s : State) (c : Word) : (s.accept c).arg0 = s.arg0 := rfl
@[simp] theorem State.accept_arg1 (s : State) (c : Word) : (s.accept c).arg1 = s.arg1 := rfl
@[simp] theorem State.accept_arg2 (s : State) (c : Word) : (s.accept c).arg2 = s.arg2 := rfl
@[simp] theorem State.accept_res0 (s : State) (c : Word) : (s.accept c).res0 = s.res0 := rfl
@[simp] theorem State.accept_res1 (s : State) (c : Word) : (s.accept c).res1 = s.res1 := rfl
@[simp] theorem State.accept_res2 (s : State) (c : Word) : (s.accept c).res2 = s.res2 := rfl
@[simp] theorem State.accept_errInfo (s : State) (c : Word) : (s.accept c).errInfo = 0#32 := rfl
@[simp] theorem State.accept_srcAddr (s : State) (c : Word) : (s.accept c).srcAddr = s.srcAddr := rfl
@[simp] theorem State.accept_srcLen (s : State) (c : Word) : (s.accept c).srcLen = s.srcLen := rfl
@[simp] theorem State.accept_rpos (s : State) (c : Word) : (s.accept c).rpos = s.rpos := rfl
@[simp] theorem State.accept_dstAddr (s : State) (c : Word) : (s.accept c).dstAddr = s.dstAddr := rfl
@[simp] theorem State.accept_dstCap (s : State) (c : Word) : (s.accept c).dstCap = s.dstCap := rfl
@[simp] theorem State.accept_wpos (s : State) (c : Word) : (s.accept c).wpos = s.wpos := rfl
@[simp] theorem State.accept_slots (s : State) (c : Word) : (s.accept c).slots = s.slots := rfl
@[simp] theorem State.accept_eng (s : State) (c : Word) : (s.accept c).eng = s.eng := rfl
@[simp] theorem State.accept_mem (s : State) (c : Word) : (s.accept c).mem = s.mem := rfl
@[simp] theorem State.accept_params (s : State) (c : Word) : (s.accept c).params = s.params := rfl
@[simp] theorem State.accept_events (s : State) (c : Word) : (s.accept c).events = s.events := rfl
@[simp] theorem State.accept_hostData (s : State) (c : Word) : (s.accept c).hostData = s.hostData := rfl
@[simp] theorem State.accept_freeCount (s : State) (c : Word) : (s.accept c).freeCount = s.freeCount := rfl

/-! ### State.setLost -/

@[simp] theorem State.setLost_ctrl (s : State) : s.setLost.ctrl = s.ctrl := rfl
@[simp] theorem State.setLost_status (s : State) : s.setLost.status = statusWord s.busy s.done true s.err := rfl
@[simp] theorem State.setLost_cmd (s : State) : s.setLost.cmd = s.cmd := rfl
@[simp] theorem State.setLost_arg0 (s : State) : s.setLost.arg0 = s.arg0 := rfl
@[simp] theorem State.setLost_arg1 (s : State) : s.setLost.arg1 = s.arg1 := rfl
@[simp] theorem State.setLost_arg2 (s : State) : s.setLost.arg2 = s.arg2 := rfl
@[simp] theorem State.setLost_res0 (s : State) : s.setLost.res0 = s.res0 := rfl
@[simp] theorem State.setLost_res1 (s : State) : s.setLost.res1 = s.res1 := rfl
@[simp] theorem State.setLost_res2 (s : State) : s.setLost.res2 = s.res2 := rfl
@[simp] theorem State.setLost_errInfo (s : State) : s.setLost.errInfo = s.errInfo := rfl
@[simp] theorem State.setLost_srcAddr (s : State) : s.setLost.srcAddr = s.srcAddr := rfl
@[simp] theorem State.setLost_srcLen (s : State) : s.setLost.srcLen = s.srcLen := rfl
@[simp] theorem State.setLost_rpos (s : State) : s.setLost.rpos = s.rpos := rfl
@[simp] theorem State.setLost_dstAddr (s : State) : s.setLost.dstAddr = s.dstAddr := rfl
@[simp] theorem State.setLost_dstCap (s : State) : s.setLost.dstCap = s.dstCap := rfl
@[simp] theorem State.setLost_wpos (s : State) : s.setLost.wpos = s.wpos := rfl
@[simp] theorem State.setLost_slots (s : State) : s.setLost.slots = s.slots := rfl
@[simp] theorem State.setLost_eng (s : State) : s.setLost.eng = s.eng := rfl
@[simp] theorem State.setLost_mem (s : State) : s.setLost.mem = s.mem := rfl
@[simp] theorem State.setLost_params (s : State) : s.setLost.params = s.params := rfl
@[simp] theorem State.setLost_events (s : State) : s.setLost.events = s.events := rfl
@[simp] theorem State.setLost_hostData (s : State) : s.setLost.hostData = s.hostData := rfl
@[simp] theorem State.setLost_freeCount (s : State) : s.setLost.freeCount = s.freeCount := rfl

/-! ### State.acknowledge -/

@[simp] theorem State.acknowledge_ctrl (s : State) (v : Word) : (s.acknowledge v).ctrl = s.ctrl := rfl
@[simp] theorem State.acknowledge_status (s : State) (v : Word) :
    (s.acknowledge v).status = statusWord s.busy (s.done && !v.getLsbD 1) (s.lost && !v.getLsbD 2) s.err := rfl
@[simp] theorem State.acknowledge_cmd (s : State) (v : Word) : (s.acknowledge v).cmd = s.cmd := rfl
@[simp] theorem State.acknowledge_arg0 (s : State) (v : Word) : (s.acknowledge v).arg0 = s.arg0 := rfl
@[simp] theorem State.acknowledge_arg1 (s : State) (v : Word) : (s.acknowledge v).arg1 = s.arg1 := rfl
@[simp] theorem State.acknowledge_arg2 (s : State) (v : Word) : (s.acknowledge v).arg2 = s.arg2 := rfl
@[simp] theorem State.acknowledge_res0 (s : State) (v : Word) : (s.acknowledge v).res0 = s.res0 := rfl
@[simp] theorem State.acknowledge_res1 (s : State) (v : Word) : (s.acknowledge v).res1 = s.res1 := rfl
@[simp] theorem State.acknowledge_res2 (s : State) (v : Word) : (s.acknowledge v).res2 = s.res2 := rfl
@[simp] theorem State.acknowledge_errInfo (s : State) (v : Word) : (s.acknowledge v).errInfo = s.errInfo := rfl
@[simp] theorem State.acknowledge_srcAddr (s : State) (v : Word) : (s.acknowledge v).srcAddr = s.srcAddr := rfl
@[simp] theorem State.acknowledge_srcLen (s : State) (v : Word) : (s.acknowledge v).srcLen = s.srcLen := rfl
@[simp] theorem State.acknowledge_rpos (s : State) (v : Word) : (s.acknowledge v).rpos = s.rpos := rfl
@[simp] theorem State.acknowledge_dstAddr (s : State) (v : Word) : (s.acknowledge v).dstAddr = s.dstAddr := rfl
@[simp] theorem State.acknowledge_dstCap (s : State) (v : Word) : (s.acknowledge v).dstCap = s.dstCap := rfl
@[simp] theorem State.acknowledge_wpos (s : State) (v : Word) : (s.acknowledge v).wpos = s.wpos := rfl
@[simp] theorem State.acknowledge_slots (s : State) (v : Word) : (s.acknowledge v).slots = s.slots := rfl
@[simp] theorem State.acknowledge_eng (s : State) (v : Word) : (s.acknowledge v).eng = s.eng := rfl
@[simp] theorem State.acknowledge_mem (s : State) (v : Word) : (s.acknowledge v).mem = s.mem := rfl
@[simp] theorem State.acknowledge_params (s : State) (v : Word) : (s.acknowledge v).params = s.params := rfl
@[simp] theorem State.acknowledge_events (s : State) (v : Word) : (s.acknowledge v).events = s.events := rfl
@[simp] theorem State.acknowledge_hostData (s : State) (v : Word) : (s.acknowledge v).hostData = s.hostData := rfl
@[simp] theorem State.acknowledge_freeCount (s : State) (v : Word) : (s.acknowledge v).freeCount = s.freeCount := rfl

/-! ### State.writeCtrl -/

@[simp] theorem State.writeCtrl_ctrl (s : State) (v : Word) : (s.writeCtrl v).ctrl = v &&& 1#32 := rfl
@[simp] theorem State.writeCtrl_status (s : State) (v : Word) : (s.writeCtrl v).status = s.status := rfl
@[simp] theorem State.writeCtrl_cmd (s : State) (v : Word) : (s.writeCtrl v).cmd = s.cmd := rfl
@[simp] theorem State.writeCtrl_arg0 (s : State) (v : Word) : (s.writeCtrl v).arg0 = s.arg0 := rfl
@[simp] theorem State.writeCtrl_arg1 (s : State) (v : Word) : (s.writeCtrl v).arg1 = s.arg1 := rfl
@[simp] theorem State.writeCtrl_arg2 (s : State) (v : Word) : (s.writeCtrl v).arg2 = s.arg2 := rfl
@[simp] theorem State.writeCtrl_res0 (s : State) (v : Word) : (s.writeCtrl v).res0 = s.res0 := rfl
@[simp] theorem State.writeCtrl_res1 (s : State) (v : Word) : (s.writeCtrl v).res1 = s.res1 := rfl
@[simp] theorem State.writeCtrl_res2 (s : State) (v : Word) : (s.writeCtrl v).res2 = s.res2 := rfl
@[simp] theorem State.writeCtrl_errInfo (s : State) (v : Word) : (s.writeCtrl v).errInfo = s.errInfo := rfl
@[simp] theorem State.writeCtrl_srcAddr (s : State) (v : Word) : (s.writeCtrl v).srcAddr = s.srcAddr := rfl
@[simp] theorem State.writeCtrl_srcLen (s : State) (v : Word) : (s.writeCtrl v).srcLen = s.srcLen := rfl
@[simp] theorem State.writeCtrl_rpos (s : State) (v : Word) : (s.writeCtrl v).rpos = s.rpos := rfl
@[simp] theorem State.writeCtrl_dstAddr (s : State) (v : Word) : (s.writeCtrl v).dstAddr = s.dstAddr := rfl
@[simp] theorem State.writeCtrl_dstCap (s : State) (v : Word) : (s.writeCtrl v).dstCap = s.dstCap := rfl
@[simp] theorem State.writeCtrl_wpos (s : State) (v : Word) : (s.writeCtrl v).wpos = s.wpos := rfl
@[simp] theorem State.writeCtrl_slots (s : State) (v : Word) : (s.writeCtrl v).slots = s.slots := rfl
@[simp] theorem State.writeCtrl_eng (s : State) (v : Word) : (s.writeCtrl v).eng = s.eng := rfl
@[simp] theorem State.writeCtrl_mem (s : State) (v : Word) : (s.writeCtrl v).mem = s.mem := rfl
@[simp] theorem State.writeCtrl_params (s : State) (v : Word) : (s.writeCtrl v).params = s.params := rfl
@[simp] theorem State.writeCtrl_events (s : State) (v : Word) : (s.writeCtrl v).events = s.events := rfl
@[simp] theorem State.writeCtrl_hostData (s : State) (v : Word) : (s.writeCtrl v).hostData = s.hostData := rfl
@[simp] theorem State.writeCtrl_freeCount (s : State) (v : Word) : (s.writeCtrl v).freeCount = s.freeCount := rfl

/-! ### State.emit -/

@[simp] theorem State.emit_ctrl (s : State) (bs : Bits) : (s.emit bs).ctrl = s.ctrl := rfl
@[simp] theorem State.emit_status (s : State) (bs : Bits) : (s.emit bs).status = s.status := rfl
@[simp] theorem State.emit_cmd (s : State) (bs : Bits) : (s.emit bs).cmd = s.cmd := rfl
@[simp] theorem State.emit_arg0 (s : State) (bs : Bits) : (s.emit bs).arg0 = s.arg0 := rfl
@[simp] theorem State.emit_arg1 (s : State) (bs : Bits) : (s.emit bs).arg1 = s.arg1 := rfl
@[simp] theorem State.emit_arg2 (s : State) (bs : Bits) : (s.emit bs).arg2 = s.arg2 := rfl
@[simp] theorem State.emit_res0 (s : State) (bs : Bits) : (s.emit bs).res0 = s.res0 := rfl
@[simp] theorem State.emit_res1 (s : State) (bs : Bits) : (s.emit bs).res1 = s.res1 := rfl
@[simp] theorem State.emit_res2 (s : State) (bs : Bits) : (s.emit bs).res2 = s.res2 := rfl
@[simp] theorem State.emit_errInfo (s : State) (bs : Bits) : (s.emit bs).errInfo = s.errInfo := rfl
@[simp] theorem State.emit_srcAddr (s : State) (bs : Bits) : (s.emit bs).srcAddr = s.srcAddr := rfl
@[simp] theorem State.emit_srcLen (s : State) (bs : Bits) : (s.emit bs).srcLen = s.srcLen := rfl
@[simp] theorem State.emit_rpos (s : State) (bs : Bits) : (s.emit bs).rpos = s.rpos := rfl
@[simp] theorem State.emit_dstAddr (s : State) (bs : Bits) : (s.emit bs).dstAddr = s.dstAddr := rfl
@[simp] theorem State.emit_dstCap (s : State) (bs : Bits) : (s.emit bs).dstCap = s.dstCap := rfl
@[simp] theorem State.emit_wpos (s : State) (bs : Bits) : (s.emit bs).wpos = word (s.wpos.toNat + bs.length) := rfl
@[simp] theorem State.emit_slots (s : State) (bs : Bits) : (s.emit bs).slots = s.slots := rfl
@[simp] theorem State.emit_eng (s : State) (bs : Bits) : (s.emit bs).eng = s.eng := rfl
@[simp] theorem State.emit_mem (s : State) (bs : Bits) :
    (s.emit bs).mem = storeBits s.dstAddr.toNat s.wpos.toNat bs s.mem := rfl
@[simp] theorem State.emit_params (s : State) (bs : Bits) : (s.emit bs).params = s.params := rfl
@[simp] theorem State.emit_events (s : State) (bs : Bits) : (s.emit bs).events = s.events := rfl
@[simp] theorem State.emit_hostData (s : State) (bs : Bits) : (s.emit bs).hostData = s.hostData := rfl
@[simp] theorem State.emit_freeCount (s : State) (bs : Bits) : (s.emit bs).freeCount = s.freeCount := rfl

/-! ### State.skip -/

@[simp] theorem State.skip_ctrl (s : State) (n : Nat) : (s.skip n).ctrl = s.ctrl := rfl
@[simp] theorem State.skip_status (s : State) (n : Nat) : (s.skip n).status = s.status := rfl
@[simp] theorem State.skip_cmd (s : State) (n : Nat) : (s.skip n).cmd = s.cmd := rfl
@[simp] theorem State.skip_arg0 (s : State) (n : Nat) : (s.skip n).arg0 = s.arg0 := rfl
@[simp] theorem State.skip_arg1 (s : State) (n : Nat) : (s.skip n).arg1 = s.arg1 := rfl
@[simp] theorem State.skip_arg2 (s : State) (n : Nat) : (s.skip n).arg2 = s.arg2 := rfl
@[simp] theorem State.skip_res0 (s : State) (n : Nat) : (s.skip n).res0 = s.res0 := rfl
@[simp] theorem State.skip_res1 (s : State) (n : Nat) : (s.skip n).res1 = s.res1 := rfl
@[simp] theorem State.skip_res2 (s : State) (n : Nat) : (s.skip n).res2 = s.res2 := rfl
@[simp] theorem State.skip_errInfo (s : State) (n : Nat) : (s.skip n).errInfo = s.errInfo := rfl
@[simp] theorem State.skip_srcAddr (s : State) (n : Nat) : (s.skip n).srcAddr = s.srcAddr := rfl
@[simp] theorem State.skip_srcLen (s : State) (n : Nat) : (s.skip n).srcLen = s.srcLen := rfl
@[simp] theorem State.skip_rpos (s : State) (n : Nat) : (s.skip n).rpos = word (s.rpos.toNat + n) := rfl
@[simp] theorem State.skip_dstAddr (s : State) (n : Nat) : (s.skip n).dstAddr = s.dstAddr := rfl
@[simp] theorem State.skip_dstCap (s : State) (n : Nat) : (s.skip n).dstCap = s.dstCap := rfl
@[simp] theorem State.skip_wpos (s : State) (n : Nat) : (s.skip n).wpos = s.wpos := rfl
@[simp] theorem State.skip_slots (s : State) (n : Nat) : (s.skip n).slots = s.slots := rfl
@[simp] theorem State.skip_eng (s : State) (n : Nat) : (s.skip n).eng = s.eng := rfl
@[simp] theorem State.skip_mem (s : State) (n : Nat) : (s.skip n).mem = s.mem := rfl
@[simp] theorem State.skip_params (s : State) (n : Nat) : (s.skip n).params = s.params := rfl
@[simp] theorem State.skip_events (s : State) (n : Nat) : (s.skip n).events = s.events := rfl
@[simp] theorem State.skip_hostData (s : State) (n : Nat) : (s.skip n).hostData = s.hostData := rfl
@[simp] theorem State.skip_freeCount (s : State) (n : Nat) : (s.skip n).freeCount = s.freeCount := rfl

/-! ### State.produced -/

@[simp] theorem State.produced_ctrl (s : State) (r : Nat) (bs : Bits) (n : Nat) :
    (s.produced r bs n).ctrl = s.ctrl := rfl
@[simp] theorem State.produced_status (s : State) (r : Nat) (bs : Bits) (n : Nat) :
    (s.produced r bs n).status = s.status := rfl
@[simp] theorem State.produced_cmd (s : State) (r : Nat) (bs : Bits) (n : Nat) :
    (s.produced r bs n).cmd = s.cmd := rfl
@[simp] theorem State.produced_arg0 (s : State) (r : Nat) (bs : Bits) (n : Nat) :
    (s.produced r bs n).arg0 = s.arg0 := rfl
@[simp] theorem State.produced_arg1 (s : State) (r : Nat) (bs : Bits) (n : Nat) :
    (s.produced r bs n).arg1 = s.arg1 := rfl
@[simp] theorem State.produced_arg2 (s : State) (r : Nat) (bs : Bits) (n : Nat) :
    (s.produced r bs n).arg2 = s.arg2 := rfl
@[simp] theorem State.produced_res0 (s : State) (r : Nat) (bs : Bits) (n : Nat) :
    (s.produced r bs n).res0 = word n := rfl
@[simp] theorem State.produced_res1 (s : State) (r : Nat) (bs : Bits) (n : Nat) :
    (s.produced r bs n).res1 = s.res1 := rfl
@[simp] theorem State.produced_res2 (s : State) (r : Nat) (bs : Bits) (n : Nat) :
    (s.produced r bs n).res2 = s.res2 := rfl
@[simp] theorem State.produced_errInfo (s : State) (r : Nat) (bs : Bits) (n : Nat) :
    (s.produced r bs n).errInfo = s.errInfo := rfl
@[simp] theorem State.produced_srcAddr (s : State) (r : Nat) (bs : Bits) (n : Nat) :
    (s.produced r bs n).srcAddr = s.srcAddr := rfl
@[simp] theorem State.produced_srcLen (s : State) (r : Nat) (bs : Bits) (n : Nat) :
    (s.produced r bs n).srcLen = s.srcLen := rfl
@[simp] theorem State.produced_rpos (s : State) (r : Nat) (bs : Bits) (n : Nat) :
    (s.produced r bs n).rpos = word r := rfl
@[simp] theorem State.produced_dstAddr (s : State) (r : Nat) (bs : Bits) (n : Nat) :
    (s.produced r bs n).dstAddr = s.dstAddr := rfl
@[simp] theorem State.produced_dstCap (s : State) (r : Nat) (bs : Bits) (n : Nat) :
    (s.produced r bs n).dstCap = s.dstCap := rfl
@[simp] theorem State.produced_wpos (s : State) (r : Nat) (bs : Bits) (n : Nat) :
    (s.produced r bs n).wpos = word bs.length := rfl
@[simp] theorem State.produced_slots (s : State) (r : Nat) (bs : Bits) (n : Nat) :
    (s.produced r bs n).slots = s.slots := rfl
@[simp] theorem State.produced_eng (s : State) (r : Nat) (bs : Bits) (n : Nat) :
    (s.produced r bs n).eng = s.eng := rfl
@[simp] theorem State.produced_mem (s : State) (r : Nat) (bs : Bits) (n : Nat) :
    (s.produced r bs n).mem = storeBits s.dstAddr.toNat 0 bs s.mem := rfl
@[simp] theorem State.produced_params (s : State) (r : Nat) (bs : Bits) (n : Nat) :
    (s.produced r bs n).params = s.params := rfl
@[simp] theorem State.produced_events (s : State) (r : Nat) (bs : Bits) (n : Nat) :
    (s.produced r bs n).events = s.events := rfl
@[simp] theorem State.produced_hostData (s : State) (r : Nat) (bs : Bits) (n : Nat) :
    (s.produced r bs n).hostData = s.hostData := rfl
@[simp] theorem State.produced_freeCount (s : State) (r : Nat) (bs : Bits) (n : Nat) :
    (s.produced r bs n).freeCount = s.freeCount := rfl

/-! ### walkReport -/

@[simp] theorem walkReport_ctrl (s : State) : (walkReport s).ctrl = s.ctrl := rfl
@[simp] theorem walkReport_status (s : State) : (walkReport s).status = s.status := rfl
@[simp] theorem walkReport_cmd (s : State) : (walkReport s).cmd = s.cmd := rfl
@[simp] theorem walkReport_arg0 (s : State) : (walkReport s).arg0 = s.arg0 := rfl
@[simp] theorem walkReport_arg1 (s : State) : (walkReport s).arg1 = s.arg1 := rfl
@[simp] theorem walkReport_arg2 (s : State) : (walkReport s).arg2 = s.arg2 := rfl
@[simp] theorem walkReport_res0 (s : State) : (walkReport s).res0 = word s.outputBytes := rfl
@[simp] theorem walkReport_res1 (s : State) : (walkReport s).res1 = word s.eng.requested := rfl
@[simp] theorem walkReport_res2 (s : State) : (walkReport s).res2 = word s.eng.completed := rfl
@[simp] theorem walkReport_errInfo (s : State) : (walkReport s).errInfo = s.errInfo := rfl
@[simp] theorem walkReport_srcAddr (s : State) : (walkReport s).srcAddr = s.srcAddr := rfl
@[simp] theorem walkReport_srcLen (s : State) : (walkReport s).srcLen = s.srcLen := rfl
@[simp] theorem walkReport_rpos (s : State) : (walkReport s).rpos = s.rpos := rfl
@[simp] theorem walkReport_dstAddr (s : State) : (walkReport s).dstAddr = s.dstAddr := rfl
@[simp] theorem walkReport_dstCap (s : State) : (walkReport s).dstCap = s.dstCap := rfl
@[simp] theorem walkReport_wpos (s : State) : (walkReport s).wpos = s.wpos := rfl
@[simp] theorem walkReport_slots (s : State) : (walkReport s).slots = s.slots := rfl
@[simp] theorem walkReport_eng (s : State) : (walkReport s).eng = s.eng := rfl
@[simp] theorem walkReport_mem (s : State) : (walkReport s).mem = s.mem := rfl
@[simp] theorem walkReport_params (s : State) : (walkReport s).params = s.params := rfl
@[simp] theorem walkReport_events (s : State) : (walkReport s).events = s.events := rfl
@[simp] theorem walkReport_hostData (s : State) : (walkReport s).hostData = s.hostData := rfl
@[simp] theorem walkReport_freeCount (s : State) : (walkReport s).freeCount = s.freeCount := rfl

/-! ### blockReport -/

@[simp] theorem blockReport_ctrl (s : State) : (blockReport s).ctrl = s.ctrl := rfl
@[simp] theorem blockReport_status (s : State) : (blockReport s).status = s.status := rfl
@[simp] theorem blockReport_cmd (s : State) : (blockReport s).cmd = s.cmd := rfl
@[simp] theorem blockReport_arg0 (s : State) : (blockReport s).arg0 = s.arg0 := rfl
@[simp] theorem blockReport_arg1 (s : State) : (blockReport s).arg1 = s.arg1 := rfl
@[simp] theorem blockReport_arg2 (s : State) : (blockReport s).arg2 = s.arg2 := rfl
@[simp] theorem blockReport_res0 (s : State) : (blockReport s).res0 = word s.outputBytes := rfl
@[simp] theorem blockReport_res1 (s : State) : (blockReport s).res1 = s.res1 := rfl
@[simp] theorem blockReport_res2 (s : State) : (blockReport s).res2 = s.res2 := rfl
@[simp] theorem blockReport_errInfo (s : State) : (blockReport s).errInfo = s.errInfo := rfl
@[simp] theorem blockReport_srcAddr (s : State) : (blockReport s).srcAddr = s.srcAddr := rfl
@[simp] theorem blockReport_srcLen (s : State) : (blockReport s).srcLen = s.srcLen := rfl
@[simp] theorem blockReport_rpos (s : State) : (blockReport s).rpos = s.rpos := rfl
@[simp] theorem blockReport_dstAddr (s : State) : (blockReport s).dstAddr = s.dstAddr := rfl
@[simp] theorem blockReport_dstCap (s : State) : (blockReport s).dstCap = s.dstCap := rfl
@[simp] theorem blockReport_wpos (s : State) : (blockReport s).wpos = s.wpos := rfl
@[simp] theorem blockReport_slots (s : State) : (blockReport s).slots = s.slots := rfl
@[simp] theorem blockReport_eng (s : State) : (blockReport s).eng = s.eng := rfl
@[simp] theorem blockReport_mem (s : State) : (blockReport s).mem = s.mem := rfl
@[simp] theorem blockReport_params (s : State) : (blockReport s).params = s.params := rfl
@[simp] theorem blockReport_events (s : State) : (blockReport s).events = s.events := rfl
@[simp] theorem blockReport_hostData (s : State) : (blockReport s).hostData = s.hostData := rfl
@[simp] theorem blockReport_freeCount (s : State) : (blockReport s).freeCount = s.freeCount := rfl

/-! ### lzCompReport -/

@[simp] theorem lzCompReport_ctrl (s : State) : (lzCompReport s).ctrl = s.ctrl := rfl
@[simp] theorem lzCompReport_status (s : State) : (lzCompReport s).status = s.status := rfl
@[simp] theorem lzCompReport_cmd (s : State) : (lzCompReport s).cmd = s.cmd := rfl
@[simp] theorem lzCompReport_arg0 (s : State) : (lzCompReport s).arg0 = s.arg0 := rfl
@[simp] theorem lzCompReport_arg1 (s : State) : (lzCompReport s).arg1 = s.arg1 := rfl
@[simp] theorem lzCompReport_arg2 (s : State) : (lzCompReport s).arg2 = s.arg2 := rfl
@[simp] theorem lzCompReport_res0 (s : State) : (lzCompReport s).res0 = word s.outputBytes := rfl
@[simp] theorem lzCompReport_res1 (s : State) : (lzCompReport s).res1 = word s.eng.substitutions := rfl
@[simp] theorem lzCompReport_res2 (s : State) : (lzCompReport s).res2 = word s.eng.literals := rfl
@[simp] theorem lzCompReport_errInfo (s : State) : (lzCompReport s).errInfo = s.errInfo := rfl
@[simp] theorem lzCompReport_srcAddr (s : State) : (lzCompReport s).srcAddr = s.srcAddr := rfl
@[simp] theorem lzCompReport_srcLen (s : State) : (lzCompReport s).srcLen = s.srcLen := rfl
@[simp] theorem lzCompReport_rpos (s : State) : (lzCompReport s).rpos = s.rpos := rfl
@[simp] theorem lzCompReport_dstAddr (s : State) : (lzCompReport s).dstAddr = s.dstAddr := rfl
@[simp] theorem lzCompReport_dstCap (s : State) : (lzCompReport s).dstCap = s.dstCap := rfl
@[simp] theorem lzCompReport_wpos (s : State) : (lzCompReport s).wpos = s.wpos := rfl
@[simp] theorem lzCompReport_slots (s : State) : (lzCompReport s).slots = s.slots := rfl
@[simp] theorem lzCompReport_eng (s : State) : (lzCompReport s).eng = s.eng := rfl
@[simp] theorem lzCompReport_mem (s : State) : (lzCompReport s).mem = s.mem := rfl
@[simp] theorem lzCompReport_params (s : State) : (lzCompReport s).params = s.params := rfl
@[simp] theorem lzCompReport_events (s : State) : (lzCompReport s).events = s.events := rfl
@[simp] theorem lzCompReport_hostData (s : State) : (lzCompReport s).hostData = s.hostData := rfl
@[simp] theorem lzCompReport_freeCount (s : State) : (lzCompReport s).freeCount = s.freeCount := rfl

/-! ### lzDecompReport -/

@[simp] theorem lzDecompReport_ctrl (s : State) : (lzDecompReport s).ctrl = s.ctrl := rfl
@[simp] theorem lzDecompReport_status (s : State) : (lzDecompReport s).status = s.status := rfl
@[simp] theorem lzDecompReport_cmd (s : State) : (lzDecompReport s).cmd = s.cmd := rfl
@[simp] theorem lzDecompReport_arg0 (s : State) : (lzDecompReport s).arg0 = s.arg0 := rfl
@[simp] theorem lzDecompReport_arg1 (s : State) : (lzDecompReport s).arg1 = s.arg1 := rfl
@[simp] theorem lzDecompReport_arg2 (s : State) : (lzDecompReport s).arg2 = s.arg2 := rfl
@[simp] theorem lzDecompReport_res0 (s : State) : (lzDecompReport s).res0 = word s.outputBytes := rfl
@[simp] theorem lzDecompReport_res1 (s : State) : (lzDecompReport s).res1 = s.res1 := rfl
@[simp] theorem lzDecompReport_res2 (s : State) : (lzDecompReport s).res2 = s.res2 := rfl
@[simp] theorem lzDecompReport_errInfo (s : State) : (lzDecompReport s).errInfo = s.errInfo := rfl
@[simp] theorem lzDecompReport_srcAddr (s : State) : (lzDecompReport s).srcAddr = s.srcAddr := rfl
@[simp] theorem lzDecompReport_srcLen (s : State) : (lzDecompReport s).srcLen = s.srcLen := rfl
@[simp] theorem lzDecompReport_rpos (s : State) : (lzDecompReport s).rpos = s.rpos := rfl
@[simp] theorem lzDecompReport_dstAddr (s : State) : (lzDecompReport s).dstAddr = s.dstAddr := rfl
@[simp] theorem lzDecompReport_dstCap (s : State) : (lzDecompReport s).dstCap = s.dstCap := rfl
@[simp] theorem lzDecompReport_wpos (s : State) : (lzDecompReport s).wpos = s.wpos := rfl
@[simp] theorem lzDecompReport_slots (s : State) : (lzDecompReport s).slots = s.slots := rfl
@[simp] theorem lzDecompReport_eng (s : State) : (lzDecompReport s).eng = s.eng := rfl
@[simp] theorem lzDecompReport_mem (s : State) : (lzDecompReport s).mem = s.mem := rfl
@[simp] theorem lzDecompReport_params (s : State) : (lzDecompReport s).params = s.params := rfl
@[simp] theorem lzDecompReport_events (s : State) : (lzDecompReport s).events = s.events := rfl
@[simp] theorem lzDecompReport_hostData (s : State) : (lzDecompReport s).hostData = s.hostData := rfl
@[simp] theorem lzDecompReport_freeCount (s : State) : (lzDecompReport s).freeCount = s.freeCount := rfl

/-! ### Slots -/

@[simp] theorem State.slot_set_same (s : State) (k : Fin 16) (sl : Slot) :
    ({ s with slots := s.slots.set k sl } : State).slot k = sl := by
  simp [State.slot]

theorem State.slot_set_other (s : State) (k j : Fin 16) (sl : Slot) (h : j ≠ k) :
    ({ s with slots := s.slots.set k sl } : State).slot j = s.slot j := by
  have hv : k.val ≠ j.val := fun e => h (Fin.ext e.symm)
  simp [State.slot, hv]

/-! ### State.check -/

@[simp] theorem State.check_ctrl (s : State) : s.check.ctrl = s.ctrl := rfl
@[simp] theorem State.check_status (s : State) : s.check.status = s.status := rfl
@[simp] theorem State.check_cmd (s : State) : s.check.cmd = s.cmd := rfl
@[simp] theorem State.check_arg0 (s : State) : s.check.arg0 = s.arg0 := rfl
@[simp] theorem State.check_arg1 (s : State) : s.check.arg1 = s.arg1 := rfl
@[simp] theorem State.check_arg2 (s : State) : s.check.arg2 = s.arg2 := rfl
@[simp] theorem State.check_res0 (s : State) : s.check.res0 = s.res0 := rfl
@[simp] theorem State.check_res1 (s : State) : s.check.res1 = s.res1 := rfl
@[simp] theorem State.check_res2 (s : State) : s.check.res2 = s.res2 := rfl
@[simp] theorem State.check_errInfo (s : State) : s.check.errInfo = s.errInfo := rfl
@[simp] theorem State.check_srcAddr (s : State) : s.check.srcAddr = s.srcAddr := rfl
@[simp] theorem State.check_srcLen (s : State) : s.check.srcLen = s.srcLen := rfl
@[simp] theorem State.check_rpos (s : State) : s.check.rpos = s.rpos := rfl
@[simp] theorem State.check_dstAddr (s : State) : s.check.dstAddr = s.dstAddr := rfl
@[simp] theorem State.check_dstCap (s : State) : s.check.dstCap = s.dstCap := rfl
@[simp] theorem State.check_wpos (s : State) : s.check.wpos = s.wpos := rfl
@[simp] theorem State.check_slots (s : State) : s.check.slots = s.slots := rfl
@[simp] theorem State.check_eng (s : State) : s.check.eng = s.eng := rfl
@[simp] theorem State.check_mem (s : State) : s.check.mem = s.mem := rfl
@[simp] theorem State.check_params (s : State) : s.check.params = s.params := rfl
@[simp] theorem State.check_freeCount (s : State) : s.check.freeCount = s.freeCount := rfl
@[simp] theorem State.check_hostData (s : State) : s.check.hostData = busBytes s.status := rfl
@[simp] theorem State.check_events (s : State) :
    s.check.events = if checkFails s.status then s.events.dropWhile (· != .reset) else s.events := rfl

/-- A `CHECK` that finds no error is the host's read of STATUS (30_encoding.md R98). -/
theorem State.check_of_ok {s : State} (h : s.err = 0#8) : s.check = s.readReg 0x08 := by
  have hf : checkFails s.status = false := by simpa [checkFails, State.err] using h
  have hu : unstableWhileBusy 0x08 = false := by decide
  simp [State.check, State.readReg, hf, hu, State.regValue]

/-- A `CHECK` that finds an error ends a program: in a list with no reset input, nothing comes after it
(30_encoding.md R98). -/
theorem State.check_of_error {s : State} (h : s.err ≠ 0#8) (hr : Event.reset ∉ s.events) :
    s.check = { s with hostData := busBytes s.status, events := [] } := by
  have hf : checkFails s.status = true := by simpa [checkFails, State.err] using h
  have hd : s.events.dropWhile (· != .reset) = [] := by
    rw [List.dropWhile_eq_nil_iff]
    exact fun e he => bne_iff_ne.2 fun hc => hr (hc ▸ he)
  simp [State.check, hf, hd]

end Sys2Proof.Machine
end

