-- ==== Sys2Proof/Laws/Flags.lean ====
section
/-! SUPPORT. The fields of a STATUS word, and the flags after each update. -/

namespace Sys2Proof.Machine

/-- The bits of a STATUS word, one by one. -/
theorem statusWord_getLsbD (busy done lost : Bool) (err : Byte) (i : Nat) :
    (statusWord busy done lost err).getLsbD i =
      if i = 0 then busy else if i = 1 then done else if i = 2 then lost
      else if 8 ≤ i ∧ i < 16 then err.getLsbD (i - 8) else false := by
  simp only [statusWord, BitVec.getLsbD_append, BitVec.getLsbD_ofBool, BitVec.getLsbD_zero]
  by_cases h : i < 16
  · interval_cases i <;> simp
  · have h0 : i ≠ 0 := by omega
    have h1 : i ≠ 1 := by omega
    have h2 : i ≠ 2 := by omega
    have a1 : ¬ i < 1 := by omega
    have a2 : ¬ i - 1 < 1 := by omega
    have a3 : ¬ i - 1 - 1 < 1 := by omega
    have a4 : ¬ i - 1 - 1 - 1 < 5 := by omega
    have a5 : ¬ i - 1 - 1 - 1 - 5 < 8 := by omega
    simp [h0, h1, h2, h, a1, a2, a3, a4, a5]

@[simp] theorem statusWord_busy (busy done lost : Bool) (err : Byte) :
    (statusWord busy done lost err)[0] = busy := by simp [← BitVec.getLsbD_eq_getElem, statusWord_getLsbD]

@[simp] theorem statusWord_done (busy done lost : Bool) (err : Byte) :
    (statusWord busy done lost err)[1] = done := by simp [← BitVec.getLsbD_eq_getElem, statusWord_getLsbD]

@[simp] theorem statusWord_lost (busy done lost : Bool) (err : Byte) :
    (statusWord busy done lost err)[2] = lost := by simp [← BitVec.getLsbD_eq_getElem, statusWord_getLsbD]

@[simp] theorem statusWord_err (busy done lost : Bool) (err : Byte) :
    (statusWord busy done lost err).extractLsb' 8 8 = err := by
  apply BitVec.eq_of_getLsbD_eq
  intro i hi
  have h1 : 8 + i ≠ 1 := by omega
  have h2 : 8 + i ≠ 2 := by omega
  have h4 : 8 + i < 16 := by omega
  simp [statusWord_getLsbD, hi, h1, h2, h4]

/-! ### Flags after completion, acceptance and host writes -/

@[simp] theorem State.complete_busy (s : State) (code : Byte) : (s.complete code).busy = false := by
  simp [State.busy, statusCompleted]

@[simp] theorem State.complete_done (s : State) (code : Byte) : (s.complete code).done = true := by
  simp [State.done, statusCompleted]

@[simp] theorem State.complete_lost (s : State) (code : Byte) : (s.complete code).lost = s.lost := by
  conv_lhs => unfold State.lost
  simp [statusCompleted]

@[simp] theorem State.complete_err (s : State) (code : Byte) : (s.complete code).err = code := by
  simp [State.err, statusCompleted]

@[simp] theorem State.takeError_busy (s : State) (e : Raised) : (s.takeError e).busy = false := by
  simp [State.busy, statusCompleted]

@[simp] theorem State.takeError_done (s : State) (e : Raised) : (s.takeError e).done = true := by
  simp [State.done, statusCompleted]

@[simp] theorem State.takeError_lost (s : State) (e : Raised) : (s.takeError e).lost = s.lost := by
  conv_lhs => unfold State.lost
  simp [statusCompleted]

@[simp] theorem State.takeError_err (s : State) (e : Raised) : (s.takeError e).err = e.code := by
  simp [State.err, statusCompleted]

@[simp] theorem State.accept_busy (s : State) (c : Word) : (s.accept c).busy = true := by
  simp [State.busy, statusAccepted]

@[simp] theorem State.accept_done (s : State) (c : Word) : (s.accept c).done = false := by
  simp [State.done, statusAccepted]

@[simp] theorem State.accept_lost (s : State) (c : Word) : (s.accept c).lost = s.lost := by
  conv_lhs => unfold State.lost
  simp [statusAccepted]

@[simp] theorem State.accept_err (s : State) (c : Word) : (s.accept c).err = 0#8 := by
  simp [State.err, statusAccepted]

@[simp] theorem State.setLost_lost (s : State) : s.setLost.lost = true := by
  simp [State.lost]

@[simp] theorem State.setLost_busy (s : State) : s.setLost.busy = s.busy := by
  conv_lhs => unfold State.busy
  simp

@[simp] theorem State.setLost_done (s : State) : s.setLost.done = s.done := by
  conv_lhs => unfold State.done
  simp

@[simp] theorem State.setLost_err (s : State) : s.setLost.err = s.err := by
  conv_lhs => unfold State.err
  simp

end Sys2Proof.Machine
end

