-- ==== Sys2Proof/Laws/Memory.lean ====
section
/-! SUPPORT. The shared memory: reading after writing, the canonical form that every memory operation keeps, and that
canonical memories with the same bytes are equal. -/

namespace Sys2Proof.Machine

@[simp] theorem Memory.read_nil (a : Nat) : Memory.read [] a = memDefault := rfl

theorem Memory.read_cons (b : Nat) (w : Byte) (m : Memory) (a : Nat) :
    Memory.read ((b, w) :: m) a = if a = b then w else Memory.read m a := rfl

/-- The canonical form, cell by cell. -/
theorem Memory.wf_cons (a : Nat) (v : Byte) (m : Memory) :
    Memory.wf ((a, v) :: m) = true ↔
      a < 2 ^ 32 ∧ v ≠ memDefault ∧ (∀ c ∈ m, a < c.1) ∧ Memory.wf m = true := by
  simp [Memory.wf, and_assoc]

/-- An address below every listed one is not listed. -/
theorem Memory.read_of_lt (m : Memory) (a : Nat) (h : ∀ c ∈ m, a < c.1) : Memory.read m a = memDefault := by
  induction m with
  | nil => rfl
  | cons c m ih =>
    obtain ⟨b, w⟩ := c
    have hb : a < b := h (b, w) (by simp)
    rw [Memory.read_cons, if_neg (by omega)]
    exact ih fun c hc => h c (List.mem_cons_of_mem _ hc)

/-- A write leaves every other byte alone. -/
theorem Memory.read_write_other (m : Memory) (a : Nat) (v : Byte) (b : Nat) (h : b ≠ a) :
    (m.write a v).read b = m.read b := by
  induction m with
  | nil => by_cases hv : v = memDefault <;> simp [Memory.write, Memory.put, Memory.read_cons, hv, h]
  | cons c m ih =>
    obtain ⟨x, w⟩ := c
    simp only [Memory.write]
    split_ifs with h1 h2
    · by_cases hv : v = memDefault <;> simp [Memory.put, Memory.read_cons, hv, h]
    · subst h2
      by_cases hv : v = memDefault <;> simp [Memory.put, Memory.read_cons, hv, h]
    · simp [Memory.read_cons, ih]

/-- A read after a write to the same address gives the byte written. -/
theorem Memory.read_write_same (m : Memory) (a : Nat) (v : Byte) (h : Memory.wf m = true) :
    (m.write a v).read a = v := by
  induction m with
  | nil => by_cases hv : v = memDefault <;> simp [Memory.write, Memory.put, Memory.read_cons, hv]
  | cons c m ih =>
    obtain ⟨x, w⟩ := c
    obtain ⟨-, -, hlt, hm⟩ := (Memory.wf_cons x w m).1 h
    simp only [Memory.write]
    split_ifs with h1 h2
    · by_cases hv : v = memDefault
      · subst hv
        simp only [Memory.put, if_true]
        refine Memory.read_of_lt _ _ fun c hc => ?_
        rcases List.mem_cons.1 hc with rfl | hc
        · exact h1
        · exact lt_trans h1 (hlt c hc)
      · simp [Memory.put, Memory.read_cons, hv]
    · subst h2
      by_cases hv : v = memDefault
      · subst hv
        simp only [Memory.put, if_true]
        exact Memory.read_of_lt _ _ hlt
      · simp [Memory.put, Memory.read_cons, hv]
    · rw [Memory.read_cons, if_neg (by omega)]
      exact ih hm

/-- What a byte reads as after a write. -/
theorem Memory.read_write (m : Memory) (a : Nat) (v : Byte) (b : Nat) (h : Memory.wf m = true) :
    (m.write a v).read b = if b = a then v else m.read b := by
  by_cases hb : b = a
  · subst hb
    rw [if_pos rfl, Memory.read_write_same m b v h]
  · rw [if_neg hb, Memory.read_write_other m a v b hb]

/-- The cells after a write lie above any bound below the old cells and the address. -/
theorem Memory.write_bound (m : Memory) (a : Nat) (v : Byte) (k : Nat) (h : ∀ c ∈ m, k < c.1) (hk : k < a) :
    ∀ c ∈ m.write a v, k < c.1 := by
  induction m with
  | nil =>
    intro c hc
    by_cases hv : v = memDefault <;> simp [Memory.write, Memory.put, hv] at hc
    subst hc
    exact hk
  | cons x m ih =>
    obtain ⟨b, w⟩ := x
    have hb : k < b := h (b, w) (by simp)
    have hm : ∀ c ∈ m, k < c.1 := fun c hc => h c (List.mem_cons_of_mem _ hc)
    simp only [Memory.write]
    split_ifs with h1 h2
    · by_cases hv : v = memDefault
      · simpa [Memory.put, hv] using ⟨hb, fun c d => hm (c, d)⟩
      · simpa [Memory.put, hv] using ⟨hk, hb, fun c d => hm (c, d)⟩
    · by_cases hv : v = memDefault
      · simpa [Memory.put, hv] using fun c d => hm (c, d)
      · simpa [Memory.put, hv] using ⟨hk, fun c d => hm (c, d)⟩
    · intro c hc
      rcases List.mem_cons.1 hc with rfl | hc
      · exact hb
      · exact ih hm c hc

/-- A write inside the address space keeps the canonical form. -/
theorem Memory.write_wf (m : Memory) (a : Nat) (v : Byte) (h : Memory.wf m = true) (ha : a < 2 ^ 32) :
    Memory.wf (m.write a v) = true := by
  induction m with
  | nil =>
    by_cases hv : v = memDefault
    · simp [Memory.write, Memory.put, Memory.wf, hv]
    · rw [Memory.write, Memory.put, if_neg hv, Memory.wf_cons]
      exact ⟨ha, hv, by simp, rfl⟩
  | cons x m ih =>
    obtain ⟨b, w⟩ := x
    have hx := (Memory.wf_cons b w m).1 h
    obtain ⟨hb, hw, hlt, hm⟩ := hx
    simp only [Memory.write]
    split_ifs with h1 h2
    · by_cases hv : v = memDefault
      · simpa [Memory.put, hv] using h
      · rw [Memory.put, if_neg hv, Memory.wf_cons]
        refine ⟨ha, hv, fun c hc => ?_, h⟩
        rcases List.mem_cons.1 hc with rfl | hc
        · exact h1
        · exact lt_trans h1 (hlt c hc)
    · subst h2
      by_cases hv : v = memDefault
      · simpa [Memory.put, hv] using hm
      · rw [Memory.put, if_neg hv, Memory.wf_cons]
        exact ⟨ha, hv, hlt, hm⟩
    · rw [Memory.wf_cons]
      exact ⟨hb, hw, Memory.write_bound m a v b hlt (by omega), ih hm⟩

/-- The listed bytes are not what an unlisted address reads as. -/
theorem Memory.wf_head_read (a : Nat) (v : Byte) (m : Memory) (h : Memory.wf ((a, v) :: m) = true) :
    Memory.read ((a, v) :: m) a ≠ memDefault := by
  rw [Memory.read_cons, if_pos rfl]
  exact ((Memory.wf_cons a v m).1 h).2.1

/-- Canonical memories with the same bytes are equal. -/
theorem Memory.eq_of_read (m m' : Memory) (h : Memory.wf m = true) (h' : Memory.wf m' = true)
    (hr : ∀ a, m.read a = m'.read a) : m = m' := by
  induction m generalizing m' with
  | nil =>
    rcases m' with _ | ⟨⟨b, w⟩, m'⟩
    · rfl
    · exact absurd (hr b).symm (Memory.wf_head_read b w m' h')
  | cons x m ih =>
    obtain ⟨a, v⟩ := x
    rcases m' with _ | ⟨⟨b, w⟩, m'⟩
    · exact absurd (hr a) (Memory.wf_head_read a v m h)
    · obtain ⟨-, -, hlt, hm⟩ := (Memory.wf_cons a v m).1 h
      obtain ⟨-, -, hlt', hm'⟩ := (Memory.wf_cons b w m').1 h'
      have hab : a = b := by
        by_contra hne
        rcases Nat.lt_or_gt_of_ne hne with hl | hl
        · refine Memory.wf_head_read a v m h ((hr a).trans (Memory.read_of_lt _ _ fun c hc => ?_))
          rcases List.mem_cons.1 hc with rfl | hc
          · exact hl
          · exact lt_trans hl (hlt' c hc)
        · refine Memory.wf_head_read b w m' h' ((hr b).symm.trans (Memory.read_of_lt _ _ fun c hc => ?_))
          rcases List.mem_cons.1 hc with rfl | hc
          · exact hl
          · exact lt_trans hl (hlt c hc)
      subst hab
      have hvw : v = w := by simpa [Memory.read_cons] using hr a
      subst hvw
      congr 1
      refine ih m' hm hm' fun c => ?_
      by_cases hc : c = a
      · subst hc
        rw [Memory.read_of_lt m c hlt, Memory.read_of_lt m' c hlt']
      · simpa [Memory.read_cons, hc] using hr c

/-- Writing what a byte already reads as changes nothing. -/
theorem Memory.write_read_self (m : Memory) (a : Nat) (h : Memory.wf m = true) (ha : a < 2 ^ 32) :
    m.write a (m.read a) = m :=
  Memory.eq_of_read _ _ (Memory.write_wf m a _ h ha) h fun b => by
    rw [Memory.read_write m a _ b h]
    split_ifs with hb
    · rw [hb]
    · rfl

/-- The memory after reset is canonical. -/
theorem State.reset_mem_wf : Memory.wf State.reset.mem = true := rfl

/-- Free values at addresses of the address space keep the canonical form. -/
theorem scramble_wf (n a k : Nat) (m : Memory) (h : Memory.wf m = true) : Memory.wf (scramble n a k m) = true := by
  induction n generalizing a k m with
  | zero => exact h
  | succ n ih =>
    simp only [scramble]
    split_ifs with ha
    · exact ih _ _ _ (Memory.write_wf m a _ h ha)
    · exact ih _ _ _ h

/-- Free values at `n` addresses from `a` leave every other byte alone. -/
theorem scramble_read (n a k : Nat) (m : Memory) (b : Nat) (hb : b < a ∨ a + n ≤ b) :
    (scramble n a k m).read b = m.read b := by
  induction n generalizing a k m with
  | zero => rfl
  | succ n ih =>
    simp only [scramble]
    rw [ih (a + 1) (k + 1) _ (by omega)]
    split_ifs with ha
    · exact Memory.read_write_other m a _ b (by omega)
    · rfl

/-- An address that the engine may access lies in the address space. -/
theorem memOk_lt {params : Params} {a : Nat} (h : memOk params a = true) : a < 2 ^ 32 := by
  simp only [memOk, Bool.and_eq_true, decide_eq_true_eq] at h
  exact h.1

/-! ### Stored bits -/

/-- Bits stored one string after the other. -/
theorem storeBits_append (base p : Nat) (xs ys : Bits) (m : Memory) :
    storeBits base p (xs ++ ys) m = storeBits base (p + xs.length) ys (storeBits base p xs m) := by
  induction xs generalizing p m with
  | nil => rfl
  | cons x xs ih =>
    simp only [List.cons_append, storeBits, List.length_cons, ih]
    congr 1
    omega

end Sys2Proof.Machine
end

