-- ==== Sys2Proof/Laws/Run.lean ====
section
/-! SUPPORT. How runs of the engine compose: one equation for each way a first part can end, for `Eng` and for `Rd`,
and what every outcome of a run keeps. -/

namespace Sys2Proof.Machine

/-! ### Sequencing -/

variable {α β : Type} {s t : State} {e : Raised}

theorem Eng.bind_ok {x : Eng α} {f : α → Eng β} {a : α} (h : x.run s = .ok a t) :
    (x >>= f).run s = (f a).run t := by
  rw [EStateM.run_bind, h]

theorem Eng.bind_error {x : Eng α} {f : α → Eng β} (h : x.run s = .error e t) : (x >>= f).run s = .error e t := by
  rw [EStateM.run_bind, h]

theorem Rd.bind_some {x : Rd α} {f : α → Rd β} {a : α} (h : x.run.run s = .ok (some a) t) :
    (x >>= f).run.run s = (f a).run.run t := by
  rw [OptionT.run_bind]
  exact Eng.bind_ok h

theorem Rd.bind_none {x : Rd α} {f : α → Rd β} (h : x.run.run s = .ok none t) :
    (x >>= f).run.run s = .ok none t := by
  rw [OptionT.run_bind]
  exact Eng.bind_ok h

theorem Rd.bind_error {x : Rd α} {f : α → Rd β} (h : x.run.run s = .error e t) :
    (x >>= f).run.run s = .error e t := by
  rw [OptionT.run_bind]
  exact Eng.bind_error h

@[simp] theorem Rd.pure_run (a : α) (s : State) : (pure a : Rd α).run.run s = .ok (some a) s := rfl

@[simp] theorem Rd.failure_run (s : State) : (failure : Rd α).run.run s = .ok none s := rfl

/-- An engine action inside a reader: its value is there, its errors stay errors. -/
theorem Rd.lift_ok {m : Eng α} {a : α} (h : m.run s = .ok a t) : (liftM m : Rd α).run.run s = .ok (some a) t := by
  change (m >>= fun a => pure (some a)).run s = _
  rw [Eng.bind_ok h]
  rfl

theorem Rd.lift_error {m : Eng α} (h : m.run s = .error e t) : (liftM m : Rd α).run.run s = .error e t := by
  change (m >>= fun a => pure (some a)).run s = _
  rw [Eng.bind_error h]

/-- An engine action first, then the rest of a reader. -/
theorem Rd.lift_bind_ok {m : Eng α} {f : α → Rd β} {a : α} (h : m.run s = .ok a t) :
    ((liftM m : Rd α) >>= f).run.run s = (f a).run.run t := Rd.bind_some (Rd.lift_ok h)

theorem Rd.lift_bind_error {m : Eng α} {f : α → Rd β} (h : m.run s = .error e t) :
    ((liftM m : Rd α) >>= f).run.run s = .error e t := Rd.bind_error (Rd.lift_error h)

@[simp] theorem Eng.get_run (s : State) : (get : Eng State).run s = .ok s s := rfl

@[simp] theorem Rd.get_run (s : State) : (get : Rd State).run.run s = .ok (some s) s := rfl

@[simp] theorem Eng.modify_run (f : State → State) (s : State) : (modify f : Eng Unit).run s = .ok () (f s) := rfl

@[simp] theorem Rd.modify_run (f : State → State) (s : State) :
    (modify f : Rd Unit).run.run s = .ok (some ()) (f s) := rfl

/-! ### The ends of a command -/

/-- A command whose run ends with a value succeeds in the state reached. -/
theorem runCommand_ok {m : Eng Unit} (h : m.run s = .ok () t) : runCommand m s = .next (t.complete 0#8) := by
  simp [runCommand, h]

/-- A command whose run raises an error ends with it in the state reached. -/
theorem runCommand_error {m : Eng Unit} (h : m.run s = .error e t) : runCommand m s = .next (t.takeError e) := by
  simp [runCommand, h]

/-- Every run of a command ends in a next state, by success or by an error. -/
theorem runCommand_next (m : Eng Unit) (s : State) :
    (∃ t, m.run s = .ok () t ∧ runCommand m s = .next (t.complete 0#8)) ∨
      ∃ e t, m.run s = .error e t ∧ runCommand m s = .next (t.takeError e) := by
  rcases h : m.run s with ⟨⟨⟩, t⟩ | ⟨e, t⟩
  · exact .inl ⟨t, rfl, runCommand_ok h⟩
  · exact .inr ⟨e, t, rfl, runCommand_error h⟩

theorem reporting_ok {report : State → State} {m : Eng α} {a : α} (h : m.run s = .ok a t) :
    (reporting report m).run s = .ok a t := by
  simp only [EStateM.run] at h ⊢
  simp [reporting, h]

theorem reporting_error {report : State → State} {m : Eng α} (h : m.run s = .error e t) :
    (reporting report m).run s = .error e (report t) := by
  simp only [EStateM.run] at h ⊢
  simp [reporting, h]

theorem orTruncated_some {m : Rd α} {a : α} (h : m.run.run s = .ok (some a) t) : (orTruncated m).run s = .ok a t := by
  unfold orTruncated
  rw [Eng.bind_ok h]
  rfl

theorem orTruncated_none {m : Rd α} (h : m.run.run s = .ok none t) :
    (orTruncated m).run s = .error (.truncated t.rpos.toNat) t := by
  unfold orTruncated
  rw [Eng.bind_ok h]
  rfl

theorem orTruncated_error {m : Rd α} (h : m.run.run s = .error e t) : (orTruncated m).run s = .error e t := by
  unfold orTruncated
  rw [Eng.bind_error h]

/-! ### What every outcome keeps -/

/-- Whatever the run ends with, the state reached is related to the state before. -/
def Keeps (R : State → State → Prop) (m : Eng α) : Prop :=
  ∀ s, (∀ a t, m.run s = .ok a t → R s t) ∧ ∀ e t, m.run s = .error e t → R s t

/-- `Keeps` of a reader. -/
abbrev RdKeeps (R : State → State → Prop) (m : Rd α) : Prop := Keeps R m.run

variable {R : State → State → Prop}

theorem Keeps.pure (refl : ∀ s, R s s) (a : α) : Keeps R (pure a : Eng α) := fun s =>
  ⟨fun _ _ h => by cases h; exact refl s, nofun⟩

theorem Keeps.throw (refl : ∀ s, R s s) (e : Raised) : Keeps R (throw e : Eng α) := fun s =>
  ⟨nofun, fun _ _ h => by cases h; exact refl s⟩

theorem Keeps.get (refl : ∀ s, R s s) : Keeps R (get : Eng State) := fun s =>
  ⟨fun _ _ h => by cases h; exact refl s, nofun⟩

theorem Keeps.modify {f : State → State} (h : ∀ s, R s (f s)) : Keeps R (modify f : Eng Unit) := fun s =>
  ⟨fun _ _ h' => by cases h'; exact h s, nofun⟩

theorem Keeps.bind (trans : ∀ s t u, R s t → R t u → R s u) {x : Eng α} {f : α → Eng β}
    (hx : Keeps R x) (hf : ∀ a, Keeps R (f a)) : Keeps R (x >>= f) := fun s => by
  rcases h : x.run s with ⟨a, t⟩ | ⟨e, t⟩
  · have ht := (hx s).1 a t h
    rw [Eng.bind_ok h]
    exact ⟨fun b u hu => trans _ _ _ ht ((hf a t).1 b u hu), fun e u hu => trans _ _ _ ht ((hf a t).2 e u hu)⟩
  · have ht := (hx s).2 e t h
    rw [Eng.bind_error h]
    exact ⟨nofun, fun _ _ hu => by cases hu; exact ht⟩

theorem Keeps.reporting (trans : ∀ s t u, R s t → R t u → R s u) {report : State → State} {m : Eng α}
    (hm : Keeps R m) (hr : ∀ s, R s (report s)) : Keeps R (reporting report m) := fun s => by
  rcases h : m.run s with ⟨a, t⟩ | ⟨e, t⟩
  · rw [reporting_ok h]
    exact ⟨fun _ _ hu => by cases hu; exact (hm s).1 a t h, nofun⟩
  · rw [reporting_error h]
    exact ⟨nofun, fun _ _ hu => by cases hu; exact trans _ _ _ ((hm s).2 e t h) (hr t)⟩

theorem Keeps.orTruncated (refl : ∀ s, R s s) (trans : ∀ s t u, R s t → R t u → R s u) {m : Rd α} (hm : RdKeeps R m) :
    Keeps R (orTruncated m) := by
  refine Keeps.bind trans hm fun a => ?_
  rcases a with _ | a
  · exact Keeps.bind trans (Keeps.get refl) fun _ => Keeps.throw refl _
  · exact Keeps.pure refl a

theorem RdKeeps.bind (refl : ∀ s, R s s) (trans : ∀ s t u, R s t → R t u → R s u) {x : Rd α} {f : α → Rd β}
    (hx : RdKeeps R x) (hf : ∀ a, RdKeeps R (f a)) : RdKeeps R (x >>= f) := by
  unfold RdKeeps
  rw [OptionT.run_bind]
  refine Keeps.bind trans hx fun a => ?_
  rcases a with _ | a
  · exact Keeps.pure refl _
  · exact hf a

theorem RdKeeps.lift (refl : ∀ s, R s s) (trans : ∀ s t u, R s t → R t u → R s u) {m : Eng α} (hm : Keeps R m) :
    RdKeeps R (liftM m : Rd α) := Keeps.bind trans hm fun a => Keeps.pure refl (some a)

theorem RdKeeps.pure (refl : ∀ s, R s s) (a : α) : RdKeeps R (pure a : Rd α) := Keeps.pure refl (some a)

theorem RdKeeps.failure (refl : ∀ s, R s s) : RdKeeps R (failure : Rd α) := Keeps.pure refl none

end Sys2Proof.Machine
end

