-- ==== Sys2Proof/Laws/Ops.lean ====
section
/-! SUPPORT. One lemma for each shared operation: what it answers and the state it reaches, in every case. -/

namespace Sys2Proof.Machine

variable {s : State}

/-! ### Memory, registers, slots -/

theorem memRead_run (a : Nat) (s : State) :
    (memRead a).run s = if memOk s.params a then .ok (s.mem.read a) s else .error (.bus a) s := by
  unfold memRead
  rw [Eng.bind_ok (Eng.get_run s)]
  split_ifs <;> rfl

theorem memWrite_run (a : Nat) (v : Byte) (s : State) :
    (memWrite a v).run s =
      if memOk s.params a then .ok () { s with mem := s.mem.write a v } else .error (.bus a) s := by
  unfold memWrite
  rw [Eng.bind_ok (Eng.get_run s)]
  split_ifs <;> rfl

@[simp] theorem setRes0_run (v : Nat) (s : State) : (setRes0 v).run s = .ok () { s with res0 := word v } := rfl

@[simp] theorem setRes1_run (v : Nat) (s : State) : (setRes1 v).run s = .ok () { s with res1 := word v } := rfl

@[simp] theorem setRes2_run (v : Nat) (s : State) : (setRes2 v).run s = .ok () { s with res2 := word v } := rfl

@[simp] theorem startHighLevel_run (s : State) :
    startHighLevel.run s = .ok () { s with rpos := 0#32, wpos := 0#32, eng := Engine.idle } := rfl

@[simp] theorem modifyEng_run (f : Engine → Engine) (s : State) :
    (modifyEng f).run s = .ok () { s with eng := f s.eng } := rfl

@[simp] theorem setSlot_run (t : Fin 16) (sl : Slot) (s : State) :
    (setSlot t sl).run s = .ok () { s with slots := s.slots.set t sl } := rfl

/-! ### Checks -/

theorem require_run (cond : State → Bool) (e : Raised) (s : State) :
    (require cond e).run s = if cond s then .ok () s else .error e s := by
  unfold require
  rw [Eng.bind_ok (Eng.get_run s)]
  split_ifs <;> rfl

theorem require_ok {cond : State → Bool} {e : Raised} (h : cond s = true) : (require cond e).run s = .ok () s := by
  rw [require_run, if_pos h]

theorem require_error {cond : State → Bool} {e : Raised} (h : cond s = false) :
    (require cond e).run s = .error e s := by
  rw [require_run, if_neg (by simp [h])]

theorem checkCount_run (n : Nat) (s : State) :
    (checkCount n).run s = if n ≤ 32 then .ok () s else .error (.badOperand 1) s := by
  simp [checkCount, require_run]

theorem checkSource_run (s : State) :
    checkSource.run s = if s.sourceOk then .ok () s else .error (.badOperand 5) s := require_run _ _ s

theorem checkDest_run (s : State) :
    checkDest.run s = if s.destOk then .ok () s else .error (.badOperand 6) s := require_run _ _ s

/-- The buffer checks of the high-level commands, in their order. -/
theorem checkBuffers_run (s : State) :
    checkBuffers.run s =
      if s.sourceOk = false then .error (.badOperand 5) s
      else if s.destOk = false then .error (.badOperand 6) s
      else if s.disjoint = false then .error (.badOperand 7) s
      else .ok () s := by
  unfold checkBuffers
  by_cases h1 : s.sourceOk = true
  · rw [Eng.bind_ok ((checkSource_run s).trans (if_pos h1)), if_neg (by simp [h1])]
    by_cases h2 : s.destOk = true
    · rw [Eng.bind_ok ((checkDest_run s).trans (if_pos h2)), if_neg (by simp [h2]), require_run]
      by_cases h3 : s.disjoint = true <;> simp [h3]
    · rw [Eng.bind_error ((checkDest_run s).trans (if_neg h2)), if_pos (by simpa using h2)]
  · rw [Eng.bind_error ((checkSource_run s).trans (if_neg h1)), if_pos (by simpa using h1)]

theorem checkBuilt_run (t : Fin 16) (s : State) :
    (checkBuilt t).run s = if (s.slot t).final then .ok () s else .error (.unbuilt t.val) s := require_run _ _ s

theorem checkBuilding_run (t : Fin 16) (s : State) :
    (checkBuilding t).run s =
      if !(s.slot t).preset && (s.slot t).alpha != .empty && !(s.slot t).final then .ok () s
      else .error (.illegalState t.val) s := require_run _ _ s

/-! ### The bit reader -/

/-- One bit read: none left, its bit with RPOS moved on, or ERR_BUS (40_bitstream.md R141). -/
theorem readBit_run (s : State) :
    readBit.run.run s =
      if s.avail < 1 then .ok none s
      else if memOk s.params (s.srcAddr.toNat + s.rpos.toNat / 8) then
        .ok (some (streamBit s.mem s.srcAddr.toNat s.rpos.toNat)) { s with rpos := s.rpos + 1#32 }
      else .error (.bus (s.srcAddr.toNat + s.rpos.toNat / 8)) s := by
  unfold readBit
  rw [Rd.bind_some (Rd.get_run s)]
  by_cases h : s.avail < 1
  · rw [if_pos h, if_pos h]
    rfl
  · rw [if_neg h, if_neg h]
    simp only
    by_cases hm : memOk s.params (s.srcAddr.toNat + s.rpos.toNat / 8) = true
    · rw [if_pos hm, Rd.lift_bind_ok (by rw [memRead_run, if_pos hm])]
      rfl
    · rw [if_neg hm, Rd.lift_bind_error (by rw [memRead_run, if_neg hm])]

/-! ### The bit writer -/

/-- One bit written: no room, the bit stored with WPOS moved on, or ERR_BUS (40_bitstream.md R144). -/
theorem writeBit_run (b : Bool) (s : State) :
    (writeBit b).run s =
      if 8 * s.dstCap.toNat ≤ s.wpos.toNat then .error (.outputFull s.wpos.toNat) s
      else if memOk s.params (s.dstAddr.toNat + s.wpos.toNat / 8) then
        .ok () { s with
          mem := storeBits s.dstAddr.toNat s.wpos.toNat [b] s.mem
          wpos := s.wpos + 1#32 }
      else .error (.bus (s.dstAddr.toNat + s.wpos.toNat / 8)) s := by
  unfold writeBit
  rw [Eng.bind_ok (Eng.get_run s)]
  by_cases h : 8 * s.dstCap.toNat ≤ s.wpos.toNat
  · rw [if_pos h, if_pos h]
    rfl
  · rw [if_neg h, if_neg h]
    simp only
    by_cases hm : memOk s.params (s.dstAddr.toNat + s.wpos.toNat / 8) = true
    · rw [if_pos hm, Eng.bind_ok (by rw [memRead_run, if_pos hm]), Eng.bind_ok (by rw [memWrite_run, if_pos hm])]
      rfl
    · rw [if_neg hm, Eng.bind_error (by rw [memRead_run, if_neg hm])]

/-- A bit string that does not fit writes nothing (40_bitstream.md R145). -/
theorem writeString_full {bs : Bits} (h : 8 * s.dstCap.toNat < s.wpos.toNat + bs.length) :
    (writeString bs).run s = .error (.outputFull s.wpos.toNat) s := by
  unfold writeString
  rw [Eng.bind_ok (Eng.get_run s), if_pos h]
  rfl

/-- A bit string that fits is written bit by bit (40_bitstream.md R145). -/
theorem writeString_fits {bs : Bits} (h : ¬ 8 * s.dstCap.toNat < s.wpos.toNat + bs.length) :
    (writeString bs).run s = (writeBitList bs).run s := by
  unfold writeString
  rw [Eng.bind_ok (Eng.get_run s), if_neg h]

/-- The bits of a string, those that still follow a first one. -/
theorem writeBitList_cons (b : Bool) (bs : Bits) (s : State) :
    (writeBitList (b :: bs)).run s = (writeBit b >>= fun _ => writeBitList bs).run s := rfl

/-- A code is written as a bit string (41_prefix_table.md R190). -/
theorem writeCode_run (t : Fin 16) (symbol : Nat) (s : State) :
    (writeCode t symbol).run s = (writeString ((s.slot t).code symbol)).run s := by
  unfold writeCode
  rw [Eng.bind_ok (Eng.get_run s)]

/-! ### What every engine operation keeps -/

section
variable {R : State → State → Prop}

theorem memRead_keeps (refl : ∀ s, R s s) (a : Nat) : Keeps R (memRead a) := fun s => by
  rw [memRead_run]
  split_ifs
  · exact ⟨fun _ _ h => by cases h; exact refl s, nofun⟩
  · exact ⟨nofun, fun _ _ h => by cases h; exact refl s⟩

theorem memWrite_keeps (refl : ∀ s, R s s) (hw : ∀ s a v, memOk s.params a = true → R s { s with mem := s.mem.write a v })
    (a : Nat) (v : Byte) : Keeps R (memWrite a v) := fun s => by
  rw [memWrite_run]
  split_ifs with h
  · exact ⟨fun _ _ h' => by cases h'; exact hw s a v h, nofun⟩
  · exact ⟨nofun, fun _ _ h' => by cases h'; exact refl s⟩

theorem require_keeps (refl : ∀ s, R s s) (cond : State → Bool) (e : Raised) : Keeps R (require cond e) := fun s => by
  rw [require_run]
  split_ifs
  · exact ⟨fun _ _ h => by cases h; exact refl s, nofun⟩
  · exact ⟨nofun, fun _ _ h => by cases h; exact refl s⟩

theorem readBit_keeps (refl : ∀ s, R s s) (hr : ∀ s, 1 ≤ s.avail → R s { s with rpos := s.rpos + 1#32 }) :
    RdKeeps R readBit := fun s => by
  rw [readBit_run]
  split_ifs with h1 h2
  · exact ⟨fun _ _ h => by cases h; exact refl s, nofun⟩
  · exact ⟨fun _ _ h => by cases h; exact hr s (by omega), nofun⟩
  · exact ⟨nofun, fun _ _ h => by cases h; exact refl s⟩

theorem writeBit_keeps (refl : ∀ s, R s s)
    (hw : ∀ s b, s.wpos.toNat < 8 * s.dstCap.toNat → memOk s.params (s.dstAddr.toNat + s.wpos.toNat / 8) = true →
      R s { s with mem := storeBits s.dstAddr.toNat s.wpos.toNat [b] s.mem, wpos := s.wpos + 1#32 })
    (b : Bool) : Keeps R (writeBit b) := fun s => by
  rw [writeBit_run]
  split_ifs with h1 h2
  · exact ⟨nofun, fun _ _ h => by cases h; exact refl s⟩
  · exact ⟨fun _ _ h => by cases h; exact hw s b (by omega) h2, nofun⟩
  · exact ⟨nofun, fun _ _ h => by cases h; exact refl s⟩

theorem readBitsLoop_keeps (refl : ∀ s, R s s) (trans : ∀ s t u, R s t → R t u → R s u) (h : RdKeeps R readBit)
    (n v : Nat) : RdKeeps R (readBitsLoop n v) := by
  induction n generalizing v with
  | zero => exact RdKeeps.pure refl v
  | succ n ih => exact RdKeeps.bind refl trans h fun b => ih _

theorem readBits_keeps (refl : ∀ s, R s s) (trans : ∀ s t u, R s t → R t u → R s u) (h : RdKeeps R readBit)
    (n : Nat) : RdKeeps R (readBits n) := by
  refine RdKeeps.bind refl trans (RdKeeps.lift refl trans (Keeps.get refl)) fun s => ?_
  split_ifs
  · exact RdKeeps.bind refl trans (RdKeeps.failure refl) fun _ => readBitsLoop_keeps refl trans h _ _
  · exact readBitsLoop_keeps refl trans h n 0

theorem readByte_keeps (refl : ∀ s, R s s) (trans : ∀ s t u, R s t → R t u → R s u) (h : RdKeeps R readBit) :
    RdKeeps R readByte :=
  RdKeeps.bind refl trans (readBits_keeps refl trans h 8) fun v => RdKeeps.pure refl (byte v)

theorem writeBitList_keeps (refl : ∀ s, R s s) (trans : ∀ s t u, R s t → R t u → R s u)
    (h : ∀ b, Keeps R (writeBit b)) (bs : Bits) : Keeps R (writeBitList bs) := by
  induction bs with
  | nil => exact Keeps.pure refl ()
  | cons b bs ih => exact Keeps.bind trans (h b) fun _ => ih

theorem writeString_keeps (refl : ∀ s, R s s) (trans : ∀ s t u, R s t → R t u → R s u)
    (h : ∀ b, Keeps R (writeBit b)) (bs : Bits) : Keeps R (writeString bs) := by
  refine Keeps.bind trans (Keeps.get refl) fun s => ?_
  split_ifs
  · exact Keeps.bind trans (Keeps.throw refl _) fun _ => writeBitList_keeps refl trans h _
  · exact writeBitList_keeps refl trans h bs

theorem writeCode_keeps (refl : ∀ s, R s s) (trans : ∀ s t u, R s t → R t u → R s u)
    (h : ∀ b, Keeps R (writeBit b)) (t : Fin 16) (symbol : Nat) : Keeps R (writeCode t symbol) :=
  Keeps.bind trans (Keeps.get refl) fun _ => writeString_keeps refl trans h _

theorem align_keeps (refl : ∀ s, R s s) (trans : ∀ s t u, R s t → R t u → R s u)
    (h : ∀ b, Keeps R (writeBit b)) : Keeps R align := by
  have key : ∀ fuel, Keeps R (alignLoop fuel) := by
    intro fuel
    induction fuel with
    | zero => exact Keeps.pure refl ()
    | succ n ih =>
      refine Keeps.bind trans (Keeps.get refl) fun s => ?_
      split_ifs
      · exact Keeps.bind trans (h false) fun _ => ih
      · exact Keeps.pure refl _
  exact key 8

theorem close_keeps (refl : ∀ s, R s s) (trans : ∀ s t u, R s t → R t u → R s u)
    (h : ∀ b, Keeps R (writeBit b)) : Keeps R close :=
  Keeps.bind trans (align_keeps refl trans h) fun _ =>
    Keeps.bind trans (Keeps.get refl) fun s => Keeps.pure refl (s.wpos.toNat / 8)

theorem decodeNext_keeps (refl : ∀ s, R s s) (trans : ∀ s t u, R s t → R t u → R s u) (h : RdKeeps R readBit)
    (t : Fin 16) : RdKeeps R (decodeNext t) := by
  have key : ∀ fuel p, RdKeeps R (decodeLoop t fuel p) := by
    intro fuel
    induction fuel with
    | zero => exact fun p => RdKeeps.failure refl
    | succ n ih =>
      intro p
      refine RdKeeps.bind refl trans h fun b => ?_
      refine RdKeeps.bind refl trans (RdKeeps.lift refl trans (Keeps.get refl)) fun s => ?_
      rcases findCode (p ++ [b]) (s.slot t).codes 0 with _ | x
      · exact ih _
      · exact RdKeeps.pure refl x
  exact RdKeeps.bind refl trans (RdKeeps.lift refl trans (Keeps.get refl)) fun s => key _ _

end

end Sys2Proof.Machine
end

