-- ==== Sys2Proof/Laws/PerInstr.lean ====
section
/-! SUPPORT. Per-instruction families: one lemma for each command. -/

namespace Sys2Proof.Laws

open Sys2Proof Sys2Proof.Machine

/-- The word of a well-formed command has zeros in the reserved bits (30_encoding.md R90, R92). -/
def ReservedBitsZero.Statement (i : Instr) : Prop := i.WellFormed → encode i &&& Decode.reservedMask = 0#32

theorem ReservedBitsZero.nop : ReservedBitsZero.Statement .nop := fun _ => by decide

theorem ReservedBitsZero.bsRbit : ReservedBitsZero.Statement .bsRbit := fun _ => by decide

theorem ReservedBitsZero.bsRbyte : ReservedBitsZero.Statement .bsRbyte := fun _ => by decide

theorem ReservedBitsZero.bsRbits (n : Nat) : ReservedBitsZero.Statement (.bsRbits n) := by
  have key : ∀ m, m < 64 → encode (.bsRbits m) &&& Decode.reservedMask = 0#32 := by decide
  exact fun h => key n (by simpa [Instr.WellFormed, Instr.wellFormed] using h)

theorem ReservedBitsZero.bsWbit : ReservedBitsZero.Statement .bsWbit := fun _ => by decide

theorem ReservedBitsZero.bsWbyte : ReservedBitsZero.Statement .bsWbyte := fun _ => by decide

theorem ReservedBitsZero.bsWbits (n : Nat) : ReservedBitsZero.Statement (.bsWbits n) := by
  have key : ∀ m, m < 64 → encode (.bsWbits m) &&& Decode.reservedMask = 0#32 := by decide
  exact fun h => key n (by simpa [Instr.WellFormed, Instr.wellFormed] using h)

theorem ReservedBitsZero.bsAlign : ReservedBitsZero.Statement .bsAlign := fun _ => by decide

theorem ReservedBitsZero.bsClose : ReservedBitsZero.Statement .bsClose := fun _ => by decide

theorem ReservedBitsZero.tblCreate (t : Fin 16) (wide : Bool) : ReservedBitsZero.Statement (.tblCreate t wide) := fun _ => by
  revert t wide
  decide

theorem ReservedBitsZero.tblIncr (t : Fin 16) : ReservedBitsZero.Statement (.tblIncr t) := fun _ => by
  revert t
  decide

theorem ReservedBitsZero.tblIncs (t : Fin 16) : ReservedBitsZero.Statement (.tblIncs t) := fun _ => by
  revert t
  decide

theorem ReservedBitsZero.tblFin (t : Fin 16) : ReservedBitsZero.Statement (.tblFin t) := fun _ => by
  revert t
  decide

theorem ReservedBitsZero.tblCode (t : Fin 16) : ReservedBitsZero.Statement (.tblCode t) := fun _ => by
  revert t
  decide

theorem ReservedBitsZero.tblDec (t : Fin 16) : ReservedBitsZero.Statement (.tblDec t) := fun _ => by
  revert t
  decide

theorem ReservedBitsZero.tblInfo (t : Fin 16) : ReservedBitsZero.Statement (.tblInfo t) := fun _ => by
  revert t
  decide

theorem ReservedBitsZero.tblWgt (t : Fin 16) : ReservedBitsZero.Statement (.tblWgt t) := fun _ => by
  revert t
  decide

theorem ReservedBitsZero.viEnc : ReservedBitsZero.Statement .viEnc := fun _ => by decide

theorem ReservedBitsZero.viDec : ReservedBitsZero.Statement .viDec := fun _ => by decide

theorem ReservedBitsZero.uvEnc : ReservedBitsZero.Statement .uvEnc := fun _ => by decide

theorem ReservedBitsZero.uvDec : ReservedBitsZero.Statement .uvDec := fun _ => by decide

theorem ReservedBitsZero.wkInspectLz4 : ReservedBitsZero.Statement .wkInspectLz4 := fun _ => by decide

theorem ReservedBitsZero.wkInspectSnappy : ReservedBitsZero.Statement .wkInspectSnappy := fun _ => by decide

theorem ReservedBitsZero.wkCompLz4 (t : Fin 16) : ReservedBitsZero.Statement (.wkCompLz4 t) := fun _ => by
  revert t
  decide

theorem ReservedBitsZero.wkCompSnappy (t : Fin 16) : ReservedBitsZero.Statement (.wkCompSnappy t) := fun _ => by
  revert t
  decide

theorem ReservedBitsZero.wkDecompLz4 (t : Fin 16) : ReservedBitsZero.Statement (.wkDecompLz4 t) := fun _ => by
  revert t
  decide

theorem ReservedBitsZero.wkDecompSnappy (t : Fin 16) : ReservedBitsZero.Statement (.wkDecompSnappy t) := fun _ => by
  revert t
  decide

theorem ReservedBitsZero.blkEnc (t : Fin 16) : ReservedBitsZero.Statement (.blkEnc t) := fun _ => by
  revert t
  decide

theorem ReservedBitsZero.blkDec (t : Fin 16) : ReservedBitsZero.Statement (.blkDec t) := fun _ => by
  revert t
  decide

theorem ReservedBitsZero.lzComp : ReservedBitsZero.Statement .lzComp := fun _ => by decide

theorem ReservedBitsZero.lzDecomp : ReservedBitsZero.Statement .lzDecomp := fun _ => by decide

end Sys2Proof.Laws
end

