-- ==== Sys2Proof/Laws/Streams.lean ====
section
/-! SUPPORT. Small lemmas of the stream formats: the byte-by-byte walk, the fields of a container, where writing stops. -/

namespace Sys2Proof.Machine

/-! ### The walk, byte by byte -/

@[simp] theorem walkItems_nil (bias : Nat) (p : WalkPhase) : walkItems bias p [] = [] := rfl

@[simp] theorem walkItems_cons (bias : Nat) (p : WalkPhase) (b : Byte) (bs : List Byte) :
    walkItems bias p (b :: bs) = (p.slots != 0, b) :: walkItems bias (p.next bias b) bs := rfl

@[simp] theorem walkItems_length (bias : Nat) (p : WalkPhase) (bs : List Byte) :
    (walkItems bias p bs).length = bs.length := by
  induction bs generalizing p <;> simp_all

@[simp] theorem walkUnits_length (bias : Nat) (code : Byte → Bits) (p : WalkPhase) (bs : List Byte) :
    (walkUnits bias code p bs).length = bs.length := by simp [walkUnits]

theorem walkItems_append (bias : Nat) (p : WalkPhase) (bs cs : List Byte) :
    walkItems bias p (bs ++ cs) = walkItems bias p bs ++ walkItems bias (walkEnd bias p bs) cs := by
  induction bs generalizing p <;> simp_all [walkEnd]

theorem walkRequested_append (bias : Nat) (p : WalkPhase) (bs cs : List Byte) :
    walkRequested bias p (bs ++ cs) = walkRequested bias p bs + walkRequested bias (walkEnd bias p bs) cs := by
  induction bs generalizing p <;> simp_all [walkEnd, walkRequested, Nat.add_assoc]

theorem walkCompleted_append (bias : Nat) (p : WalkPhase) (bs cs : List Byte) :
    walkCompleted bias p (bs ++ cs) = walkCompleted bias p bs + walkCompleted bias (walkEnd bias p bs) cs := by
  simp [walkCompleted, walkItems_append]

theorem walkCompleted_le (bias : Nat) (p : WalkPhase) (bs : List Byte) : walkCompleted bias p bs ≤ bs.length := by
  simpa [walkCompleted] using List.countP_le_length (p := (·.1)) (l := walkItems bias p bs)

/-- With the byte's own bits in every slot the units are the bytes. -/
theorem walkUnits_plain (bias : Nat) (p : WalkPhase) (bs : List Byte) :
    walkUnits bias (fun b => natBits 8 b.toNat) p bs = bs.map (fun b => natBits 8 b.toNat) := by
  induction bs generalizing p <;> simp_all [walkUnits]

/-! ### Containers -/

@[simp] theorem vintFields_flatten (vint : Slot) (v : Nat) :
    ((vintFields vint v).map Prod.snd).flatten = vintBits vint v := by
  simp [vintFields, vintBits, vintFieldBits]

/-- A token's fields are its bits. -/
@[simp] theorem fields_flatten (s : State) (k : LzToken) : ((k.fields s).map Prod.snd).flatten = k.bits s := by
  cases k <;>
    simp [LzToken.fields, LzToken.bits, vintFields, vintBits, vintFieldBits, literalCodes, List.flatMap_def,
      Function.comp_def]

/-- A container's fields are its bits. -/
theorem containerFields_flatten (s : State) (hint : List Byte) (ts : List LzToken) :
    ((containerFields s hint ts).map Prod.snd).flatten = containerBits s hint ts := by
  have h : ∀ ts : List LzToken, ((ts.flatMap (LzToken.fields s)).map Prod.snd).flatten = ts.flatMap (LzToken.bits s) := by
    intro ts
    induction ts with
    | nil => rfl
    | cons k ks ih =>
      rw [List.flatMap_cons, List.map_append, List.flatten_append, fields_flatten, ih, List.flatMap_cons]
  simp only [containerFields, List.map_append, List.flatten_append, h]
  simp [containerBits, bytesBits, endBits, List.flatMap_def, Function.comp_def]

/-! ### Where writing stops -/

@[simp] theorem writeStopFrom_nil (params : Params) (base cap n pos : Nat) :
    writeStopFrom params base cap n pos [] = none := rfl

/-- Writing that stops nowhere has room for every unit, and every byte it touches may be accessed. -/
theorem writeStopFrom_none {params : Params} {base cap : Nat} : ∀ {us : List Bits} {n pos : Nat},
    writeStopFrom params base cap n pos us = none → pos ≤ 8 * cap →
    pos + us.flatten.length ≤ 8 * cap ∧ ∀ q, q < us.flatten.length → memOk params (base + (pos + q) / 8) = true
  | [], _, _, _, hp => ⟨by simpa using hp, by simp⟩
  | u :: us, n, pos, h, hp => by
    unfold writeStopFrom at h
    split at h
    · cases h
    · rename_i hfit
      split at h
      · cases h
      · rename_i hfind
        obtain ⟨hlen, hok⟩ := writeStopFrom_none h (by omega)
        rw [List.find?_eq_none] at hfind
        refine ⟨by simp only [List.flatten_cons, List.length_append]; omega, fun q hq => ?_⟩
        simp only [List.flatten_cons, List.length_append] at hq
        rcases Nat.lt_or_ge q u.length with hl | hl
        · simpa using hfind q (List.mem_range.2 hl)
        · have := hok (q - u.length) (by omega)
          rwa [show pos + u.length + (q - u.length) = pos + q by omega] at this

/-- Writing that stops has room for the units before, and says which of the two errors it is. -/
theorem writeStopFrom_some {params : Params} {base cap : Nat} : ∀ {us : List Bits} {n pos m q : Nat} {e : Raised},
    writeStopFrom params base cap n pos us = some (m, q, e) →
    pos ≤ q ∧ n ≤ m ∧ m < n + us.length ∧
      ((e = .outputFull q ∧ q = pos + (us.take (m - n)).flatten.length) ∨
        (e = .bus (base + q / 8) ∧ memOk params (base + q / 8) = false))
  | [], _, _, _, _, _, h => by cases h
  | u :: us, n, pos, m, q, e, h => by
    unfold writeStopFrom at h
    split at h
    · cases h
      exact ⟨Nat.le_refl _, Nat.le_refl _, by simp, .inl ⟨rfl, by simp⟩⟩
    · split at h
      · rename_i i hfind
        cases h
        exact ⟨by omega, Nat.le_refl _, by simp, .inr ⟨rfl, by simpa using List.find?_some hfind⟩⟩
      · obtain ⟨h1, h2, h3, h4⟩ := writeStopFrom_some h
        refine ⟨by omega, by omega, by simp only [List.length_cons]; omega, ?_⟩
        rcases h4 with ⟨he, hq⟩ | h4
        · refine .inl ⟨he, ?_⟩
          rw [show m - n = m - (n + 1) + 1 by omega, List.take_succ_cons, List.flatten_cons, List.length_append]
          omega
        · exact .inr h4

/-- Writing at WPOS with WPOS at the start is writing from the start of the destination. -/
theorem State.writeStopAt_start {s : State} (h : s.wpos = 0#32) (units : List Bits) :
    s.writeStopAt units = s.writeStop units := by
  simp [State.writeStopAt, State.writeStop, h]

/-! ### Where reading stops -/

theorem State.readStopsAt_iff {s : State} {q : Nat} : s.readStopsAt q = true ↔
    q < s.avail ∧ spanOk s.params s.srcAddr.toNat s.rpos.toNat q = true ∧
      memOk s.params (s.srcAddr.toNat + (s.rpos.toNat + q) / 8) = false := by
  simp [State.readStopsAt, and_assoc]

/-- A byte is the first that may not be accessed: reading stops at its first bit. -/
theorem State.readStopsAt_of_sourceShut {s : State} {f : Nat} (h : s.sourceShut f = true) (hr : s.rpos = 0#32) :
    s.readStopsAt (8 * f) = true := by
  simp only [State.sourceShut, Bool.and_eq_true, decide_eq_true_eq, Bool.not_eq_true'] at h
  refine State.readStopsAt_iff.2 ⟨?_, by simpa [hr] using h.1.2, by simpa [hr] using h.2⟩
  simp only [State.avail, hr]
  have := h.1.1
  simp
  omega

theorem State.noCodeWithin_iff {s : State} {sl : Slot} {p q : Nat} : s.noCodeWithin sl p q = true ↔
    p ≤ q ∧ ∀ c ∈ sl.codes, ¬ c <+: (s.sourceStream.drop p).take (q - p) := by
  simp [State.noCodeWithin, ← List.isPrefixOf_iff_prefix]

end Sys2Proof.Machine
end

