-- ==== Sys2Proof/Tests/Slice0.lean ====
section
/-! SUPPORT. Our own tests: well-formedness, decoding, one step each of the commands and of the host, and for every
statement a state and operands that meet its hypotheses. Expected results are the worked examples of spec/. -/

set_option Elab.async false

namespace Sys2Proof.Tests

open Sys2Proof Sys2Proof.Machine

/-! ### Well-formedness -/

/-- An N field of 64 does not fit (30_encoding.md R90). -/
theorem test_wellFormed_refuses_bsRbits : ¬ (Instr.bsRbits 64).WellFormed := by decide

theorem test_wellFormed_refuses_bsWbits : ¬ (Instr.bsWbits 64).WellFormed := by decide

/-- A count above 32 is no encoding error (30_encoding.md R94). -/
theorem test_wellFormed_accepts_bsRbits : (Instr.bsRbits 63).WellFormed := by decide

/-! ### Decoding: words written out field by field (30_encoding.md R90, R93):
reserved, N, reserved, Z, F, T, OP -/

theorem test_decode_nop : decode 0b0000000000_000000_00_0_0_0000_00000000#32 = .ok .nop := by decide

theorem test_decode_bsRbit : decode 0b0000000000_000000_00_0_0_0000_00010000#32 = .ok .bsRbit := by decide

theorem test_decode_bsRbyte : decode 0b0000000000_000000_00_0_0_0000_00010001#32 = .ok .bsRbyte := by decide

theorem test_decode_bsRbits : decode 0b0000000000_010011_00_0_0_0000_00010010#32 = .ok (.bsRbits 19) := by decide

theorem test_decode_bsWbit : decode 0b0000000000_000000_00_0_0_0000_00010100#32 = .ok .bsWbit := by decide

theorem test_decode_bsWbyte : decode 0b0000000000_000000_00_0_0_0000_00010101#32 = .ok .bsWbyte := by decide

theorem test_decode_bsWbits : decode 0b0000000000_101000_00_0_0_0000_00010110#32 = .ok (.bsWbits 40) := by decide

theorem test_decode_bsAlign : decode 0b0000000000_000000_00_0_0_0000_00011000#32 = .ok .bsAlign := by decide

theorem test_decode_bsClose : decode 0b0000000000_000000_00_0_0_0000_00011001#32 = .ok .bsClose := by decide

theorem test_decode_tblCreate : decode 0b0000000000_000000_00_1_0_1011_00100000#32 = .ok (.tblCreate 11 true) := by decide

theorem test_decode_tblIncr : decode 0b0000000000_000000_00_0_0_0001_00100001#32 = .ok (.tblIncr 1) := by decide

theorem test_decode_tblIncs : decode 0b0000000000_000000_00_0_0_0110_00100010#32 = .ok (.tblIncs 6) := by decide

theorem test_decode_tblFin : decode 0b0000000000_000000_00_0_0_1000_00100011#32 = .ok (.tblFin 8) := by decide

theorem test_decode_tblCode : decode 0b0000000000_000000_00_0_0_1101_00100100#32 = .ok (.tblCode 13) := by decide

theorem test_decode_tblDec : decode 0b0000000000_000000_00_0_0_1011_00100101#32 = .ok (.tblDec 11) := by decide

theorem test_decode_tblInfo : decode 0b0000000000_000000_00_0_0_0001_00100110#32 = .ok (.tblInfo 1) := by decide

theorem test_decode_tblWgt : decode 0b0000000000_000000_00_0_0_0110_00100111#32 = .ok (.tblWgt 6) := by decide

theorem test_decode_viEnc : decode 0b0000000000_000000_00_0_0_0000_00110000#32 = .ok .viEnc := by decide

theorem test_decode_viDec : decode 0b0000000000_000000_00_0_0_0000_00110001#32 = .ok .viDec := by decide

theorem test_decode_uvEnc : decode 0b0000000000_000000_00_0_0_0000_00110010#32 = .ok .uvEnc := by decide

theorem test_decode_uvDec : decode 0b0000000000_000000_00_0_0_0000_00110011#32 = .ok .uvDec := by decide

theorem test_decode_wkInspectLz4 : decode 0b0000000000_000000_00_0_0_0000_01000000#32 = .ok .wkInspectLz4 := by decide

theorem test_decode_wkInspectSnappy : decode 0b0000000000_000000_00_0_1_0000_01000000#32 = .ok .wkInspectSnappy := by decide

theorem test_decode_wkCompLz4 : decode 0b0000000000_000000_00_0_0_1000_01000001#32 = .ok (.wkCompLz4 8) := by decide

theorem test_decode_wkCompSnappy : decode 0b0000000000_000000_00_0_1_1101_01000001#32 = .ok (.wkCompSnappy 13) := by decide

theorem test_decode_wkDecompLz4 : decode 0b0000000000_000000_00_0_0_1011_01000010#32 = .ok (.wkDecompLz4 11) := by decide

theorem test_decode_wkDecompSnappy : decode 0b0000000000_000000_00_0_1_0001_01000010#32 = .ok (.wkDecompSnappy 1) := by decide

theorem test_decode_blkEnc : decode 0b0000000000_000000_00_0_0_0110_01010000#32 = .ok (.blkEnc 6) := by decide

theorem test_decode_blkDec : decode 0b0000000000_000000_00_0_0_1000_01010001#32 = .ok (.blkDec 8) := by decide

theorem test_decode_lzComp : decode 0b0000000000_000000_00_0_0_0000_01100000#32 = .ok .lzComp := by decide

theorem test_decode_lzDecomp : decode 0b0000000000_000000_00_0_0_0000_01100001#32 = .ok .lzDecomp := by decide

/-! ### Rejected words (60_exceptions.md R324) -/

theorem test_reject_reserved_opcode : decode 0x00000013#32 = .error .reservedOpcode := by decide

theorem test_reject_reserved_bit : decode 0x00004010#32 = .error .reservedBit := by decide

theorem test_reject_format_bit : decode 0x00001050#32 = .error .formatBit := by decide

theorem test_reject_unused_field : decode 0x00000140#32 = .error .unusedField := by decide

theorem test_decodeTableWord : decodeTableWord 32 0x00050016 = some (.bsWbits 5) := by decide

theorem test_assemble : (assemble "TBL.CREATE" ["t8", "a257"]).map encode = some 0x00002820#32 := by decide

/-! ### A small machine

Slots with the codes that 41_prefix_table.md R185, 42_varint.md R210, 45_lz77.md R296 and 95_test_vectors.md section 2
print for the symbols used below. -/

def vintCodes : List Bits :=
  [natBits 2 0, natBits 2 1, natBits 3 4, natBits 3 5, natBits 3 6, natBits 4 14, natBits 5 30, natBits 5 31]

def metaCodes : List Bits := [natBits 1 0, natBits 2 2, natBits 3 6, natBits 3 7]

def uniCodes : List Bits := (List.range 255).map (natBits 8) ++ [natBits 9 0x1FE, natBits 9 0x1FF]

def textCode (x : Nat) : Bits :=
  if x = 0x0A then natBits 5 0
  else if x = 0x61 then natBits 6 0b010111
  else if x = 0x62 then natBits 6 0b011000
  else if x = 0x63 then natBits 6 0b011001
  else if x = 0xAA then natBits 11 0b11110101101
  else natBits 12 0xFFF

def preset (alpha : Alphabet) (codes : List Bits) : Slot := ⟨alpha, [], true, true, codes⟩

def byteSlot : Slot := preset .a256 ((List.range 256).map (natBits 8))

def nineBits : Slot := ⟨.a257, [], true, false, (List.range 257).map (natBits 9)⟩

def building : Slot := ⟨.a256, List.replicate 256 1#32, false, false, []⟩

def tinySlots : Vector Slot 16 :=
  #v[preset .a257 uniCodes, preset .a257 ((List.range 257).map textCode),
     preset .a256 ((List.range 256).map textCode), byteSlot, byteSlot, byteSlot, preset .a8 vintCodes,
     preset .a4 metaCodes, nineBits, building, emptySlot, emptySlot, emptySlot, emptySlot, emptySlot, emptySlot]

/-- Bytes from an address on, as cells. -/
def cells (a : Nat) (bs : List Byte) : Memory :=
  (bs.zipIdx.map (fun (b, i) => (a + i, b))).filter (fun c => c.2 != 0#8)

/-- A state in which a command has been accepted: source bytes at 0, a destination of `cap` bytes at 0x100. -/
def mk (src : List Byte) (cap : Nat) : State :=
  { State.reset with
    status := statusWord true false false 0#8
    slots := tinySlots
    mem := cells 0 src
    srcLen := word src.length
    dstAddr := 0x100#32
    dstCap := word cap }

/-- The state a command reaches. -/
def after (i : Instr) (s : State) : State :=
  match exec i s with
  | .next t => t
  | _ => s

/-- The first bytes of the destination. -/
def output (s : State) (n : Nat) : List Byte := s.mem.slice 0x100 n

/-! ### Commands -/

/-- R335: `wr CMD, 0` gives STATUS = 2. -/
theorem test_nop : (after .nop (mk [] 0)).status = 0x00000002#32 := by decide +kernel

/-- R151: S = [0xA5], RPOS = 0 gives RES0 = 1, RPOS = 1. -/
theorem test_bsRbit : let t := after .bsRbit (mk [0xA5] 0); t.err = 0 ∧ t.res0 = 1 ∧ t.rpos = 1 := by decide +kernel

/-- R152: at RPOS = 3 of [0xA5, 0x0F] the byte is 0x28. -/
theorem test_bsRbyte :
    let t := after .bsRbyte { mk [0xA5, 0x0F] 0 with rpos := 3 }; t.err = 0 ∧ t.res0 = 0x28 ∧ t.rpos = 11 := by
  decide +kernel

/-- R152: fewer than 8 bits left, nothing consumed. -/
theorem test_bsRbyte_truncated :
    let t := after .bsRbyte { mk [0xA5] 0 with rpos := 1 }; t.err = 1 ∧ t.errInfo = 1 ∧ t.rpos = 1 := by
  decide +kernel

/-- R153: S = [0xA5], `BS.RBITS 3` gives RES0 = 5, RPOS = 3. -/
theorem test_bsRbits : let t := after (.bsRbits 3) (mk [0xA5] 0); t.err = 0 ∧ t.res0 = 5 ∧ t.rpos = 3 := by
  decide +kernel

/-- R153: a count above 32 is ERR_BAD_OPERAND(1). -/
theorem test_bsRbits_count : let t := after (.bsRbits 33) (mk [0xA5] 0); t.err = 6 ∧ t.errInfo = 1 := by
  decide +kernel

/-- R154: ARG0 = 3 writes one bit, byte 0 becomes 0x80. -/
theorem test_bsWbit :
    let t := after .bsWbit { mk [] 1 with arg0 := 3 }; t.err = 0 ∧ output t 1 = [0x80] ∧ t.wpos = 1 := by
  decide +kernel

/-- R155: ARG0 = 0x1AB writes 0xAB. -/
theorem test_bsWbyte :
    let t := after .bsWbyte { mk [] 1 with arg0 := 0x1AB }; t.err = 0 ∧ output t 1 = [0xAB] ∧ t.wpos = 8 := by
  decide +kernel

/-- R155: fewer than 8 bits of room, nothing written. -/
theorem test_bsWbyte_full :
    let t := after .bsWbyte { mk [] 1 with arg0 := 0xAB, wpos := 1 }
    t.err = 8 ∧ t.errInfo = 1 ∧ output t 1 = [0] ∧ t.wpos = 1 := by decide +kernel

/-- R156: ARG0 = 5, `BS.WBITS 3` writes 101. -/
theorem test_bsWbits :
    let t := after (.bsWbits 3) { mk [] 1 with arg0 := 5 }; t.err = 0 ∧ output t 1 = [0xA0] ∧ t.wpos = 3 := by
  decide +kernel

/-- R157: bits 101 and five old ones; Align clears the five. -/
theorem test_bsAlign :
    let t := after .bsAlign { mk [] 1 with mem := cells 0x100 [0xBF], wpos := 3 }
    t.err = 0 ∧ output t 1 = [0xA0] ∧ t.wpos = 8 := by decide +kernel

/-- R158: after 11 bits, `BS.CLOSE` gives [0xBF, 0xE0], RES0 = 2, WPOS = 16. -/
theorem test_bsClose :
    let t := after .bsClose { mk [] 2 with mem := cells 0x100 [0xBF, 0xFF], wpos := 11 }
    t.err = 0 ∧ output t 2 = [0xBF, 0xE0] ∧ t.res0 = 2 ∧ t.wpos = 16 := by decide +kernel

/-- R180: `TBL.CREATE t8, a256` gives A = 256, every weight 1, F = 0. -/
theorem test_tblCreate :
    let t := after (.tblCreate 8 false) (mk [] 0)
    t.err = 0 ∧ t.slot 8 = ⟨.a256, List.replicate 256 1#32, false, false, []⟩ := by decide +kernel

/-- R180: a preset slot is ERR_ILLEGAL_STATE. -/
theorem test_tblCreate_preset : let t := after (.tblCreate 7 true) (mk [] 0); t.err = 7 ∧ t.errInfo = 7 := by
  decide +kernel

/-- R181: ARG0 = 0x61, ARG1 = 0x7A, ARG2 = 50 gives weight 51 at 0x61 and 1 at 0x60. -/
theorem test_tblIncr :
    let t := after (.tblIncr 9) { mk [] 0 with arg0 := 0x61, arg1 := 0x7A, arg2 := 50 }
    t.err = 0 ∧ ((t.slot 9).weights.drop 0x60).take 2 = [1, 51] ∧ ((t.slot 9).weights.drop 0x7A).take 2 = [51, 1] := by
  decide +kernel

/-- R181: a weight that would pass 2^32 - 1 is ERR_OVERFLOW with the least symbol. -/
theorem test_tblIncr_overflow :
    let t := after (.tblIncr 9) { mk [] 0 with arg0 := 3, arg1 := 5, arg2 := 0xFFFFFFFF }
    t.err = 3 ∧ t.errInfo = 3 ∧ t.slot 9 = building := by decide +kernel

/-- R182: S = "aab", ARG2 = 2 raises 0x61 by 4 and 0x62 by 2. -/
theorem test_tblIncs :
    let t := after (.tblIncs 9) { mk [0x61, 0x61, 0x62] 0 with arg2 := 2 }
    t.err = 0 ∧ ((t.slot 9).weights.drop 0x60).take 4 = [1, 5, 3, 1] := by decide +kernel

/-- R183: TBL.FIN of equal weights gives every byte its own 8 bits as code. -/
theorem test_tblFin :
    let t := after (.tblFin 9) (mk [] 0)
    t.err = 0 ∧ (t.slot 9).final = true ∧ (t.slot 9).codes = (List.range 256).map (natBits 8) := by decide +kernel

/-- R194: the sentinel of UNI257 is 0x1FF in 9 bits. -/
theorem test_tblCode :
    let t := after (.tblCode 0) { mk [] 0 with arg0 := 256 }
    t.err = 0 ∧ t.res0 = 0x1FF ∧ t.res1 = 0 ∧ t.res2 = 9 := by decide +kernel

/-- R194: a slot that is not final is ERR_UNBUILT. -/
theorem test_tblCode_unbuilt : let t := after (.tblCode 9) (mk [] 0); t.err = 4 ∧ t.errInfo = 9 := by decide +kernel

/-- R195: `TBL.DEC meta` on 0xC0 gives symbol 2 in 3 bits. -/
theorem test_tblDec :
    let t := after (.tblDec 7) (mk [0xC0] 0); t.err = 0 ∧ t.res0 = 2 ∧ t.res2 = 3 ∧ t.rpos = 3 := by decide +kernel

/-- R195: on an exhausted walk every bit left is consumed. -/
theorem test_tblDec_truncated :
    let t := after (.tblDec 6) { mk [0xFF] 0 with rpos := 5 }; t.err = 1 ∧ t.errInfo = 8 ∧ t.rpos = 8 := by
  decide +kernel

/-- R196: TEXT257 reads 257, 1, 1. -/
theorem test_tblInfo :
    let t := after (.tblInfo 1) State.reset; t.res0 = 257 ∧ t.res1 = 1 ∧ t.res2 = 1 := by decide +kernel

/-- R197: the weight of 'a' in TEXT257 is 51. -/
theorem test_tblWgt :
    let t := after (.tblWgt 1) { State.reset with arg0 := 0x61 }; t.err = 0 ∧ t.res0 = 51 := by decide +kernel

/-- R218: 32 is 01 00100000. -/
theorem test_viEnc :
    let t := after .viEnc { mk [] 2 with arg0 := 32 }
    t.err = 0 ∧ output t 2 = [0x48, 0x00] ∧ t.res0 = 1 ∧ t.res2 = 10 ∧ t.wpos = 10 := by decide +kernel

/-- R218: 0x80000000 overflows with nothing written. -/
theorem test_viEnc_overflow :
    let t := after .viEnc { mk [] 8 with arg0 := 0x80000000 }
    t.err = 3 ∧ t.errInfo = 0x80000000 ∧ t.wpos = 0 := by decide +kernel

/-- R219: 0x3E is selector 00, raw 11111. -/
theorem test_viDec :
    let t := after .viDec (mk [0x3E] 0)
    t.err = 0 ∧ t.res0 = 31 ∧ t.res1 = 0 ∧ t.res2 = 5 ∧ t.rpos = 7 := by decide +kernel

/-- R220: 300 is [0xAC, 0x02]. -/
theorem test_uvEnc :
    let t := after .uvEnc { mk [] 2 with arg0 := 300 }; t.err = 0 ∧ output t 2 = [0xAC, 0x02] ∧ t.res2 = 2 := by
  decide +kernel

/-- R221: [0x80, 0x00] is 0 in two bytes. -/
theorem test_uvDec :
    let t := after .uvDec (mk [0x80, 0x00] 0)
    t.err = 0 ∧ t.res0 = 0 ∧ t.res1 = 0 ∧ t.res2 = 2 ∧ t.rpos = 16 := by decide +kernel

/-- R250: [0x31, 0xAA] asks for 3 literals and has 1. -/
theorem test_wkInspectLz4 :
    let t := after .wkInspectLz4 (mk [0x31, 0xAA] 2)
    t.err = 0 ∧ output t 2 = [0x31, 0xAA] ∧ t.res0 = 2 ∧ t.res1 = 3 ∧ t.res2 = 1 := by decide +kernel

/-- R251: preamble 6, "abc", a copy token. -/
theorem test_wkInspectSnappy :
    let t := after .wkInspectSnappy (mk [0x06, 0x0C, 0x61, 0x62, 0x63, 0x09, 0x03] 7)
    t.err = 0 ∧ output t 7 = [0x06, 0x0C, 0x61, 0x62, 0x63, 0x09, 0x03] ∧ t.res0 = 7 ∧ t.res1 = 3 ∧ t.res2 = 3 := by
  decide +kernel

/-- R252: D = [0x31, 0xF5, 0xA0]. -/
theorem test_wkCompLz4 :
    let t := after (.wkCompLz4 1) (mk [0x31, 0xAA] 3)
    t.err = 0 ∧ output t 3 = [0x31, 0xF5, 0xA0] ∧ t.res0 = 3 ∧ t.res1 = 3 ∧ t.res2 = 1 := by decide +kernel

/-- R252: with DST_CAP = 2 it ends with ERR_OUTPUT_FULL, ERRINFO = 8, RES0 = 1. -/
theorem test_wkCompLz4_full :
    let t := after (.wkCompLz4 1) (mk [0x31, 0xAA] 2)
    t.err = 8 ∧ t.errInfo = 8 ∧ t.res0 = 1 ∧ t.res1 = 3 ∧ t.res2 = 0 := by decide +kernel

/-- R253: D = [0x06, 0x0C, 0x5D, 0x86, 0x42, 0x40, 0xC0]. -/
theorem test_wkCompSnappy :
    let t := after (.wkCompSnappy 1) (mk [0x06, 0x0C, 0x61, 0x62, 0x63, 0x09, 0x03] 7)
    t.err = 0 ∧ output t 7 = [0x06, 0x0C, 0x5D, 0x86, 0x42, 0x40, 0xC0] ∧ t.res0 = 7 := by decide +kernel

/-- R254: the five pad bits decode as a third byte, 0x0A. -/
theorem test_wkDecompLz4 :
    let t := after (.wkDecompLz4 1) (mk [0x31, 0xF5, 0xA0] 3)
    t.err = 0 ∧ output t 3 = [0x31, 0xAA, 0x0A] ∧ t.res0 = 3 ∧ t.res1 = 3 ∧ t.res2 = 2 := by decide +kernel

/-- R255: the inverse of R253, RPOS = 50. -/
theorem test_wkDecompSnappy :
    let t := after (.wkDecompSnappy 1) (mk [0x06, 0x0C, 0x5D, 0x86, 0x42, 0x40, 0xC0] 7)
    t.err = 0 ∧ output t 7 = [0x06, 0x0C, 0x61, 0x62, 0x63, 0x09, 0x03] ∧ t.res0 = 7 ∧ t.rpos = 50 := by
  decide +kernel

/-- R271: an empty source gives the sentinel and padding, [0xFF, 0x80]. -/
theorem test_blkEnc :
    let t := after (.blkEnc 0) (mk [] 2); t.err = 0 ∧ output t 2 = [0xFF, 0x80] ∧ t.res0 = 2 := by decide +kernel

/-- R272: [0x41, 0xFF, 0x80] gives [0x41]. -/
theorem test_blkDec :
    let t := after (.blkDec 0) (mk [0x41, 0xFF, 0x80] 2); t.err = 0 ∧ output t 1 = [0x41] ∧ t.res0 = 1 := by
  decide +kernel

/-- R298: "aaaaaaaa" gives [0x08, 0x04, 0x2E, 0xBA, 0xEB, 0xE0, 0x02, 0x40]. -/
theorem test_lzComp :
    let t := after .lzComp (mk (List.replicate 8 0x61) 8)
    t.err = 0 ∧ output t 8 = [0x08, 0x04, 0x2E, 0xBA, 0xEB, 0xE0, 0x02, 0x40] ∧ t.res0 = 8 ∧ t.res1 = 1 ∧
      t.res2 = 1 := by decide +kernel

/-- R305: the inverse. -/
theorem test_lzDecomp :
    let t := after .lzDecomp (mk [0x08, 0x04, 0x2E, 0xBA, 0xEB, 0xE0, 0x02, 0x40] 8)
    t.err = 0 ∧ output t 8 = List.replicate 8 0x61 ∧ t.res0 = 8 := by decide +kernel

/-- R305: a first token that is a substitution is ERR_CORRUPT_REF: hint 0, then 11, offset 0, length 0. -/
theorem test_lzDecomp_corrupt :
    let t := after .lzDecomp (mk [0x00, 0xC0, 0x00] 8); t.err = 2 ∧ t.errInfo = 0 ∧ t.res0 = 0 := by decide +kernel

/-! ### The host -/

/-- What a step leads to: a next state with a property, a fault, or a refusal. -/
def nextIs (o : Host.Outcome State Fault Refusal) (p : State → Bool) : Bool :=
  match o with
  | .next t => p t
  | _ => false

def faults (o : Host.Outcome State Fault Refusal) : Bool :=
  match o with
  | .fault .hostRace => true
  | _ => false

def refuses (o : Host.Outcome State Fault Refusal) : Bool :=
  match o with
  | .refused .registerAccess => true
  | _ => false

/-- R36: byte offset +0 holds bits 7:0; R26: a write to CMD is accepted. -/
theorem test_host_accept :
    nextIs (step { State.reset with events := [.host (.regWrite 0x0C [0x20, 0x28, 0x00, 0x00])] })
      (fun t => t.cmd == 0x00002820#32 && t.status == 1#32) = true := by decide +kernel

/-- R33: a write while busy is lost. -/
theorem test_host_lost :
    nextIs (step { mk [] 0 with events := [.host (.regWrite 0x10 [1, 0, 0, 0])] })
      (fun t => t.arg0 == 0#32 && t.status == 5#32) = true := by decide +kernel

/-- R23: ID reads 0x48504307. -/
theorem test_host_id :
    nextIs (step { State.reset with events := [.host (.regRead 0 4)] })
      (fun t => t.hostData == [0x07, 0x43, 0x50, 0x48]) = true := by decide +kernel

/-- R36: an access that is no aligned word is refused. -/
theorem test_host_refused : refuses (step { State.reset with events := [.host (.regRead 2 4)] }) = true := by
  decide +kernel

/-- R74: a store into the source of a running BS.RBIT is a race; beside it it is not. -/
theorem test_host_race :
    let s := { mk [0xA5] 0 with cmd := 0x10 }
    faults (step { s with events := [.host (.store 0 1)] }) = true ∧
      nextIs (step { s with events := [.host (.store 1 7)] }) (fun t => t.mem == [(0, 0xA5), (1, 7)]) = true := by
  decide +kernel

/-- R324: an illegal word completes with code 5. -/
theorem test_engine_illegal :
    nextIs (step (State.reset.withFetchWord 32 0x13)) (fun t => t.status == 0x502#32 && t.errInfo == 0x13#32) = true := by
  decide +kernel

/-- R361: reset clears the registers. -/
theorem test_reset :
    nextIs (step { mk [0xA5] 0 with arg0 := 3, events := [.reset] }) (fun t => t.arg0 == 0#32 && t.status == 0#32) =
      true := by decide +kernel

/-- R98: a command line runs the command to its completion before the poll, and R332: the host acknowledges. -/
theorem test_program :
    (match Sys2Proof.core.run 4 (State.reset.withProgram [.command .nop, .wr 0x08 2]) with
      | .next t => t.hostData == [2, 0, 0, 0] && t.status == 0#32 && t.events == []
      | _ => false) = true := by decide +kernel

/-- R98: a program stops at a failing CHECK, here after ERR_BAD_OPERAND; one that finds
ERR = 0 lets it go on. -/
theorem test_check :
    nextIs (step { State.reset with status := 0x602, events := programEvents [.checkOk, .wr 0x10 5] })
      (fun t => t.hostData == [2, 6, 0, 0] && t.events == []) = true ∧
    nextIs (step { State.reset with status := 2, events := programEvents [.checkOk, .wr 0x10 5] })
      (fun t => t.hostData == [2, 0, 0, 0] && t.events == programEvents [.wr 0x10 5]) = true := by decide +kernel

/-! ### Witnesses: for each statement with hypotheses, a state and operands that meet them, clause by clause -/

/-- Bits packed into bytes, eight by eight. -/
def pack : Nat → Bits → List Byte
  | 0, _ => []
  | n + 1, bs => if bs = [] then [] else byte (bitsVal (bs.take 8)) :: pack n (bs.drop 8)

/-- A command whose outcome is a next state reaches `after`. -/
theorem after_next {i : Instr} {s : State} (h : nextIs (exec i s) (fun _ => true) = true) :
    exec i s = .next (after i s) := by
  rcases he : exec i s with t | f | r
  · simp [after, he]
  · simp [nextIs, he] at h
  · simp [nextIs, he] at h

/-- The small machine with a prefix-free code in every candidate. -/
def mkLz (src : List Byte) (cap : Nat) : State := { mk src cap with slots := tinySlots.set 2 byteSlot }

theorem metaCodes_prefixFree : PrefixFree metaCodes := by unfold PrefixFree; decide

theorem vintCodes_prefixFree : PrefixFree vintCodes := by unfold PrefixFree; decide

theorem mkLz_selectorsOk (src : List Byte) (cap : Nat) : selectorsOk (mkLz src cap) := by
  have h8 : PrefixFree byteSlot.codes := fixed_prefixFree 8 256 (by decide) (by decide)
  refine ⟨⟨vintCodes_prefixFree, rfl⟩, ⟨metaCodes_prefixFree, rfl⟩, fun k hk => ?_⟩
  have hs : (mkLz src cap).slot (candSlot k) = byteSlot := by
    interval_cases k <;> rfl
  rw [hs]
  exact ⟨h8, by simp [byteSlot, preset]⟩

theorem witness_DecodeOfEncode : (Instr.bsRbits 63).WellFormed := by decide

theorem witness_EncodeOfDecode : decode 0x00050016#32 = .ok (.bsWbits 5) := by decide

theorem witness_IllegalWords :
    ∃ s : State, s.events = [] ∧ s.busy = true ∧ s.cmd = 0x13#32 ∧ illegalWord 0x13#32 :=
  ⟨{ mk [] 0 with cmd := 0x13 }, rfl, by decide +kernel, rfl, .inl (by decide)⟩

theorem witness_StepRunsDecoded :
    (∃ s : State, s.busy = true ∧ decode s.cmd = .ok .nop ∧ s.events = []) ∧
    (∃ s : State, s.busy = true ∧ decode s.cmd = .ok .nop ∧ s.events = [.engine]) ∧
    (∃ s : State, s.busy = false ∧ s.events = []) ∧ ∃ s : State, s.busy = false ∧ s.events = [.engine] :=
  ⟨⟨mk [] 0, by decide +kernel, by decide, rfl⟩, ⟨{ mk [] 0 with events := [.engine] }, by decide +kernel, by decide, rfl⟩,
    ⟨State.reset, by decide +kernel, rfl⟩, ⟨{ State.reset with events := [.engine] }, by decide +kernel, rfl⟩⟩

theorem witness_AcceptStartsCommand :
    ∃ s : State, s.busy = false ∧ decode 0x10#32 = .ok .bsRbit ∧
      s.events = .host (.regWrite 0x0C (busBytes 0x10#32)) :: .engine :: [] :=
  ⟨{ State.reset with events := [.host (.regWrite 0x0C (busBytes 0x10#32)), .engine] }, by decide +kernel, by decide, rfl⟩

theorem witness_RegisterFrame : ∃ s t, exec .bsWbit s = .next t ∧ (resultRegisters .bsWbit).1 = false ∧
    (resultRegisters .bsWbit).2.1 = false ∧ (resultRegisters .bsWbit).2.2 = false ∧ readsSource .bsWbit = false :=
  ⟨mk [] 1, _, after_next (by decide +kernel), rfl, rfl, rfl, rfl⟩

theorem witness_RegisterFrame_wpos : ∃ s t, exec (.tblIncs 9) s = .next t ∧ writesDest (.tblIncs 9) = false :=
  ⟨mk [] 1, _, after_next (by decide +kernel), rfl⟩

theorem witness_ErrorCodesRaised : ∃ s t, exec .lzDecomp s = .next t ∧ t.err = 2#8 :=
  ⟨mk [0x00, 0xC0, 0x00] 8, _, after_next (by decide +kernel), by decide +kernel⟩

theorem witness_ResultsOnError :
    (∃ s t, exec (.bsRbits 33) s = .next t ∧ t.err ≠ 0#8 ∧ highLevel (.bsRbits 33) = false) ∧
    (∃ s t, exec (.blkEnc 9) s = .next t ∧ t.err ≠ 0#8 ∧ t.err ∈ [4#8, 6#8, 7#8]) ∧
    ∃ s t, exec (.blkEnc 0) s = .next t ∧ t.err ≠ 0#8 ∧ highLevel (.blkEnc 0) = true ∧
      t.err ∉ [4#8, 6#8, 7#8] ∧ walker (.blkEnc 0) = false :=
  ⟨⟨mk [] 0, _, after_next (by decide +kernel), by decide +kernel, rfl⟩,
    ⟨mk [] 0, _, after_next (by decide +kernel), by decide +kernel, by decide +kernel⟩,
    ⟨mk [] 0, _, after_next (by decide +kernel), by decide +kernel, rfl, by decide +kernel, rfl⟩⟩

theorem witness_ResultsOnError_counters :
    (∃ s t p code, exec .wkInspectLz4 s = .next t ∧ t.err = 8#8 ∧ highLevel .wkInspectLz4 = true ∧
      plainWalk s .wkInspectLz4 = some (p, code) ∧ ∀ b, code b ≠ []) ∧
    (∃ s t p k, exec (.wkDecompLz4 8) s = .next t ∧ t.err = 8#8 ∧ codedWalk (.wkDecompLz4 8) = some (p, k) ∧
      Memory.wf s.mem = true) ∧
    ∃ s t, exec .lzComp s = .next t ∧ t.err = 8#8 ∧ selectorsOk s :=
  ⟨⟨mk [0x31, 0xAA] 1, _, _, _, after_next (by decide +kernel), by decide +kernel, rfl, rfl,
      fun b h => by simpa using congrArg List.length h⟩,
    ⟨mk [0x31, 0xAA] 0, _, _, _, after_next (by decide +kernel), by decide +kernel, rfl, by decide +kernel⟩,
    ⟨mkLz [0x61] 2, _, after_next (by decide +kernel), by decide +kernel, mkLz_selectorsOk _ _⟩⟩

theorem witness_MemoryFrame : ∃ s t, exec .bsWbit s = .next t ∧
    (writesDest .bsWbit && inBuffer s.dstAddr s.dstCap 0x101) = false :=
  ⟨mk [] 1, _, after_next (by decide +kernel), by decide +kernel⟩

theorem witness_OnlyItsBuffers : ∃ (s t : State) (m : Memory), m ≠ s.mem ∧ Memory.wf s.mem = true ∧ Memory.wf m = true ∧
    (∀ a, reaches .bsRbit s a = true → m.read a = s.mem.read a) ∧ exec .bsRbit s = .next t := by
  refine ⟨mk [0xA5] 0, _, (mk [0xA5] 0).mem.write 7 1, by decide +kernel, by decide +kernel, by decide +kernel,
    fun a h => ?_, after_next (by decide +kernel)⟩
  refine Memory.read_write_other _ _ _ _ fun e => ?_
  subst e
  revert h
  decide +kernel

theorem witness_SlotFrame :
    (∃ s t, exec (.tblCreate 8 true) s = .next t ∧ slotChanged (.tblCreate 8 true) ≠ some 9) ∧
    ∃ s t, exec (.tblCreate 7 true) s = .next t ∧ t.err ≠ 0#8 :=
  ⟨⟨mk [] 0, _, after_next (by decide +kernel), by decide⟩, ⟨mk [] 0, _, after_next (by decide +kernel), by decide +kernel⟩⟩

theorem witness_BusyWritesLost : (mk [] 0).busy = true ∧ windowWord 0x0C 4 = true ∧ windowWord 0x40 4 = true ∧
    0x0C ∈ ownedOffsets ∧ 0x40 ∈ ownedOffsets ∧ windowWord 0x04 4 = true ∧ windowWord 0x08 4 = true ∧
    windowWord 0x00 4 = true ∧ 0x00 ∈ readOnlyOffsets ∧ windowWord 0x44 4 = true ∧ windowWord 0xFC 4 = true := by
  decide +kernel

theorem witness_IdleWrites : State.reset.busy = false := by decide +kernel

theorem witness_RegisterReads : ((0x00, 0x48504307#32) ∈ registerMap State.reset ∧ State.reset.busy = false) ∧
    ((0x40, 0#32) ∈ registerMap (mk [] 0) ∧ 0x40 ∈ movingOffsets ∧ (mk [] 0).busy = true) ∧
    (0x3C, 0#32) ∈ registerMap (mk [] 0) ∧ 0x3C ∉ movingOffsets ∧ windowWord 0x44 4 = true ∧ windowWord 0xFC 4 = true := by
  decide +kernel

theorem witness_AccessRefused : windowWord 0x100 4 = false ∧ windowWord 0 2 = false ∧ windowWord 1 4 = false := by
  decide

theorem witness_HostRace :
    (∃ s : State, s.busy = true ∧ (∃ i, decode s.cmd = .ok i ∧ reaches i s (0#32).toNat = true)) ∧
    ∃ s : State, ¬ (s.busy = true ∧ ∃ i, decode s.cmd = .ok i ∧ reaches i s (0#32).toNat = true) :=
  ⟨⟨{ mk [0xA5] 0 with cmd := 0x10 }, by decide +kernel, .bsRbit, by decide, by decide +kernel⟩,
    ⟨State.reset, fun h => absurd h.1 (by decide +kernel)⟩⟩

theorem witness_ResetInput : (∃ s : State, s.events = .reset :: [] ∧ s.busy = false) ∧
    ∃ s : State, s.events = .reset :: [] ∧ s.busy = true ∧ decode s.cmd = .ok .bsWbit ∧ writesDest .bsWbit = true :=
  ⟨⟨{ State.reset with events := [.reset] }, rfl, by decide +kernel⟩,
    ⟨{ mk [] 1 with cmd := 0x14, events := [.reset] }, rfl, by decide +kernel, by decide, rfl⟩⟩

theorem witness_Interrupt : ∃ s t, exec .nop s = .next t := ⟨mk [] 0, _, after_next (by decide +kernel)⟩

/-- After reset, on a platform that weights its bytes alike. -/
def evenStart : State :=
  let even := List.replicate 256 1#32
  State.afterReset { defaultParams with hamLow := even, hamHigh := even, textSets := [] } [] [] [] 0

theorem start_inv : evenStart.Inv := by
  refine ⟨by decide, by decide, by decide, by decide, fun _ => rfl, rfl, rfl, fun t => ?_, by decide +kernel⟩
  by_cases h : t.val < 8
  · rw [if_pos h]
    rfl
  · rw [if_neg h]
    revert h
    revert t
    decide +kernel

theorem witness_StepKeepsInvariants : ∃ s t : State, s.Inv ∧ step s = .next t := ⟨_, _, start_inv, rfl⟩

theorem witness_BufferChecks :
    (32 < countOperand (.bsRbits 33) ∧ 32 < countOperand (.bsWbits 63)) ∧
    (∃ s : State, countOperand (.bsRbits 32) ≤ 32 ∧ readsSource (.bsRbits 32) = true ∧ s.sourceOk = false) ∧
    (∃ s : State, (readsSource .lzComp = true → s.sourceOk = true) ∧ writesDest .lzComp = true ∧ s.destOk = false) ∧
    ∃ s : State, highLevel .lzComp = true ∧ s.sourceOk = true ∧ s.destOk = true ∧ s.disjoint = false :=
  ⟨by decide, ⟨{ mk [] 0 with srcLen := 0x20000000 }, by decide, rfl, by decide +kernel⟩,
    ⟨{ mk [] 0 with dstCap := 0x20000000 }, fun _ => by decide +kernel, rfl, by decide +kernel⟩,
    ⟨{ mk [1] 1 with dstAddr := 0 }, rfl, by decide +kernel, by decide +kernel, by decide +kernel⟩⟩

theorem witness_TableChecks :
    (∃ (suits : Alphabet → Bool) (s : State), codeTable (.blkEnc 9) = some (9, suits) ∧ s.sourceOk = true ∧
      s.destOk = true ∧ s.disjoint = true ∧ (s.slot 9).final = false) ∧
    ∃ (suits : Alphabet → Bool) (s : State), codeTable (.blkEnc 3) = some (3, suits) ∧ s.sourceOk = true ∧
      s.destOk = true ∧ s.disjoint = true ∧ (s.slot 3).final = true ∧ suits (s.slot 3).alpha = false :=
  ⟨⟨_, mk [] 0, rfl, by decide +kernel, by decide +kernel, by decide +kernel, by decide +kernel⟩,
    ⟨_, mk [] 0, rfl, by decide +kernel, by decide +kernel, by decide +kernel, by decide +kernel, by decide +kernel⟩⟩

theorem witness_BitReadErrors : ((mk [] 0).sourceOk = true ∧ (mk [] 0).avail < 1) ∧
    ∃ s : State, s.sourceOk = true ∧ 8 < 32 ∧ 32 ≤ s.avail ∧
      spanOk s.params s.srcAddr.toNat s.rpos.toNat 8 = true ∧
      memOk s.params (s.srcAddr.toNat + (s.rpos.toNat + 8) / 8) = false :=
  ⟨by decide +kernel, { mk [] 0 with srcAddr := 0xFFFF, srcLen := 4 }, by decide +kernel⟩

theorem witness_BitWriteErrors : ((mk [] 0).destOk = true ∧ 8 * (mk [] 0).dstCap.toNat < (mk [] 0).wpos.toNat + 1) ∧
    ∃ s : State, s.destOk = true ∧ 8 < 32 ∧ s.wpos.toNat + 32 ≤ 8 * s.dstCap.toNat ∧
      spanOk s.params s.dstAddr.toNat s.wpos.toNat 8 = true ∧
      memOk s.params (s.dstAddr.toNat + (s.wpos.toNat + 8) / 8) = false :=
  ⟨by decide +kernel, { mk [] 4 with dstAddr := 0xFFFF }, by decide +kernel⟩

theorem witness_BitReads : (mk [0xA5] 0).canRead 1 = true ∧ (mk [0xA5] 0).canRead 8 = true ∧
    (mk [] 0).canRead 0 = true ∧ (mk [1, 2, 3, 4] 0).canRead 32 = true := by decide +kernel

theorem witness_BitWrites : (mk [] 1).canWrite 1 = true ∧ (mk [] 1).canWrite 8 = true ∧ (mk [] 0).canWrite 0 = true ∧
    (mk [] 4).canWrite 32 = true := by decide +kernel

theorem witness_AlignAndClose : (mk [] 0).canAlign = true ∧
    ({ mk [] 1 with wpos := 7 } : State).canAlign = true := by decide +kernel

theorem witness_AlignAndClose_errors :
    (∃ s : State, s.destOk = true ∧ s.wpos.toNat % 8 ≠ 0 ∧ 8 * s.dstCap.toNat ≤ s.wpos.toNat) ∧
    ∃ s : State, s.destOk = true ∧ s.wpos.toNat % 8 ≠ 0 ∧ s.wpos.toNat < 8 * s.dstCap.toNat ∧
      memOk s.params (s.dstAddr.toNat + s.wpos.toNat / 8) = false :=
  ⟨⟨{ mk [] 1 with wpos := 100 }, by decide +kernel⟩,
    ⟨{ mk [] 4 with dstAddr := 0xFFFF, wpos := 9 }, by decide +kernel⟩⟩

theorem witness_StoredBits : Memory.wf (mk [0xA5] 0).mem = true ∧ 3 + (5 + [true, false].length + 7) / 8 ≤ 2 ^ 32 := by
  decide +kernel

theorem witness_TableCreate : ((mk [] 0).slot 8).preset = false ∧ ((mk [] 0).slot 7).preset = true := by decide +kernel

/-- Nothing added, nothing overflows. -/
theorem no_overflow (s : State) (k : Fin 16) (n x : Nat) (h : s.arg2 = 0#32) :
    ¬ ∃ w : Word, (s.slot k).weights[x]? = some w ∧ 2 ^ 32 ≤ w.toNat + n * s.arg2.toNat := by
  rintro ⟨w, -, hw⟩
  have := w.isLt
  simp [h] at hw
  omega

theorem witness_TableIncrement_checks :
    (255 < (256#32).toNat ∧ (255#32).toNat ≤ 255) ∧ (mk [] 0).arg0.toNat ≤ 255 ∧ (mk [] 0).arg1.toNat ≤ 255 ∧
    ((mk [] 0).slot 7).preset = true ∧ ((mk [] 0).slot 10).alpha = .empty ∧ ((mk [] 0).slot 8).final = true := by
  decide +kernel

theorem witness_TableIncrement :
    (∃ s : State, s.arg0.toNat ≤ 255 ∧ s.arg1.toNat ≤ 255 ∧ (s.slot 9).preset = false ∧ (s.slot 9).alpha ≠ .empty ∧
      (s.slot 9).final = false ∧
      ∀ x : Nat, ¬ ∃ w : Word, (s.slot 9).weights[x]? = some w ∧ 2 ^ 32 ≤ w.toNat + 1 * s.arg2.toNat) ∧
    ∃ s : State, (s.slot 9).weights[s.arg0.toNat]? = some 1#32 ∧ 2 ^ 32 ≤ (1#32).toNat + s.arg2.toNat ∧
      s.arg0.toNat ≤ s.arg1.toNat ∧ s.arg1.toNat ≤ 255 ∧ (s.slot 9).final = false :=
  ⟨⟨mk [] 0, by decide +kernel, by decide +kernel, by decide +kernel, by decide +kernel, by decide +kernel,
      fun x => no_overflow (mk [] 0) 9 1 x rfl⟩,
    ⟨{ mk [] 0 with arg0 := 3, arg1 := 5, arg2 := 0xFFFFFFFF }, by decide +kernel⟩⟩

theorem witness_TableIncrementSource_checks :
    (∃ s : State, s.sourceOk = false) ∧
    (∃ s : State, s.sourceOk = true ∧
      ¬ ((s.slot 8).preset = false ∧ (s.slot 8).alpha ≠ .empty ∧ (s.slot 8).final = false)) ∧
    ∃ s : State, 1 < s.srcLen.toNat ∧ s.sourceOk = true ∧ (s.slot 9).preset = false ∧ (s.slot 9).alpha ≠ .empty ∧
      (s.slot 9).final = false ∧ (∀ m, m < 1 → memOk s.params (s.srcAddr.toNat + m) = true) ∧
      memOk s.params (s.srcAddr.toNat + 1) = false :=
  ⟨⟨{ mk [] 0 with srcLen := 0x20000000 }, by decide +kernel⟩, ⟨mk [] 0, by decide +kernel⟩,
    ⟨{ mk [] 0 with srcAddr := 0xFFFF, srcLen := 4 }, by decide +kernel⟩⟩

theorem witness_TableIncrementSource :
    (∃ s : State, s.sourceOk = true ∧ (∀ m, m < s.srcLen.toNat → memOk s.params (s.srcAddr.toNat + m) = true) ∧
      (s.slot 9).preset = false ∧ (s.slot 9).alpha ≠ .empty ∧ (s.slot 9).final = false ∧
      ∀ x : Nat, ¬ (x < 256 ∧ ∃ w : Word, (s.slot 9).weights[x]? = some w ∧
        2 ^ 32 ≤ w.toNat + s.source.countP (fun b => b.toNat == x) * s.arg2.toNat)) ∧
    ∃ s : State, s.sourceOk = true ∧ (∀ m, m < s.srcLen.toNat → memOk s.params (s.srcAddr.toNat + m) = true) ∧
      (s.slot 9).final = false ∧ (s.slot 9).weights[0x61]? = some 1#32 ∧
      2 ^ 32 ≤ (1#32).toNat + s.source.countP (fun b => b.toNat == 0x61) * s.arg2.toNat :=
  ⟨⟨mk [0x61] 0, by decide +kernel, by decide +kernel, by decide +kernel, by decide +kernel, by decide +kernel,
      fun x h => no_overflow (mk [0x61] 0) 9 _ x rfl h.2⟩,
    ⟨{ mk [0x61] 0 with arg2 := 0xFFFFFFFF }, by decide +kernel⟩⟩

theorem witness_TableFinalize : ((mk [] 0).slot 0).preset = true ∧ ((mk [] 0).slot 10).preset = false ∧
    ((mk [] 0).slot 10).alpha = .empty ∧
    ∃ s : State, (s.slot 9).preset = false ∧ (s.slot 9).alpha ≠ .empty ∧
      ∀ c ∈ build s.params.builder ((s.slot 9).weights.map BitVec.toNat), c.length ≤ 64 :=
  ⟨by decide +kernel, by decide +kernel, by decide +kernel, ⟨{ mk [] 0 with slots := tinySlots.set 9 { building with weights := [3, 1, 1, 2] } },
    by decide +kernel⟩⟩

/-- A slot with more weights than a run can give it: some code is longer than MAXCODE. -/
def manyWeights : Slot := ⟨.a256, List.replicate (2 ^ 64 + 1) 1#32, false, false, []⟩

theorem exists_longest (codes : List Bits) (h : ∃ c ∈ codes, 64 < c.length) :
    ∃ c ∈ codes, 64 < c.length ∧ ∀ d ∈ codes, d.length ≤ c.length := by
  induction codes with
  | nil => simp at h
  | cons a cs ih =>
    by_cases hc : ∃ c ∈ cs, 64 < c.length
    · obtain ⟨c, hm, hl, hd⟩ := ih hc
      by_cases ha : a.length ≤ c.length
      · exact ⟨c, by simp [hm], hl, by simpa [ha] using hd⟩
      · exact ⟨a, by simp, by omega, by simpa using fun d hd' => (hd d hd').trans (by omega)⟩
    · have ha : 64 < a.length := by
        obtain ⟨c, hm, hl⟩ := h
        rcases List.mem_cons.1 hm with rfl | hm
        · exact hl
        · exact absurd ⟨c, hm, hl⟩ hc
      refine ⟨a, by simp, ha, ?_⟩
      rintro d hd
      rcases List.mem_cons.1 hd with rfl | hd
      · exact Nat.le_refl _
      · exact Nat.le_trans (Nat.not_lt.1 fun hl => hc ⟨d, hd, hl⟩) (Nat.le_of_lt ha)

theorem witness_TableFinalize_overflow : ∃ s : State, (s.slot 9).preset = false ∧ (s.slot 9).alpha ≠ .empty ∧
    ∃ c ∈ build s.params.builder ((s.slot 9).weights.map BitVec.toNat), 64 < c.length ∧
      ∀ d ∈ build s.params.builder ((s.slot 9).weights.map BitVec.toNat), d.length ≤ c.length := by
  have e : ({ mk [] 0 with slots := tinySlots.set 9 manyWeights } : State).slot 9 = manyWeights :=
    Vector.getElem_set_self (by decide)
  refine ⟨{ mk [] 0 with slots := tinySlots.set 9 manyWeights }, ?_, ?_, ?_⟩
  · rw [e, manyWeights]
  · rw [e, manyWeights]
    decide
  · rw [e]
    refine exists_longest _ (referenceBuild_long _ 64 ?_)
    rw [List.length_map, manyWeights, List.length_replicate]
    omega

theorem witness_TableQueries :
    (∃ s : State, (s.slot 0).final = true ∧ s.arg0.toNat = 256 ∧ s.arg0.toNat < (s.slot 0).alpha.size ∧
      ((s.slot 0).code s.arg0.toNat).length ≤ 64) ∧
    ∃ s : State, (s.slot 9).alpha ≠ .empty ∧ s.arg0.toNat < (s.slot 9).alpha.size ∧
      (s.slot 9).weights[s.arg0.toNat]? = some 1#32 :=
  ⟨⟨{ mk [] 0 with arg0 := 256 }, by decide +kernel⟩, ⟨{ mk [] 0 with arg0 := 255 }, by decide +kernel⟩⟩

theorem witness_TableQueries_checks : ((mk [] 0).slot 10).final = false ∧ ((mk [] 0).slot 10).alpha = .empty ∧
    ∃ s : State, (s.slot 8).final = true ∧ (s.slot 8).alpha ≠ .empty ∧ s.arg0.toNat = 257 ∧
      (s.slot 8).alpha.size ≤ s.arg0.toNat :=
  ⟨by decide +kernel, by decide +kernel, ⟨{ mk [] 0 with arg0 := 257 }, by decide +kernel⟩⟩

theorem witness_TableDecode :
    (∃ s : State, s.sourceOk = true ∧ (s.slot 7).final = true ∧ PrefixFree (s.slot 7).codes ∧
      (s.slot 7).codes[2]? = some (natBits 3 6) ∧ natBits 3 6 <+: s.sourceRest ∧ s.canRead 3 = true) ∧
    ∃ s : State, s.sourceOk = true ∧ (s.slot 7).final = true ∧ PrefixFree (s.slot 7).codes ∧
      (∀ c ∈ (s.slot 7).codes, ¬ c <+: s.sourceRest) ∧ s.canRead s.avail = true :=
  ⟨⟨mk [0xC0] 0, by decide +kernel, by decide +kernel, metaCodes_prefixFree, by decide +kernel, by decide +kernel,
      by decide +kernel⟩,
    ⟨{ mk [0xFF] 0 with rpos := 6 }, by decide +kernel, by decide +kernel, metaCodes_prefixFree, by decide +kernel,
      by decide +kernel⟩⟩

/-- A source of two bytes, the second of which may not be accessed. -/
def shutSource (b : Byte) (r : Word) : State :=
  { mk [] 0 with srcAddr := 0xFFFF, srcLen := 2, rpos := r, mem := Memory.put 0xFFFF b [] }

theorem witness_TableDecode_bus :
    (∃ s : State, s.sourceOk = true ∧ (s.slot 7).final = true ∧ PrefixFree (s.slot 7).codes ∧ s.readStopsAt 2 = true ∧
      ∀ c ∈ (s.slot 7).codes, ¬ c <+: s.sourceRest.take 2) ∧
    ∃ s : State, s.sourceOk = true ∧ (s.slot 7).final = true ∧ PrefixFree (s.slot 7).codes ∧ s.readStopsAt 0 = true ∧
      ∀ c ∈ (s.slot 7).codes, ¬ c <+: s.sourceRest.take 0 :=
  ⟨⟨shutSource 0x03 6, by decide +kernel, by decide +kernel, metaCodes_prefixFree, by decide +kernel, by decide +kernel⟩,
    ⟨shutSource 0x00 8, by decide +kernel, by decide +kernel, metaCodes_prefixFree, by decide +kernel, by decide +kernel⟩⟩

theorem witness_VarintEncode :
    (∃ s : State, s.arg0.toNat < 2 ^ 31 ∧ s.canWrite (vintBits (s.slot vintSlot) s.arg0.toNat).length = true) ∧
    (∃ s : State, 2 ^ 31 ≤ s.arg0.toNat ∧ s.destOk = true) ∧
    ∃ s : State, s.arg0.toNat < 2 ^ 31 ∧ s.canWrite ((s.slot vintSlot).code (bucket s.arg0.toNat)).length = true ∧
      8 * s.dstCap.toNat < s.wpos.toNat + (vintBits (s.slot vintSlot) s.arg0.toNat).length :=
  ⟨⟨{ mk [] 8 with arg0 := 0x7FFFFFFF }, by decide +kernel⟩, ⟨{ mk [] 8 with arg0 := 0x80000000 }, by decide +kernel⟩,
    ⟨{ mk [] 1 with arg0 := 32 }, by decide +kernel⟩⟩

theorem witness_VarintEncode_full : ∃ s : State, s.arg0.toNat < 2 ^ 31 ∧ s.destOk = true ∧
    8 * s.dstCap.toNat < s.wpos.toNat + ((s.slot vintSlot).code (bucket s.arg0.toNat)).length :=
  ⟨{ mk [] 1 with arg0 := 32, wpos := 7 }, by decide +kernel⟩

/-- The selector ends the first byte or crosses into the second, which may not be accessed; and a cursor past the end. -/
theorem witness_VarintEncode_stops :
    let units := fun s : State => [(s.slot vintSlot).code (bucket s.arg0.toNat),
      natBits (vintWidth (bucket s.arg0.toNat)) s.arg0.toNat]
    (∃ s : State, s.arg0.toNat < 2 ^ 31 ∧ s.destOk = true ∧ s.writeStopAt (units s) = some (1, 8, .bus 0x10000)) ∧
    (∃ s : State, s.arg0.toNat < 2 ^ 31 ∧ s.destOk = true ∧ s.writeStopAt (units s) = some (0, 8, .bus 0x10000)) ∧
    ∃ s : State, s.arg0.toNat < 2 ^ 31 ∧ s.destOk = true ∧ s.writeStopAt (units s) = some (0, 100, .outputFull 100) :=
  ⟨⟨{ mk [] 4 with arg0 := 32, dstAddr := 0xFFFF, wpos := 6 }, by decide +kernel⟩,
    ⟨{ mk [] 4 with arg0 := 32, dstAddr := 0xFFFF, wpos := 7 }, by decide +kernel⟩,
    ⟨{ mk [] 4 with arg0 := 32, wpos := 100 }, by decide +kernel⟩⟩

theorem witness_VarintDecode_bus :
    (∃ s : State, s.sourceOk = true ∧ PrefixFree (s.slot vintSlot).codes ∧
      (s.slot vintSlot).codes[0]? = some (natBits 2 0) ∧ natBits 2 0 <+: s.sourceRest ∧ 2 + vintWidth 0 ≤ s.avail ∧
      s.readStopsAt 2 = true) ∧
    ∃ s : State, s.sourceOk = true ∧ PrefixFree (s.slot vintSlot).codes ∧ s.readStopsAt 1 = true ∧
      ∀ c ∈ (s.slot vintSlot).codes, ¬ c <+: s.sourceRest.take 1 :=
  ⟨⟨shutSource 0x00 6, by decide +kernel, vintCodes_prefixFree, by decide +kernel, by decide +kernel, by decide +kernel,
      by decide +kernel⟩,
    ⟨shutSource 0x00 7, by decide +kernel, vintCodes_prefixFree, by decide +kernel, by decide +kernel⟩⟩

theorem witness_VarintDecode_cut : ∃ s : State, s.sourceOk = true ∧ PrefixFree (s.slot vintSlot).codes ∧
    (∀ c ∈ (s.slot vintSlot).codes, ¬ c <+: s.sourceRest) ∧ s.canRead s.avail = true ∧ s.avail = 1 :=
  ⟨{ mk [0xFF] 0 with rpos := 7 }, by decide +kernel, vintCodes_prefixFree, by decide +kernel, by decide +kernel,
    by decide +kernel⟩

theorem witness_VarintDecode :
    (∃ s : State, s.sourceOk = true ∧ PrefixFree (s.slot vintSlot).codes ∧
      (s.slot vintSlot).codes[0]? = some (natBits 2 0) ∧ 31 < 2 ^ vintWidth 0 ∧
      vintFieldBits (s.slot vintSlot) 0 31 <+: s.sourceRest ∧ s.canRead (2 + vintWidth 0) = true) ∧
    ∃ s : State, s.sourceOk = true ∧ PrefixFree (s.slot vintSlot).codes ∧
      (s.slot vintSlot).codes[7]? = some (natBits 5 31) ∧ natBits 5 31 <+: s.sourceRest ∧ s.canRead 5 = true ∧
      s.avail < 5 + vintWidth 7 :=
  ⟨⟨mk [0x3E] 0, by decide +kernel, vintCodes_prefixFree, by decide +kernel, by decide, by decide +kernel,
      by decide +kernel⟩,
    ⟨mk [0xFF] 0, by decide +kernel, vintCodes_prefixFree, by decide +kernel, by decide +kernel, by decide +kernel,
      by decide +kernel⟩⟩

def viStart : State := { mk [] 8 with arg0 := 32 }

/-- The host's next set-up: what stands in the destination of `t` is the source. -/
def follow (start t : State) : State :=
  { start with slots := t.slots, mem := t.mem, srcAddr := t.dstAddr, srcLen := t.res0, dstAddr := 0x200 }

theorem follow_eq (start t : State) : (follow start t).slots = t.slots ∧ (follow start t).mem = t.mem ∧
    (follow start t).srcAddr = t.dstAddr ∧ (follow start t).srcLen = t.res0 := ⟨rfl, rfl, rfl, rfl⟩

/-- The host's set-up to read the destination of `start` from its first bit on. -/
def readBack (start t : State) : State := { start with mem := t.mem, srcAddr := start.dstAddr, srcLen := 8, rpos := start.wpos }

theorem readBack_eq (start t : State) : (readBack start t).slots = start.slots ∧ (readBack start t).mem = t.mem ∧
    (readBack start t).srcAddr = start.dstAddr ∧ (readBack start t).rpos = start.wpos := ⟨rfl, rfl, rfl, rfl⟩

theorem witness_VarintRoundTrip : ∃ s t u : State, Memory.wf s.mem = true ∧ s.arg0 = word 32 ∧ PrefixFree (s.slot vintSlot).codes ∧
    (s.slot vintSlot).codes.length = 8 ∧ s.canWrite (vintBits (s.slot vintSlot) 32).length = true ∧
    exec .viEnc s = .next t ∧ u.slots = s.slots ∧ u.mem = t.mem ∧ u.srcAddr = s.dstAddr ∧ u.rpos = s.wpos ∧
    u.canRead (vintBits (s.slot vintSlot) 32).length = true :=
  ⟨viStart, after .viEnc viStart,
    readBack viStart (after .viEnc viStart),
    by decide +kernel, by decide, vintCodes_prefixFree, by decide +kernel, by decide +kernel, after_next (by decide +kernel),
    (readBack_eq _ _).1, (readBack_eq _ _).2.1, (readBack_eq _ _).2.2.1, (readBack_eq _ _).2.2.2, by decide +kernel⟩

theorem witness_UvarintCommands :
    (∃ s : State, s.canWrite (8 * (uvarint (s.arg1.toNat * 2 ^ 32 + s.arg0.toNat)).length) = true) ∧
    (∃ s : State, uvWellFormed [0xAC, 0x02] = true ∧ bytesBits [0xAC, 0x02] <+: s.sourceRest ∧ s.canRead 16 = true) ∧
    ∃ s : State, (List.replicate 9 0x80#8).length = 9 ∧ (∀ y ∈ List.replicate 9 0x80#8, 128 ≤ y.toNat) ∧
      1 < (2#8).toNat ∧ bytesBits (List.replicate 9 0x80#8 ++ [2#8]) <+: s.sourceRest ∧ s.canRead 80 = true :=
  ⟨⟨{ mk [] 10 with arg0 := 0xFFFFFFFF, arg1 := 0xFFFFFFFF }, by decide +kernel⟩, ⟨mk [0xAC, 0x02] 0, by decide +kernel⟩,
    ⟨mk (List.replicate 9 0x80 ++ [2]) 0, by decide +kernel⟩⟩

theorem witness_UvarintCommands_errors :
    (∃ s : State, 1 < (uvarint (s.arg1.toNat * 2 ^ 32 + s.arg0.toNat)).length ∧ s.canWrite 8 = true ∧
      8 * s.dstCap.toNat < s.wpos.toNat + 16) ∧
    ∃ s : State, bytesBits [0x80, 0x80] <+: s.sourceRest ∧ s.avail < 24 ∧ s.canRead 16 = true :=
  ⟨⟨{ mk [] 1 with arg0 := 300 }, by decide +kernel⟩, ⟨mk [0x80, 0x80] 0, by decide +kernel⟩⟩

theorem witness_UvarintCommands_stops :
    let units := fun s : State => (uvarint (s.arg1.toNat * 2 ^ 32 + s.arg0.toNat)).map (fun y => natBits 8 y.toNat)
    (∃ s : State, s.destOk = true ∧ s.writeStopAt (units s) = some (1, 8, .bus 0x10000)) ∧
    (∃ s : State, s.destOk = true ∧ s.writeStopAt (units s) = some (0, 100, .outputFull 100)) ∧
    (∃ s : State, s.sourceOk = true ∧ bytesBits [0x80] <+: s.sourceRest ∧ 16 ≤ s.avail ∧ s.readStopsAt 8 = true) ∧
    ∃ s : State, s.sourceOk = true ∧ bytesBits [] <+: s.sourceRest ∧ 8 ≤ s.avail ∧ s.readStopsAt 7 = true :=
  ⟨⟨{ mk [] 4 with arg0 := 300, dstAddr := 0xFFFF }, by decide +kernel⟩, ⟨{ mk [] 4 with wpos := 100 }, by decide +kernel⟩,
    ⟨shutSource 0x80 0, by decide +kernel⟩, ⟨shutSource 0x80 1, by decide +kernel⟩⟩

theorem witness_UvarintRoundTrip : 2 ^ 64 - 1 < 2 ^ 64 ∧ uvWellFormed [0x80, 0x00] = true := by decide

theorem witness_InspectIsIdentity_plain :
    (∃ s : State, s.buffersOk = true ∧ tableReady .wkInspectLz4 s = true ∧ s.sourceOpen = true ∧
      s.writeStop (walkUnits 0 (fun b => natBits 8 b.toNat) .lz4Token s.source) = none ∧
      s.ready (8 * s.srcLen.toNat) = true ∧ walkRequested 0 .lz4Token s.source = 3 ∧
      walkCompleted 0 .lz4Token s.source = 1) ∧
    (∃ s : State, s.buffersOk = true ∧ tableReady (.wkCompSnappy 8) s = true ∧ s.sourceOpen = true ∧
      s.writeStop (walkUnits 0 (fun b => (s.slot 8).code b.toNat) .snappyPreamble s.source) =
        some (2, 16, .outputFull 16)) ∧
    ∃ s : State, s.buffersOk = true ∧ s.sourceShut 1 = true ∧
      s.writeStop ((walkUnits 0 (fun b => natBits 8 b.toNat) .lz4Token s.source).take 1) = none :=
  ⟨⟨mk [0x31, 0xAA] 2, by decide +kernel⟩, ⟨mk [0x01, 0x04, 0x61] 3, by decide +kernel⟩,
    ⟨{ mk [] 8 with srcAddr := 0xFFFF, srcLen := 4 }, by decide +kernel⟩⟩

/-- One literal byte and a match, then the literal-only sequence. -/
def lz4Sample : Lz4Stream := ⟨[⟨[0x61], 5, 0, 2⟩], some ⟨[0x62], 0, 0, 0⟩⟩

theorem nineBits_prefixFree : PrefixFree nineBits.codes := fixed_prefixFree 9 257 (by decide) (by decide)

theorem witness_Lz4Walks :
    (∃ s : State, s.source = lz4Sample.bytes ∧ s.ready (8 * s.srcLen.toNat) = true ∧ (s.slot 8).final = true ∧
      256 ≤ (s.slot 8).alpha.size ∧ s.ready (padded (lz4Sample.compressed (s.slot 8))).length = true) ∧
    ∃ s : State, (s.slot 8).final = true ∧ 256 ≤ (s.slot 8).alpha.size ∧ PrefixFree (s.slot 8).codes ∧
      (s.slot 8).codes.length = (s.slot 8).alpha.size ∧ s.sourceStream = padded (lz4Sample.compressed (s.slot 8)) ∧
      s.ready (8 * lz4Sample.bytes.length) = true :=
  ⟨⟨mk lz4Sample.bytes 16, by decide +kernel⟩,
    ⟨mk (pack 16 (padded (lz4Sample.compressed nineBits))) 16, by decide +kernel, by decide +kernel, nineBits_prefixFree,
      by decide +kernel, by decide +kernel, by decide +kernel⟩⟩

/-- Two preamble bytes, a literal, a copy token, a literal with a length byte. -/
def snappySample : SnappyStream := ⟨[0x86], 0x01, [.literal 0 [0x61], .copy 1 2 [3], .literal 1 [0x62]]⟩

theorem witness_SnappyWalks :
    (∃ s : State, snappySample.ok s.params.snappyBias = true ∧ s.source = snappySample.bytes s.params.snappyBias ∧
      s.ready (8 * s.srcLen.toNat) = true ∧ (s.slot 8).final = true ∧ 256 ≤ (s.slot 8).alpha.size ∧
      s.ready (padded (snappySample.compressed s.params.snappyBias (s.slot 8))).length = true) ∧
    ∃ s : State, snappySample.ok s.params.snappyBias = true ∧ (s.slot 8).final = true ∧
      256 ≤ (s.slot 8).alpha.size ∧ PrefixFree (s.slot 8).codes ∧ (s.slot 8).codes.length = (s.slot 8).alpha.size ∧
      s.sourceStream = padded (snappySample.compressed s.params.snappyBias (s.slot 8)) ∧
      s.ready (8 * (snappySample.bytes s.params.snappyBias).length) = true :=
  ⟨⟨mk (snappySample.bytes 0) 16, by decide +kernel⟩,
    ⟨mk (pack 16 (padded (snappySample.compressed 0 nineBits))) 16, by decide +kernel, by decide +kernel,
      by decide +kernel, nineBits_prefixFree, by decide +kernel, by decide +kernel, by decide +kernel⟩⟩

theorem witness_InspectIsIdentity_coded :
    (∃ s : State, s.buffersOk = true ∧ tableReady (.wkDecompLz4 8) s = true ∧ PrefixFree (s.slot 8).codes ∧
      (walkUnits 0 (fun b => (s.slot 8).code b.toNat) .lz4Token [0x31, 0xAA]).flatten <+: s.sourceStream ∧
      s.sourceOpen = true ∧ s.writeStop ([0x31, 0xAA].map (fun b : Byte => natBits 8 b.toNat)) = none ∧
      walkStop (s.slot 8) (walkEnd 0 .lz4Token [0x31, 0xAA]) (s.sourceStream.drop 17) = some 7) ∧
    (∃ s : State, s.buffersOk = true ∧ tableReady (.wkDecompLz4 8) s = true ∧ PrefixFree (s.slot 8).codes ∧
      (walkUnits 0 (fun b => (s.slot 8).code b.toNat) .lz4Token [0x31, 0xAA]).flatten <+: s.sourceStream ∧
      s.sourceOpen = true ∧
      s.writeStop ([0x31, 0xAA].map (fun b : Byte => natBits 8 b.toNat)) = some (1, 8, .outputFull 8)) ∧
    ∃ s : State, s.buffersOk = true ∧ s.sourceShut 1 = true ∧ PrefixFree (s.slot 8).codes ∧
      (walkUnits 0 (fun b => (s.slot 8).code b.toNat) .lz4Token [0, 0]).flatten <+: s.sourceStream ∧
      s.writeStop ([0#8].map (fun b : Byte => natBits 8 b.toNat)) = none :=
  ⟨⟨mk [0x31, 0x55, 0x00] 4, by decide +kernel, by decide +kernel, nineBits_prefixFree, by decide +kernel, by decide +kernel,
      by decide +kernel, by decide +kernel⟩,
    ⟨mk [0x31, 0x55, 0x00] 1, by decide +kernel, by decide +kernel, nineBits_prefixFree, by decide +kernel,
      by decide +kernel, by decide +kernel⟩,
    ⟨{ mk [] 8 with srcAddr := 0xFFFF, srcLen := 4 }, by decide +kernel, by decide +kernel, nineBits_prefixFree,
      by decide +kernel, by decide +kernel⟩⟩

/-- A token that asks for a literal, and eight bits of its code before a byte that may not be accessed; and that byte at
the code's first bit. -/
theorem witness_InspectIsIdentity_unfinished :
    (∃ s : State, s.buffersOk = true ∧ tableReady (.wkDecompLz4 8) s = true ∧ PrefixFree (s.slot 8).codes ∧
      (walkUnits 0 (fun b => (s.slot 8).code b.toNat) .lz4Token [0x10]).flatten <+: s.sourceStream ∧
      (walkEnd 0 .lz4Token [0x10]).slots ≠ 0 ∧ s.sourceShut 2 = true ∧ s.noCodeWithin (s.slot 8) 8 16 = true ∧
      s.writeStop [natBits 8 0x10] = none) ∧
    ∃ s : State, s.buffersOk = true ∧ tableReady (.wkDecompLz4 8) s = true ∧ PrefixFree (s.slot 8).codes ∧
      (walkUnits 0 (fun b => (s.slot 8).code b.toNat) .lz4Token [0x10]).flatten <+: s.sourceStream ∧
      s.sourceShut 1 = true ∧ s.noCodeWithin (s.slot 8) 8 8 = true ∧ s.writeStop [natBits 8 0x10] = none :=
  ⟨⟨{ mk [] 8 with srcAddr := 0xFFFE, srcLen := 4, mem := [(0xFFFE, 0x10)] }, by decide +kernel, by decide +kernel,
      nineBits_prefixFree, by decide +kernel, by decide +kernel, by decide +kernel, by decide +kernel, by decide +kernel⟩,
    ⟨{ mk [] 8 with srcAddr := 0xFFFF, srcLen := 4, mem := [(0xFFFF, 0x10)] }, by decide +kernel, by decide +kernel,
      nineBits_prefixFree, by decide +kernel, by decide +kernel, by decide +kernel, by decide +kernel⟩⟩

theorem witness_BlockEncode : ∃ s : State, (s.slot 8).final = true ∧ (s.slot 8).alpha = .a257 ∧
    s.ready (padded (blockBits (s.slot 8) s.source)).length = true := ⟨mk [0x61] 4, by decide +kernel⟩

theorem witness_BlockEncodeFull :
    (∃ s : State, (s.slot 8).final = true ∧ (s.slot 8).alpha = .a257 ∧ 0 < s.srcLen.toNat ∧
      s.ready (literalCodes (s.slot 8) (s.source.take 0)).length = true ∧
      8 * s.dstCap.toNat < (literalCodes (s.slot 8) (s.source.take 1)).length) ∧
    ∃ s : State, (s.slot 8).final = true ∧ (s.slot 8).alpha = .a257 ∧ s.srcLen.toNat = 1 ∧
      s.ready (literalCodes (s.slot 8) (s.source.take 1)).length = true ∧
      8 * s.dstCap.toNat < (literalCodes (s.slot 8) (s.source.take 2) ++ (s.slot 8).code sentinel).length :=
  ⟨⟨mk [0x61] 1, by decide +kernel⟩, ⟨mk [0x61] 2, by decide +kernel⟩⟩

theorem witness_BlockEncodeFull_stops :
    (∃ s : State, s.buffersOk = true ∧ s.sourceOpen = true ∧
      s.writeStop (s.source.map (fun b => (s.slot 8).code b.toNat) ++ [(s.slot 8).code sentinel]) =
        some (0, 8, .bus 0x10000)) ∧
    (∃ s : State, s.buffersOk = true ∧ s.sourceShut 1 = true ∧
      s.writeStop ((s.source.map (fun b => (s.slot 8).code b.toNat)).take 1) = none) ∧
    (∃ s : State, s.buffersOk = true ∧ s.sourceOpen = true ∧ PrefixFree (s.slot 8).codes ∧
      literalCodes (s.slot 8) [0x61] <+: s.sourceStream ∧ s.writeStop [natBits 8 0x61] = some (0, 0, .outputFull 0)) ∧
    ∃ s : State, s.buffersOk = true ∧ s.sourceShut 1 = true ∧ PrefixFree (s.slot 8).codes ∧
      literalCodes (s.slot 8) [0] <+: s.sourceStream ∧ 8 < (literalCodes (s.slot 8) [0]).length ∧
      s.writeStop [] = none :=
  ⟨⟨{ mk [0x61] 4 with dstAddr := 0xFFFF }, by decide +kernel⟩,
    ⟨{ mk [] 8 with srcAddr := 0xFFFF, srcLen := 4 }, by decide +kernel⟩,
    ⟨mk (pack 16 (padded (blockBits nineBits [0x61]))) 0, by decide +kernel, by decide +kernel, nineBits_prefixFree,
      by decide +kernel, by decide +kernel⟩,
    ⟨{ mk [] 8 with srcAddr := 0xFFFF, srcLen := 4 }, by decide +kernel, by decide +kernel, nineBits_prefixFree,
      by decide +kernel, by decide +kernel, by decide +kernel⟩⟩

theorem witness_BlockEncodeFull_unfinished : ∃ s : State, (s.slot 8).final = true ∧ (s.slot 8).alpha = .a257 ∧
    s.buffersOk = true ∧ PrefixFree (s.slot 8).codes ∧ (s.slot 8).codes.length = 257 ∧ s.sourceShut 1 = true ∧
    s.noCodeWithin (s.slot 8) (literalCodes (s.slot 8) []).length 8 = true ∧ s.writeStop [] = none :=
  ⟨{ mk [] 8 with srcAddr := 0xFFFF, srcLen := 4 }, by decide +kernel, by decide +kernel, by decide +kernel,
    nineBits_prefixFree, by decide +kernel, by decide +kernel, by decide +kernel, by decide +kernel⟩

theorem witness_BlockDecode :
    (∃ s : State, (s.slot 8).final = true ∧ (s.slot 8).alpha = .a257 ∧ PrefixFree (s.slot 8).codes ∧
      (s.slot 8).codes.length = 257 ∧ s.ready 8 = true ∧ blockBits (s.slot 8) [0x61] <+: s.sourceStream) ∧
    ∃ s : State, (s.slot 8).final = true ∧ (s.slot 8).alpha = .a257 ∧ PrefixFree (s.slot 8).codes ∧
      (s.slot 8).codes.length = 257 ∧ s.ready 8 = true ∧
      s.sourceStream = literalCodes (s.slot 8) [0x61] ++ natBits 7 0 ∧
      ∀ c ∈ (s.slot 8).codes, ¬ c <+: natBits 7 0 :=
  ⟨⟨mk (pack 16 (padded (blockBits nineBits [0x61]))) 4, by decide +kernel, by decide +kernel, nineBits_prefixFree,
      by decide +kernel, by decide +kernel, by decide +kernel⟩,
    ⟨mk (pack 16 (padded (literalCodes nineBits [0x61]))) 4, by decide +kernel, by decide +kernel, nineBits_prefixFree,
      by decide +kernel, by decide +kernel, by decide +kernel, by decide +kernel⟩⟩

def blkStart : State := mk [0x61] 4

theorem witness_BlockRoundTrip : ∃ s t u : State, (s.slot 8).final = true ∧ (s.slot 8).alpha = .a257 ∧
    PrefixFree (s.slot 8).codes ∧ (s.slot 8).codes.length = 257 ∧ Memory.wf s.mem = true ∧
    s.ready (padded (blockBits (s.slot 8) s.source)).length = true ∧ exec (.blkEnc 8) s = .next t ∧
    u.slots = t.slots ∧ u.mem = t.mem ∧ u.srcAddr = t.dstAddr ∧ u.srcLen = t.res0 ∧
    u.ready (8 * s.srcLen.toNat) = true :=
  ⟨blkStart, after (.blkEnc 8) blkStart, follow blkStart (after (.blkEnc 8) blkStart),
    by decide +kernel, by decide +kernel, nineBits_prefixFree, by decide +kernel, by decide +kernel, by decide +kernel,
    after_next (by decide +kernel),
    (follow_eq _ _).1, (follow_eq _ _).2.1, (follow_eq _ _).2.2.1, (follow_eq _ _).2.2.2, by decide +kernel⟩

theorem witness_LzCompress : ∃ s : State,
    s.ready (padded (containerBits s (uvarint s.srcLen.toNat) (scanTokens s s.source))).length = true :=
  ⟨mk [0x61, 0x62] 8, by decide +kernel⟩

theorem witness_LzCompress_stops :
    (∃ s : State, s.buffersOk = true ∧ s.sourceOpen = true ∧
      s.writeStop ((containerFields s (uvarint s.srcLen.toNat) (scanTokens s s.source)).map Prod.snd) =
        some (1, 8, .outputFull 8)) ∧
    ∃ s : State, selectorsOk s ∧ s.buffersOk = true ∧ s.sourceShut 1 = true ∧
      s.writeStop ((containerFields s (uvarint s.srcLen.toNat) (scanTokens s s.source)).map Prod.snd) = none :=
  ⟨⟨mkLz [0x61] 1, by decide +kernel⟩,
    ⟨{ mkLz [] 16 with srcAddr := 0xFFFF, srcLen := 2 }, mkLz_selectorsOk [] 16, by decide +kernel⟩⟩

theorem witness_ScanTokensRebuild : [0x61#8, 0x62#8].length ≤ Config.maxBuf ∧ [0x61#8, 0x62#8].length < 8 ∧
    scanTokens (mk [] 0) (List.replicate 8 0x61#8) = [.literal 0 (List.replicate 4 0x61#8), .substitution 0 4] := by
  decide +kernel

theorem witness_LzCapacity : State.reset.slots = resetSlots defaultParams ∧ ([] : List Byte).length ≤ Config.maxBuf :=
  ⟨rfl, by decide⟩

/-- "ab", then the two bytes again. -/
def lzSample : List LzToken := [.literal 3 [0x61, 0x62], .substitution 0 2]

def lzSampleBits : Bits := padded (containerBits (mkLz [] 0) [0x04] lzSample)

def lzCorruptBits : Bits :=
  padded (bytesBits [0x04] ++ (lzSample ++ [LzToken.substitution 4 0]).flatMap (LzToken.bits (mkLz [] 0)))

/-- A container whose second byte may not be accessed: an empty run, the End token. -/
def shutLz : State := { mkLz [] 8 with srcAddr := 0xFFFF, srcLen := 3, mem := [(0x10001, 0x40)] }

theorem witness_LzDecompress_stops :
    (∃ s : State, Memory.wf s.mem = true ∧ selectorsOk s ∧ s.sourceStream <+: containerBits s [0x04] lzSample ∧
      s.ready 0 = true ∧ s.srcLen.toNat = 2) ∧
    (∃ s : State, Memory.wf s.mem = true ∧ selectorsOk s ∧ s.buffersOk = true ∧ s.sourceOpen = true ∧
      containerBits s [0x04] lzSample <+: s.sourceStream ∧
      s.writeStop ([0x61, 0x62, 0x61, 0x62].map (fun b : Byte => natBits 8 b.toNat)) = some (3, 24, .outputFull 24)) ∧
    (∃ s : State, Memory.wf s.mem = true ∧ selectorsOk s ∧ s.buffersOk = true ∧ s.sourceShut 1 = true ∧
      containerBits s [0x00] [.literal 0 []] <+: s.sourceStream ∧ s.writeStop [] = none) ∧
    (∃ s : State, s.ready 0 = true ∧ s.source = [0x80, 0xFF]) ∧
    ∃ s : State, s.ready 0 = true ∧ List.replicate 9 0x80 ++ [2] <+: s.source :=
  ⟨⟨mkLz (pack 2 lzSampleBits) 4, by decide +kernel, mkLz_selectorsOk _ _, by decide +kernel, by decide +kernel,
      by decide +kernel⟩,
    ⟨mkLz (pack 16 lzSampleBits) 3, by decide +kernel, mkLz_selectorsOk _ _, by decide +kernel, by decide +kernel,
      by decide +kernel, by decide +kernel⟩,
    ⟨shutLz, by decide +kernel, mkLz_selectorsOk [] 8, by decide +kernel, by decide +kernel, by decide +kernel,
      by decide +kernel⟩,
    ⟨mk [0x80, 0xFF] 0, by decide +kernel⟩, ⟨mk (List.replicate 9 0x80 ++ [2]) 0, by decide +kernel⟩⟩

theorem witness_LzDecompress : uvWellFormed [0x04] = true ∧ lzSample.all LzToken.ok = true ∧
    reconstruct lzSample [] = some [0x61, 0x62, 0x61, 0x62] ∧
    (∃ s : State, Memory.wf s.mem = true ∧ selectorsOk s ∧ s.ready 32 = true ∧ containerBits s [0x04] lzSample <+: s.sourceStream) ∧
    ∃ s : State, Memory.wf s.mem = true ∧ selectorsOk s ∧ s.ready 32 = true ∧
      bytesBits [0x04] ++ (lzSample ++ [LzToken.substitution 4 0]).flatMap (LzToken.bits s) <+: s.sourceStream :=
  ⟨by decide, by decide, by decide, ⟨mkLz (pack 16 lzSampleBits) 4, by decide +kernel, mkLz_selectorsOk _ _,
    by decide +kernel, by decide +kernel⟩, ⟨mkLz (pack 16 lzCorruptBits) 4, by decide +kernel, mkLz_selectorsOk _ _, by decide +kernel, by decide +kernel⟩⟩

def lzStart : State := mkLz [0x61] 8

theorem witness_LzRoundTrip : ∃ s t u : State, selectorsOk s ∧ Memory.wf s.mem = true ∧
    s.ready (padded (containerBits s (uvarint s.srcLen.toNat) (scanTokens s s.source))).length = true ∧
    exec .lzComp s = .next t ∧ u.slots = t.slots ∧ u.mem = t.mem ∧ u.srcAddr = t.dstAddr ∧ u.srcLen = t.res0 ∧
    u.ready (8 * s.srcLen.toNat) = true :=
  ⟨lzStart, after .lzComp lzStart, follow lzStart (after .lzComp lzStart),
    mkLz_selectorsOk _ _, by decide +kernel, by decide +kernel, after_next (by decide +kernel),
    (follow_eq _ _).1, (follow_eq _ _).2.1, (follow_eq _ _).2.2.1, (follow_eq _ _).2.2.2, by decide +kernel⟩

theorem witness_KeyMapExact : 5#32 ≠ 6#32 ∧ (([(5#32, 0), (6#32, 1)] : List (Word × Nat)).map Prod.fst).Nodup := by decide

theorem witness_Builder : [1, 1] ≠ ([] : List Nat) ∧ 2 ≤ [1, 1].length := by decide

theorem witness_BuilderCodes : ∃ s : State, s.Inv ∧ (s.slot 7).final = true := ⟨_, start_inv, by decide +kernel⟩

end Sys2Proof.Tests
end

section
/-! SUPPORT. Proofs: The key map and the host's side -/

namespace Sys2Proof.Machine

/-! ### The key map (10_state.md R46) -/

theorem keyLookup_cons (k x : Word) (p : Nat) (km : List (Word × Nat)) :
    keyLookup k ((x, p) :: km) = if x = k then some p else keyLookup k km := rfl

/-- Taking out the entries of one key leaves the lookups of the others alone. -/
theorem keyLookup_filter_ne {j k : Word} (h : j ≠ k) (km : List (Word × Nat)) :
    keyLookup j (km.filter (fun e => e.1 != k)) = keyLookup j km := by
  induction km with
  | nil => rfl
  | cons e km ih =>
    obtain ⟨x, q⟩ := e
    by_cases hx : x = k
    · have hxj : x ≠ j := fun hj => h (hj ▸ hx)
      simp [hx, ih, keyLookup_cons, hx ▸ hxj]
    · simp [hx, ih, keyLookup_cons]

theorem keyLookup_keyStore_same (k : Word) (p : Nat) (km : List (Word × Nat)) :
    keyLookup k (keyStore k p km) = some p := by
  rw [keyStore, keyLookup_cons, if_pos rfl]

theorem keyLookup_keyStore_other {j k : Word} (h : j ≠ k) (p : Nat) (km : List (Word × Nat)) :
    keyLookup j (keyStore k p km) = keyLookup j km := by
  rw [keyStore, keyLookup_cons, if_neg (Ne.symm h), keyLookup_filter_ne h]

/-- Storing under a key keeps one entry for each key: the older entries of the key are taken out first. -/
theorem keyStore_nodup (k : Word) (p : Nat) {km : List (Word × Nat)} (h : (km.map Prod.fst).Nodup) :
    ((keyStore k p km).map Prod.fst).Nodup := by
  rw [keyStore, List.map_cons, List.nodup_cons]
  constructor
  · simp
  · exact h.sublist (List.filter_sublist.map _)

/-- Settles O58, from the three lemmas on `keyStore`. -/
theorem keyMapExact : Obligations.KeyMapExact := fun k p km =>
  ⟨keyLookup_keyStore_same k p km, fun _ hj => keyLookup_keyStore_other hj p km, keyStore_nodup k p⟩

/-! ### Register words on the bus (10_state.md R36) -/

/-- A register word read back from its bus bytes. -/
@[simp] theorem busWord_busBytes (v : Word) : busWord (busBytes v) = some v := by
  rw [busBytes, busWord, Option.some.injEq]
  apply BitVec.eq_of_getLsbD_eq
  intro i hi
  simp only [BitVec.getLsbD_append, BitVec.getLsbD_extractLsb']
  split_ifs with h0 h1 h2
  · simp [h0]
  · rw [show 8 + (i - 8) = i by omega]
    simp [h1]
  · rw [show 16 + (i - 8 - 8) = i by omega]
    simp [h2]
  · have h3 : i - 8 - 8 - 8 < 8 := by omega
    rw [show 24 + (i - 8 - 8 - 8) = i by omega]
    simp [h3]

@[simp] theorem busBytes_length (v : Word) : (busBytes v).length = 4 := rfl

theorem busBytes_getElem? (v : Word) (n : Nat) (h : n < 4) : (busBytes v)[n]? = some (v.extractLsb' (8 * n) 8) := by
  interval_cases n <;> rfl

theorem windowWord_iff (offset size : Nat) :
    windowWord offset size = true ↔ size = 4 ∧ offset % 4 = 0 ∧ offset < 0x100 := by
  simp only [windowWord, Bool.and_eq_true, beq_iff_eq, decide_eq_true_eq]
  omega

/-! ### The flags do not see the coming actions -/

theorem State.busy_withEvents (s : State) (l : List Event) : ({ s with events := l } : State).busy = s.busy := rfl

/-! ### One step, by the next event (log 5) -/

section
variable {s : State} {rest : List Event}

theorem step_of_noEvent (h : s.events = []) : step s = engineTurn s := by
  simp only [step, nextEvent, h]

theorem step_of_engine (h : s.events = .engine :: rest) : step s = engineTurn { s with events := rest } := by
  simp only [step, nextEvent, h]

theorem step_of_host {op : HostOp} (h : s.events = .host op :: rest) :
    step s = hostAction op { s with events := rest } := by
  simp only [step, nextEvent, h]

theorem step_of_reset (h : s.events = .reset :: rest) : step s = .next { s with events := rest }.resetInput := by
  simp only [step, nextEvent, h]

/-- The engine's turn while a command runs whose word is legal. -/
theorem engineTurn_of_decode {i : Instr} (hb : s.busy = true) (hd : decode s.cmd = .ok i) :
    engineTurn s = exec i s := by
  rw [engineTurn, if_pos hb, hd]

/-- The engine's turn while a command runs whose word is illegal. -/
theorem engineTurn_of_illegal {g : Illegal} (hb : s.busy = true) (hd : decode s.cmd = .error g) :
    engineTurn s = .next (s.takeError (.illegalCmd s.cmd.toNat)) := by
  rw [engineTurn, if_pos hb, hd]

theorem engineTurn_of_idle (hb : s.busy = false) : engineTurn s = .next s := by
  rw [engineTurn, if_neg (by simp [hb])]

/-! ### Register accesses of the host -/

theorem hostAction_regWrite {offset : Nat} (hw : windowWord offset 4 = true) (v : Word) :
    hostAction (.regWrite offset (busBytes v)) s = .next (s.writeReg offset v) := by
  simp [hostAction, hw]

theorem hostAction_regRead {offset : Nat} (hw : windowWord offset 4 = true) :
    hostAction (.regRead offset 4) s = .next (s.readReg offset) := by
  simp [hostAction, hw]

/-- The step of a host write of a word to the register window. -/
theorem step_of_regWrite {offset : Nat} {v : Word} (h : s.events = .host (.regWrite offset (busBytes v)) :: rest)
    (hw : windowWord offset 4 = true) : step s = .next ({ s with events := rest }.writeReg offset v) := by
  rw [step_of_host h, hostAction_regWrite hw]

/-- The step of a host read of a word of the register window. -/
theorem step_of_regRead {offset : Nat} (h : s.events = .host (.regRead offset 4) :: rest)
    (hw : windowWord offset 4 = true) : step s = .next ({ s with events := rest }.readReg offset) := by
  rw [step_of_host h, hostAction_regRead hw]

theorem hostAction_regWrite_refused {offset : Nat} {data : List Byte} (hw : windowWord offset data.length = false) :
    hostAction (.regWrite offset data) s = .refused .registerAccess := by
  rcases hd : busWord data with - | v <;> simp [hostAction, hd, hw]

theorem hostAction_regRead_refused {offset size : Nat} (hw : windowWord offset size = false) :
    hostAction (.regRead offset size) s = .refused .registerAccess := by
  simp [hostAction, hw]

/-- Settles O18: both refusals, the window's arithmetic, and the order of a word's bytes. -/
theorem accessRefused : Obligations.AccessRefused := fun _ offset size _ _ =>
  ⟨fun h hw => by rw [step_of_host h, hostAction_regRead_refused hw],
    fun h hw => by rw [step_of_host h, hostAction_regWrite_refused hw],
    windowWord_iff offset size, busBytes_getElem?⟩

/-! ### Register writes (10_state.md R22 to R35) -/

theorem State.writeReg_of_busy (h : s.busy = true) (offset : Nat) (v : Word) :
    s.writeReg offset v = s.writeBusy offset v := if_pos h

theorem State.writeReg_of_idle (h : s.busy = false) (offset : Nat) (v : Word) :
    s.writeReg offset v = s.writeIdle offset v := if_neg (by simp [h])

/-- The list of the statement is the one that the model tests (10_state.md R33). -/
theorem engineOwned_iff (offset : Nat) : engineOwned offset = true ↔ offset ∈ ownedOffsets := List.contains_iff_mem

theorem windowWord_of_owned {offset : Nat} (h : offset ∈ ownedOffsets) : windowWord offset 4 = true := by
  revert offset
  decide

@[simp] theorem State.writeBusy_ctrl (v : Word) : s.writeBusy 0x04 v = s.writeCtrl v := rfl

@[simp] theorem State.writeBusy_status (v : Word) : s.writeBusy 0x08 v = s.acknowledge v := rfl

theorem State.writeBusy_owned {offset : Nat} (h : offset ∈ ownedOffsets) (v : Word) :
    s.writeBusy offset v = s.setLost := by
  have h4 : offset ≠ 0x04 := by rintro rfl; revert h; decide
  have h8 : offset ≠ 0x08 := by rintro rfl; revert h; decide
  rw [State.writeBusy, if_neg h4, if_neg h8, if_pos ((engineOwned_iff offset).2 h)]

/-- What the host's writes never reach: read-only registers, and the reserved offsets behind WPOS. -/
theorem not_owned_of_readOnly {offset : Nat} (h : offset ∈ readOnlyOffsets ∨ 0x44 ≤ offset) :
    offset ≠ 0x04 ∧ offset ≠ 0x08 ∧ offset ∉ ownedOffsets := by
  rcases h with h | h
  · revert offset
    decide
  · simp only [ownedOffsets, List.mem_cons, List.not_mem_nil, or_false]
    omega

theorem State.writeIdle_readOnly {offset : Nat} (h : offset ∈ readOnlyOffsets ∨ 0x44 ≤ offset) (v : Word) :
    s.writeIdle offset v = s := by
  obtain ⟨h4, h8, ho⟩ := not_owned_of_readOnly h
  unfold State.writeIdle
  split
  case h_1 => exact absurd rfl h4
  case h_2 => exact absurd rfl h8
  case h_13 => rfl
  all_goals exact absurd (by decide) ho

theorem State.writeReg_readOnly {offset : Nat} (h : offset ∈ readOnlyOffsets ∨ 0x44 ≤ offset) (v : Word) :
    s.writeReg offset v = s := by
  cases hb : s.busy with
  | false => rw [State.writeReg_of_idle hb, State.writeIdle_readOnly h]
  | true =>
    obtain ⟨h4, h8, ho⟩ := not_owned_of_readOnly h
    rw [State.writeReg_of_busy hb, State.writeBusy, if_neg h4, if_neg h8, if_neg (mt (engineOwned_iff offset).1 ho)]

end

/-- Settles O15: while busy, the owned registers, CTRL and STATUS by `writeBusy`'s cases; what is read-only or reserved at
any time. -/
theorem busyWritesLost : Obligations.BusyWritesLost := by
  intro s offset v rest hev hw
  have hstep := step_of_regWrite hev hw
  have busyStep : s.busy = true → step s = .next ({ s with events := rest }.writeBusy offset v) := fun hb =>
    hstep.trans (congrArg _ (State.writeReg_of_busy (s := { s with events := rest }) hb offset v))
  refine ⟨fun hb ho => ?_, fun hb ho => ?_, fun hb ho => ?_, fun ho => ?_⟩
  · rw [busyStep hb, State.writeBusy_owned ho, State.setLost, State.busy_withEvents, hb]
    rfl
  · rw [busyStep hb, ho, State.writeBusy_ctrl]
    rfl
  · rw [busyStep hb, ho, State.writeBusy_status, State.acknowledge, State.busy_withEvents, hb]
    rfl
  · rw [hstep, State.writeReg_readOnly ho]

/-- The step of a host write of a word to the register window while no command runs. -/
theorem step_of_regWrite_idle {s : State} (hb : s.busy = false) (rest : List Event) (v : Word) {offset : Nat}
    (hw : windowWord offset 4 = true) :
    step { s with events := .host (.regWrite offset (busBytes v)) :: rest } =
      .next ({ s with events := rest }.writeIdle offset v) :=
  (step_of_regWrite rfl hw).trans (congrArg _ (State.writeReg_of_idle (s := { s with events := rest }) hb offset v))

/-- Settles O16: each writable register by its case of `writeIdle`. -/
theorem idleWrites : Obligations.IdleWrites := by
  intro s v rest hb
  have write : ∀ offset, windowWord offset 4 = true →
      step { s with events := .host (.regWrite offset (busBytes v)) :: rest } =
        .next ({ s with events := rest }.writeIdle offset v) := fun _ => step_of_regWrite_idle hb rest v
  refine ⟨write _ rfl, ?status, write _ rfl, write _ rfl, write _ rfl, write _ rfl, write _ rfl, write _ rfl,
    write _ rfl, write _ rfl, write _ rfl, write _ rfl⟩
  case status =>
    refine (write 0x08 rfl).trans (congrArg _ ?_)
    change { s with events := rest }.acknowledge v = _
    rw [State.acknowledge, State.busy_withEvents, hb]
    rfl

/-- Settles O7: the write is accepted, and the engine's turn after it decodes the word that CMD then holds. -/
theorem acceptStartsCommand : Obligations.AcceptStartsCommand := by
  intro s c i rest hb hd hev
  have hs : s = { s with events := .host (.regWrite 0x0C (busBytes c)) :: .engine :: rest } := by rw [← hev]
  refine ⟨{ s with events := .engine :: rest }.accept c, ?_, rfl, ?_⟩
  · rw [hs]
    exact step_of_regWrite_idle hb _ c rfl
  · rw [step_of_engine (rest := rest) rfl]
    exact engineTurn_of_decode (State.accept_busy { s with events := rest } c) hd

/-! ### Register reads (10_state.md R22, R34) -/

section
variable {s : State}

/-- The list of the statement is the one that the model tests (10_state.md R34). -/
theorem unstableWhileBusy_iff (offset : Nat) : unstableWhileBusy offset = true ↔ offset ∈ movingOffsets :=
  List.contains_iff_mem

theorem windowWord_of_moving {offset : Nat} (h : offset ∈ movingOffsets) : windowWord offset 4 = true := by
  revert offset
  decide

/-- Every entry of the register map is what a read of its offset finds, and its offset is one of the window. -/
theorem regValue_of_mem_registerMap {offset : Nat} {v : Word} (h : (offset, v) ∈ registerMap s) :
    s.regValue offset = v ∧ windowWord offset 4 = true := by
  have all : ∀ e ∈ registerMap s, s.regValue e.1 = e.2 ∧ windowWord e.1 4 = true := by
    simp [registerMap, State.regValue, Config.idValue, windowWord]
  exact all _ h

theorem State.regValue_reserved {offset : Nat} (h : 0x44 ≤ offset) : s.regValue offset = 0#32 := by
  unfold State.regValue
  split
  case h_18 => rfl
  all_goals omega

theorem State.readReg_stable {offset : Nat} (h : s.busy = false ∨ offset ∉ movingOffsets) :
    s.readReg offset = { s with hostData := busBytes (s.regValue offset) } := by
  rw [← unstableWhileBusy_iff] at h
  exact if_neg (by simpa [← Bool.not_eq_true, ← not_and_or] using h)

theorem State.readReg_moving {offset : Nat} (hb : s.busy = true) (h : offset ∈ movingOffsets) :
    s.readReg offset =
      { s with hostData := busBytes (Config.busyRead s.freeCount), freeCount := s.freeCount + 1 } :=
  if_pos (by rw [hb, (unstableWhileBusy_iff offset).2 h]; rfl)

end

/-- Settles O17: a read finds the register map's word; a reserved offset is no moving one and reads 0; a moving register
reads a free value. -/
theorem registerReads : Obligations.RegisterReads := by
  intro s offset rest hev
  refine ⟨fun v hv hstable => ?_, fun ho hw => ?_, fun hb ho => ⟨Config.busyRead s.freeCount, ?_⟩⟩
  · obtain ⟨hvalue, hw⟩ := regValue_of_mem_registerMap hv
    rw [step_of_regRead hev hw, ← hvalue]
    exact congrArg _ (State.readReg_stable (s := { s with events := rest }) hstable)
  · have hstable : offset ∉ movingOffsets := by
      simp only [movingOffsets, List.mem_cons, List.not_mem_nil, or_false]
      omega
    rw [step_of_regRead hev hw, State.readReg_stable (.inr hstable), State.regValue_reserved ho]
  · rw [step_of_regRead hev (windowWord_of_moving ho)]
    exact congrArg _ (State.readReg_moving (s := { s with events := rest }) hb ho)

end Sys2Proof.Machine
end

section
/-! SUPPORT. Proofs: What every part of a command keeps -/

namespace Sys2Proof.Machine

section
variable {R : State → State → Prop} (refl : ∀ s, R s s) (trans : ∀ s t u, R s t → R t u → R s u)

/-! ### Parts that read bytes of the memory and change nothing -/

include refl trans

theorem countSource_keeps (n a : Nat) (cnt : List Nat) : Keeps R (countSource n a cnt) := by
  induction n generalizing a cnt with
  | zero => exact Keeps.pure refl cnt
  | succ n ih => exact Keeps.bind trans (memRead_keeps refl a) fun _ => ih _ _

theorem srcByte_keeps (p : Nat) : Keeps R (srcByte p) :=
  Keeps.bind trans (Keeps.get refl) fun _ => memRead_keeps refl _

theorem keyAt_keeps (p : Nat) : Keeps R (keyAt p) :=
  Keeps.bind trans (srcByte_keeps refl trans _) fun _ =>
    Keeps.bind trans (srcByte_keeps refl trans _) fun _ =>
      Keeps.bind trans (srcByte_keeps refl trans _) fun _ =>
        Keeps.bind trans (srcByte_keeps refl trans _) fun _ => Keeps.pure refl _

theorem commonFrom_keeps (i last fuel cp : Nat) : Keeps R (commonFrom i last fuel cp) := by
  induction fuel generalizing cp with
  | zero => exact Keeps.pure refl cp
  | succ n ih =>
    refine Keeps.bind trans (srcByte_keeps refl trans _) fun x => ?_
    refine Keeps.bind trans (srcByte_keeps refl trans _) fun y => ?_
    split_ifs
    · exact ih _
    · exact Keeps.pure refl cp

theorem commonLength_keeps (n i last : Nat) : Keeps R (commonLength n i last) := commonFrom_keeps refl trans _ _ _ _

theorem lookupKey_keeps (n : Nat) : Keeps R (lookupKey n) := by
  refine Keeps.bind trans (Keeps.get refl) fun s => ?_
  dsimp only
  split_ifs
  · exact Keeps.bind trans (keyAt_keeps refl trans _) fun _ => Keeps.bind trans (Keeps.get refl) fun _ => Keeps.pure refl _
  · exact Keeps.pure refl _

theorem checkBuffers_keeps : Keeps R checkBuffers :=
  Keeps.bind trans (require_keeps refl _ _) fun _ =>
    Keeps.bind trans (require_keeps refl _ _) fun _ => require_keeps refl _ _

/-! ### Parts that read bits -/

section
variable (hr : RdKeeps R readBit)
include hr

theorem vDecode_keeps : RdKeeps R vDecode :=
  RdKeeps.bind refl trans (decodeNext_keeps refl trans hr _) fun _ =>
    RdKeeps.bind refl trans (readBits_keeps refl trans hr _) fun _ => RdKeeps.pure refl _

theorem uvDecodeLoop_keeps (left x sh : Nat) : Keeps R (uvDecodeLoop left x sh) := by
  induction left generalizing x sh with
  | zero => exact Keeps.pure refl _
  | succ n ih =>
    refine Keeps.bind trans (readByte_keeps refl trans hr) fun r => ?_
    rcases r with - | b
    · exact Keeps.pure refl _
    · dsimp only
      split_ifs
      · exact Keeps.pure refl _
      · exact Keeps.pure refl _
      · exact ih _ _

theorem uvDecode_keeps : Keeps R uvDecode := uvDecodeLoop_keeps refl trans hr _ _ _

end

/-! ### Parts that write bits -/

section
variable (hw : ∀ b, Keeps R (writeBit b))
include hw

theorem writeBits_keeps (v n : Nat) : Keeps R (writeBits v n) := writeString_keeps refl trans hw _

theorem writeByte_keeps (v : Byte) : Keeps R (writeByte v) := writeBits_keeps refl trans hw _ _

theorem writeBytes_keeps (bs : List Byte) : Keeps R (writeBytes bs) := by
  induction bs with
  | nil => exact Keeps.pure refl ()
  | cons b bs ih => exact Keeps.bind trans (writeByte_keeps refl trans hw b) fun _ => ih

theorem uvEncode_keeps (v : Nat) : Keeps R (uvEncode v) := writeBytes_keeps refl trans hw _

theorem vEncode_keeps (v : Nat) : Keeps R (vEncode v) := by
  have fields : Keeps R (writeCode vintSlot (bucket v) >>= fun _ => writeBits v (vintWidth (bucket v))) :=
    Keeps.bind trans (writeCode_keeps refl trans hw _ _) fun _ => writeBits_keeps refl trans hw _ _
  unfold vEncode
  split_ifs
  · exact Keeps.bind trans (Keeps.throw refl _) fun _ => fields
  · exact fields

theorem literalLoop_keeps (k r p : Nat) : Keeps R (literalLoop k r p) := by
  induction r generalizing p with
  | zero => exact Keeps.pure refl ()
  | succ n ih =>
    exact Keeps.bind trans (srcByte_keeps refl trans p) fun b =>
      Keeps.bind trans (writeCode_keeps refl trans hw _ _) fun _ => ih _

omit refl in
theorem emitEnd_keeps : Keeps R emitEnd := Keeps.bind trans (hw true) fun _ => hw false

end

/-! ### Parts that read and write bits -/

section
variable (hr : RdKeeps R readBit) (hw : ∀ b, Keeps R (writeBit b))
include hr hw

theorem encodeLoop_keeps (t : Fin 16) (n : Nat) : RdKeeps R (encodeLoop t n) := by
  induction n with
  | zero => exact RdKeeps.pure refl ()
  | succ n ih =>
    exact RdKeeps.bind refl trans (readByte_keeps refl trans hr) fun b =>
      RdKeeps.bind refl trans (RdKeeps.lift refl trans (writeCode_keeps refl trans hw _ _)) fun _ => ih

theorem blockDecodeLoop_keeps (t : Fin 16) (fuel : Nat) : RdKeeps R (blockDecodeLoop t fuel) := by
  induction fuel with
  | zero => exact RdKeeps.failure refl
  | succ n ih =>
    refine RdKeeps.bind refl trans (decodeNext_keeps refl trans hr t) fun x => ?_
    split_ifs
    · exact RdKeeps.pure refl ()
    · exact RdKeeps.bind refl trans (RdKeeps.lift refl trans (writeByte_keeps refl trans hw _)) fun _ => ih

theorem copyByte_keeps : RdKeeps R copyByte :=
  RdKeeps.bind refl trans (readByte_keeps refl trans hr) fun _ =>
    RdKeeps.bind refl trans (RdKeeps.lift refl trans (writeByte_keeps refl trans hw _)) fun _ => RdKeeps.pure refl _

theorem copyBytes_keeps (n : Nat) : RdKeeps R (copyBytes n) := by
  induction n with
  | zero => exact RdKeeps.pure refl []
  | succ n ih =>
    exact RdKeeps.bind refl trans (copyByte_keeps refl trans hr hw) fun _ =>
      RdKeeps.bind refl trans ih fun _ => RdKeeps.pure refl _

theorem xformPass_keeps : RdKeeps R xformPass :=
  RdKeeps.bind refl trans (readByte_keeps refl trans hr) fun _ =>
    RdKeeps.lift refl trans (writeByte_keeps refl trans hw _)

theorem xformComp_keeps (t : Fin 16) : RdKeeps R (xformComp t) :=
  RdKeeps.bind refl trans (readByte_keeps refl trans hr) fun _ =>
    RdKeeps.lift refl trans (writeCode_keeps refl trans hw _ _)

theorem xformDecomp_keeps (t : Fin 16) : RdKeeps R (xformDecomp t) := by
  refine RdKeeps.bind refl trans (decodeNext_keeps refl trans hr t) fun x => ?_
  have write := RdKeeps.lift refl trans (writeByte_keeps refl trans hw (byte x))
  split_ifs
  · exact RdKeeps.bind refl trans (RdKeeps.failure refl) fun _ => write
  · exact write

theorem extension_keeps (fuel n : Nat) : RdKeeps R (extension fuel n) := by
  induction fuel generalizing n with
  | zero => exact RdKeeps.failure refl
  | succ fuel ih =>
    refine RdKeeps.bind refl trans (copyByte_keeps refl trans hr hw) fun e => ?_
    split_ifs
    · exact RdKeeps.pure refl _
    · exact ih _

theorem nibbleLength_keeps (n : Nat) : RdKeeps R (nibbleLength n) := by
  unfold nibbleLength
  split_ifs
  · exact RdKeeps.bind refl trans (RdKeeps.lift refl trans (Keeps.get refl)) fun _ =>
      extension_keeps refl trans hr hw _ _
  · exact RdKeeps.pure refl n

theorem snappyPreamble_keeps (fuel : Nat) : RdKeeps R (snappyPreamble fuel) := by
  induction fuel with
  | zero => exact RdKeeps.failure refl
  | succ fuel ih =>
    refine RdKeeps.bind refl trans (copyByte_keeps refl trans hr hw) fun b => ?_
    split_ifs
    · exact RdKeeps.pure refl ()
    · exact ih

theorem snappyLength_keeps (sel : Nat) : RdKeeps R (snappyLength sel) := by
  unfold snappyLength
  split_ifs
  · exact RdKeeps.bind refl trans (RdKeeps.lift refl trans (Keeps.get refl)) fun _ => RdKeeps.pure refl _
  · exact RdKeeps.bind refl trans (copyBytes_keeps refl trans hr hw _) fun _ =>
      RdKeeps.bind refl trans (RdKeeps.lift refl trans (Keeps.get refl)) fun _ => RdKeeps.pure refl _

end

/-! ### Parts that change the engine-internal state too: literal slots and the match finder -/

section
variable (he : ∀ f, Keeps R (modifyEng f))
include he

theorem histogramLoop_keeps (r p : Nat) : Keeps R (histogramLoop r p) := by
  induction r generalizing p with
  | zero => exact Keeps.pure refl ()
  | succ r ih =>
    exact Keeps.bind trans (srcByte_keeps refl trans p) fun _ => Keeps.bind trans (he _) fun _ => ih _

theorem histogram_keeps (a b : Nat) : Keeps R (histogram a b) :=
  Keeps.bind trans (he _) fun _ => histogramLoop_keeps refl trans he _ _

theorem recordKey_keeps : Keeps R recordKey := by
  refine Keeps.bind trans (Keeps.get refl) fun s => ?_
  dsimp only
  split_ifs
  · exact Keeps.bind trans (keyAt_keeps refl trans _) fun _ => he _
  · exact Keeps.pure refl ()

section
variable {x : Rd Unit} (hx : RdKeeps R x)
include hx

theorem slotLoop_keeps (fuel : Nat) : RdKeeps R (slotLoop x fuel) := by
  induction fuel with
  | zero => exact RdKeeps.pure refl ()
  | succ fuel ih =>
    refine RdKeeps.bind refl trans (RdKeeps.lift refl trans (Keeps.get refl)) fun s => ?_
    split_ifs
    · exact RdKeeps.pure refl ()
    · exact RdKeeps.bind refl trans hx fun _ =>
        RdKeeps.bind refl trans (RdKeeps.lift refl trans (he _)) fun _ => ih

theorem literalSlots_keeps (n : Nat) : RdKeeps R (literalSlots x n) :=
  RdKeeps.bind refl trans (RdKeeps.lift refl trans (he _)) fun _ => slotLoop_keeps refl trans he hx n

end

variable (hw : ∀ b, Keeps R (writeBit b))
include hw

theorem emitLiteral_keeps (a b : Nat) : Keeps R (emitLiteral a b) :=
  Keeps.bind trans (hw false) fun _ =>
    Keeps.bind trans (vEncode_keeps refl trans hw _) fun _ =>
      Keeps.bind trans (histogram_keeps refl trans he a b) fun _ =>
        Keeps.bind trans (Keeps.get refl) fun _ => Keeps.bind trans (Keeps.get refl) fun _ =>
          Keeps.bind trans (writeCode_keeps refl trans hw _ _) fun _ =>
            Keeps.bind trans (literalLoop_keeps refl trans hw _ _ _) fun _ => he _

theorem emitSubst_keeps (i cp : Nat) : Keeps R (emitSubst i cp) :=
  Keeps.bind trans (hw true) fun _ => Keeps.bind trans (hw true) fun _ =>
    Keeps.bind trans (vEncode_keeps refl trans hw i) fun _ =>
      Keeps.bind trans (vEncode_keeps refl trans hw cp) fun _ => he _

theorem scanRound_keeps (n : Nat) : Keeps R (scanRound n) := by
  refine Keeps.bind trans (recordKey_keeps refl trans he) fun _ => ?_
  refine Keeps.bind trans (lookupKey_keeps refl trans n) fun found => ?_
  rcases found with - | i
  · exact he _
  · exact Keeps.bind trans (Keeps.get refl) fun _ =>
      Keeps.bind trans (commonLength_keeps refl trans _ _ _) fun _ =>
        Keeps.bind trans (Keeps.get refl) fun _ =>
          Keeps.bind trans (emitLiteral_keeps refl trans he hw _ _) fun _ =>
            Keeps.bind trans (emitSubst_keeps refl trans he hw _ _) fun _ => he _

theorem scanLoop_keeps (n fuel : Nat) : Keeps R (scanLoop n fuel) := by
  induction fuel with
  | zero => exact Keeps.pure refl ()
  | succ fuel ih =>
    refine Keeps.bind trans (Keeps.get refl) fun s => ?_
    split_ifs
    · exact Keeps.bind trans (scanRound_keeps refl trans he hw n) fun _ => ih
    · exact Keeps.pure refl ()

theorem scan_keeps (n : Nat) : Keeps R (scan n) := by
  refine Keeps.bind trans (scanLoop_keeps refl trans he hw n n) fun _ => ?_
  refine Keeps.bind trans (Keeps.get refl) fun s => ?_
  dsimp only
  split_ifs
  · exact Keeps.bind trans (emitLiteral_keeps refl trans he hw _ _) fun _ => emitEnd_keeps trans hw
  · exact emitEnd_keeps trans hw

/-! ### The same: the decoder of LZ77 containers -/

theorem outByte_keeps (v : Byte) : Keeps R (outByte v) :=
  Keeps.bind trans (writeByte_keeps refl trans hw v) fun _ => he _

theorem copyLoop_keeps (len p : Nat) : Keeps R (copyLoop len p) := by
  induction len generalizing p with
  | zero => exact Keeps.pure refl ()
  | succ len ih =>
    exact Keeps.bind trans (Keeps.get refl) fun _ => Keeps.bind trans (memRead_keeps refl _) fun _ =>
      Keeps.bind trans (outByte_keeps refl trans he hw _) fun _ => ih _

theorem copyRef_keeps (off len : Nat) : Keeps R (copyRef off len) := by
  refine Keeps.bind trans (Keeps.get refl) fun s => ?_
  split_ifs
  · exact Keeps.bind trans (Keeps.throw refl _) fun _ => copyLoop_keeps refl trans he hw _ _
  · exact copyLoop_keeps refl trans he hw _ _

variable (hr : RdKeeps R readBit)
include hr

theorem decodeRun_keeps (k r : Nat) : RdKeeps R (decodeRun k r) := by
  induction r with
  | zero => exact RdKeeps.pure refl ()
  | succ r ih =>
    exact RdKeeps.bind refl trans (decodeNext_keeps refl trans hr _) fun _ =>
      RdKeeps.bind refl trans (RdKeeps.lift refl trans (outByte_keeps refl trans he hw _)) fun _ => ih

theorem token_keeps : RdKeeps R token := by
  refine RdKeeps.bind refl trans hr fun c => ?_
  split_ifs
  · refine RdKeeps.bind refl trans hr fun c2 => ?_
    split_ifs
    · exact RdKeeps.bind refl trans (vDecode_keeps refl trans hr) fun _ =>
        RdKeeps.bind refl trans (vDecode_keeps refl trans hr) fun _ =>
          RdKeeps.bind refl trans (RdKeeps.lift refl trans (copyRef_keeps refl trans he hw _ _)) fun _ =>
            RdKeeps.pure refl false
    · exact RdKeeps.pure refl true
  · exact RdKeeps.bind refl trans (vDecode_keeps refl trans hr) fun _ =>
      RdKeeps.bind refl trans (decodeNext_keeps refl trans hr _) fun _ =>
        RdKeeps.bind refl trans (decodeRun_keeps refl trans he hw hr _ _) fun _ => RdKeeps.pure refl false

theorem tokenLoop_keeps (fuel : Nat) : RdKeeps R (tokenLoop fuel) := by
  induction fuel with
  | zero => exact RdKeeps.failure refl
  | succ fuel ih =>
    refine RdKeeps.bind refl trans (token_keeps refl trans he hw hr) fun last => ?_
    split_ifs
    · exact RdKeeps.pure refl ()
    · exact ih

/-! ### The same: the format walks, for every transform of a literal -/

section
variable {x : Rd Unit} (hx : RdKeeps R x)
include hx

theorem lz4Sequence_keeps : RdKeeps R (lz4Sequence x) :=
  RdKeeps.bind refl trans (copyByte_keeps refl trans hr hw) fun _ =>
    RdKeeps.bind refl trans (nibbleLength_keeps refl trans hr hw _) fun _ =>
      RdKeeps.bind refl trans (literalSlots_keeps refl trans he hx _) fun _ =>
        RdKeeps.bind refl trans (copyBytes_keeps refl trans hr hw 2) fun _ =>
          RdKeeps.bind refl trans (nibbleLength_keeps refl trans hr hw _) fun _ => RdKeeps.pure refl ()

theorem lz4Loop_keeps (fuel : Nat) : RdKeeps R (lz4Loop x fuel) := by
  induction fuel with
  | zero => exact RdKeeps.failure refl
  | succ fuel ih => exact RdKeeps.bind refl trans (lz4Sequence_keeps refl trans he hw hr hx) fun _ => ih

theorem walkLz4_keeps : RdKeeps R (walkLz4 x) :=
  RdKeeps.bind refl trans (RdKeeps.lift refl trans (Keeps.get refl)) fun _ => lz4Loop_keeps refl trans he hw hr hx _

theorem snappyToken_keeps : RdKeeps R (snappyToken x) := by
  refine RdKeeps.bind refl trans (copyByte_keeps refl trans hr hw) fun tag => ?_
  split_ifs
  · exact RdKeeps.bind refl trans (snappyLength_keeps refl trans hr hw _) fun _ =>
      literalSlots_keeps refl trans he hx _
  · exact RdKeeps.bind refl trans (copyBytes_keeps refl trans hr hw _) fun _ => RdKeeps.pure refl ()

theorem snappyLoop_keeps (fuel : Nat) : RdKeeps R (snappyLoop x fuel) := by
  induction fuel with
  | zero => exact RdKeeps.failure refl
  | succ fuel ih => exact RdKeeps.bind refl trans (snappyToken_keeps refl trans he hw hr hx) fun _ => ih

theorem walkSnappy_keeps : RdKeeps R (walkSnappy x) :=
  RdKeeps.bind refl trans (RdKeeps.lift refl trans (Keeps.get refl)) fun _ =>
    RdKeeps.bind refl trans (snappyPreamble_keeps refl trans hr hw _) fun _ =>
      RdKeeps.bind refl trans (RdKeeps.lift refl trans (Keeps.get refl)) fun _ =>
        snappyLoop_keeps refl trans he hw hr hx _

end

end

end

end Sys2Proof.Machine
end

section
/-! SUPPORT. Proofs: What a command can change -/

namespace Sys2Proof.Machine

section
variable {α β : Type} {R : State → State → Prop} {s : State}

/-! ### Runs from one state -/

/-- `Keeps` of the runs from the state `s` alone. -/
def KeepsAt (R : State → State → Prop) (m : Eng α) (s : State) : Prop :=
  (∀ a t, m.run s = .ok a t → R s t) ∧ ∀ e t, m.run s = .error e t → R s t

theorem KeepsAt.of_ok {m : Eng α} {a : α} {t : State} (h : m.run s = .ok a t) (ht : R s t) : KeepsAt R m s :=
  ⟨fun _ _ h' => by rw [h] at h'; cases h'; exact ht, fun _ _ h' => by rw [h] at h'; cases h'⟩

theorem KeepsAt.of_error {m : Eng α} {e : Raised} {t : State} (h : m.run s = .error e t) (ht : R s t) : KeepsAt R m s :=
  ⟨fun _ _ h' => (nomatch h.symm.trans h'), fun _ _ h' => by rw [h] at h'; cases h'; exact ht⟩

/-- A first part that changes nothing leaves the rest to run from the same state. -/
theorem KeepsAt.bind_same (refl : ∀ s, R s s) {x : Eng α} {f : α → Eng β} (hx : Keeps Eq x)
    (hf : ∀ a, KeepsAt R (f a) s) : KeepsAt R (x >>= f) s := by
  rcases h : x.run s with ⟨a, t⟩ | ⟨e, t⟩
  · obtain rfl := (hx s).1 a t h
    exact ⟨fun b u hu => (hf a).1 b u (by rwa [Eng.bind_ok h] at hu),
      fun e u hu => (hf a).2 e u (by rwa [Eng.bind_ok h] at hu)⟩
  · obtain rfl := (hx s).2 e t h
    exact .of_error (Eng.bind_error h) (refl s)

/-- After a check the rest runs from the same state, in which the condition holds. -/
theorem KeepsAt.bind_require (refl : ∀ s, R s s) {cond : State → Bool} {e : Raised} {f : Unit → Eng β}
    (hf : cond s = true → KeepsAt R (f ()) s) : KeepsAt R (require cond e >>= f) s := by
  cases hc : cond s with
  | false => exact .of_error (Eng.bind_error (require_error hc)) (refl s)
  | true =>
    unfold KeepsAt
    rw [Eng.bind_ok (require_ok hc)]
    exact hf hc

theorem KeepsAt.bind_get {f : State → Eng β} (hf : KeepsAt R (f s) s) : KeepsAt R (get >>= f) s := hf

/-! ### The ends of a command -/

/-- A command from `s` that ends so: its own effects reach a state related to `s`, then it completes, with success or with
an error (60_exceptions.md R320 step 4, R322). -/
def Ends (R : State → State → Prop) (s : State) (o : Host.Outcome State Fault Refusal) : Prop :=
  ∃ t, R s t ∧ (o = .next (t.complete 0#8) ∨ ∃ e, o = .next (t.takeError e))

theorem KeepsAt.ends {m : Eng Unit} (h : KeepsAt R m s) : Ends R s (runCommand m s) := by
  rcases runCommand_next m s with ⟨t, hm, hrun⟩ | ⟨e, t, hm, hrun⟩
  · exact ⟨t, h.1 () t hm, .inl hrun⟩
  · exact ⟨t, h.2 e t hm, .inr ⟨e, hrun⟩⟩

theorem Keeps.ends {m : Eng Unit} (h : Keeps R m) (s : State) : Ends R s (runCommand m s) := KeepsAt.ends (h s)

end

/-! ### The changes of a slot (41_prefix_table.md R180 to R183) -/

/-- The slot is BUILDING and not a preset: what TBL.INCR and TBL.INCS ask (41_prefix_table.md R181, R182). -/
def Slot.building (sl : Slot) : Bool := !sl.preset && sl.alpha != .empty && !sl.final

/-- The slot that TBL.CREATE makes of a user slot (41_prefix_table.md R180). -/
def Slot.created (sl : Slot) (wide : Bool) : Slot :=
  let alpha := if wide then Alphabet.a257 else Alphabet.a256
  { sl with alpha := alpha, weights := List.replicate alpha.size 1#32, final := false, codes := [] }

/-- The slot with every weight raised (41_prefix_table.md R181, R182). -/
def Slot.raised (sl : Slot) (amount : Nat → Nat) : Slot := { sl with weights := addWeights sl.weights amount }

/-- The slot with the codes of its weights (41_prefix_table.md R183). -/
def Slot.finalized (sl : Slot) (b : Builder) : Slot :=
  { sl with final := true, codes := build b (sl.weights.map BitVec.toNat) }

/-- How a command can change a slot, with what the command has checked before. -/
inductive SlotChange (b : Builder) (sl : Slot) : Slot → Prop
  | created (wide : Bool) (user : sl.preset = false) : SlotChange b sl (sl.created wide)
  | raised (amount : Nat → Nat) (building : sl.building = true) (fits : firstOverflow sl.weights amount = none) :
    SlotChange b sl (sl.raised amount)
  | finalized (user : sl.preset = false) (created : sl.alpha ≠ .empty)
    (short : maxCodeLen (build b (sl.weights.map BitVec.toNat)) ≤ Config.maxCode) : SlotChange b sl (sl.finalized b)

section
variable {t : Fin 16} {amount : Nat → Nat} {s : State}

theorem raiseWeights_fits (h : firstOverflow (s.slot t).weights amount = none) :
    (raiseWeights t amount).run s = .ok () { s with slots := s.slots.set t ((s.slot t).raised amount) } := by
  unfold raiseWeights
  rw [Eng.bind_ok (Eng.get_run s)]
  simp only [h]
  exact setSlot_run _ _ _

theorem raiseWeights_overflow {x : Nat} (h : firstOverflow (s.slot t).weights amount = some x) :
    (raiseWeights t amount).run s = .error (.overflow x) s := by
  unfold raiseWeights
  rw [Eng.bind_ok (Eng.get_run s)]
  simp only [h]
  rfl

end

/-! ### Every change a command can make -/

/-- The command moves RPOS: it reads the source through the bit reader, which TBL.INCS does not (41_prefix_table.md R182). -/
def movesRpos (i : Instr) : Prop := readsSource i = true ∧ ∀ k, i ≠ .tblIncs k

/-- A high-level command writes its destination and moves both cursors (20_memory.md R62). -/
theorem highLevel_uses {i : Instr} (h : highLevel i = true) : writesDest i = true ∧ movesRpos i := by
  cases i <;> simp [highLevel, writesDest, movesRpos, readsSource] at h ⊢

/-- A walker command is a high-level one and writes all three result registers (30_encoding.md R93). -/
theorem walker_uses {i : Instr} (h : walker i = true) : highLevel i = true ∧ (resultRegisters i).1 = true ∧
    (resultRegisters i).2.1 = true ∧ (resultRegisters i).2.2 = true := by
  cases i <;> simp [walker, highLevel, resultRegisters] at h ⊢

/-- The relation has every change that the command `i` may make to a state: to the result registers of its row
(30_encoding.md R93), to its cursors (20_memory.md R62), to the engine-internal state if it is a high-level command
(10_state.md R45), to its slot. -/
structure Admits (i : Instr) (R : State → State → Prop) : Prop where
  refl : ∀ s, R s s
  trans : ∀ s t u, R s t → R t u → R s u
  res0 : (resultRegisters i).1 = true → ∀ s n, R s { s with res0 := word n }
  res1 : (resultRegisters i).2.1 = true → ∀ s n, R s { s with res1 := word n }
  res2 : (resultRegisters i).2.2 = true → ∀ s n, R s { s with res2 := word n }
  read : movesRpos i → ∀ s, 1 ≤ s.avail → R s { s with rpos := s.rpos + 1#32 }
  write : writesDest i = true → ∀ s b, s.wpos.toNat < 8 * s.dstCap.toNat →
    memOk s.params (s.dstAddr.toNat + s.wpos.toNat / 8) = true →
    R s { s with mem := storeBits s.dstAddr.toNat s.wpos.toNat [b] s.mem, wpos := s.wpos + 1#32 }
  start : highLevel i = true → ∀ s, R s { s with rpos := 0#32, wpos := 0#32, eng := Engine.idle }
  engine : highLevel i = true → ∀ s (f : Engine → Engine), R s { s with eng := f s.eng }
  slot : ∀ k, slotChanged i = some k → ∀ s sl, SlotChange s.params.builder (s.slot k) sl →
    R s { s with slots := s.slots.set k sl }

section
variable {i : Instr} {R : State → State → Prop} (h : Admits i R)
include h

/-! ### The operations, as the command may use them -/

theorem Admits.keeps_setRes0 (hi : (resultRegisters i).1 = true) (n : Nat) : Keeps R (setRes0 n) :=
  Keeps.modify fun s => h.res0 hi s n

theorem Admits.keeps_setRes1 (hi : (resultRegisters i).2.1 = true) (n : Nat) : Keeps R (setRes1 n) :=
  Keeps.modify fun s => h.res1 hi s n

theorem Admits.keeps_setRes2 (hi : (resultRegisters i).2.2 = true) (n : Nat) : Keeps R (setRes2 n) :=
  Keeps.modify fun s => h.res2 hi s n

theorem Admits.keeps_readBit (hi : movesRpos i) : RdKeeps R readBit := readBit_keeps h.refl (h.read hi)

theorem Admits.keeps_writeBit (hi : writesDest i = true) (b : Bool) : Keeps R (writeBit b) :=
  writeBit_keeps h.refl (h.write hi) b

theorem Admits.keeps_startHighLevel (hi : highLevel i = true) : Keeps R startHighLevel := Keeps.modify (h.start hi)

theorem Admits.keeps_modifyEng (hi : highLevel i = true) (f : Engine → Engine) : Keeps R (modifyEng f) :=
  Keeps.modify fun s => h.engine hi s f

theorem Admits.keeps_require (cond : State → Bool) (e : Raised) : Keeps R (require cond e) := require_keeps h.refl cond e

theorem Admits.keeps_bind {α β : Type} {x : Eng α} {f : α → Eng β} (hx : Keeps R x) (hf : ∀ a, Keeps R (f a)) :
    Keeps R (x >>= f) := Keeps.bind h.trans hx hf

theorem Admits.keeps_get_bind {β : Type} {f : State → Eng β} (hf : ∀ s, Keeps R (f s)) : Keeps R (get >>= f) :=
  h.keeps_bind (Keeps.get h.refl) hf

theorem Admits.keeps_close (hi : writesDest i = true) : Keeps R close := close_keeps h.refl h.trans (h.keeps_writeBit hi)

/-- The three result registers written at once, as the reports of WK.* and LZ.COMP do. -/
theorem Admits.results (h0 : (resultRegisters i).1 = true) (h1 : (resultRegisters i).2.1 = true)
    (h2 : (resultRegisters i).2.2 = true) (s : State) (a b c : Nat) :
    R s { s with res0 := word a, res1 := word b, res2 := word c } :=
  h.trans _ _ _ (h.res0 h0 s a) (h.trans _ _ _ (h.res1 h1 _ b) (h.res2 h2 _ c))

/-- Weights raised in a state whose slot is BUILDING. -/
theorem Admits.keeps_raiseWeights {t : Fin 16} (hi : slotChanged i = some t) {s : State} (hb : (s.slot t).building = true)
    (amount : Nat → Nat) : KeepsAt R (raiseWeights t amount) s := by
  cases hf : firstOverflow (s.slot t).weights amount with
  | none => exact .of_ok (raiseWeights_fits hf) (h.slot t hi s _ (.raised amount hb hf))
  | some x => exact .of_error (raiseWeights_overflow hf) (h.refl s)

/-! ### The high-level commands, family by family -/

/-- The walk and epilogue of a walker command, both cursors at 0 before (43_format_walker.md R241, R242). -/
theorem Admits.keeps_walkBody (hi : walker i = true) {walk : Rd Unit} (hwalk : RdKeeps R walk) :
    Keeps R (startHighLevel >>= fun _ => walkBody walk) := by
  obtain ⟨hh, h0, h1, h2⟩ := walker_uses hi
  obtain ⟨hd, -⟩ := highLevel_uses hh
  refine h.keeps_bind (h.keeps_startHighLevel hh) fun _ => ?_
  refine Keeps.reporting h.trans ?_ fun s => h.results h0 h1 h2 s _ _ _
  exact h.keeps_bind hwalk fun _ => h.keeps_bind (h.keeps_close hd) fun _ => h.keeps_bind (h.keeps_setRes0 h0 _) fun _ =>
    h.keeps_get_bind fun _ => h.keeps_bind (h.keeps_setRes1 h1 _) fun _ => h.keeps_get_bind fun _ => h.keeps_setRes2 h2 _

theorem Admits.keeps_inspectCommand (hi : walker i = true) {walk : Rd Unit} (hwalk : RdKeeps R walk) :
    Keeps R (inspectCommand walk) :=
  h.keeps_bind (checkBuffers_keeps h.refl h.trans) fun _ => h.keeps_walkBody hi hwalk

theorem Admits.keeps_tableWalkCommand (hi : walker i = true) (t : Fin 16) {walk : Rd Unit} (hwalk : RdKeeps R walk) :
    Keeps R (tableWalkCommand t walk) :=
  h.keeps_bind (checkBuffers_keeps h.refl h.trans) fun _ => h.keeps_bind (h.keeps_require _ _) fun _ =>
    h.keeps_bind (h.keeps_require _ _) fun _ => h.keeps_walkBody hi hwalk

section
variable (hi : highLevel i = true)
include hi

theorem Admits.keeps_walkLz4 {x : Rd Unit} (hx : RdKeeps R x) : RdKeeps R (walkLz4 x) :=
  walkLz4_keeps h.refl h.trans (h.keeps_modifyEng hi) (h.keeps_writeBit (highLevel_uses hi).1)
    (h.keeps_readBit (highLevel_uses hi).2) hx

theorem Admits.keeps_walkSnappy {x : Rd Unit} (hx : RdKeeps R x) : RdKeeps R (walkSnappy x) :=
  walkSnappy_keeps h.refl h.trans (h.keeps_modifyEng hi) (h.keeps_writeBit (highLevel_uses hi).1)
    (h.keeps_readBit (highLevel_uses hi).2) hx

theorem Admits.keeps_xformPass : RdKeeps R xformPass :=
  xformPass_keeps h.refl h.trans (h.keeps_readBit (highLevel_uses hi).2) (h.keeps_writeBit (highLevel_uses hi).1)

theorem Admits.keeps_xformComp (t : Fin 16) : RdKeeps R (xformComp t) :=
  xformComp_keeps h.refl h.trans (h.keeps_readBit (highLevel_uses hi).2) (h.keeps_writeBit (highLevel_uses hi).1) t

theorem Admits.keeps_xformDecomp (t : Fin 16) : RdKeeps R (xformDecomp t) :=
  xformDecomp_keeps h.refl h.trans (h.keeps_readBit (highLevel_uses hi).2) (h.keeps_writeBit (highLevel_uses hi).1) t

/-- The prologue of the block commands. -/
theorem Admits.keeps_blockPrologue (t : Fin 16) : Keeps R (blockPrologue t) :=
  h.keeps_bind (checkBuffers_keeps h.refl h.trans) fun _ => h.keeps_bind (h.keeps_require _ _) fun _ =>
    h.keeps_bind (h.keeps_require _ _) fun _ => h.keeps_startHighLevel hi

end

end

/-! ### Every command ends so -/

section
variable {R : State → State → Prop} (s : State)

theorem execTblCreate_ends (t : Fin 16) (wide : Bool) (h : Admits (.tblCreate t wide) R) :
    Ends R s (execTblCreate t wide s) := by
  refine KeepsAt.ends (KeepsAt.bind_require h.refl fun huser => KeepsAt.bind_get ?_)
  exact .of_ok (setSlot_run t _ s) (h.slot t rfl s _ (.created wide (by simpa using huser)))

theorem execTblIncr_ends (t : Fin 16) (h : Admits (.tblIncr t) R) : Ends R s (execTblIncr t s) :=
  KeepsAt.ends (KeepsAt.bind_require h.refl fun _ => KeepsAt.bind_require h.refl fun _ =>
    KeepsAt.bind_require h.refl fun hbuilding => h.keeps_raiseWeights rfl hbuilding _)

theorem execTblIncs_ends (t : Fin 16) (h : Admits (.tblIncs t) R) : Ends R s (execTblIncs t s) :=
  KeepsAt.ends (KeepsAt.bind_require h.refl fun _ => KeepsAt.bind_require h.refl fun hbuilding =>
    KeepsAt.bind_same h.refl (countSource_keeps Eq.refl (fun _ _ _ => Eq.trans) _ _ _) fun _ =>
      h.keeps_raiseWeights rfl hbuilding _)

theorem execTblFin_ends (t : Fin 16) (h : Admits (.tblFin t) R) : Ends R s (execTblFin t s) := by
  refine KeepsAt.ends (KeepsAt.bind_get ?_)
  dsimp only
  split_ifs with hpreset hlong
  · exact Keeps.pure h.refl () s
  · exact KeepsAt.bind_require h.refl fun _ => KeepsAt.of_error rfl (h.refl s)
  · refine KeepsAt.bind_require h.refl fun hcreated => KeepsAt.of_ok (setSlot_run t _ s) ?_
    exact h.slot t rfl s _ (.finalized (by simpa using hpreset) (by simpa using hcreated) (by omega))

theorem execTblDec_ends (t : Fin 16) (h : Admits (.tblDec t) R) : Ends R s (execTblDec t s) :=
  Keeps.ends (h.keeps_bind (h.keeps_require _ _) fun _ => h.keeps_bind (h.keeps_require _ _) fun _ =>
    h.keeps_get_bind fun _ => h.keeps_bind (Keeps.orTruncated h.refl h.trans
      (decodeNext_keeps h.refl h.trans (h.keeps_readBit ⟨rfl, nofun⟩) t)) fun _ =>
        h.keeps_bind (h.keeps_setRes0 rfl _) fun _ => h.keeps_get_bind fun _ => h.keeps_setRes2 rfl _) s

theorem execUvDec_ends (h : Admits .uvDec R) : Ends R s (execUvDec s) := by
  refine Keeps.ends (h.keeps_bind (h.keeps_require _ _) fun _ => h.keeps_get_bind fun _ =>
    h.keeps_bind (uvDecode_keeps h.refl h.trans (h.keeps_readBit ⟨rfl, nofun⟩)) fun r => ?_) s
  cases r with
  | value v =>
    exact h.keeps_bind (h.keeps_setRes0 rfl _) fun _ => h.keeps_bind (h.keeps_setRes1 rfl _) fun _ =>
      h.keeps_get_bind fun _ => h.keeps_setRes2 rfl _
  | fail => exact h.keeps_get_bind fun _ => Keeps.throw h.refl _
  | overflow => exact h.keeps_get_bind fun _ => Keeps.throw h.refl _

theorem execBlkEnc_ends (t : Fin 16) (h : Admits (.blkEnc t) R) : Ends R s (execBlkEnc t s) := by
  have hw := h.keeps_writeBit rfl
  refine Keeps.ends (h.keeps_bind (h.keeps_blockPrologue rfl t) fun _ =>
    Keeps.reporting h.trans ?_ fun s => h.res0 rfl s _) s
  exact h.keeps_get_bind fun _ =>
    h.keeps_bind (encodeLoop_keeps h.refl h.trans (h.keeps_readBit ⟨rfl, nofun⟩) hw t _) fun _ =>
      h.keeps_bind (writeCode_keeps h.refl h.trans hw t _) fun _ =>
        h.keeps_bind (h.keeps_close rfl) fun _ => h.keeps_setRes0 rfl _

theorem execBlkDec_ends (t : Fin 16) (h : Admits (.blkDec t) R) : Ends R s (execBlkDec t s) := by
  have hw := h.keeps_writeBit rfl
  refine Keeps.ends (h.keeps_bind (h.keeps_blockPrologue rfl t) fun _ =>
    Keeps.reporting h.trans ?_ fun s => h.res0 rfl s _) s
  exact h.keeps_get_bind fun _ =>
    h.keeps_bind (blockDecodeLoop_keeps h.refl h.trans (h.keeps_readBit ⟨rfl, nofun⟩) hw t _) fun _ =>
      h.keeps_bind (h.keeps_close rfl) fun _ => h.keeps_setRes0 rfl _

theorem execLzComp_ends (h : Admits .lzComp R) : Ends R s (execLzComp s) := by
  have hw := h.keeps_writeBit rfl
  refine Keeps.ends (h.keeps_bind (checkBuffers_keeps h.refl h.trans) fun _ =>
    h.keeps_bind (h.keeps_startHighLevel rfl) fun _ =>
      Keeps.reporting h.trans ?_ fun s => h.results rfl rfl rfl s _ _ _) s
  exact h.keeps_get_bind fun _ => h.keeps_bind (uvEncode_keeps h.refl h.trans hw _) fun _ =>
    h.keeps_bind (scan_keeps h.refl h.trans (h.keeps_modifyEng rfl) hw _) fun _ =>
      h.keeps_bind (h.keeps_close rfl) fun _ => h.keeps_bind (h.keeps_setRes0 rfl _) fun _ =>
        h.keeps_get_bind fun _ => h.keeps_bind (h.keeps_setRes1 rfl _) fun _ =>
          h.keeps_get_bind fun _ => h.keeps_setRes2 rfl _

theorem execLzDecomp_ends (h : Admits .lzDecomp R) : Ends R s (execLzDecomp s) := by
  have hr := h.keeps_readBit ⟨rfl, nofun⟩
  have finish : Keeps R (close >>= fun n => setRes0 n) :=
    h.keeps_bind (h.keeps_close rfl) fun _ => h.keeps_setRes0 rfl _
  refine Keeps.ends (h.keeps_bind (checkBuffers_keeps h.refl h.trans) fun _ =>
    h.keeps_bind (h.keeps_startHighLevel rfl) fun _ => Keeps.reporting h.trans ?_ fun s => h.res0 rfl s _) s
  refine h.keeps_bind (uvDecode_keeps h.refl h.trans hr) fun r => ?_
  cases r with
  | value v =>
    exact h.keeps_get_bind fun _ => h.keeps_bind
      (tokenLoop_keeps h.refl h.trans (h.keeps_modifyEng rfl) (h.keeps_writeBit rfl) hr _) fun _ => finish
  | fail => exact finish
  | overflow => exact finish

/-- Every command ends, and all it does before its completion is of the kinds that its row of the tables allows. -/
theorem exec_ends {i : Instr} (h : Admits i R) : Ends R s (exec i s) := by
  cases i with
  | nop => exact Keeps.ends (Keeps.pure h.refl ()) s
  | bsRbit =>
    exact Keeps.ends (h.keeps_bind (h.keeps_require _ _) fun _ =>
      h.keeps_bind (Keeps.orTruncated h.refl h.trans (h.keeps_readBit ⟨rfl, nofun⟩)) fun _ => h.keeps_setRes0 rfl _) s
  | bsRbyte =>
    exact Keeps.ends (h.keeps_bind (h.keeps_require _ _) fun _ => h.keeps_bind (Keeps.orTruncated h.refl h.trans
      (readByte_keeps h.refl h.trans (h.keeps_readBit ⟨rfl, nofun⟩))) fun _ => h.keeps_setRes0 rfl _) s
  | bsRbits n =>
    exact Keeps.ends (h.keeps_bind (h.keeps_require _ _) fun _ => h.keeps_bind (h.keeps_require _ _) fun _ =>
      h.keeps_bind (Keeps.orTruncated h.refl h.trans
        (readBits_keeps h.refl h.trans (h.keeps_readBit ⟨rfl, nofun⟩) n)) fun _ => h.keeps_setRes0 rfl _) s
  | bsWbit => exact Keeps.ends (h.keeps_bind (h.keeps_require _ _) fun _ => h.keeps_writeBit rfl _) s
  | bsWbyte =>
    exact Keeps.ends (h.keeps_bind (h.keeps_require _ _) fun _ =>
      writeByte_keeps h.refl h.trans (h.keeps_writeBit rfl) _) s
  | bsWbits n =>
    exact Keeps.ends (h.keeps_bind (h.keeps_require _ _) fun _ => h.keeps_bind (h.keeps_require _ _) fun _ =>
      writeBits_keeps h.refl h.trans (h.keeps_writeBit rfl) _ n) s
  | bsAlign =>
    exact Keeps.ends (h.keeps_bind (h.keeps_require _ _) fun _ =>
      align_keeps h.refl h.trans (h.keeps_writeBit rfl)) s
  | bsClose =>
    exact Keeps.ends (h.keeps_bind (h.keeps_require _ _) fun _ =>
      h.keeps_bind (h.keeps_close rfl) fun _ => h.keeps_setRes0 rfl _) s
  | tblCreate t wide => exact execTblCreate_ends s t wide h
  | tblIncr t => exact execTblIncr_ends s t h
  | tblIncs t => exact execTblIncs_ends s t h
  | tblFin t => exact execTblFin_ends s t h
  | tblCode t =>
    exact Keeps.ends (h.keeps_bind (h.keeps_require _ _) fun _ => h.keeps_bind (h.keeps_require _ _) fun _ =>
      h.keeps_get_bind fun _ => h.keeps_bind (h.keeps_setRes0 rfl _) fun _ =>
        h.keeps_bind (h.keeps_setRes1 rfl _) fun _ => h.keeps_setRes2 rfl _) s
  | tblDec t => exact execTblDec_ends s t h
  | tblInfo t =>
    exact Keeps.ends (h.keeps_get_bind fun _ => h.keeps_bind (h.keeps_setRes0 rfl _) fun _ =>
      h.keeps_bind (h.keeps_setRes1 rfl _) fun _ => h.keeps_setRes2 rfl _) s
  | tblWgt t =>
    exact Keeps.ends (h.keeps_bind (h.keeps_require _ _) fun _ => h.keeps_bind (h.keeps_require _ _) fun _ =>
      h.keeps_get_bind fun _ => h.keeps_setRes0 rfl _) s
  | viEnc =>
    exact Keeps.ends (h.keeps_bind (h.keeps_require _ _) fun _ =>
      h.keeps_bind (vEncode_keeps h.refl h.trans (h.keeps_writeBit rfl) _) fun _ =>
        h.keeps_bind (h.keeps_setRes0 rfl _) fun _ => h.keeps_get_bind fun _ => h.keeps_setRes2 rfl _) s
  | viDec =>
    exact Keeps.ends (h.keeps_bind (h.keeps_require _ _) fun _ => h.keeps_bind (Keeps.orTruncated h.refl h.trans
      (vDecode_keeps h.refl h.trans (h.keeps_readBit ⟨rfl, nofun⟩))) fun _ =>
        h.keeps_bind (h.keeps_setRes0 rfl _) fun _ => h.keeps_bind (h.keeps_setRes1 rfl _) fun _ => h.keeps_setRes2 rfl _) s
  | uvEnc =>
    exact Keeps.ends (h.keeps_bind (h.keeps_require _ _) fun _ => h.keeps_get_bind fun _ =>
      h.keeps_bind (uvEncode_keeps h.refl h.trans (h.keeps_writeBit rfl) _) fun _ =>
        h.keeps_get_bind fun _ => h.keeps_setRes2 rfl _) s
  | uvDec => exact execUvDec_ends s h
  | wkInspectLz4 => exact Keeps.ends (h.keeps_inspectCommand rfl (h.keeps_walkLz4 rfl (h.keeps_xformPass rfl))) s
  | wkInspectSnappy => exact Keeps.ends (h.keeps_inspectCommand rfl (h.keeps_walkSnappy rfl (h.keeps_xformPass rfl))) s
  | wkCompLz4 t => exact Keeps.ends (h.keeps_tableWalkCommand rfl t (h.keeps_walkLz4 rfl (h.keeps_xformComp rfl t))) s
  | wkCompSnappy t =>
    exact Keeps.ends (h.keeps_tableWalkCommand rfl t (h.keeps_walkSnappy rfl (h.keeps_xformComp rfl t))) s
  | wkDecompLz4 t =>
    exact Keeps.ends (h.keeps_tableWalkCommand rfl t (h.keeps_walkLz4 rfl (h.keeps_xformDecomp rfl t))) s
  | wkDecompSnappy t =>
    exact Keeps.ends (h.keeps_tableWalkCommand rfl t (h.keeps_walkSnappy rfl (h.keeps_xformDecomp rfl t))) s
  | blkEnc t => exact execBlkEnc_ends s t h
  | blkDec t => exact execBlkDec_ends s t h
  | lzComp => exact execLzComp_ends s h
  | lzDecomp => exact execLzDecomp_ends s h

end

end Sys2Proof.Machine
end

section
/-! SUPPORT. Proofs: The register frame and the invariants -/

namespace Sys2Proof.Machine

/-! ### Which registers a command leaves alone (10_state.md R22, R27, R28) -/

/-- The registers and own fields of `s` that the command `i` leaves alone are those of `t`. -/
structure SameRegisters (i : Instr) (s t : State) : Prop where
  ctrl : t.ctrl = s.ctrl
  cmd : t.cmd = s.cmd
  arg0 : t.arg0 = s.arg0
  arg1 : t.arg1 = s.arg1
  arg2 : t.arg2 = s.arg2
  srcAddr : t.srcAddr = s.srcAddr
  srcLen : t.srcLen = s.srcLen
  dstAddr : t.dstAddr = s.dstAddr
  dstCap : t.dstCap = s.dstCap
  params : t.params = s.params
  events : t.events = s.events
  hostData : t.hostData = s.hostData
  freeCount : t.freeCount = s.freeCount
  res0 : (resultRegisters i).1 = false → t.res0 = s.res0
  res1 : (resultRegisters i).2.1 = false → t.res1 = s.res1
  res2 : (resultRegisters i).2.2 = false → t.res2 = s.res2
  rpos : ¬ movesRpos i → t.rpos = s.rpos
  wpos : writesDest i = false → t.wpos = s.wpos

theorem SameRegisters.refl (i : Instr) (s : State) : SameRegisters i s s := by
  constructor <;> intros <;> rfl

theorem SameRegisters.trans {i : Instr} {s t u : State} (h : SameRegisters i s t) (h' : SameRegisters i t u) :
    SameRegisters i s u where
  ctrl := h'.ctrl.trans h.ctrl
  cmd := h'.cmd.trans h.cmd
  arg0 := h'.arg0.trans h.arg0
  arg1 := h'.arg1.trans h.arg1
  arg2 := h'.arg2.trans h.arg2
  srcAddr := h'.srcAddr.trans h.srcAddr
  srcLen := h'.srcLen.trans h.srcLen
  dstAddr := h'.dstAddr.trans h.dstAddr
  dstCap := h'.dstCap.trans h.dstCap
  params := h'.params.trans h.params
  events := h'.events.trans h.events
  hostData := h'.hostData.trans h.hostData
  freeCount := h'.freeCount.trans h.freeCount
  res0 hi := (h'.res0 hi).trans (h.res0 hi)
  res1 hi := (h'.res1 hi).trans (h.res1 hi)
  res2 hi := (h'.res2 hi).trans (h.res2 hi)
  rpos hi := (h'.rpos hi).trans (h.rpos hi)
  wpos hi := (h'.wpos hi).trans (h.wpos hi)

/-- Each change that a command may make is of a register that its frame leaves out. -/
theorem sameRegisters_admits (i : Instr) : Admits i (SameRegisters i) where
  refl := SameRegisters.refl i
  trans _ _ _ := SameRegisters.trans
  res0 hi s n := { SameRegisters.refl i s with res0 := fun hno => absurd hi (by simp [hno]) }
  res1 hi s n := { SameRegisters.refl i s with res1 := fun hno => absurd hi (by simp [hno]) }
  res2 hi s n := { SameRegisters.refl i s with res2 := fun hno => absurd hi (by simp [hno]) }
  read hi s _ := { SameRegisters.refl i s with rpos := fun hno => absurd hi hno }
  write hi s _ _ _ := { SameRegisters.refl i s with wpos := fun hno => absurd hi (by simp [hno]) }
  start hi s :=
    { SameRegisters.refl i s with
      rpos := fun hno => absurd (highLevel_uses hi).2 hno
      wpos := fun hno => absurd (highLevel_uses hi).1 (by simp [hno]) }
  engine _ s _ := { SameRegisters.refl i s with }
  slot _ _ s _ _ := { SameRegisters.refl i s with }

/-- Completion leaves every register of the frame alone. -/
theorem SameRegisters.complete {i : Instr} {s t : State} (h : SameRegisters i s t) (code : Byte) :
    SameRegisters i s (t.complete code) := { h with }

theorem SameRegisters.takeError {i : Instr} {s t : State} (h : SameRegisters i s t) (e : Raised) :
    SameRegisters i s (t.takeError e) := { h with }

theorem exec_sameRegisters {i : Instr} {s t : State} (h : exec i s = .next t) : SameRegisters i s t := by
  obtain ⟨u, hu, hok | ⟨e, herr⟩⟩ := exec_ends s (sameRegisters_admits i)
  · obtain rfl : t = u.complete 0#8 := by simpa using h.symm.trans hok
    exact hu.complete _
  · obtain rfl : t = u.takeError e := by simpa using h.symm.trans herr
    exact hu.takeError e

/-- Settles O10, from the frame of every part of a command. -/
theorem registerFrame : Obligations.RegisterFrame := by
  intro i s t h
  have f := exec_sameRegisters h
  have rpos : readsSource i = false ∨ (∃ k, i = .tblIncs k) → t.rpos = s.rpos := fun hno =>
    f.rpos fun ⟨hreads, hincs⟩ => hno.elim (fun hfalse => by simp [hfalse] at hreads) fun ⟨k, hk⟩ => hincs k hk
  exact ⟨f.ctrl, f.cmd, f.arg0, f.arg1, f.arg2, f.srcAddr, f.srcLen, f.dstAddr, f.dstCap, f.params, f.events,
    f.hostData, f.freeCount, f.res0, f.res1, f.res2, rpos, f.wpos⟩

/-! ### The slot invariants (10_state.md R44) -/

theorem userSlotOk_iff (p : Params) (sl : Slot) :
    userSlotOk p sl = true ↔
      sl.preset = false ∧ sl.weights.length = sl.alpha.size ∧ (∀ v ∈ sl.weights, v ≠ 0#32) ∧
        sl.alpha ∈ [Alphabet.empty, .a256, .a257] ∧
        (sl.final = true → sl.alpha ≠ .empty ∧ sl.codes = build p.builder (sl.weights.map BitVec.toNat) ∧
          maxCodeLen sl.codes ≤ Config.maxCode) ∧
        (sl.final = false → sl.codes = []) := by
  cases hf : sl.final <;> simp [userSlotOk, hf, and_assoc]

/-- When no weight passes 2^32 - 1, raising makes none of them smaller. -/
theorem addWeights_ne_zero {w : List Word} {amount : Nat → Nat} (hw : ∀ v ∈ w, v ≠ 0#32)
    (hfits : firstOverflow w amount = none) : ∀ v ∈ addWeights w amount, v ≠ 0#32 := by
  intro v hv
  obtain ⟨⟨x, k⟩, hx, rfl⟩ := List.mem_map.1 hv
  have hxw : x ≠ 0#32 := hw x (List.fst_mem_of_mem_zipIdx hx)
  have hsum : x.toNat + amount k < 2 ^ 32 := by
    simpa using List.find?_eq_none.1 (Option.map_eq_none_iff.1 hfits) (x, k) hx
  have hvalue : (x + word (amount k)).toNat = x.toNat + amount k := by
    rw [word, BitVec.toNat_add, BitVec.toNat_ofNat, Nat.add_mod_mod, Nat.mod_eq_of_lt hsum]
  intro hzero
  have hx0 : x.toNat = 0 := by
    have := congrArg BitVec.toNat hzero
    simp only [hvalue, BitVec.toNat_ofNat] at this
    omega
  exact hxw (BitVec.eq_of_toNat_eq hx0)

/-- A user slot stays one under each change that a command can make of it. -/
theorem SlotChange.keeps_userSlotOk {p : Params} {sl sl' : Slot} (h : SlotChange p.builder sl sl')
    (hsl : userSlotOk p sl = true) : userSlotOk p sl' = true := by
  obtain ⟨hpreset, hlen, hpos, halpha, -, hcodes⟩ := (userSlotOk_iff p sl).1 hsl
  rw [userSlotOk_iff]
  cases h with
  | created wide user =>
    refine ⟨user, by simp [Slot.created], ?_, ?_, nofun, fun _ => rfl⟩
    · intro v hv
      rw [List.eq_of_mem_replicate hv]
      decide
    · cases wide <;> simp [Slot.created]
  | raised amount building fits =>
    have hfinal : sl.final = false := by
      simp only [Slot.building, Bool.and_eq_true, Bool.not_eq_true'] at building
      exact building.2
    exact ⟨hpreset, by simpa [Slot.raised, addWeights] using hlen, addWeights_ne_zero hpos fits, halpha,
      fun hf => absurd hf (by simp [Slot.raised, hfinal]), fun _ => hcodes hfinal⟩
  | finalized user created short =>
    exact ⟨user, hlen, hpos, halpha, fun _ => ⟨created, rfl, short⟩, nofun⟩

/-- The slot was no preset. -/
theorem SlotChange.user {b : Builder} {sl sl' : Slot} (h : SlotChange b sl sl') : sl.preset = false := by
  cases h with
  | created _ user => exact user
  | raised _ building _ =>
    simp only [Slot.building, Bool.and_eq_true, Bool.not_eq_true'] at building
    exact building.1.1
  | finalized user _ _ => exact user

theorem resetSlots_preset (p : Params) (k : Fin 16) (hk : k.val < 8) : (resetSlots p)[k].preset = true := by
  obtain ⟨k, hlt⟩ := k
  simp only at hk
  interval_cases k <;> rfl

theorem resetSlots_user (p : Params) (k : Fin 16) (hk : ¬ k.val < 8) : (resetSlots p)[k] = emptySlot := by
  obtain ⟨k, hlt⟩ := k
  simp only at hk
  interval_cases k <;> rfl

/-- A change of a slot keeps the slot file: the slot is a user slot, since no change is of a preset. -/
theorem slotsOk_set {s : State} {k : Fin 16} {sl : Slot} (h : slotsOk s) (hc : SlotChange s.params.builder (s.slot k) sl) :
    slotsOk { s with slots := s.slots.set k sl } := by
  have huser : ¬ k.val < 8 := fun hk => by
    have hpreset := h k
    rw [if_pos hk] at hpreset
    have hno := hc.user
    rw [hpreset, resetSlots_preset s.params k hk] at hno
    cases hno
  intro j
  by_cases hj : j = k
  · subst hj
    have hok := h j
    rw [if_neg huser] at hok ⊢
    rw [State.slot_set_same]
    exact hc.keeps_userSlotOk hok
  · rw [State.slot_set_other s k j sl hj]
    exact h j

/-! ### The part of the invariants that a running command works on -/

/-- From `s` to `t` the fields of the invariant that completion does not set are kept, or change within their invariant. -/
structure KeepsInner (s t : State) : Prop where
  ctrl : t.ctrl = s.ctrl
  errInfo : t.errInfo = s.errInfo
  params : t.params = s.params
  memory : Memory.wf s.mem = true → Memory.wf t.mem = true
  slotFile : slotsOk s → slotsOk t

theorem KeepsInner.refl (s : State) : KeepsInner s s := ⟨rfl, rfl, rfl, id, id⟩

theorem KeepsInner.trans {s t u : State} (h : KeepsInner s t) (h' : KeepsInner t u) : KeepsInner s u :=
  ⟨h'.ctrl.trans h.ctrl, h'.errInfo.trans h.errInfo, h'.params.trans h.params, h'.memory ∘ h.memory,
    h'.slotFile ∘ h.slotFile⟩

theorem keepsInner_admits (i : Instr) : Admits i KeepsInner where
  refl := KeepsInner.refl
  trans _ _ _ := KeepsInner.trans
  res0 _ _ _ := ⟨rfl, rfl, rfl, id, id⟩
  res1 _ _ _ := ⟨rfl, rfl, rfl, id, id⟩
  res2 _ _ _ := ⟨rfl, rfl, rfl, id, id⟩
  read _ _ _ := ⟨rfl, rfl, rfl, id, id⟩
  write _ _ _ _ hm := ⟨rfl, rfl, rfl, fun hwf => Memory.write_wf _ _ _ hwf (memOk_lt hm), id⟩
  start _ _ := ⟨rfl, rfl, rfl, id, id⟩
  engine _ _ _ := ⟨rfl, rfl, rfl, id, id⟩
  slot _ _ _ _ hc := ⟨rfl, rfl, rfl, id, fun hs => slotsOk_set hs hc⟩

/-! ### The flags -/

theorem statusWord_reserved (busy done lost : Bool) (err : Byte) :
    statusWord busy done lost err &&& 0xFFFF00F8#32 = 0#32 := by
  apply BitVec.eq_of_getLsbD_eq
  intro i hi
  rw [BitVec.getLsbD_and, statusWord_getLsbD, BitVec.getLsbD_zero]
  interval_cases i <;> simp

theorem and_one_reserved (v : Word) : v &&& 1#32 &&& 0xFFFFFFFE#32 = 0#32 := by
  rw [BitVec.and_assoc, show 1#32 &&& 0xFFFFFFFE#32 = 0#32 from rfl, BitVec.and_zero]

/-- An error's code is one of 1 to 9 (60_exceptions.md R321). -/
theorem Raised.code_range (e : Raised) : e.code ≠ 0#8 ∧ e.code ≤ 9#8 := by
  cases e <;> simp [Raised.code]

@[simp] theorem State.acknowledge_busy (s : State) (v : Word) : (s.acknowledge v).busy = s.busy := by
  conv_lhs => unfold State.busy
  simp

@[simp] theorem State.acknowledge_done (s : State) (v : Word) :
    (s.acknowledge v).done = (s.done && !v.getLsbD 1) := by
  conv_lhs => unfold State.done
  simp

@[simp] theorem State.acknowledge_err (s : State) (v : Word) : (s.acknowledge v).err = s.err := by
  conv_lhs => unfold State.err
  simp

/-! ### The invariants under each update (10_state.md R24, R25, R44) -/

section
variable {s t : State}

/-- The invariants speak of seven fields alone. -/
theorem State.Inv.of_same (h : s.Inv) (ctrl : t.ctrl = s.ctrl) (status : t.status = s.status)
    (errInfo : t.errInfo = s.errInfo) (slots : t.slots = s.slots) (eng : t.eng = s.eng) (mem : t.mem = s.mem)
    (params : t.params = s.params) : t.Inv := by
  cases s
  cases t
  subst_vars
  exact ⟨h.statusReserved, h.ctrlReserved, h.busyFlags, h.errRange, h.okInfo, h.engineIdle, h.memory, h.slotFile,
    h.parameters⟩

theorem State.Inv.withEvents (h : s.Inv) (l : List Event) : ({ s with events := l } : State).Inv :=
  h.of_same rfl rfl rfl rfl rfl rfl rfl

theorem State.Inv.accept (h : s.Inv) (c : Word) : (s.accept c).Inv where
  statusReserved := statusWord_reserved _ _ _ _
  ctrlReserved := h.ctrlReserved
  busyFlags _ := ⟨State.accept_done s c, State.accept_err s c, rfl⟩
  errRange := by simp
  okInfo _ := rfl
  engineIdle := h.engineIdle
  memory := h.memory
  slotFile := h.slotFile
  parameters := h.parameters

theorem State.Inv.setLost (h : s.Inv) : s.setLost.Inv where
  statusReserved := statusWord_reserved _ _ _ _
  ctrlReserved := h.ctrlReserved
  busyFlags hb := by simpa using h.busyFlags (by simpa using hb)
  errRange := by simpa using h.errRange
  okInfo he := h.okInfo (by simpa using he)
  engineIdle := h.engineIdle
  memory := h.memory
  slotFile := h.slotFile
  parameters := h.parameters

theorem State.Inv.acknowledge (h : s.Inv) (v : Word) : (s.acknowledge v).Inv where
  statusReserved := statusWord_reserved _ _ _ _
  ctrlReserved := h.ctrlReserved
  busyFlags hb := by
    obtain ⟨hdone, herr, hinfo⟩ := h.busyFlags (by simpa using hb)
    exact ⟨by simp [hdone], by simpa using herr, hinfo⟩
  errRange := by simpa using h.errRange
  okInfo he := h.okInfo (by simpa using he)
  engineIdle := h.engineIdle
  memory := h.memory
  slotFile := h.slotFile
  parameters := h.parameters

theorem State.Inv.writeCtrl (h : s.Inv) (v : Word) : (s.writeCtrl v).Inv :=
  { h with ctrlReserved := and_one_reserved v }

theorem State.Inv.store (h : s.Inv) (a : Word) (v : Byte) : ({ s with mem := s.mem.write a.toNat v } : State).Inv :=
  { h with memory := Memory.write_wf _ _ _ h.memory a.isLt }

theorem State.Inv.writeIdle (h : s.Inv) (offset : Nat) (v : Word) : (s.writeIdle offset v).Inv := by
  unfold State.writeIdle
  split
  · exact h.writeCtrl v
  · exact h.acknowledge v
  · exact h.accept v
  all_goals exact h.of_same rfl rfl rfl rfl rfl rfl rfl

theorem State.Inv.writeBusy (h : s.Inv) (offset : Nat) (v : Word) : (s.writeBusy offset v).Inv := by
  unfold State.writeBusy
  split_ifs
  · exact h.writeCtrl v
  · exact h.acknowledge v
  · exact h.setLost
  · exact h

theorem State.Inv.writeReg (h : s.Inv) (offset : Nat) (v : Word) : (s.writeReg offset v).Inv := by
  unfold State.writeReg
  split_ifs
  · exact h.writeBusy offset v
  · exact h.writeIdle offset v

theorem State.Inv.readReg (h : s.Inv) (offset : Nat) : (s.readReg offset).Inv := by
  unfold State.readReg
  split_ifs
  · exact h.of_same rfl rfl rfl rfl rfl rfl rfl
  · exact h.of_same rfl rfl rfl rfl rfl rfl rfl

theorem State.Inv.check (h : s.Inv) : s.check.Inv := h.of_same rfl rfl rfl rfl rfl rfl rfl

theorem State.Inv.resetInput (h : s.Inv) : s.resetInput.Inv where
  statusReserved := BitVec.zero_and
  ctrlReserved := BitVec.zero_and
  busyFlags hb := absurd hb (by decide : ¬ (0#32).getLsbD 0 = true)
  errRange := (by decide : (0#32).extractLsb' 8 8 ≤ 9#8)
  okInfo _ := rfl
  engineIdle := rfl
  memory := scramble_wf _ _ _ _ h.memory
  slotFile k := by
    by_cases hk : k.val < 8
    · rw [if_pos hk]
      rfl
    · rw [if_neg hk]
      change userSlotOk s.params (resetSlots s.params)[k] = true
      rw [resetSlots_user s.params k hk]
      rfl
  parameters := h.parameters

/-- Completion with success: the command's effects kept ERRINFO, which is 0 while a command runs. -/
theorem State.Inv.complete (h : s.Inv) (hb : s.busy = true) (hk : KeepsInner s t) : (t.complete 0#8).Inv where
  statusReserved := statusWord_reserved _ _ _ _
  ctrlReserved := by rw [State.complete_ctrl, hk.ctrl, h.ctrlReserved]
  busyFlags hb' := by simp at hb'
  errRange := by simp
  okInfo _ := hk.errInfo.trans (h.busyFlags hb).2.2
  engineIdle := rfl
  memory := hk.memory h.memory
  slotFile := hk.slotFile h.slotFile
  parameters := by rw [State.complete_params, hk.params, h.parameters]

/-- Completion with an error: its code is not 0, so ERRINFO may hold anything. -/
theorem State.Inv.takeError (h : s.Inv) (hk : KeepsInner s t) (e : Raised) : (t.takeError e).Inv where
  statusReserved := statusWord_reserved _ _ _ _
  ctrlReserved := by rw [State.takeError_ctrl, hk.ctrl, h.ctrlReserved]
  busyFlags hb := by simp at hb
  errRange := by simpa using e.code_range.2
  okInfo he := absurd (by simpa using he) e.code_range.1
  engineIdle := rfl
  memory := hk.memory h.memory
  slotFile := hk.slotFile h.slotFile
  parameters := by rw [State.takeError_params, hk.params, h.parameters]

/-! ### Every step (00_scope.md R18) -/

theorem State.Inv.exec_next (h : s.Inv) (hb : s.busy = true) {i : Instr} (he : exec i s = .next t) : t.Inv := by
  obtain ⟨u, hu, hok | ⟨e, herr⟩⟩ := exec_ends s (keepsInner_admits i)
  · obtain rfl : t = u.complete 0#8 := by simpa using he.symm.trans hok
    exact h.complete hb hu
  · obtain rfl : t = u.takeError e := by simpa using he.symm.trans herr
    exact h.takeError hu e

theorem State.Inv.engineTurn_next (h : s.Inv) (ht : engineTurn s = .next t) : t.Inv := by
  cases hb : s.busy with
  | false =>
    obtain rfl : s = t := by simpa [engineTurn_of_idle hb] using ht
    exact h
  | true =>
    rcases hd : decode s.cmd with g | i
    · obtain rfl : s.takeError _ = t := by simpa [engineTurn_of_illegal hb hd] using ht
      exact h.takeError (KeepsInner.refl s) _
    · exact h.exec_next hb ((engineTurn_of_decode hb hd).symm.trans ht)

theorem State.Inv.hostAction_next (h : s.Inv) {op : HostOp} (ht : hostAction op s = .next t) : t.Inv := by
  unfold hostAction at ht
  cases op with
  | regWrite offset data =>
    rcases hd : busWord data with - | v
    · simp [hd] at ht
    · simp only [hd] at ht
      split_ifs at ht
      cases ht
      exact h.writeReg offset v
  | regRead offset size =>
    dsimp only at ht
    split_ifs at ht
    cases ht
    exact h.readReg offset
  | store a v =>
    dsimp only at ht
    split_ifs at ht
    cases ht
    exact h.store a v
  | load a =>
    dsimp only at ht
    split_ifs at ht
    cases ht
    exact h.of_same rfl rfl rfl rfl rfl rfl rfl
  | check =>
    cases ht
    exact h.check

/-- Settles O23, by the next event: an engine turn, a host action or the reset input. -/
theorem stepKeepsInvariants : Obligations.StepKeepsInvariants := by
  intro s t h hstep
  rcases hev : s.events with - | ⟨_ | _ | _, rest⟩
  · exact h.engineTurn_next ((step_of_noEvent hev).symm.trans hstep)
  · exact (h.withEvents rest).hostAction_next ((step_of_host hev).symm.trans hstep)
  · exact (h.withEvents rest).engineTurn_next ((step_of_engine hev).symm.trans hstep)
  · obtain rfl : _ = t := by simpa [step_of_reset hev] using hstep
    exact (h.withEvents rest).resetInput

end

end Sys2Proof.Machine
end

section
/-! SUPPORT. Proofs: Stored bits, and the memory outside a command's destination -/

namespace Sys2Proof.Machine

/-! ### Stored bits (20_memory.md R72, 30_encoding.md R100) -/

/-- A byte with one stream bit replaced: that bit is the new one, the others are the old ones. -/
theorem byteBit_setByteBit (b : Byte) (p q : Nat) (x : Bool) :
    byteBit (setByteBit b p x) q = if q % 8 = p % 8 then x else byteBit b q := by
  have hmask : (1#8 <<< (7 - p % 8)).getLsbD (7 - q % 8) = decide (q % 8 = p % 8) := by
    rw [BitVec.getLsbD_shiftLeft, BitVec.getLsbD_one]
    by_cases h : q % 8 = p % 8
    · simp [h]
      omega
    · simp [h]
      omega
  have hlt : 7 - q % 8 < 8 := by omega
  cases x with
  | false =>
    rw [byteBit, setByteBit, if_neg (by simp), BitVec.getLsbD_and, BitVec.getLsbD_not, hmask]
    by_cases h : q % 8 = p % 8 <;> simp [byteBit, h, hlt]
  | true =>
    rw [byteBit, setByteBit, if_pos rfl, BitVec.getLsbD_or, hmask]
    by_cases h : q % 8 = p % 8 <;> simp [byteBit, h]

/-- One stored bit, seen through the stream. -/
theorem streamBit_write (base p q : Nat) (x : Bool) {m : Memory} (h : Memory.wf m = true) :
    streamBit (m.write (base + p / 8) (setByteBit (m.read (base + p / 8)) p x)) base q =
      if q = p then x else streamBit m base q := by
  rw [streamBit, Memory.read_write m _ _ _ h]
  by_cases hbyte : q / 8 = p / 8
  · rw [if_pos (by rw [hbyte]), byteBit_setByteBit, streamBit, hbyte]
    exact if_congr (by omega) rfl rfl
  · rw [if_neg (by omega), if_neg (by rintro rfl; exact hbyte rfl), streamBit]

theorem storeBits_wf (base p : Nat) (bs : Bits) {m : Memory} (h : Memory.wf m = true)
    (hfit : base + (p + bs.length + 7) / 8 ≤ 2 ^ 32) : Memory.wf (storeBits base p bs m) = true := by
  induction bs generalizing p m with
  | nil => exact h
  | cons b bs ih =>
    rw [List.length_cons] at hfit
    exact ih _ (Memory.write_wf _ _ _ h (by omega)) (by omega)

theorem storeBits_read_other (base p : Nat) (bs : Bits) (m : Memory) (a : Nat)
    (ha : a < base + p / 8 ∨ base + (p + bs.length + 7) / 8 ≤ a) : (storeBits base p bs m).read a = m.read a := by
  induction bs generalizing p m with
  | nil => rfl
  | cons b bs ih =>
    rw [List.length_cons] at ha
    exact (ih _ _ (by omega)).trans (Memory.read_write_other _ _ _ _ (by omega))

theorem streamBit_storeBits (base p : Nat) (bs : Bits) {m : Memory} (h : Memory.wf m = true)
    (hfit : base + (p + bs.length + 7) / 8 ≤ 2 ^ 32) (q : Nat) :
    streamBit (storeBits base p bs m) base q =
      if p ≤ q ∧ q < p + bs.length then bs.getD (q - p) false else streamBit m base q := by
  induction bs generalizing p m with
  | nil =>
    rw [List.length_nil, if_neg (by omega)]
    rfl
  | cons b bs ih =>
    rw [List.length_cons] at hfit ⊢
    rw [storeBits, ih _ (Memory.write_wf _ _ _ h (by omega)) (by omega), streamBit_write base p q b h]
    rcases Nat.lt_trichotomy q p with hlt | rfl | hgt
    · rw [if_neg (by omega), if_neg (by omega), if_neg (by omega)]
    · rw [if_neg (by omega), if_pos rfl, if_pos (by omega), Nat.sub_self, List.getD_cons_zero]
    · rw [if_neg (by omega : q ≠ p), show q - p = (q - (p + 1)) + 1 by omega, List.getD_cons_succ]
      exact if_congr (by omega) rfl rfl

/-- Settles O33, from the canonical form, the stream bits and the bytes elsewhere, each by induction over the bits. -/
theorem storedBits : Obligations.StoredBits := fun base p bs m h hfit =>
  ⟨storeBits_wf base p bs h hfit, streamBit_storeBits base p bs h hfit, storeBits_read_other base p bs m⟩

/-! ### The destination buffer alone is written (20_memory.md R62) -/

theorem inBuffer_iff (base len : Word) (a : Nat) :
    inBuffer base len a = true ↔ base.toNat ≤ a ∧ a < base.toNat + len.toNat := by
  simp [inBuffer]

/-- The destination buffer stays where it is, and no byte outside it changes if the command `i` writes it, no byte at all
if it does not. -/
structure SameOutside (i : Instr) (s t : State) : Prop where
  dstAddr : t.dstAddr = s.dstAddr
  dstCap : t.dstCap = s.dstCap
  outside : ∀ a, (writesDest i && inBuffer s.dstAddr s.dstCap a) = false → t.mem.read a = s.mem.read a

theorem SameOutside.of_mem {i : Instr} {s t : State} (dstAddr : t.dstAddr = s.dstAddr) (dstCap : t.dstCap = s.dstCap)
    (mem : t.mem = s.mem) : SameOutside i s t := ⟨dstAddr, dstCap, fun _ _ => by rw [mem]⟩

theorem SameOutside.trans {i : Instr} {s t u : State} (h : SameOutside i s t) (h' : SameOutside i t u) :
    SameOutside i s u where
  dstAddr := h'.dstAddr.trans h.dstAddr
  dstCap := h'.dstCap.trans h.dstCap
  outside a ha := (h'.outside a (by rwa [h.dstAddr, h.dstCap])).trans (h.outside a ha)

/-- The byte that holds the bit at WPOS lies in the destination while WPOS is before its end (40_bitstream.md R144). -/
theorem inBuffer_wpos {s : State} (h : s.wpos.toNat < 8 * s.dstCap.toNat) :
    inBuffer s.dstAddr s.dstCap (s.dstAddr.toNat + s.wpos.toNat / 8) = true := by
  rw [inBuffer_iff]
  omega

/-- Of a command's changes, the bits it writes alone are changes of the memory. -/
theorem sameOutside_admits (i : Instr) : Admits i (SameOutside i) where
  refl _ := .of_mem rfl rfl rfl
  trans _ _ _ := SameOutside.trans
  res0 _ _ _ := .of_mem rfl rfl rfl
  res1 _ _ _ := .of_mem rfl rfl rfl
  res2 _ _ _ := .of_mem rfl rfl rfl
  read _ _ _ := .of_mem rfl rfl rfl
  write hi s b hlt _ :=
    ⟨rfl, rfl, fun a ha => Memory.read_write_other _ _ _ _ fun heq => by simp [heq, hi, inBuffer_wpos hlt] at ha⟩
  start _ _ := .of_mem rfl rfl rfl
  engine _ _ _ := .of_mem rfl rfl rfl
  slot _ _ _ _ _ := .of_mem rfl rfl rfl

/-- Settles O12, from the frame of every part of a command. -/
theorem memoryFrame : Obligations.MemoryFrame := by
  intro i s t h a ha
  obtain ⟨u, hu, hok | ⟨e, herr⟩⟩ := exec_ends s (sameOutside_admits i)
  · obtain rfl : t = u.complete 0#8 := by simpa using h.symm.trans hok
    exact hu.outside a ha
  · obtain rfl : t = u.takeError e := by simpa using h.symm.trans herr
    exact hu.outside a ha

/-! ### The host's accesses to the memory (20_memory.md R73, R74) -/

/-- A byte is in use exactly while a legal command runs that reaches it. -/
theorem State.inUse_iff (s : State) (a : Nat) :
    s.inUse a = true ↔ s.busy = true ∧ ∃ i, decode s.cmd = .ok i ∧ reaches i s a = true := by
  cases hb : s.busy with
  | false => simp [State.inUse, State.running, hb]
  | true => cases hd : decode s.cmd <;> simp [State.inUse, State.running, hb, hd, Except.toOption, reaches]

/-- Settles O19, from what makes a byte be in use. -/
theorem hostRace : Obligations.HostRace := by
  intro s a v rest race
  have inUse : ({ s with events := rest } : State).inUse a.toNat = true ↔ race := State.inUse_iff s a.toNat
  refine ⟨fun hev => ⟨fun hr => ?_, fun hr => ?_⟩, fun hev => ⟨fun hr => ?_, fun hr => ?_⟩⟩
  · rw [step_of_host hev, hostAction, if_pos (inUse.2 hr)]
  · rw [step_of_host hev, hostAction, if_neg (mt inUse.1 hr)]
  · rw [step_of_host hev, hostAction, if_pos (inUse.2 hr)]
  · rw [step_of_host hev, hostAction, if_neg (mt inUse.1 hr)]

end Sys2Proof.Machine
end

section
/-! SUPPORT. Proofs: Runs over two memories that agree on the buffers -/

namespace Sys2Proof.Machine

/-! ### Memories alike, and runs that cannot tell them apart -/

/-- The state with another memory. -/
def State.withMem (s : State) (m : Memory) : State := { s with mem := m }

@[simp] theorem State.withMem_mem (s : State) (m : Memory) : (s.withMem m).mem = m := rfl
@[simp] theorem State.withMem_params (s : State) (m : Memory) : (s.withMem m).params = s.params := rfl

/-- Two canonical memories, that of `s` and `m`, hold the same bytes in the buffers that the command `i` reaches. -/
structure Alike (i : Instr) (s : State) (m : Memory) : Prop where
  wf : Memory.wf s.mem = true
  otherWf : Memory.wf m = true
  same : ∀ a, reaches i s a = true → m.read a = s.mem.read a

section
variable {α β : Type} {i : Instr} {P P' : State → Prop} {Q Q' : α → State → Prop}

/-- The ends of two runs: the same value, with `Q` in the first state reached, or the same error, and states that differ
in memories alike. -/
def SameEnd (i : Instr) (Q : α → State → Prop) : EStateM.Result Raised State α → EStateM.Result Raised State α → Prop
  | .ok a t, r => Q a t ∧ ∃ m, Alike i t m ∧ r = .ok a (t.withMem m)
  | .error e t, r => ∃ m, Alike i t m ∧ r = .error e (t.withMem m)

/-- From a state with `P` the run ends alike over memories alike, and where it ends with a value, `Q` holds: a triple for
the two runs at once. -/
def Confined (i : Instr) (P : State → Prop) (x : Eng α) (Q : α → State → Prop) : Prop :=
  ∀ s m, P s → Alike i s m → SameEnd i Q (x.run s) (x.run (s.withMem m))

/-- No predicate of the state. -/
def Anywhere (_ : State) : Prop := True

/-- `Confined` with one predicate of the state before and after. -/
abbrev Stays (i : Instr) (I : State → Prop) (x : Eng α) : Prop := Confined i I x fun _ => I

/-- `Stays` of a reader. -/
abbrev RdStays (i : Instr) (I : State → Prop) (x : Rd α) : Prop := Stays i I x.run

/-- A change of the state that leaves the memory and the buffers of `i` alone and does not look at the memory. -/
structure MemoryFree (i : Instr) (f : State → State) : Prop where
  blind : ∀ s m, f (s.withMem m) = (f s).withMem m
  mem : ∀ s, (f s).mem = s.mem
  buffers : ∀ s a, reaches i (f s) a = reaches i s a

theorem Alike.map {f : State → State} (hf : MemoryFree i f) {s : State} {m : Memory} (h : Alike i s m) :
    Alike i (f s) m where
  wf := by rw [hf.mem, h.wf]
  otherWf := h.otherWf
  same a ha := by rw [hf.mem, h.same a (by rwa [← hf.buffers])]

/-- Both runs end with the value `a` and keep their memories. -/
theorem SameEnd.of_ok {a : α} {t : State} {m : Memory} (hq : Q a t) (hm : Alike i t m) :
    SameEnd i Q (.ok a t) (.ok a (t.withMem m)) := ⟨hq, m, hm, rfl⟩

theorem SameEnd.of_error {e : Raised} {t : State} {m : Memory} (hm : Alike i t m) :
    SameEnd i Q (.error e t) (.error e (t.withMem m)) := ⟨m, hm, rfl⟩

/-! ### Sequencing -/

theorem Confined.mono {x : Eng α} (h : Confined i P x Q) (hp : ∀ s, P' s → P s) (hq : ∀ a s, Q a s → Q' a s) :
    Confined i P' x Q' := fun s m hs hm => by
  have hend := h s m (hp s hs) hm
  rcases hx : x.run s with ⟨a, t⟩ | ⟨e, t⟩ <;> rw [hx] at hend
  · exact ⟨hq a t hend.1, hend.2⟩
  · exact hend

/-- What the predicate says whatever the state may be used as a fact. -/
theorem Confined.assume {x : Eng α} {p : Prop} (h : p → Confined i P x Q) : Confined i (fun s => P s ∧ p) x Q :=
  fun s m hs hm => h hs.2 s m hs.1 hm

theorem Confined.of_exists {ι : Type} {x : Eng α} {P : ι → State → Prop} (h : ∀ j, Confined i (P j) x Q) :
    Confined i (fun s => ∃ j, P j s) x Q := fun s m ⟨j, hs⟩ hm => h j s m hs hm

theorem Confined.pure {a : α} (h : ∀ s, P s → Q a s) : Confined i P (pure a : Eng α) Q := fun s _ hs hm =>
  SameEnd.of_ok (h s hs) hm

theorem Confined.throw (e : Raised) : Confined i P (throw e : Eng α) Q := fun _ _ _ hm => SameEnd.of_error hm

theorem Confined.modify {Q : Unit → State → Prop} {f : State → State} (hf : MemoryFree i f) (h : ∀ s, P s → Q () (f s)) :
    Confined i P (modify f : Eng Unit) Q := fun s m hs hm => by
  rw [Eng.modify_run, Eng.modify_run, hf.blind]
  exact SameEnd.of_ok (h s hs) (hm.map hf)

theorem Confined.bind {x : Eng α} {f : α → Eng β} {S : β → State → Prop} (hx : Confined i P x Q)
    (hf : ∀ a, Confined i (Q a) (f a) S) : Confined i P (x >>= f) S := fun s m hs hm => by
  have hend := hx s m hs hm
  rcases h : x.run s with ⟨a, t⟩ | ⟨e, t⟩ <;> rw [h] at hend
  · obtain ⟨hq, m', hm', h'⟩ := hend
    rw [Eng.bind_ok h, Eng.bind_ok h']
    exact hf a t m' hq hm'
  · obtain ⟨m', hm', h'⟩ := hend
    rw [Eng.bind_error h, Eng.bind_error h']
    exact SameEnd.of_error hm'

/-- What would follow an error does not run. -/
theorem Confined.throw_bind (e : Raised) {f : α → Eng β} {S : β → State → Prop} :
    Confined i P ((MonadExcept.throw e : Eng α) >>= f) S :=
  Confined.bind (Q := fun _ _ => False) (Confined.throw e) fun _ _ _ h => h.elim

/-- The state read first, by a rest that does not look at its memory. -/
theorem Confined.get_bind {f : State → Eng β} {S : β → State → Prop} (blind : ∀ s m, f (s.withMem m) = f s)
    (hf : ∀ s, P s → Confined i (fun t => t = s) (f s) S) : Confined i P (get >>= f) S := fun s m hs hm => by
  rw [Eng.bind_ok (Eng.get_run s), Eng.bind_ok (Eng.get_run _), blind]
  exact hf s hs s m rfl hm

/-- The same where the rest needs the predicate alone. -/
theorem Confined.get_bind_keeping {f : State → Eng β} {S : β → State → Prop} (blind : ∀ s m, f (s.withMem m) = f s)
    (hf : ∀ s, P s → Confined i P (f s) S) : Confined i P (get >>= f) S :=
  Confined.get_bind blind fun s hs => (hf s hs).mono (fun _ ht => ht ▸ hs) fun _ _ h => h

theorem Confined.reporting {report : State → State} {x : Eng α} (hf : MemoryFree i report) (h : Confined i P x Q) :
    Confined i P (reporting report x) Q := fun s m hs hm => by
  have hend := h s m hs hm
  rcases hx : x.run s with ⟨a, t⟩ | ⟨e, t⟩ <;> rw [hx] at hend
  · obtain ⟨hq, m', hm', h'⟩ := hend
    rw [reporting_ok hx, reporting_ok h']
    exact SameEnd.of_ok hq hm'
  · obtain ⟨m', hm', h'⟩ := hend
    rw [reporting_error hx, reporting_error h', hf.blind]
    exact SameEnd.of_error (hm'.map hf)

section
variable {I : State → Prop}

theorem Stays.orTruncated {x : Rd α} (hx : RdStays i I x) : Stays i I (orTruncated x) := by
  refine Confined.bind hx fun a => ?_
  rcases a with - | a
  · exact Confined.get_bind_keeping (fun _ _ => rfl) fun _ _ => Confined.throw _
  · exact Confined.pure fun _ hs => hs

theorem RdStays.bind {x : Rd α} {f : α → Rd β} (hx : RdStays i I x) (hf : ∀ a, RdStays i I (f a)) :
    RdStays i I (x >>= f) := by
  unfold RdStays
  rw [OptionT.run_bind]
  refine Confined.bind hx fun a => ?_
  rcases a with - | a
  · exact Confined.pure fun _ hs => hs
  · exact hf a

theorem RdStays.pure (a : α) : RdStays i I (pure a : Rd α) := Confined.pure fun _ hs => hs

theorem RdStays.failure : RdStays i I (failure : Rd α) := Confined.pure fun _ hs => hs

theorem RdStays.lift {x : Eng α} (hx : Stays i I x) : RdStays i I (liftM x : Rd α) :=
  Confined.bind hx fun _ => Confined.pure fun _ hs => hs

theorem RdStays.get_bind {f : State → Rd β} (blind : ∀ s m, f (s.withMem m) = f s)
    (hf : ∀ s, RdStays i I (f s)) : RdStays i I (get >>= f) := fun s m hs hm => by
  rw [Rd.bind_some (Rd.get_run s), Rd.bind_some (Rd.get_run _), blind]
  exact hf s s m hs hm

end

/-! ### The accesses to the memory and the cursors -/

theorem require_confined {Q : Unit → State → Prop} {cond : State → Bool} (e : Raised)
    (blind : ∀ s m, cond (s.withMem m) = cond s) (h : ∀ s, P s → cond s = true → Q () s) :
    Confined i P (require cond e) Q := fun s m hs hm => by
  rw [require_run, require_run, blind]
  split_ifs with hc
  · exact SameEnd.of_ok (h s hs hc) hm
  · exact SameEnd.of_error hm

/-- A byte that the command reaches reads alike (20_memory.md R64). -/
theorem memRead_stays {I : State → Prop} {a : Nat} (h : ∀ s, I s → reaches i s a = true) : Stays i I (memRead a) :=
  fun s m hs hm => by
    rw [memRead_run, memRead_run, State.withMem_mem, State.withMem_params, hm.same a (h s hs)]
    split_ifs
    · exact SameEnd.of_ok hs hm
    · exact SameEnd.of_error hm

theorem reaches_source {s : State} {a : Nat} (hi : readsSource i = true) (h : inBuffer s.srcAddr s.srcLen a = true) :
    reaches i s a = true := by
  simp [reaches, hi, h]

theorem reaches_dest {s : State} {a : Nat} (hi : writesDest i = true) (h : inBuffer s.dstAddr s.dstCap a = true) :
    reaches i s a = true := by
  simp [reaches, hi, h]

/-- A bit left to read lies in the source (40_bitstream.md R140). -/
theorem inBuffer_rpos {s : State} (h : ¬ s.avail < 1) :
    inBuffer s.srcAddr s.srcLen (s.srcAddr.toNat + s.rpos.toNat / 8) = true := by
  rw [inBuffer_iff]
  rw [State.avail] at h
  omega

theorem readBit_run_withMem (s : State) (m : Memory) :
    readBit.run.run (s.withMem m) =
      if s.avail < 1 then .ok none (s.withMem m)
      else if memOk s.params (s.srcAddr.toNat + s.rpos.toNat / 8) then
        .ok (some (streamBit m s.srcAddr.toNat s.rpos.toNat)) (State.withMem { s with rpos := s.rpos + 1#32 } m)
      else .error (.bus (s.srcAddr.toNat + s.rpos.toNat / 8)) (s.withMem m) := readBit_run (s.withMem m)

theorem readBit_stays {I : State → Prop} (hi : readsSource i = true)
    (hI : ∀ s, I s → I { s with rpos := s.rpos + 1#32 }) : RdStays i I readBit := fun s m hs hm => by
  rw [readBit_run, readBit_run_withMem]
  split_ifs with havail
  · exact SameEnd.of_ok (Q := fun _ => I) hs hm
  · rw [streamBit, streamBit, hm.same _ (reaches_source hi (inBuffer_rpos havail))]
    exact SameEnd.of_ok (Q := fun _ => I) (hI s hs) ⟨hm.wf, hm.otherWf, hm.same⟩
  · exact SameEnd.of_error hm

/-- Memories alike are alike after one byte of the destination is written to both. -/
theorem Alike.write {s : State} {m : Memory} (hm : Alike i s m) {a : Nat} (ha : a < 2 ^ 32) (v : Byte) :
    Alike i { s with mem := s.mem.write a v } (m.write a v) where
  wf := Memory.write_wf _ _ _ hm.wf ha
  otherWf := Memory.write_wf _ _ _ hm.otherWf ha
  same b hb := by
    rw [Memory.read_write m a v b hm.otherWf, Memory.read_write s.mem a v b hm.wf]
    exact if_congr Iff.rfl rfl (hm.same b hb)

theorem writeBit_run_withMem (b : Bool) (s : State) (m : Memory) :
    (writeBit b).run (s.withMem m) =
      if 8 * s.dstCap.toNat ≤ s.wpos.toNat then .error (.outputFull s.wpos.toNat) (s.withMem m)
      else if memOk s.params (s.dstAddr.toNat + s.wpos.toNat / 8) then
        .ok () (State.withMem { s with wpos := s.wpos + 1#32 } (storeBits s.dstAddr.toNat s.wpos.toNat [b] m))
      else .error (.bus (s.dstAddr.toNat + s.wpos.toNat / 8)) (s.withMem m) := writeBit_run b (s.withMem m)

theorem writeBit_confined {Q : Unit → State → Prop} (hi : writesDest i = true) {b : Bool}
    (h : ∀ s mem, s.wpos.toNat < 8 * s.dstCap.toNat → P s → Q () { s with mem := mem, wpos := s.wpos + 1#32 }) :
    Confined i P (writeBit b) Q := fun s m hs hm => by
  rw [writeBit_run, writeBit_run_withMem]
  split_ifs with hfull hok
  · exact SameEnd.of_error hm
  · have hroom : s.wpos.toNat < 8 * s.dstCap.toNat := by omega
    rw [storeBits, storeBits, storeBits, storeBits, hm.same _ (reaches_dest hi (inBuffer_wpos hroom))]
    have hm' := hm.write (memOk_lt hok) (setByteBit (s.mem.read (s.dstAddr.toNat + s.wpos.toNat / 8)) s.wpos.toNat b)
    exact ⟨h s _ hroom hs, _, ⟨hm'.wf, hm'.otherWf, hm'.same⟩, rfl⟩
  · exact SameEnd.of_error hm

end

end Sys2Proof.Machine
end

section
/-! SUPPORT. Proofs: Every part of a command stays in the buffers -/

namespace Sys2Proof.Machine

section
variable {i : Instr} {I : State → Prop}

/-! ### Parts that look at no byte of the memory -/

theorem require_stays {cond : State → Bool} (e : Raised) (blind : ∀ s m, cond (s.withMem m) = cond s) :
    Stays i I (require cond e) := require_confined e blind fun _ hs _ => hs

theorem Confined.require_bind {α : Type} {P : State → Prop} {Q : α → State → Prop} {cond : State → Bool} {e : Raised}
    {f : Unit → Eng α} (blind : ∀ s m, cond (s.withMem m) = cond s) (hf : Confined i P (f ()) Q) :
    Confined i P (require cond e >>= f) Q := Confined.bind (require_stays e blind) fun _ => hf

theorem setRes0_confined {P : State → Prop} (n : Nat) : Confined i P (setRes0 n) fun _ => Anywhere :=
  Confined.modify ⟨fun _ _ => rfl, fun _ => rfl, fun _ _ => rfl⟩ fun _ _ => trivial

theorem setRes1_confined {P : State → Prop} (n : Nat) : Confined i P (setRes1 n) fun _ => Anywhere :=
  Confined.modify ⟨fun _ _ => rfl, fun _ => rfl, fun _ _ => rfl⟩ fun _ _ => trivial

theorem setRes2_confined {P : State → Prop} (n : Nat) : Confined i P (setRes2 n) fun _ => Anywhere :=
  Confined.modify ⟨fun _ _ => rfl, fun _ => rfl, fun _ _ => rfl⟩ fun _ _ => trivial

theorem setSlot_confined {P : State → Prop} (t : Fin 16) (sl : Slot) : Confined i P (setSlot t sl) fun _ => Anywhere :=
  Confined.modify ⟨fun _ _ => rfl, fun _ => rfl, fun _ _ => rfl⟩ fun _ _ => trivial

theorem modifyEng_confined {P Q : State → Prop} {f : Engine → Engine} (h : ∀ s, P s → Q { s with eng := f s.eng }) :
    Confined i P (modifyEng f) fun _ => Q :=
  Confined.modify ⟨fun _ _ => rfl, fun _ => rfl, fun _ _ => rfl⟩ h

theorem startHighLevel_confined {P Q : State → Prop}
    (h : ∀ s, P s → Q { s with rpos := 0#32, wpos := 0#32, eng := Engine.idle }) :
    Confined i P startHighLevel fun _ => Q :=
  Confined.modify ⟨fun _ _ => rfl, fun _ => rfl, fun _ _ => rfl⟩ h

theorem raiseWeights_confined {P : State → Prop} (t : Fin 16) (amount : Nat → Nat) :
    Confined i P (raiseWeights t amount) fun _ => Anywhere := by
  refine Confined.get_bind_keeping (fun _ _ => rfl) fun s _ => ?_
  dsimp only
  cases firstOverflow (s.slot t).weights amount with
  | none => exact setSlot_confined t _
  | some x => exact Confined.throw _

/-- The buffer checks, of which the second one stays known. -/
theorem checkBuffers_confined : Confined i I checkBuffers fun _ s => I s ∧ s.destOk = true :=
  Confined.bind (require_stays _ fun _ _ => rfl) fun _ =>
    Confined.bind (require_confined (Q := fun _ s => I s ∧ s.destOk = true) _ (fun _ _ => rfl) fun _ hs hd => ⟨hs, hd⟩)
      fun _ => require_stays _ fun _ _ => rfl

/-! ### Parts that read bits -/

section
variable (hr : RdStays i I readBit)
include hr

theorem readBitsLoop_stays (n v : Nat) : RdStays i I (readBitsLoop n v) := by
  induction n generalizing v with
  | zero => exact RdStays.pure v
  | succ n ih => exact RdStays.bind hr fun _ => ih _

theorem readBits_stays (n : Nat) : RdStays i I (readBits n) := by
  refine RdStays.get_bind (fun _ _ => rfl) fun s => ?_
  split_ifs
  · exact RdStays.bind RdStays.failure fun _ => readBitsLoop_stays hr n 0
  · exact readBitsLoop_stays hr n 0

theorem readByte_stays : RdStays i I readByte := RdStays.bind (readBits_stays hr 8) fun v => RdStays.pure (byte v)

theorem decodeLoop_stays (t : Fin 16) (fuel : Nat) (p : Bits) : RdStays i I (decodeLoop t fuel p) := by
  induction fuel generalizing p with
  | zero => exact RdStays.failure
  | succ fuel ih =>
    refine RdStays.bind hr fun b => RdStays.get_bind (fun _ _ => rfl) fun s => ?_
    cases findCode (p ++ [b]) (s.slot t).codes 0 with
    | none => exact ih _
    | some x => exact RdStays.pure x

theorem decodeNext_stays (t : Fin 16) : RdStays i I (decodeNext t) :=
  RdStays.get_bind (fun _ _ => rfl) fun _ => decodeLoop_stays hr t _ _

theorem vDecode_stays : RdStays i I vDecode :=
  RdStays.bind (decodeNext_stays hr _) fun _ => RdStays.bind (readBits_stays hr _) fun _ => RdStays.pure _

theorem uvDecodeLoop_stays (left x sh : Nat) : Stays i I (uvDecodeLoop left x sh) := by
  induction left generalizing x sh with
  | zero => exact Confined.pure fun _ hs => hs
  | succ n ih =>
    refine Confined.bind (readByte_stays hr) fun r => ?_
    cases r with
    | none => exact Confined.pure fun _ hs => hs
    | some b =>
      dsimp only
      split_ifs
      · exact Confined.pure fun _ hs => hs
      · exact Confined.pure fun _ hs => hs
      · exact ih _ _

theorem uvDecode_stays : Stays i I uvDecode := uvDecodeLoop_stays hr _ _ _

end

/-! ### Parts that write bits -/

section
variable {P : Nat → State → Prop} (hw : ∀ k b, Confined i (P k) (writeBit b) fun _ => P (k + 1))
include hw

/-- Bits written one by one, under a predicate that counts them. -/
theorem writeBitList_confined (k : Nat) (bs : Bits) :
    Confined i (P k) (writeBitList bs) fun _ => P (k + bs.length) := by
  induction bs generalizing k with
  | nil => exact Confined.pure fun _ hs => hs
  | cons b bs ih =>
    rw [List.length_cons, Nat.add_comm bs.length 1, ← Nat.add_assoc]
    exact Confined.bind (hw k b) fun _ => ih (k + 1)

theorem writeString_confined (k : Nat) (bs : Bits) : Confined i (P k) (writeString bs) fun _ => P (k + bs.length) := by
  refine Confined.get_bind_keeping (fun _ _ => rfl) fun s _ => ?_
  split_ifs
  · exact Confined.throw_bind _
  · exact writeBitList_confined hw k bs

theorem writeByte_confined (k : Nat) (v : Byte) : Confined i (P k) (writeByte v) fun _ => P (k + 8) :=
  writeString_confined hw k (natBits 8 v.toNat)

end

section
variable (hw : ∀ b, Stays i I (writeBit b))
include hw

theorem writeString_stays (bs : Bits) : Stays i I (writeString bs) :=
  writeString_confined (P := fun _ => I) (fun _ => hw) 0 bs

theorem writeBits_stays (v n : Nat) : Stays i I (writeBits v n) := writeString_stays hw _

theorem writeByte_stays (v : Byte) : Stays i I (writeByte v) := writeString_stays hw _

theorem writeCode_stays (t : Fin 16) (symbol : Nat) : Stays i I (writeCode t symbol) :=
  Confined.get_bind_keeping (fun _ _ => rfl) fun _ _ => writeString_stays hw _

theorem writeBytes_stays (bs : List Byte) : Stays i I (writeBytes bs) := by
  induction bs with
  | nil => exact Confined.pure fun _ hs => hs
  | cons b bs ih => exact Confined.bind (writeByte_stays hw b) fun _ => ih

theorem uvEncode_stays (v : Nat) : Stays i I (uvEncode v) := writeBytes_stays hw _

theorem vEncode_stays (v : Nat) : Stays i I (vEncode v) := by
  have fields : Stays i I (writeCode vintSlot (bucket v) >>= fun _ => writeBits v (vintWidth (bucket v))) :=
    Confined.bind (writeCode_stays hw _ _) fun _ => writeBits_stays hw _ _
  unfold vEncode
  split_ifs
  · exact Confined.throw_bind _
  · exact fields

theorem alignLoop_stays (fuel : Nat) : Stays i I (alignLoop fuel) := by
  induction fuel with
  | zero => exact Confined.pure fun _ hs => hs
  | succ fuel ih =>
    refine Confined.get_bind_keeping (fun _ _ => rfl) fun s _ => ?_
    split_ifs
    · exact Confined.bind (hw false) fun _ => ih
    · exact Confined.pure fun _ hs => hs

theorem align_stays : Stays i I align := alignLoop_stays hw 8

theorem close_stays : Stays i I close :=
  Confined.bind (align_stays hw) fun _ => Confined.get_bind_keeping (fun _ _ => rfl) fun _ _ => Confined.pure fun _ hs => hs

end

/-! ### Parts that read and write bits -/

section
variable (hr : RdStays i I readBit) (hw : ∀ b, Stays i I (writeBit b))
include hr hw

theorem encodeLoop_stays (t : Fin 16) (n : Nat) : RdStays i I (encodeLoop t n) := by
  induction n with
  | zero => exact RdStays.pure ()
  | succ n ih =>
    exact RdStays.bind (readByte_stays hr) fun _ => RdStays.bind (RdStays.lift (writeCode_stays hw _ _)) fun _ => ih

theorem blockDecodeLoop_stays (t : Fin 16) (fuel : Nat) : RdStays i I (blockDecodeLoop t fuel) := by
  induction fuel with
  | zero => exact RdStays.failure
  | succ n ih =>
    refine RdStays.bind (decodeNext_stays hr t) fun x => ?_
    split_ifs
    · exact RdStays.pure ()
    · exact RdStays.bind (RdStays.lift (writeByte_stays hw _)) fun _ => ih

theorem copyByte_stays : RdStays i I copyByte :=
  RdStays.bind (readByte_stays hr) fun _ => RdStays.bind (RdStays.lift (writeByte_stays hw _)) fun _ => RdStays.pure _

theorem copyBytes_stays (n : Nat) : RdStays i I (copyBytes n) := by
  induction n with
  | zero => exact RdStays.pure []
  | succ n ih => exact RdStays.bind (copyByte_stays hr hw) fun _ => RdStays.bind ih fun _ => RdStays.pure _

theorem xformPass_stays : RdStays i I xformPass :=
  RdStays.bind (readByte_stays hr) fun _ => RdStays.lift (writeByte_stays hw _)

theorem xformComp_stays (t : Fin 16) : RdStays i I (xformComp t) :=
  RdStays.bind (readByte_stays hr) fun _ => RdStays.lift (writeCode_stays hw _ _)

theorem xformDecomp_stays (t : Fin 16) : RdStays i I (xformDecomp t) := by
  refine RdStays.bind (decodeNext_stays hr t) fun x => ?_
  have write := RdStays.lift (writeByte_stays hw (byte x))
  split_ifs
  · exact RdStays.bind RdStays.failure fun _ => write
  · exact write

theorem extension_stays (fuel n : Nat) : RdStays i I (extension fuel n) := by
  induction fuel generalizing n with
  | zero => exact RdStays.failure
  | succ fuel ih =>
    refine RdStays.bind (copyByte_stays hr hw) fun e => ?_
    split_ifs
    · exact RdStays.pure _
    · exact ih _

theorem nibbleLength_stays (n : Nat) : RdStays i I (nibbleLength n) := by
  unfold nibbleLength
  split_ifs
  · exact RdStays.get_bind (fun _ _ => rfl) fun _ => extension_stays hr hw _ _
  · exact RdStays.pure n

theorem snappyPreamble_stays (fuel : Nat) : RdStays i I (snappyPreamble fuel) := by
  induction fuel with
  | zero => exact RdStays.failure
  | succ fuel ih =>
    refine RdStays.bind (copyByte_stays hr hw) fun b => ?_
    split_ifs
    · exact RdStays.pure ()
    · exact ih

theorem snappyLength_stays (sel : Nat) : RdStays i I (snappyLength sel) := by
  unfold snappyLength
  split_ifs
  · exact RdStays.get_bind (fun _ _ => rfl) fun _ => RdStays.pure _
  · exact RdStays.bind (copyBytes_stays hr hw _) fun _ => RdStays.get_bind (fun _ _ => rfl) fun _ => RdStays.pure _

/-! ### The format walks, for every transform of a literal -/

section
variable (he : ∀ f, Stays i I (modifyEng f)) {x : Rd Unit} (hx : RdStays i I x)
include he hx

omit hr hw in
theorem slotLoop_stays (fuel : Nat) : RdStays i I (slotLoop x fuel) := by
  induction fuel with
  | zero => exact RdStays.pure ()
  | succ fuel ih =>
    refine RdStays.get_bind (fun _ _ => rfl) fun s => ?_
    split_ifs
    · exact RdStays.pure ()
    · exact RdStays.bind hx fun _ => RdStays.bind (RdStays.lift (he _)) fun _ => ih

omit hr hw in
theorem literalSlots_stays (n : Nat) : RdStays i I (literalSlots x n) :=
  RdStays.bind (RdStays.lift (he _)) fun _ => slotLoop_stays he hx n

theorem lz4Sequence_stays : RdStays i I (lz4Sequence x) :=
  RdStays.bind (copyByte_stays hr hw) fun _ => RdStays.bind (nibbleLength_stays hr hw _) fun _ =>
    RdStays.bind (literalSlots_stays he hx _) fun _ => RdStays.bind (copyBytes_stays hr hw 2) fun _ =>
      RdStays.bind (nibbleLength_stays hr hw _) fun _ => RdStays.pure ()

theorem lz4Loop_stays (fuel : Nat) : RdStays i I (lz4Loop x fuel) := by
  induction fuel with
  | zero => exact RdStays.failure
  | succ fuel ih => exact RdStays.bind (lz4Sequence_stays hr hw he hx) fun _ => ih

theorem walkLz4_stays : RdStays i I (walkLz4 x) :=
  RdStays.get_bind (fun _ _ => rfl) fun _ => lz4Loop_stays hr hw he hx _

theorem snappyToken_stays : RdStays i I (snappyToken x) := by
  refine RdStays.bind (copyByte_stays hr hw) fun tag => ?_
  split_ifs
  · exact RdStays.bind (snappyLength_stays hr hw _) fun _ => literalSlots_stays he hx _
  · exact RdStays.bind (copyBytes_stays hr hw _) fun _ => RdStays.pure ()

theorem snappyLoop_stays (fuel : Nat) : RdStays i I (snappyLoop x fuel) := by
  induction fuel with
  | zero => exact RdStays.failure
  | succ fuel ih => exact RdStays.bind (snappyToken_stays hr hw he hx) fun _ => ih

theorem walkSnappy_stays : RdStays i I (walkSnappy x) :=
  RdStays.get_bind (fun _ _ => rfl) fun _ => RdStays.bind (snappyPreamble_stays hr hw _) fun _ =>
    RdStays.get_bind (fun _ _ => rfl) fun _ => snappyLoop_stays hr hw he hx _

end

end

/-! ### Parts that read bytes of the source (20_memory.md R64, 45_lz77.md R285) -/

section
variable (hi : readsSource i = true)
include hi

theorem countSource_stays (n a : Nat) (cnt : List Nat)
    (h : ∀ s, I s → s.srcAddr.toNat ≤ a ∧ a + n ≤ s.srcAddr.toNat + s.srcLen.toNat) :
    Stays i I (countSource n a cnt) := by
  induction n generalizing a cnt with
  | zero => exact Confined.pure fun _ hs => hs
  | succ n ih =>
    refine Confined.bind (memRead_stays fun s hs => ?_) fun _ => ih _ _ fun s hs => ?_
    · have := h s hs
      exact reaches_source hi ((inBuffer_iff _ _ _).2 (by omega))
    · have := h s hs
      omega

theorem srcByte_stays (p : Nat) (h : ∀ s, I s → p < s.srcLen.toNat) : Stays i I (srcByte p) := by
  refine Confined.get_bind (fun _ _ => rfl) fun s hs => ?_
  refine (memRead_stays (I := fun t => t = s) ?_).mono (fun _ ht => ht) fun _ _ ht => ht ▸ hs
  rintro _ rfl
  have := h _ hs
  exact reaches_source hi ((inBuffer_iff _ _ _).2 (by omega))

theorem keyAt_stays (p : Nat) (h : ∀ s, I s → p + 4 ≤ s.srcLen.toNat) : Stays i I (keyAt p) := by
  have byteAt (j : Nat) (hj : j < 4) : Stays i I (srcByte (p + j)) :=
    srcByte_stays hi _ fun s hs => by have := h s hs; omega
  exact Confined.bind (byteAt 0 (by omega)) fun _ => Confined.bind (byteAt 1 (by omega)) fun _ =>
    Confined.bind (byteAt 2 (by omega)) fun _ => Confined.bind (byteAt 3 (by omega)) fun _ =>
      Confined.pure fun _ hs => hs

end

end

end Sys2Proof.Machine
end

section
/-! SUPPORT. Proofs: The match finder and the copies stay in the buffers -/

namespace Sys2Proof.Machine

/-! ### The match finder (45_lz77.md R285 to R297) -/

/-- While the scan of a source of `n` bytes stands at `last`, the key map names no offset past it. -/
structure ScanAt (n last : Nat) (s : State) : Prop where
  srcLen : s.srcLen.toNat = n
  scanEnd : s.eng.scanEnd = last
  inSource : last ≤ n
  keys : ∀ k p, keyLookup k s.eng.keyMap = some p → p ≤ last

/-- The scan's predicate speaks of three fields alone. -/
theorem ScanAt.of_same {n last : Nat} {s t : State} (h : ScanAt n last s) (srcLen : t.srcLen = s.srcLen)
    (scanEnd : t.eng.scanEnd = s.eng.scanEnd) (keyMap : t.eng.keyMap = s.eng.keyMap) : ScanAt n last t where
  srcLen := by rw [srcLen, h.srcLen]
  scanEnd := by rw [scanEnd, h.scanEnd]
  inSource := h.inSource
  keys := by rw [keyMap]; exact h.keys

/-- The scan moved on, its key map unchanged. -/
theorem ScanAt.advance {n last last' : Nat} {s t : State} (h : ScanAt n last s) (srcLen : t.srcLen = s.srcLen)
    (scanEnd : t.eng.scanEnd = last') (keyMap : t.eng.keyMap = s.eng.keyMap) (hle : last ≤ last') (hn : last' ≤ n) :
    ScanAt n last' t where
  srcLen := by rw [srcLen, h.srcLen]
  scanEnd := scanEnd
  inSource := hn
  keys k p hp := (h.keys k p (keyMap ▸ hp)).trans hle

theorem ScanAt.start {s : State} (h : s.eng = Engine.idle) : ScanAt s.srcLen.toNat 0 s where
  srcLen := rfl
  scanEnd := by rw [h, Engine.idle]
  inSource := Nat.zero_le _
  keys k p hp := by simp [h, Engine.idle, keyLookup] at hp

/-- Storing an offset that the scan has passed. -/
theorem ScanAt.keyStore {n last : Nat} {s : State} (h : ScanAt n last s) (k : Word) {p : Nat} (hp : p ≤ last) :
    ScanAt n last { s with eng := { s.eng with keyMap := keyStore k p s.eng.keyMap } } where
  srcLen := h.srcLen
  scanEnd := h.scanEnd
  inSource := h.inSource
  keys j q hq := by
    by_cases hj : j = k
    · rw [hj, keyLookup_keyStore_same, Option.some.injEq] at hq
      omega
    · rw [keyLookup_keyStore_other hj] at hq
      exact h.keys j q hq

theorem cost_withMem (s : State) (m : Memory) (h : List Nat) (k : Nat) : cost (s.withMem m) h k = cost s h k := rfl

theorem selectFrom_withMem (s : State) (m : Memory) (h ks : List Nat) (best : Nat) :
    selectFrom (s.withMem m) h ks best = selectFrom s h ks best := by
  induction ks generalizing best with
  | nil => rfl
  | cons k ks ih => rw [selectFrom, selectFrom, ih, cost_withMem, cost_withMem]

theorem select_withMem (s : State) (m : Memory) (h : List Nat) : select (s.withMem m) h = select s h :=
  selectFrom_withMem s m h _ _

section
variable {n last : Nat}

theorem scanAt_writeBit (b : Bool) : Stays .lzComp (ScanAt n last) (writeBit b) :=
  writeBit_confined rfl fun _ _ _ hs => hs.of_same rfl rfl rfl

theorem scanAt_srcByte (p : Nat) (h : p < n) : Stays .lzComp (ScanAt n last) (srcByte p) :=
  srcByte_stays rfl p fun _ hs => by rw [hs.srcLen]; exact h

theorem scanAt_keyAt (p : Nat) (h : p + 4 ≤ n) : Stays .lzComp (ScanAt n last) (keyAt p) :=
  keyAt_stays rfl p fun _ hs => by rw [hs.srcLen]; exact h

theorem recordKey_stays : Stays .lzComp (ScanAt n last) recordKey := by
  refine Confined.get_bind_keeping (fun _ _ => rfl) fun s hs => ?_
  dsimp only
  rw [hs.scanEnd]
  have hn := hs.inSource
  split_ifs
  · exact Confined.bind (scanAt_keyAt _ (by omega)) fun k =>
      modifyEng_confined fun _ ht => ht.keyStore k (Nat.sub_le _ _)
  · exact Confined.pure fun _ ht => ht

/-- A key found was stored at or before the scan's cursor. -/
theorem lookupKey_confined :
    Confined .lzComp (ScanAt n last) (lookupKey n) fun found s => ScanAt n last s ∧ ∀ p, found = some p → p ≤ last := by
  refine Confined.get_bind_keeping (fun _ _ => rfl) fun s hs => ?_
  dsimp only
  rw [hs.scanEnd]
  split_ifs with h
  · exact Confined.bind (scanAt_keyAt _ h) fun k => Confined.get_bind_keeping (fun _ _ => rfl) fun s hs =>
      Confined.pure fun t ht => ⟨ht, hs.keys k⟩
  · exact Confined.pure fun _ ht => ⟨ht, nofun⟩

/-- The bytes compared lie before the end of the source, as the match starts at or before the cursor. -/
theorem commonFrom_confined {i : Nat} (hi : i ≤ last) (fuel cp : Nat) (h : last + cp + fuel ≤ n) :
    Confined .lzComp (ScanAt n last) (commonFrom i last fuel cp) fun r s => ScanAt n last s ∧ last + r ≤ n := by
  induction fuel generalizing cp with
  | zero => exact Confined.pure fun _ hs => ⟨hs, h⟩
  | succ fuel ih =>
    refine Confined.bind (scanAt_srcByte _ (by omega)) fun x => Confined.bind (scanAt_srcByte _ (by omega)) fun y => ?_
    split_ifs
    · exact ih _ (by omega)
    · exact Confined.pure fun _ hs => ⟨hs, by omega⟩

theorem histogramLoop_stays (r p : Nat) (h : ∀ j, p ≤ j → j < p + r → j < n) :
    Stays .lzComp (ScanAt n last) (histogramLoop r p) := by
  induction r generalizing p with
  | zero => exact Confined.pure fun _ hs => hs
  | succ r ih =>
    exact Confined.bind (scanAt_srcByte p (h p (by omega) (by omega))) fun _ =>
      Confined.bind (modifyEng_confined fun _ hs => hs.of_same rfl rfl rfl) fun _ =>
        ih (p + 1) fun j _ _ => h j (by omega) (by omega)

theorem literalLoop_stays (k r p : Nat) (h : ∀ j, p ≤ j → j < p + r → j < n) :
    Stays .lzComp (ScanAt n last) (literalLoop k r p) := by
  induction r generalizing p with
  | zero => exact Confined.pure fun _ hs => hs
  | succ r ih =>
    exact Confined.bind (scanAt_srcByte p (h p (by omega) (by omega))) fun _ =>
      Confined.bind (writeCode_stays scanAt_writeBit _ _) fun _ =>
        ih (p + 1) fun j _ _ => h j (by omega) (by omega)

theorem emitLiteral_stays (a b : Nat) (hb : b ≤ n) : Stays .lzComp (ScanAt n last) (emitLiteral a b) := by
  have hist : Stays .lzComp (ScanAt n last) (histogram a b) :=
    Confined.bind (modifyEng_confined fun _ hs => hs.of_same rfl rfl rfl) fun _ => histogramLoop_stays _ _ (by omega)
  refine Confined.bind (scanAt_writeBit _) fun _ => Confined.bind (vEncode_stays scanAt_writeBit _) fun _ =>
    Confined.bind hist fun _ => Confined.get_bind_keeping (fun s m => ?_) fun _ _ =>
      Confined.get_bind_keeping (fun _ _ => rfl) fun _ _ => ?_
  · simp only [select_withMem]
  · exact Confined.bind (writeCode_stays scanAt_writeBit _ _) fun _ =>
      Confined.bind (literalLoop_stays _ _ _ (by omega)) fun _ =>
        modifyEng_confined fun _ hs => hs.of_same rfl rfl rfl

theorem emitSubst_stays (i cp : Nat) : Stays .lzComp (ScanAt n last) (emitSubst i cp) :=
  Confined.bind (scanAt_writeBit _) fun _ => Confined.bind (scanAt_writeBit _) fun _ =>
    Confined.bind (vEncode_stays scanAt_writeBit i) fun _ => Confined.bind (vEncode_stays scanAt_writeBit cp) fun _ =>
      modifyEng_confined fun _ hs => hs.of_same rfl rfl rfl

/-- The scan stands somewhere in its source. -/
def Scanning (n : Nat) (s : State) : Prop := ∃ last, ScanAt n last s

theorem scanRound_confined (h : last < n) : Confined .lzComp (ScanAt n last) (scanRound n) fun _ => Scanning n := by
  refine Confined.bind recordKey_stays fun _ => Confined.bind lookupKey_confined fun found => ?_
  refine Confined.assume fun hfound => ?_
  cases found with
  | none =>
    exact modifyEng_confined fun s hs =>
      ⟨last + 1, hs.advance rfl (congrArg (· + 1) hs.scanEnd) rfl (Nat.le_succ last) h⟩
  | some p =>
    refine Confined.get_bind_keeping (fun _ _ => rfl) fun s hs => ?_
    dsimp only
    rw [hs.scanEnd]
    refine Confined.bind (commonFrom_confined (hfound p rfl) (n - last) 0 (by omega)) fun cp => ?_
    refine Confined.assume fun hcp => ?_
    exact Confined.get_bind_keeping (fun _ _ => rfl) fun _ _ => Confined.bind (emitLiteral_stays _ _ h.le) fun _ =>
      Confined.bind (emitSubst_stays _ _) fun _ => modifyEng_confined fun s hs =>
        ⟨last + cp, hs.advance rfl rfl rfl (Nat.le_add_right _ _) hcp⟩

theorem scanLoop_stays (fuel : Nat) : Stays .lzComp (Scanning n) (scanLoop n fuel) := by
  induction fuel with
  | zero => exact Confined.pure fun _ hs => hs
  | succ fuel ih =>
    refine Confined.of_exists fun last => Confined.get_bind_keeping (fun _ _ => rfl) fun s hs => ?_
    rw [hs.scanEnd]
    split_ifs with h
    · exact Confined.bind (scanRound_confined h) fun _ => ih
    · exact Confined.pure fun _ ht => ⟨last, ht⟩

theorem scan_confined : Confined .lzComp (ScanAt n 0) (scan n) fun _ => Scanning n := by
  refine Confined.bind ((scanLoop_stays n).mono (fun _ hs => ⟨0, hs⟩) fun _ _ h => h) fun _ =>
    Confined.of_exists fun last => Confined.get_bind_keeping (fun _ _ => rfl) fun s _ => ?_
  dsimp only
  have finish : Confined .lzComp (ScanAt n last) emitEnd fun _ => Scanning n :=
    (Confined.bind (scanAt_writeBit true) fun _ => scanAt_writeBit false).mono (fun _ hs => hs) fun _ _ hs => ⟨last, hs⟩
  split_ifs
  · exact Confined.bind (emitLiteral_stays _ _ le_rfl) fun _ => finish
  · exact finish

end

/-! ### The copies (45_lz77.md R300 to R302) -/

/-- LZ.DECOMP has reconstructed `out` bytes, written them and `k` bits more, all in a destination whose bits WPOS can
count. -/
structure OutAt (out k : Nat) (s : State) : Prop where
  outLen : s.eng.outLen = out
  written : 8 * out + k ≤ s.wpos.toNat
  room : s.wpos.toNat ≤ 8 * s.dstCap.toNat
  countable : 8 * s.dstCap.toNat < 2 ^ 32

/-- LZ.DECOMP has reconstructed no more bytes than it has written. -/
def Outputting (s : State) : Prop := ∃ out, OutAt out 0 s

theorem OutAt.start {s : State} (h : s.destOk = true) :
    OutAt 0 0 { s with rpos := 0#32, wpos := 0#32, eng := Engine.idle } where
  outLen := rfl
  written := Nat.zero_le _
  room := Nat.zero_le _
  countable := by
    simp only [State.destOk, bufferOk, Bool.and_eq_true, decide_eq_true_eq] at h
    obtain ⟨hcap, -⟩ := h
    rw [Config.maxBuf] at hcap
    dsimp only
    omega

section
variable {out k : Nat}

theorem outAt_writeBit (b : Bool) : Confined .lzDecomp (OutAt out k) (writeBit b) fun _ => OutAt out (k + 1) :=
  writeBit_confined rfl fun s mem hlt hs => by
    have hsucc : (s.wpos + 1#32).toNat = s.wpos.toNat + 1 := by
      have := hs.countable
      rw [BitVec.toNat_add_of_lt (by simpa using by omega)]
      rfl
    exact ⟨hs.outLen, by have := hs.written; dsimp only; omega, by dsimp only; omega, hs.countable⟩

theorem outByte_confined (v : Byte) : Confined .lzDecomp (OutAt out 0) (outByte v) fun _ => OutAt (out + 1) 0 :=
  Confined.bind (writeByte_confined (P := OutAt out) (fun _ => outAt_writeBit) 0 v) fun _ =>
    modifyEng_confined fun _ hs =>
      ⟨congrArg (· + 1) hs.outLen, by have := hs.written; dsimp only; omega, hs.room, hs.countable⟩

theorem copyLoop_confined (len p : Nat) (hp : p < out) :
    Confined .lzDecomp (OutAt out 0) (copyLoop len p) fun _ => Outputting := by
  induction len generalizing p out with
  | zero => exact Confined.pure fun _ hs => ⟨out, hs⟩
  | succ len ih =>
    refine Confined.get_bind (fun _ _ => rfl) fun s hs => ?_
    refine Confined.bind (memRead_stays ?_) fun v => ?_
    · rintro _ rfl
      have := hs.written
      have := hs.room
      exact reaches_dest rfl ((inBuffer_iff _ _ _).2 (by omega))
    · exact (Confined.bind (outByte_confined v) fun _ => ih (p + 1) (by omega)).mono (fun _ ht => ht ▸ hs) fun _ _ h => h

end

theorem outByte_stays (v : Byte) : Stays .lzDecomp Outputting (outByte v) :=
  Confined.of_exists fun out => (outByte_confined v).mono (fun _ hs => hs) fun _ _ hs => ⟨out + 1, hs⟩

theorem copyRef_stays (off len : Nat) : Stays .lzDecomp Outputting (copyRef off len) := by
  refine Confined.of_exists fun out => Confined.get_bind_keeping (fun _ _ => rfl) fun s hs => ?_
  rw [hs.outLen]
  split_ifs
  · exact Confined.throw_bind _
  · exact copyLoop_confined len off (by omega)

theorem outputting_readBit : RdStays .lzDecomp Outputting readBit :=
  readBit_stays rfl fun _ ⟨out, hs⟩ => ⟨out, hs.outLen, hs.written, hs.room, hs.countable⟩

theorem decodeRun_stays (k r : Nat) : RdStays .lzDecomp Outputting (decodeRun k r) := by
  induction r with
  | zero => exact RdStays.pure ()
  | succ r ih =>
    exact RdStays.bind (decodeNext_stays outputting_readBit _) fun _ =>
      RdStays.bind (RdStays.lift (outByte_stays _)) fun _ => ih

theorem token_stays : RdStays .lzDecomp Outputting token := by
  have field := vDecode_stays outputting_readBit
  refine RdStays.bind outputting_readBit fun c => ?_
  split_ifs
  · refine RdStays.bind outputting_readBit fun c2 => ?_
    split_ifs
    · exact RdStays.bind field fun _ => RdStays.bind field fun _ =>
        RdStays.bind (RdStays.lift (copyRef_stays _ _)) fun _ => RdStays.pure false
    · exact RdStays.pure true
  · exact RdStays.bind field fun _ => RdStays.bind (decodeNext_stays outputting_readBit _) fun _ =>
      RdStays.bind (decodeRun_stays _ _) fun _ => RdStays.pure false

theorem tokenLoop_stays (fuel : Nat) : RdStays .lzDecomp Outputting (tokenLoop fuel) := by
  induction fuel with
  | zero => exact RdStays.failure
  | succ fuel ih =>
    refine RdStays.bind token_stays fun last => ?_
    split_ifs
    · exact RdStays.pure ()
    · exact ih

end Sys2Proof.Machine
end

section
/-! SUPPORT. Proofs: No command touches a byte outside its buffers -/

namespace Sys2Proof.Machine

/-! ### The ends of a command -/

/-- The outcomes of a command over two memories: next states that differ in memories alike. -/
def SameAnswer (i : Instr) (o o' : Host.Outcome State Fault Refusal) : Prop :=
  ∃ t m, o = .next t ∧ o' = .next (t.withMem m) ∧ Alike i t m

/-- Completion and a taken error keep the memory and the buffers of the state that the run reached. -/
theorem Confined.answer {i : Instr} {P : State → Prop} {Q : Unit → State → Prop} {x : Eng Unit} {s : State} {m : Memory}
    (h : Confined i P x Q) (hs : P s) (hm : Alike i s m) : SameAnswer i (runCommand x s) (runCommand x (s.withMem m)) := by
  have hend := h s m hs hm
  rcases hx : x.run s with ⟨a, t⟩ | ⟨e, t⟩ <;> rw [hx] at hend
  · obtain ⟨-, m', hm', hx'⟩ := hend
    exact ⟨_, m', runCommand_ok hx, runCommand_ok hx', ⟨hm'.wf, hm'.otherWf, hm'.same⟩⟩
  · obtain ⟨m', hm', hx'⟩ := hend
    exact ⟨_, m', runCommand_error hx, runCommand_error hx', ⟨hm'.wf, hm'.otherWf, hm'.same⟩⟩

theorem Alike.answer {i : Instr} {Q : Unit → State → Prop} {x : Eng Unit} {s : State} {m : Memory} (hm : Alike i s m)
    (h : Confined i Anywhere x Q) : SameAnswer i (runCommand x s) (runCommand x (s.withMem m)) := h.answer trivial hm

section
variable {i : Instr}

theorem anywhere_readBit (hi : readsSource i = true) : RdStays i Anywhere readBit := readBit_stays hi fun _ h => h

theorem anywhere_writeBit (hi : writesDest i = true) (b : Bool) : Stays i Anywhere (writeBit b) :=
  writeBit_confined hi fun _ _ _ _ => trivial

theorem anywhere_modifyEng (f : Engine → Engine) : Stays i Anywhere (modifyEng f) := modifyEng_confined fun _ h => h

theorem anywhere_close (hi : writesDest i = true) : Stays i Anywhere close := close_stays (anywhere_writeBit hi)

/-- The prologue that every high-level command begins with, where the rest needs no predicate. -/
theorem anywhere_checkBuffers : Stays i Anywhere checkBuffers :=
  checkBuffers_confined.mono (fun _ h => h) fun _ _ _ => trivial

theorem anywhere_startHighLevel : Stays i Anywhere startHighLevel := startHighLevel_confined fun _ h => h

/-! ### The high-level commands, family by family -/

section
variable (hi : highLevel i = true)
include hi

theorem anywhere_walkLz4 {x : Rd Unit} (hx : RdStays i Anywhere x) : RdStays i Anywhere (walkLz4 x) :=
  walkLz4_stays (anywhere_readBit (highLevel_uses hi).2.1) (anywhere_writeBit (highLevel_uses hi).1) anywhere_modifyEng hx

theorem anywhere_walkSnappy {x : Rd Unit} (hx : RdStays i Anywhere x) : RdStays i Anywhere (walkSnappy x) :=
  walkSnappy_stays (anywhere_readBit (highLevel_uses hi).2.1) (anywhere_writeBit (highLevel_uses hi).1)
    anywhere_modifyEng hx

theorem anywhere_xformPass : RdStays i Anywhere xformPass :=
  xformPass_stays (anywhere_readBit (highLevel_uses hi).2.1) (anywhere_writeBit (highLevel_uses hi).1)

theorem anywhere_xformComp (t : Fin 16) : RdStays i Anywhere (xformComp t) :=
  xformComp_stays (anywhere_readBit (highLevel_uses hi).2.1) (anywhere_writeBit (highLevel_uses hi).1) t

theorem anywhere_xformDecomp (t : Fin 16) : RdStays i Anywhere (xformDecomp t) :=
  xformDecomp_stays (anywhere_readBit (highLevel_uses hi).2.1) (anywhere_writeBit (highLevel_uses hi).1) t

theorem walkBody_stays {walk : Rd Unit} (hwalk : RdStays i Anywhere walk) : Stays i Anywhere (walkBody walk) :=
  Confined.reporting ⟨fun _ _ => rfl, fun _ => rfl, fun _ _ => rfl⟩ (Confined.bind hwalk fun _ =>
    Confined.bind (anywhere_close (highLevel_uses hi).1) fun _ => Confined.bind (setRes0_confined _) fun _ =>
      Confined.get_bind_keeping (fun _ _ => rfl) fun _ _ => Confined.bind (setRes1_confined _) fun _ =>
        Confined.get_bind_keeping (fun _ _ => rfl) fun _ _ => setRes2_confined _)

theorem inspectCommand_stays {walk : Rd Unit} (hwalk : RdStays i Anywhere walk) :
    Stays i Anywhere (inspectCommand walk) :=
  Confined.bind anywhere_checkBuffers fun _ => Confined.bind anywhere_startHighLevel fun _ => walkBody_stays hi hwalk

theorem tableWalkCommand_stays (t : Fin 16) {walk : Rd Unit} (hwalk : RdStays i Anywhere walk) :
    Stays i Anywhere (tableWalkCommand t walk) :=
  Confined.bind anywhere_checkBuffers fun _ => Confined.require_bind (fun _ _ => rfl) <|
    Confined.require_bind (fun _ _ => rfl) <| Confined.bind anywhere_startHighLevel fun _ =>
      walkBody_stays hi hwalk

omit hi in
theorem blockPrologue_stays (t : Fin 16) : Stays i Anywhere (blockPrologue t) :=
  Confined.bind anywhere_checkBuffers fun _ => Confined.require_bind (fun _ _ => rfl) <|
    Confined.require_bind (fun _ _ => rfl) <| anywhere_startHighLevel

end

end

/-! ### Every command answers alike (20_memory.md R63) -/

section
variable {s : State} {m : Memory}

theorem execTblIncr_sameAnswer (t : Fin 16) (hm : Alike (.tblIncr t) s m) :
    SameAnswer (.tblIncr t) (execTblIncr t s) (execTblIncr t (s.withMem m)) :=
  hm.answer (Confined.require_bind (fun _ _ => rfl) <|
    Confined.require_bind (fun _ _ => rfl) <| Confined.require_bind (fun _ _ => rfl) <|
      raiseWeights_confined t _)

theorem execTblIncs_sameAnswer (t : Fin 16) (hm : Alike (.tblIncs t) s m) :
    SameAnswer (.tblIncs t) (execTblIncs t s) (execTblIncs t (s.withMem m)) := by
  have count := countSource_stays (i := .tblIncs t) (I := fun u => u = s) rfl s.srcLen.toNat s.srcAddr.toNat
    (List.replicate 256 0) fun _ hu => by rw [hu]; exact ⟨le_rfl, le_rfl⟩
  exact Confined.answer (P := fun u => u = s) (Confined.require_bind (fun _ _ => rfl) <|
    Confined.require_bind (fun _ _ => rfl) <| Confined.bind count fun _ => raiseWeights_confined t _) rfl hm

theorem execTblFin_sameAnswer (t : Fin 16) (hm : Alike (.tblFin t) s m) :
    SameAnswer (.tblFin t) (execTblFin t s) (execTblFin t (s.withMem m)) := by
  refine hm.answer (Q := fun _ => Anywhere)
    (Confined.get_bind_keeping (fun _ _ => rfl) fun u _ => ?_)
  dsimp only
  split_ifs
  · exact Confined.pure fun _ h => h
  · exact Confined.require_bind (fun _ _ => rfl) <| Confined.throw_bind _
  · exact Confined.require_bind (fun _ _ => rfl) <| setSlot_confined t _

theorem execUvDec_sameAnswer (hm : Alike .uvDec s m) : SameAnswer .uvDec (execUvDec s) (execUvDec (s.withMem m)) := by
  refine hm.answer (Q := fun _ => Anywhere) (Confined.require_bind (fun _ _ => rfl) <|
    Confined.get_bind_keeping (fun _ _ => rfl) fun _ _ =>
      Confined.bind (uvDecode_stays (anywhere_readBit rfl)) fun r => ?_)
  cases r with
  | value v =>
    exact Confined.bind (setRes0_confined _) fun _ => Confined.bind (setRes1_confined _) fun _ =>
      Confined.get_bind_keeping (fun _ _ => rfl) fun _ _ => setRes2_confined _
  | fail => exact Confined.get_bind_keeping (fun _ _ => rfl) fun _ _ => Confined.throw _
  | overflow => exact Confined.get_bind_keeping (fun _ _ => rfl) fun _ _ => Confined.throw _

theorem execBlkEnc_sameAnswer (t : Fin 16) (hm : Alike (.blkEnc t) s m) :
    SameAnswer (.blkEnc t) (execBlkEnc t s) (execBlkEnc t (s.withMem m)) := by
  have hw := anywhere_writeBit (i := .blkEnc t) rfl
  exact hm.answer (Confined.bind (blockPrologue_stays t) fun _ =>
    Confined.reporting ⟨fun _ _ => rfl, fun _ => rfl, fun _ _ => rfl⟩
      (Confined.get_bind_keeping (fun _ _ => rfl) fun _ _ =>
        Confined.bind (encodeLoop_stays (anywhere_readBit rfl) hw t _) fun _ =>
          Confined.bind (writeCode_stays hw t _) fun _ => Confined.bind (anywhere_close rfl) fun _ =>
            setRes0_confined _))

theorem execBlkDec_sameAnswer (t : Fin 16) (hm : Alike (.blkDec t) s m) :
    SameAnswer (.blkDec t) (execBlkDec t s) (execBlkDec t (s.withMem m)) :=
  hm.answer (Confined.bind (blockPrologue_stays t) fun _ =>
    Confined.reporting ⟨fun _ _ => rfl, fun _ => rfl, fun _ _ => rfl⟩
      (Confined.get_bind_keeping (fun _ _ => rfl) fun _ _ =>
        Confined.bind (blockDecodeLoop_stays (anywhere_readBit rfl) (anywhere_writeBit rfl) t _) fun _ =>
          Confined.bind (anywhere_close rfl) fun _ => setRes0_confined _))

/-- The scan starts with an empty key map at offset 0 of the source (45_lz77.md R298). -/
theorem execLzComp_sameAnswer (hm : Alike .lzComp s m) :
    SameAnswer .lzComp (execLzComp s) (execLzComp (s.withMem m)) := by
  refine hm.answer (Q := fun _ => Anywhere) (Confined.bind anywhere_checkBuffers fun _ =>
    Confined.bind (startHighLevel_confined (Q := fun u => u.eng = Engine.idle) fun _ _ => rfl) fun _ =>
      Confined.reporting ⟨fun _ _ => rfl, fun _ => rfl, fun _ _ => rfl⟩
        (Confined.get_bind (fun _ _ => rfl) fun u hu => ?_))
  have start : ∀ t, t = u → ScanAt u.srcLen.toNat 0 t := fun t ht => by rw [ht]; exact ScanAt.start hu
  refine Confined.mono (Q := fun _ => Anywhere) ?_ start fun _ _ h => h
  have finish : Confined .lzComp (Scanning u.srcLen.toNat) close fun _ => Anywhere :=
    (anywhere_close rfl).mono (fun _ _ => trivial) fun _ _ h => h
  exact Confined.bind (uvEncode_stays scanAt_writeBit _) fun _ => Confined.bind scan_confined fun _ =>
    Confined.bind finish fun _ => Confined.bind (setRes0_confined _) fun _ =>
      Confined.get_bind_keeping (fun _ _ => rfl) fun _ _ => Confined.bind (setRes1_confined _) fun _ =>
        Confined.get_bind_keeping (fun _ _ => rfl) fun _ _ => setRes2_confined _

/-- The copies start with nothing reconstructed, in a destination that passed its check (45_lz77.md R305). -/
theorem execLzDecomp_sameAnswer (hm : Alike .lzDecomp s m) :
    SameAnswer .lzDecomp (execLzDecomp s) (execLzDecomp (s.withMem m)) := by
  have finish : Confined .lzDecomp Outputting (close >>= fun n => setRes0 n) fun _ => Anywhere :=
    Confined.mono (P := Anywhere) (Confined.bind (anywhere_close rfl) fun _ => setRes0_confined _) (fun _ _ => trivial)
      fun _ _ h => h
  refine hm.answer (Q := fun _ => Anywhere) (Confined.bind checkBuffers_confined fun _ =>
    Confined.bind (startHighLevel_confined (Q := Outputting) fun _ hu => ⟨0, OutAt.start hu.2⟩) fun _ =>
      Confined.reporting ⟨fun _ _ => rfl, fun _ => rfl, fun _ _ => rfl⟩
        (Confined.bind (uvDecode_stays outputting_readBit) fun r => ?_))
  cases r with
  | value v =>
    exact Confined.get_bind_keeping (fun _ _ => rfl) fun _ _ => Confined.bind (tokenLoop_stays _) fun _ => finish
  | fail => exact finish
  | overflow => exact finish

/-- Every command answers alike over memories alike. -/
theorem exec_sameAnswer {i : Instr} (hm : Alike i s m) : SameAnswer i (exec i s) (exec i (s.withMem m)) := by
  cases i with
  | nop => exact hm.answer (x := pure ()) (Q := fun _ => Anywhere) (Confined.pure fun _ h => h)
  | bsRbit =>
    exact hm.answer (Confined.require_bind (fun _ _ => rfl) <|
      Confined.bind (Stays.orTruncated (anywhere_readBit rfl)) fun _ => setRes0_confined _)
  | bsRbyte =>
    exact hm.answer (Confined.require_bind (fun _ _ => rfl) <|
      Confined.bind (Stays.orTruncated (readByte_stays (anywhere_readBit rfl))) fun _ => setRes0_confined _)
  | bsRbits n =>
    exact hm.answer (Confined.require_bind (fun _ _ => rfl) <|
      Confined.require_bind (fun _ _ => rfl) <|
        Confined.bind (Stays.orTruncated (readBits_stays (anywhere_readBit rfl) n)) fun _ => setRes0_confined _)
  | bsWbit =>
    exact hm.answer (Confined.require_bind (fun _ _ => rfl) <|
      anywhere_writeBit rfl _)
  | bsWbyte =>
    exact hm.answer (Confined.require_bind (fun _ _ => rfl) <|
      writeByte_stays (anywhere_writeBit rfl) _)
  | bsWbits n =>
    exact hm.answer (Confined.require_bind (fun _ _ => rfl) <|
      Confined.require_bind (fun _ _ => rfl) <| writeBits_stays (anywhere_writeBit rfl) _ n)
  | bsAlign =>
    exact hm.answer (Confined.require_bind (fun _ _ => rfl) <|
      align_stays (anywhere_writeBit rfl))
  | bsClose =>
    exact hm.answer (Confined.require_bind (fun _ _ => rfl) <|
      Confined.bind (anywhere_close rfl) fun _ => setRes0_confined _)
  | tblCreate t wide =>
    exact hm.answer (Confined.require_bind (fun _ _ => rfl) <|
      Confined.get_bind_keeping (fun _ _ => rfl) fun _ _ => setSlot_confined t _)
  | tblIncr t => exact execTblIncr_sameAnswer t hm
  | tblIncs t => exact execTblIncs_sameAnswer t hm
  | tblFin t => exact execTblFin_sameAnswer t hm
  | tblCode t =>
    exact hm.answer (Confined.require_bind (fun _ _ => rfl) <|
      Confined.require_bind (fun _ _ => rfl) <| Confined.get_bind_keeping (fun _ _ => rfl) fun _ _ =>
        Confined.bind (setRes0_confined _) fun _ => Confined.bind (setRes1_confined _) fun _ => setRes2_confined _)
  | tblDec t =>
    exact hm.answer (Confined.require_bind (fun _ _ => rfl) <|
      Confined.require_bind (fun _ _ => rfl) <| Confined.get_bind_keeping (fun _ _ => rfl) fun _ _ =>
        Confined.bind (Stays.orTruncated (decodeNext_stays (anywhere_readBit rfl) t)) fun _ =>
          Confined.bind (setRes0_confined _) fun _ => Confined.get_bind_keeping (fun _ _ => rfl) fun _ _ =>
            setRes2_confined _)
  | tblInfo t =>
    exact hm.answer (Confined.get_bind_keeping (fun _ _ => rfl) fun _ _ =>
      Confined.bind (setRes0_confined _) fun _ => Confined.bind (setRes1_confined _) fun _ => setRes2_confined _)
  | tblWgt t =>
    exact hm.answer (Confined.require_bind (fun _ _ => rfl) <|
      Confined.require_bind (fun _ _ => rfl) <| Confined.get_bind_keeping (fun _ _ => rfl) fun _ _ =>
        setRes0_confined _)
  | viEnc =>
    exact hm.answer (Confined.require_bind (fun _ _ => rfl) <|
      Confined.bind (vEncode_stays (anywhere_writeBit rfl) _) fun _ => Confined.bind (setRes0_confined _) fun _ =>
        Confined.get_bind_keeping (fun _ _ => rfl) fun _ _ => setRes2_confined _)
  | viDec =>
    exact hm.answer (Confined.require_bind (fun _ _ => rfl) <|
      Confined.bind (Stays.orTruncated (vDecode_stays (anywhere_readBit rfl))) fun _ =>
        Confined.bind (setRes0_confined _) fun _ => Confined.bind (setRes1_confined _) fun _ => setRes2_confined _)
  | uvEnc =>
    exact hm.answer (Confined.require_bind (fun _ _ => rfl) <|
      Confined.get_bind_keeping (fun _ _ => rfl) fun _ _ =>
        Confined.bind (uvEncode_stays (anywhere_writeBit rfl) _) fun _ =>
          Confined.get_bind_keeping (fun _ _ => rfl) fun _ _ => setRes2_confined _)
  | uvDec => exact execUvDec_sameAnswer hm
  | wkInspectLz4 =>
    exact hm.answer (inspectCommand_stays rfl (anywhere_walkLz4 rfl (anywhere_xformPass rfl)))
  | wkInspectSnappy =>
    exact hm.answer (inspectCommand_stays rfl (anywhere_walkSnappy rfl (anywhere_xformPass rfl)))
  | wkCompLz4 t =>
    exact hm.answer (tableWalkCommand_stays rfl t (anywhere_walkLz4 rfl (anywhere_xformComp rfl t)))
  | wkCompSnappy t =>
    exact hm.answer (tableWalkCommand_stays rfl t (anywhere_walkSnappy rfl (anywhere_xformComp rfl t)))
  | wkDecompLz4 t =>
    exact hm.answer (tableWalkCommand_stays rfl t (anywhere_walkLz4 rfl (anywhere_xformDecomp rfl t)))
  | wkDecompSnappy t =>
    exact hm.answer (tableWalkCommand_stays rfl t (anywhere_walkSnappy rfl (anywhere_xformDecomp rfl t)))
  | blkEnc t => exact execBlkEnc_sameAnswer t hm
  | blkDec t => exact execBlkDec_sameAnswer t hm
  | lzComp => exact execLzComp_sameAnswer hm
  | lzDecomp => exact execLzDecomp_sameAnswer hm

end

/-! ### The two halves together -/

/-- A command leaves its buffers where they are. -/
theorem reaches_exec {i : Instr} {s t : State} (h : exec i s = .next t) (a : Nat) : reaches i t a = reaches i s a := by
  have f := exec_sameRegisters h
  rw [reaches, reaches, f.srcAddr, f.srcLen, f.dstAddr, f.dstCap]

/-- Settles O13: the answers are alike in the buffers; outside them the second run, like any, changes no byte. -/
theorem onlyItsBuffers : Obligations.OnlyItsBuffers := by
  intro i s t m hwf hwf' hsame h
  obtain ⟨u, m', hu, hu', hm'⟩ := exec_sameAnswer (i := i) (s := s) (m := m) ⟨hwf, hwf', hsame⟩
  obtain rfl : t = u := by simpa using h.symm.trans hu
  refine ⟨m', hu', fun a => ⟨fun ha => hm'.same a (by rwa [reaches_exec h]), fun ha => ?_⟩⟩
  refine memoryFrame i (s.withMem m) (t.withMem m') hu' a ?_
  rw [reaches, Bool.or_eq_false_iff] at ha
  exact ha.2

end Sys2Proof.Machine
end

section
/-! SUPPORT. Proofs: Command words, decoded and encoded -/

namespace Sys2Proof

/-! ### The opcode map (30_encoding.md R93) -/

theorem Row.selects_iff (r : Row) (c : Word) : r.selects c = true ↔ c &&& r.mask = r.pattern := by
  rw [Row.selects, beq_iff_eq]

/-- A word that matches two rows carries the pattern of each row on the bits both masks keep. -/
theorem Row.patterns_agree {r r' : Row} {c : Word} (h : r.selects c = true) (h' : r'.selects c = true) :
    r.pattern &&& r'.mask = r'.pattern &&& r.mask := by
  rw [Row.selects_iff] at h h'
  rw [← h, ← h', BitVec.and_assoc, BitVec.and_assoc, BitVec.and_comm r.mask]

/-- Settles O3: every two rows have patterns that differ on the bits both masks keep. -/
theorem rowsDisjoint : Obligations.RowsDisjoint := by
  have differ : opcodeRows.Pairwise (fun r r' => r.pattern &&& r'.mask ≠ r'.pattern &&& r.mask) := by decide
  exact differ.imp fun hne c ⟨h, h'⟩ => hne (Row.patterns_agree h h')

/-- Settles O4, by decoding each word. -/
theorem sampleWords : Obligations.SampleWords := by
  unfold Obligations.SampleWords
  decide

/-! ### From the command to its word and back -/

theorem decode_encode_bsRbits {n : Nat} (h : n < 64) : decode (encode (.bsRbits n)) = .ok (.bsRbits n) := by
  revert n
  decide

theorem decode_encode_bsWbits {n : Nat} (h : n < 64) : decode (encode (.bsWbits n)) = .ok (.bsWbits n) := by
  revert n
  decide

/-- Settles O1: the words are finitely many, 64 of a command with a count, 16 of one with a slot, one of any other. -/
theorem decodeOfEncode : Obligations.DecodeOfEncode := by
  intro i hi
  cases i with
  | bsRbits n => exact decode_encode_bsRbits (by simpa [Instr.WellFormed, Instr.wellFormed] using hi)
  | bsWbits n => exact decode_encode_bsWbits (by simpa [Instr.WellFormed, Instr.wellFormed] using hi)
  | tblCreate t wide => clear hi; revert t wide; decide
  | tblIncr t | tblIncs t | tblFin t | tblCode t | tblDec t | tblInfo t | tblWgt t | wkCompLz4 t | wkCompSnappy t
  | wkDecompLz4 t | wkDecompSnappy t | blkEnc t | blkDec t => clear hi; revert t; decide
  | nop | bsRbit | bsRbyte | bsWbit | bsWbyte | bsAlign | bsClose | viEnc | viDec | uvEnc | uvDec | wkInspectLz4
  | wkInspectSnappy | lzComp | lzDecomp => rfl

/-! ### From a word to its command and back -/

/-- What the decoder answers comes from a row of the map that the word selects. -/
theorem decode_ok {c : Word} {i : Instr} (h : decode c = .ok i) :
    ∃ r ∈ opcodeRows, r.selects c = true ∧ r.build c = i := by
  unfold decode at h
  split at h
  · rename_i r hr
    exact ⟨r, List.mem_of_find?_eq_some hr, by simpa using List.find?_some hr, by simpa using h⟩
  · cases h

/-- A field put in its place is the word's own bits there. -/
theorem field_placed {c mask : Word} {p n : Nat} (h : ∀ i < 32, mask.getLsbD i = decide (p ≤ i ∧ i < p + n)) :
    BitVec.ofNat 32 (c.extractLsb' p n).toNat <<< p = c &&& mask := by
  refine BitVec.eq_of_getLsbD_eq fun i hi => ?_
  rw [BitVec.ofNat_toNat, BitVec.getLsbD_shiftLeft, BitVec.getLsbD_setWidth, BitVec.getLsbD_extractLsb',
    BitVec.getLsbD_and, h i hi]
  by_cases hp : p ≤ i
  · by_cases hn : i < p + n
    · simp [hi, hp, hn, show i - p < 32 by omega, show i - p < n by omega, show ¬ i < p by omega]
    · simp [hn, show ¬ i - p < n by omega]
  · simp [hp, show i < p by omega]

theorem slotField_placed (c : Word) : BitVec.ofNat 32 (Decode.slotField c).val <<< 8 = c &&& 0xF00#32 :=
  field_placed (n := 4) (by decide)

theorem countField_placed (c : Word) : BitVec.ofNat 32 (Decode.countField c) <<< 16 = c &&& 0x3F0000#32 :=
  field_placed (n := 6) (by decide)

theorem wideField_placed (c : Word) : BitVec.ofNat 32 (Decode.wideField c).toNat <<< 13 = c &&& 0x2000#32 := by
  rw [← field_placed (c := c) (p := 13) (n := 1) (by decide), Decode.wideField]
  have bit : BitVec.ofBool (c.getLsbD 13) = c.extractLsb' 13 1 := by
    ext i hi
    simp [Nat.lt_one_iff.1 hi]
  rw [← bit, BitVec.toNat_ofBool]

/-- The pattern on the masked bits and the fields on the others are the whole word. -/
theorem pattern_or_fields {c mask pattern fields : Word} (h : c &&& mask = pattern)
    (hfull : mask ||| fields = 0xFFFFFFFF#32) : pattern ||| (c &&& fields) = c := by
  rw [← h, ← BitVec.and_or_distrib_left, hfull]
  exact BitVec.and_allOnes

/-- Every word that selects the row is the word of the command it stands for, which is well-formed. -/
def Row.Encodes (r : Row) : Prop := ∀ c : Word, r.selects c = true → (r.build c).WellFormed ∧ encode (r.build c) = c

theorem Row.encodes_fixed (i : Instr) (hi : i.WellFormed) : Row.Encodes ⟨0xFFFFFFFF#32, encode i, fun _ => i⟩ := by
  intro c h
  exact ⟨hi, ((Row.selects_iff _ c).1 h).symm.trans BitVec.and_allOnes⟩

theorem Row.encodes_slot (pattern : Word) (f : Fin 16 → Instr) (hi : ∀ t, (f t).WellFormed)
    (hf : ∀ t, encode (f t) = encodeSlot pattern t) :
    Row.Encodes ⟨0xFFFFF0FF#32, pattern, fun c => f (Decode.slotField c)⟩ := by
  intro c h
  replace h := (Row.selects_iff _ c).1 h
  refine ⟨hi _, ?_⟩
  rw [hf, encodeSlot, slotField_placed]
  exact pattern_or_fields (mask := 0xFFFFF0FF#32) h (by decide)

theorem countField_lt (c : Word) : Decode.countField c < 64 := (c.extractLsb' 16 6).isLt

theorem Row.encodes_count (pattern : Word) (f : Nat → Instr) (hi : ∀ n < 64, (f n).WellFormed)
    (hf : ∀ n, encode (f n) = encodeCount pattern n) :
    Row.Encodes ⟨0xFFC0FFFF#32, pattern, fun c => f (Decode.countField c)⟩ := by
  intro c h
  replace h := (Row.selects_iff _ c).1 h
  refine ⟨hi _ (countField_lt c), ?_⟩
  rw [hf, encodeCount, countField_placed]
  exact pattern_or_fields (mask := 0xFFC0FFFF#32) h (by decide)

theorem Row.encodes_tblCreate :
    Row.Encodes ⟨0xFFFFD0FF#32, 0x20#32, fun c => .tblCreate (Decode.slotField c) (Decode.wideField c)⟩ := by
  intro c h
  replace h := (Row.selects_iff _ c).1 h
  refine ⟨rfl, ?_⟩
  rw [encode, encodeSlot, slotField_placed, wideField_placed, BitVec.or_assoc, ← BitVec.and_or_distrib_left]
  exact pattern_or_fields (mask := 0xFFFFD0FF#32) h (by decide)

/-- Every row of the map, by the fields it has. -/
theorem opcodeRows_encode : ∀ r ∈ opcodeRows, r.Encodes := by
  have wfBsRbits : ∀ n < 64, (Instr.bsRbits n).WellFormed := fun n h => by simpa [Instr.WellFormed, Instr.wellFormed]
  have wfBsWbits : ∀ n < 64, (Instr.bsWbits n).WellFormed := fun n h => by simpa [Instr.WellFormed, Instr.wellFormed]
  simp only [opcodeRows, List.forall_mem_cons]
  exact ⟨Row.encodes_fixed .nop rfl, Row.encodes_fixed .bsRbit rfl, Row.encodes_fixed .bsRbyte rfl,
    Row.encodes_count _ .bsRbits wfBsRbits fun _ => rfl, Row.encodes_fixed .bsWbit rfl, Row.encodes_fixed .bsWbyte rfl,
    Row.encodes_count _ .bsWbits wfBsWbits fun _ => rfl, Row.encodes_fixed .bsAlign rfl, Row.encodes_fixed .bsClose rfl,
    Row.encodes_tblCreate,
    Row.encodes_slot _ .tblIncr (fun _ => rfl) fun _ => rfl, Row.encodes_slot _ .tblIncs (fun _ => rfl) fun _ => rfl,
    Row.encodes_slot _ .tblFin (fun _ => rfl) fun _ => rfl, Row.encodes_slot _ .tblCode (fun _ => rfl) fun _ => rfl,
    Row.encodes_slot _ .tblDec (fun _ => rfl) fun _ => rfl, Row.encodes_slot _ .tblInfo (fun _ => rfl) fun _ => rfl,
    Row.encodes_slot _ .tblWgt (fun _ => rfl) fun _ => rfl,
    Row.encodes_fixed .viEnc rfl, Row.encodes_fixed .viDec rfl, Row.encodes_fixed .uvEnc rfl, Row.encodes_fixed .uvDec rfl,
    Row.encodes_fixed .wkInspectLz4 rfl, Row.encodes_fixed .wkInspectSnappy rfl,
    Row.encodes_slot _ .wkCompLz4 (fun _ => rfl) fun _ => rfl, Row.encodes_slot _ .wkCompSnappy (fun _ => rfl) fun _ => rfl,
    Row.encodes_slot _ .wkDecompLz4 (fun _ => rfl) fun _ => rfl,
    Row.encodes_slot _ .wkDecompSnappy (fun _ => rfl) fun _ => rfl,
    Row.encodes_slot _ .blkEnc (fun _ => rfl) fun _ => rfl, Row.encodes_slot _ .blkDec (fun _ => rfl) fun _ => rfl,
    Row.encodes_fixed .lzComp rfl, Row.encodes_fixed .lzDecomp rfl, nofun⟩

/-- Settles O2: a word decodes by a row of the map, and every row encodes. -/
theorem encodeOfDecode : Obligations.EncodeOfDecode := by
  intro c i h
  obtain ⟨r, hr, hsel, rfl⟩ := decode_ok h
  exact opcodeRows_encode r hr c hsel

end Sys2Proof
end

section
/-! SUPPORT. Proofs: The standard uvarint -/

namespace Sys2Proof.Machine

@[simp] theorem byte_toNat (v : Nat) : (byte v).toNat = v % 256 := BitVec.toNat_ofNat v 8

@[simp] theorem byte_toNat_self (b : Byte) : byte b.toNat = b := BitVec.ofNat_toNat 8 b

/-! ### One group after the other (30_encoding.md R105) -/

theorem uvLast_small {v : Nat} (h : v < 128) : uvLast v = 0 := by
  rw [uvLast, Nat.log2_eq_log_two]
  have : Nat.log 2 v < 7 := Nat.log_lt_of_lt_pow' (by decide) h
  omega

theorem uvLast_large {v : Nat} (h : 128 ≤ v) : uvLast v = uvLast (v / 128) + 1 := by
  rw [uvLast, uvLast, Nat.log2_eq_log_two, Nat.log2_eq_log_two, show 128 = 2 ^ 7 from rfl, Nat.log_div_base_pow]
  have : 7 ≤ Nat.log 2 v := Nat.le_log_of_pow_le (by decide) h
  omega

theorem uvarint_small {v : Nat} (h : v < 128) : uvarint v = [byte v] := by
  simp [uvarint, uvLast_small h, Nat.mod_eq_of_lt h]

/-- A value of more than seven bits is its low group, continued, and the uvarint of the rest. -/
theorem uvarint_large {v : Nat} (h : 128 ≤ v) : uvarint v = byte (128 + v % 128) :: uvarint (v / 128) := by
  have hshift : ∀ i, v >>> (7 * (i + 1)) = (v / 128) >>> (7 * i) := fun i => by
    rw [Nat.mul_succ, Nat.add_comm, Nat.shiftRight_add, Nat.shiftRight_eq_div_pow v 7]
  simp [uvarint, uvLast_large h, List.range_succ_eq_map, Function.comp_def, hshift]

theorem uvLast_le {v : Nat} (h : v < 2 ^ 64) : uvLast v ≤ 9 := by
  rw [uvLast, Nat.log2_eq_log_two]
  have : Nat.log 2 v < 64 := Nat.log_lt_of_lt_pow' (by decide) h
  omega

theorem uvarint_length (v : Nat) : (uvarint v).length = uvLast v + 1 := by simp [uvarint]

theorem uvValue_uvarint (v : Nat) : uvValue (uvarint v) = v := by
  induction v using Nat.strong_induction_on with
  | _ v ih =>
    rcases Nat.lt_or_ge v 128 with h | h
    · rw [uvarint_small h]
      simp [uvValue]
      omega
    · rw [uvarint_large h, uvValue, ih (v / 128) (by omega), byte_toNat]
      omega

/-! ### What the decoder accepts (42_varint.md R216) -/

theorem uvWellFormed_iff (front : List Byte) (last : Byte) : uvWellFormed (front ++ [last]) = true ↔
    last.toNat < 128 ∧ (∀ b ∈ front, 128 ≤ b.toNat) ∧ front.length ≤ 9 ∧ (front.length = 9 → last.toNat ≤ 1) := by
  simp only [uvWellFormed, List.reverse_append, List.reverse_singleton, List.singleton_append, List.all_reverse,
    List.length_append, List.length_singleton, Bool.and_eq_true, Bool.or_eq_true, decide_eq_true_eq, List.all_eq_true,
    and_assoc]
  refine and_congr_right fun _ => and_congr_right fun _ => ?_
  omega

theorem uvValue_append (xs ys : List Byte) : uvValue (xs ++ ys) = uvValue xs + 128 ^ xs.length * uvValue ys := by
  induction xs with
  | nil => simp [uvValue]
  | cons x xs ih =>
    rw [List.cons_append, uvValue, ih, uvValue, List.length_cons, pow_succ]
    ring

theorem uvValue_lt (xs : List Byte) : uvValue xs < 128 ^ xs.length := by
  induction xs with
  | nil => simp [uvValue]
  | cons x xs ih =>
    rw [uvValue, List.length_cons, pow_succ]
    omega

theorem uvWellFormed_uvarint {v : Nat} (h : v < 2 ^ 64) : uvWellFormed (uvarint v) = true := by
  have hlast := uvLast_le h
  refine (uvWellFormed_iff _ _).2 ⟨by simp; omega, fun b hb => ?_, by simpa using hlast, fun h9 => ?_⟩
  · obtain ⟨i, -, rfl⟩ := List.mem_map.1 hb
    rw [byte_toNat]
    omega
  · rw [List.length_map, List.length_range] at h9
    rw [h9, byte_toNat, Nat.shiftRight_eq_div_pow]
    omega

theorem uvValue_lt_of_wellFormed {b : List Byte} (h : uvWellFormed b = true) : uvValue b < 2 ^ 64 := by
  rcases List.eq_nil_or_concat b with rfl | ⟨front, last, rfl⟩
  · cases h
  · rw [List.concat_eq_append] at h ⊢
    obtain ⟨hlast, -, hlen, hten⟩ := (uvWellFormed_iff front last).1 h
    have hfront := uvValue_lt front
    rw [uvValue_append]
    simp only [uvValue]
    rcases Nat.lt_or_ge front.length 9 with h9 | h9
    · have : 128 ^ front.length ≤ 128 ^ 8 := Nat.pow_le_pow_right (by decide) (by omega)
      have hmul : 128 ^ front.length * (last.toNat % 128) ≤ 128 ^ 8 * 127 := Nat.mul_le_mul this (by omega)
      simp only [Nat.mul_zero, Nat.add_zero]
      omega
    · rw [show front.length = 9 by omega] at hfront hten ⊢
      have := hten rfl
      omega

/-- Settles O44. -/
theorem uvarintRoundTrip : Obligations.UvarintRoundTrip := fun v h =>
  ⟨uvWellFormed_uvarint h, uvValue_uvarint v, by rw [uvarint_length]; exact Nat.succ_le_succ (uvLast_le h),
    fun _ => uvValue_lt_of_wellFormed⟩

/-! ### What the encoder writes (42_varint.md R215) -/

theorem uvBytes_eq_uvarint (fuel : Nat) {v : Nat} (h : v < 128 ^ (fuel + 1)) : uvBytes fuel v = uvarint v := by
  induction fuel generalizing v with
  | zero => rw [uvBytes, uvarint_small (by simpa using h)]
  | succ fuel ih =>
    rw [uvBytes]
    split_ifs with hv
    · rw [uvarint_large hv, ih (Nat.div_lt_of_lt_mul (by rwa [pow_succ, Nat.mul_comm] at h))]
    · rw [uvarint_small (by omega)]

end Sys2Proof.Machine
end

section
/-! SUPPORT. Proofs: A high-level command under way -/

namespace Sys2Proof.Machine

theorem word_toNat {v : Nat} (h : v < 2 ^ 32) : (word v).toNat = v := by
  rw [word, BitVec.toNat_ofNat, Nat.mod_eq_of_lt h]

theorem word_succ (v : Nat) : word v + 1#32 = word (v + 1) := (BitVec.ofNat_add (n := 32) v 1).symm

/-! ### The state (60_exceptions.md R320 step 3) -/

/-- A high-level command under way: it has read up to bit `r` of its source and written `w` from the start of its
destination, and its engine-internal state is `e`. -/
def State.working (s : State) (r : Nat) (w : Bits) (e : Engine) : State :=
  { s with
    rpos := word r
    mem := storeBits s.dstAddr.toNat 0 w s.mem
    wpos := word w.length
    eng := e }

section
variable (s : State) (r : Nat) (w : Bits) (e : Engine)

@[simp] theorem State.working_params : (s.working r w e).params = s.params := rfl
@[simp] theorem State.working_srcAddr : (s.working r w e).srcAddr = s.srcAddr := rfl
@[simp] theorem State.working_srcLen : (s.working r w e).srcLen = s.srcLen := rfl
@[simp] theorem State.working_dstAddr : (s.working r w e).dstAddr = s.dstAddr := rfl
@[simp] theorem State.working_dstCap : (s.working r w e).dstCap = s.dstCap := rfl
@[simp] theorem State.working_slot (t : Fin 16) : (s.working r w e).slot t = s.slot t := rfl
@[simp] theorem State.working_eng : (s.working r w e).eng = e := rfl
@[simp] theorem State.working_rpos : (s.working r w e).rpos = word r := rfl
@[simp] theorem State.working_wpos : (s.working r w e).wpos = word w.length := rfl
@[simp] theorem State.working_mem : (s.working r w e).mem = storeBits s.dstAddr.toNat 0 w s.mem := rfl

/-- The command begins with nothing read and nothing written. -/
theorem startHighLevel_working : startHighLevel.run s = .ok () (s.working 0 [] Engine.idle) := rfl

/-- A change of the engine-internal state. -/
theorem modifyEng_working (f : Engine → Engine) : (modifyEng f).run (s.working r w e) = .ok () (s.working r w (f e)) := rfl

end

/-! ### The buffers (10_state.md R31) -/

/-- What the checks of a high-level command say about its buffers (60_exceptions.md R325 codes 5 to 7). -/
structure Buffers (s : State) : Prop where
  source : 8 * s.srcLen.toNat < 2 ^ 32
  dest : 8 * s.dstCap.toNat < 2 ^ 32
  apart : s.srcLen.toNat = 0 ∨ s.dstCap.toNat = 0 ∨ s.srcAddr.toNat + s.srcLen.toNat ≤ s.dstAddr.toNat ∨
    s.dstAddr.toNat + s.dstCap.toNat ≤ s.srcAddr.toNat

theorem bufferOk_bits {base len : Word} (h : bufferOk base len = true) : 8 * len.toNat < 2 ^ 32 := by
  have hlen : len.toNat ≤ 2 ^ 29 - 1 := by
    simp only [bufferOk, Bool.and_eq_true, decide_eq_true_eq] at h
    exact h.1
  omega

theorem State.buffersOk_iff (s : State) :
    s.buffersOk = true ↔ s.sourceOk = true ∧ s.destOk = true ∧ s.disjoint = true := by
  simp [State.buffersOk, and_assoc]

theorem Buffers.of_ok {s : State} (h : s.buffersOk = true) : Buffers s := by
  obtain ⟨hsrc, hdst, hdis⟩ := s.buffersOk_iff.1 h
  refine ⟨bufferOk_bits hsrc, bufferOk_bits hdst, ?_⟩
  simpa [State.disjoint, BitVec.toNat_eq, or_assoc] using hdis

theorem checkBuffers_ok {s : State} (h : s.buffersOk = true) : checkBuffers.run s = .ok () s := by
  obtain ⟨hsrc, hdst, hdis⟩ := s.buffersOk_iff.1 h
  simp [checkBuffers_run, hsrc, hdst, hdis]

/-- What is written in the destination changes no source byte. -/
theorem Buffers.read_source {s : State} (h : Buffers s) {w : Bits} (hw : w.length ≤ 8 * s.dstCap.toNat) {p : Nat}
    (hp : p < s.srcLen.toNat) :
    (storeBits s.dstAddr.toNat 0 w s.mem).read (s.srcAddr.toNat + p) = s.mem.read (s.srcAddr.toNat + p) := by
  rcases List.eq_nil_or_concat w with rfl | ⟨w', b, rfl⟩
  · rfl
  · refine storeBits_read_other _ _ _ _ _ ?_
    rw [List.length_concat] at hw ⊢
    rcases h.apart with h | h | h | h <;> omega

theorem spanOk_iff {params : Params} {base p n : Nat} :
    spanOk params base p n = true ↔ ∀ i < n, memOk params (base + (p + i) / 8) = true := by
  simp [spanOk]

theorem State.sourceOpen_iff {s : State} :
    s.sourceOpen = true ↔ ∀ p < s.srcLen.toNat, memOk s.params (s.srcAddr.toNat + p) = true := by
  rw [State.sourceOpen, spanOk_iff]
  refine ⟨fun h p hp => ?_, fun h i hi => h _ (by omega)⟩
  simpa using h (8 * p) (by omega)

/-- A high-level command whose buffers pass the checks, whose source may be accessed, and which has room for `room` bits
(60_exceptions.md R325, 20_memory.md R64, R65). -/
structure Ready (s : State) (room : Nat) : Prop extends Buffers s where
  opened : ∀ p < s.srcLen.toNat, memOk s.params (s.srcAddr.toNat + p) = true
  fits : room ≤ 8 * s.dstCap.toNat
  writable : ∀ i < room, memOk s.params (s.dstAddr.toNat + i / 8) = true

theorem State.ready_iff {s : State} {room : Nat} : s.ready room = true ↔
    s.buffersOk = true ∧ s.sourceOpen = true ∧ room ≤ 8 * s.dstCap.toNat ∧
      spanOk s.params s.dstAddr.toNat 0 room = true := by
  simp [State.ready, State.buffersOk, State.sourceOpen, and_assoc]

theorem Ready.of_ready {s : State} {room : Nat} (h : s.ready room = true) : Ready s room := by
  obtain ⟨hbuf, hsrc, hfits, hdst⟩ := State.ready_iff.1 h
  exact ⟨Buffers.of_ok hbuf, State.sourceOpen_iff.1 hsrc, hfits, fun i hi => by simpa using spanOk_iff.1 hdst i hi⟩

/-! ### Writing (40_bitstream.md R144, R145) -/

section
variable {s : State} {r : Nat} {w : Bits} {e : Engine}

theorem writeBit_working (h : Buffers s) (b : Bool) (hw : w.length < 8 * s.dstCap.toNat) :
    (writeBit b).run (s.working r w e) =
      if memOk s.params (s.dstAddr.toNat + w.length / 8) then .ok () (s.working r (w ++ [b]) e)
      else .error (.bus (s.dstAddr.toNat + w.length / 8)) (s.working r w e) := by
  have hlen : (word w.length).toNat = w.length := word_toNat (hw.trans h.dest)
  rw [writeBit_run]
  simp only [State.working_dstCap, State.working_wpos, State.working_params, State.working_dstAddr,
    State.working_mem, hlen, if_neg (Nat.not_le.2 hw)]
  refine if_congr Iff.rfl ?_ rfl
  simp [State.working, storeBits_append, word_succ]

/-- Bits whose bytes may all be accessed are written one after the other. -/
theorem writeBitList_working (h : Buffers s) (u : Bits) (hw : w.length + u.length ≤ 8 * s.dstCap.toNat)
    (hok : ∀ i < u.length, memOk s.params (s.dstAddr.toNat + (w.length + i) / 8) = true) :
    (writeBitList u).run (s.working r w e) = .ok () (s.working r (w ++ u) e) := by
  induction u generalizing w with
  | nil => rw [List.append_nil]; rfl
  | cons b u ih =>
    rw [List.length_cons] at hw hok
    have hbit := writeBit_working (r := r) (e := e) h b (w := w) (by omega)
    rw [if_pos (by simpa using hok 0 (by omega))] at hbit
    rw [writeBitList_cons, Eng.bind_ok hbit, ih (by simp; omega), List.append_assoc, List.singleton_append]
    intro i hi
    rw [List.length_append, List.length_singleton, Nat.add_assoc, Nat.add_comm 1]
    exact hok (i + 1) (by omega)

/-- Bit `i` is the first whose byte may not be accessed: the bits before it are written. -/
theorem writeBitList_stops (h : Buffers s) (u : Bits) (hw : w.length + u.length ≤ 8 * s.dstCap.toNat) {i : Nat}
    (hi : i < u.length) (hok : ∀ j < i, memOk s.params (s.dstAddr.toNat + (w.length + j) / 8) = true)
    (hbad : memOk s.params (s.dstAddr.toNat + (w.length + i) / 8) = false) :
    (writeBitList u).run (s.working r w e) =
      .error (.bus (s.dstAddr.toNat + (w.length + i) / 8)) (s.working r (w ++ u.take i) e) := by
  induction u generalizing w i with
  | nil => cases hi
  | cons b u ih =>
    rw [List.length_cons] at hw hi
    have hbit := writeBit_working (r := r) (e := e) h b (w := w) (by omega)
    rcases i with _ | i
    · rw [if_neg (by simpa using hbad)] at hbit
      rw [writeBitList_cons, Eng.bind_error hbit, List.take_zero, List.append_nil, Nat.add_zero]
    · have hlen : (w ++ [b]).length = w.length + 1 := by simp
      have hnext : ∀ j, w.length + 1 + j = w.length + (j + 1) := fun j => by omega
      rw [if_pos (by simpa using hok 0 (by omega))] at hbit
      rw [writeBitList_cons, Eng.bind_ok hbit, ih (i := i) (by omega) (by omega) (fun j hj => ?_) (by rwa [hlen, hnext]),
        hlen, hnext, List.append_assoc, List.take_succ_cons, List.singleton_append]
      rw [hlen, hnext]
      exact hok _ (by omega)

/-- A string that fits is written whole or up to its first bit that cannot be. -/
theorem writeString_working (h : Buffers s) (u : Bits) (hw : w.length + u.length ≤ 8 * s.dstCap.toNat)
    (hok : ∀ i < u.length, memOk s.params (s.dstAddr.toNat + (w.length + i) / 8) = true) :
    (writeString u).run (s.working r w e) = .ok () (s.working r (w ++ u) e) := by
  have hlen : (word w.length).toNat = w.length := word_toNat (by have := h.dest; omega)
  rw [writeString_fits (by simp only [State.working_dstCap, State.working_wpos, hlen]; omega)]
  exact writeBitList_working h u hw hok

/-! ### Closing (40_bitstream.md R147, R148, 30_encoding.md R103) -/

/-- Zero bits up to the next byte boundary, all of them in a byte that is already written. -/
theorem alignLoop_working (h : Buffers s) (n fuel : Nat) (hn : (w.length + n) % 8 = 0) (hfuel : n ≤ fuel) (hn8 : n < 8)
    (hw : w.length + n ≤ 8 * s.dstCap.toNat)
    (hok : ∀ i < n, memOk s.params (s.dstAddr.toNat + (w.length + i) / 8) = true) :
    (alignLoop fuel).run (s.working r w e) = .ok () (s.working r (w ++ List.replicate n false) e) := by
  have hcap := h.dest
  induction fuel generalizing w n with
  | zero =>
    obtain rfl : n = 0 := by omega
    rw [List.replicate_zero, List.append_nil]
    rfl
  | succ fuel ih =>
    have hlen : (word w.length).toNat = w.length := word_toNat (by omega)
    rw [alignLoop, Eng.bind_ok (Eng.get_run _), State.working_wpos, hlen]
    rcases n with _ | n
    · rw [if_neg (by omega), List.replicate_zero, List.append_nil]
      rfl
    · have hbit := writeBit_working (r := r) (e := e) h false (w := w) (by omega)
      rw [if_pos (by simpa using hok 0 (by omega))] at hbit
      have hlen' : (w ++ [false]).length = w.length + 1 := by simp
      rw [if_pos (by omega), Eng.bind_ok hbit, ih n (by omega) (by omega) (by omega) (by omega), List.replicate_succ,
        List.append_assoc, List.singleton_append]
      intro i hi
      rw [hlen', Nat.add_assoc, Nat.add_comm 1]
      exact hok (i + 1) (by omega)

/-- `Close` pads what is written to a byte boundary and counts its bytes. -/
theorem close_working (h : Buffers s) (hw : w.length ≤ 8 * s.dstCap.toNat)
    (hok : ∀ i < w.length, memOk s.params (s.dstAddr.toNat + i / 8) = true) :
    close.run (s.working r w e) = .ok ((padded w).length / 8) (s.working r (padded w) e) := by
  have hcap := h.dest
  have hpad : (padding w.length).length = (8 - w.length % 8) % 8 := padding_length _
  have hlen : (padded w).length = w.length + (8 - w.length % 8) % 8 := by rw [padded, List.length_append, hpad]
  have halign : align.run (s.working r w e) = .ok () (s.working r (padded w) e) := by
    refine alignLoop_working h _ 8 (by omega) (by omega) (by omega) (by omega) fun i hi => ?_
    rw [show (w.length + i) / 8 = (w.length - 1) / 8 by omega]
    exact hok _ (by omega)
  have hwpos : (word (padded w).length).toNat = (padded w).length := word_toNat (by omega)
  rw [close, Eng.bind_ok halign, Eng.bind_ok (Eng.get_run _), State.working_wpos, hwpos]
  rfl

end

end Sys2Proof.Machine
end

section
/-! SUPPORT. Proofs: Reading and writing parts of a stream -/

namespace Sys2Proof.Machine

/-! ### What is left of the source (40_bitstream.md R140) -/

/-- After `r` bits of the source the bits `u` are left. -/
def State.Left (s : State) (r : Nat) (u : Bits) : Prop := r ≤ 8 * s.srcLen.toNat ∧ s.sourceStream.drop r = u

@[simp] theorem State.sourceStream_length (s : State) : s.sourceStream.length = 8 * s.srcLen.toNat := by
  simp [State.sourceStream]

theorem State.Left.start (s : State) : s.Left 0 s.sourceStream := ⟨Nat.zero_le _, rfl⟩

theorem State.Left.length {s : State} {r : Nat} {u : Bits} (h : s.Left r u) : r + u.length = 8 * s.srcLen.toNat := by
  rw [← h.2, List.length_drop, s.sourceStream_length]
  have := h.1
  omega

theorem State.Left.drop {s : State} {r : Nat} {u v : Bits} (h : s.Left r (u ++ v)) : s.Left (r + u.length) v := by
  have hlen := h.length
  rw [List.length_append] at hlen
  exact ⟨by omega, by rw [← List.drop_drop, h.2, List.drop_left]⟩

/-- The next bit left is the stream bit at the cursor. -/
theorem State.Left.head {s : State} {r : Nat} {b : Bool} {u : Bits} (h : s.Left r (b :: u)) :
    b = streamBit s.mem s.srcAddr.toNat r := by
  have hget : s.sourceStream[r]? = some b := by
    rw [← List.head?_drop, h.2]
    rfl
  simp only [State.sourceStream, streamBits, List.getElem?_map, Option.map_eq_some_iff, Nat.zero_add] at hget
  obtain ⟨i, hi, rfl⟩ := hget
  rw [List.getElem?_range (by have := h.length; simp at this; omega)] at hi
  rw [Option.some.inj hi]

/-! ### Parts that read and write -/

/-- From anywhere in the source where the bits `u` come next, with room for `v`, the part `m` reads `u`, writes `v`,
answers `a` and takes the engine-internal state `e` to `e'`. -/
def Turns {α : Type} (s : State) (room : Nat) (m : Rd α) (e : Engine) (u v : Bits) (a : α) (e' : Engine) : Prop :=
  ∀ (r : Nat) (w rest : Bits), s.Left r (u ++ rest) → (w ++ v).length ≤ room →
    m.run.run (s.working r w e) = .ok (some a) (s.working (r + u.length) (w ++ v) e')

/-- Where the bits `u` and then `rest`, the last of the source, come next, the part `m` reads `u`, writes `v` and stops at
`rest` with a read failure. -/
def Halts {α : Type} (s : State) (room : Nat) (m : Rd α) (e : Engine) (u v rest : Bits) (e' : Engine) : Prop :=
  ∀ (r : Nat) (w : Bits), s.Left r (u ++ rest) → (w ++ v).length ≤ room →
    m.run.run (s.working r w e) = .ok none (s.working (r + u.length) (w ++ v) e')

section
variable {α β : Type} {s : State} {room : Nat} {e e' e'' : Engine}

theorem Turns.pure (a : α) : Turns s room (pure a) e [] [] a e := fun r w rest _ _ => by
  simp

/-- One part after the other: what they read and write is joined. -/
theorem Turns.bind {m : Rd α} {f : α → Rd β} {u u' v v' us vs : Bits} {a : α} {b : β} (hm : Turns s room m e u v a e')
    (hf : Turns s room (f a) e' u' v' b e'') (hus : us = u ++ u' := by simp) (hvs : vs = v ++ v' := by simp) :
    Turns s room (m >>= f) e us vs b e'' := by
  subst hus hvs
  intro r w rest hleft hroom
  rw [List.append_assoc] at hleft
  rw [← List.append_assoc] at hroom
  have hpart := hm r w _ hleft (by rw [List.length_append] at hroom; omega)
  rw [Rd.bind_some hpart, hf _ _ rest hleft.drop hroom, List.length_append, List.append_assoc, Nat.add_assoc]

theorem Turns.bind_halts {m : Rd α} {f : α → Rd β} {u u' v v' us vs rest : Bits} {a : α}
    (hm : Turns s room m e u v a e') (hf : Halts s room (f a) e' u' v' rest e'') (hus : us = u ++ u' := by simp)
    (hvs : vs = v ++ v' := by simp) : Halts s room (m >>= f) e us vs rest e'' := by
  subst hus hvs
  intro r w hleft hroom
  rw [List.append_assoc] at hleft
  rw [← List.append_assoc] at hroom
  have hpart := hm r w _ hleft (by rw [List.length_append] at hroom; omega)
  rw [Rd.bind_some hpart, hf _ _ hleft.drop hroom, List.length_append, List.append_assoc, Nat.add_assoc]

theorem Halts.bind {m : Rd α} {f : α → Rd β} {u v rest : Bits} (hm : Halts s room m e u v rest e') :
    Halts s room (m >>= f) e u v rest e' := fun r w hleft hroom => Rd.bind_none (hm r w hleft hroom)

/-- A part that first looks at the state: it is the one reached. -/
theorem Turns.get_bind {f : State → Rd β} {u v : Bits} {b : β}
    (h : ∀ r w rest, s.Left r (u ++ rest) → Turns s room (f (s.working r w e)) e u v b e') :
    Turns s room (get >>= f) e u v b e' := fun r w rest hleft hroom => by
  rw [Rd.bind_some (Rd.get_run _)]
  exact h r w rest hleft r w rest hleft hroom

theorem Halts.get_bind {f : State → Rd β} {u v rest : Bits}
    (h : ∀ r w, s.Left r (u ++ rest) → Halts s room (f (s.working r w e)) e u v rest e') :
    Halts s room (get >>= f) e u v rest e' := fun r w hleft hroom => by
  rw [Rd.bind_some (Rd.get_run _)]
  exact h r w hleft r w hleft hroom

theorem Turns.modifyEng (f : Engine → Engine) : Turns s room (liftM (modifyEng f)) e [] [] () (f e) :=
  fun r w rest _ _ => by
    rw [Rd.lift_ok (modifyEng_working s r w e f), List.append_nil]
    rfl

variable (h : Ready s room)
include h

/-- The bits left are the source bits past RPOS. -/
theorem Ready.avail {r : Nat} {u : Bits} (hleft : s.Left r u) (w : Bits) : (s.working r w e).avail = u.length := by
  have := hleft.length
  have := h.source
  rw [State.avail, State.working_rpos, State.working_srcLen, word_toNat (by omega)]
  omega

/-! ### Bits and bytes (40_bitstream.md R141 to R146) -/

theorem readBit_turns (b : Bool) : Turns s room readBit e [b] [] b e := by
  intro r w rest hleft hroom
  have hlen := hleft.length
  have hsrc := h.source
  simp only [List.length_append, List.length_nil, List.length_singleton] at hlen hroom
  rw [readBit_run, if_neg (by rw [h.avail hleft]; simp)]
  simp only [State.working_rpos, State.working_srcAddr, State.working_params, word_toNat (show r < 2 ^ 32 by omega)]
  rw [if_pos (h.opened _ (by omega)), List.append_nil, streamBit, State.working_mem,
    h.read_source (by have := h.fits; omega) (by omega), ← streamBit, ← hleft.head, word_succ]
  rfl

theorem readBitsLoop_turns (u : Bits) (v : Nat) :
    Turns s room (readBitsLoop u.length v) e u [] (v * 2 ^ u.length + bitsVal u) e := by
  induction u generalizing v with
  | nil => simpa [readBitsLoop] using Turns.pure v
  | cons b u ih =>
    have hvalue : (2 * v + b.toNat) * 2 ^ u.length + bitsVal u = v * 2 ^ (b :: u).length + bitsVal (b :: u) := by
      rw [bitsVal_cons, List.length_cons, pow_succ]
      ring
    rw [← hvalue]
    exact (readBit_turns h b).bind (ih (2 * v + b.toNat))

theorem readBits_turns (u : Bits) : Turns s room (readBits u.length) e u [] (bitsVal u) e := by
  refine Turns.get_bind fun r w rest hleft => ?_
  rw [if_neg (by rw [h.avail hleft]; simp)]
  simpa using readBitsLoop_turns h u 0

/-- Fewer bits are left than asked for: nothing is read. -/
theorem readBits_halts {n : Nat} {rest : Bits} (hn : rest.length < n) : Halts s room (readBits n) e [] [] rest e := by
  refine Halts.get_bind fun r w hleft => ?_
  rw [if_pos (by rw [h.avail hleft]; simpa using hn)]
  exact fun r' w' _ _ => by simp

theorem readByte_turns (b : Byte) : Turns s room readByte e (natBits 8 b.toNat) [] b e := by
  have hbits := readBits_turns (e := e) h (natBits 8 b.toNat)
  rw [natBits_length, bitsVal_natBits, Nat.mod_eq_of_lt b.isLt] at hbits
  exact hbits.bind (by simpa using Turns.pure b)

theorem readByte_halts {rest : Bits} (hrest : rest.length < 8) : Halts s room readByte e [] [] rest e :=
  (readBits_halts h hrest).bind

theorem writeString_turns (v : Bits) : Turns s room (liftM (writeString v)) e [] v () e := by
  intro r w rest _ hroom
  have hfits := h.fits
  rw [List.length_append] at hroom
  exact Rd.lift_ok (writeString_working h.toBuffers v (by omega) fun i hi => h.writable _ (by omega))

theorem writeByte_turns (b : Byte) : Turns s room (liftM (writeByte b)) e [] (natBits 8 b.toNat) () e :=
  writeString_turns h _

theorem writeCode_turns (t : Fin 16) (x : Nat) :
    Turns s room (liftM (writeCode t x)) e [] ((s.slot t).code x) () e := fun r w rest hleft hroom => by
  have hcode := writeString_turns (e := e) h ((s.slot t).code x) r w rest hleft hroom
  rcases hw : (writeString ((s.slot t).code x)).run (s.working r w e) with ⟨a, t'⟩ | ⟨err, t'⟩
  · rw [Rd.lift_ok hw] at hcode
    rw [← hcode, Rd.lift_ok ((writeCode_run t x _).trans hw)]
  · rw [Rd.lift_error hw] at hcode
    cases hcode

/-! ### Codes (41_prefix_table.md R192, R193) -/

omit h in
/-- A bit string that is no code of the list is not found. -/
theorem findCode_none {p : Bits} {codes : List Bits} (hp : p ∉ codes) (k : Nat) : findCode p codes k = none := by
  induction codes generalizing k with
  | nil => rfl
  | cons c cs ih =>
    rw [List.mem_cons, not_or] at hp
    rw [findCode, if_neg (Ne.symm hp.1), ih hp.2]

omit h in
/-- Of distinct codes each is found under its own symbol. -/
theorem findCode_getElem {codes : List Bits} (hnd : codes.Nodup) {x : Nat} (hx : x < codes.length) (k : Nat) :
    findCode codes[x] codes k = some (k + x) := by
  induction codes generalizing k x with
  | nil => cases hx
  | cons c cs ih =>
    rw [List.nodup_cons] at hnd
    rcases x with _ | x
    · simp [findCode]
    · have hx' : x < cs.length := by simpa using hx
      have hne : c ≠ cs[x] := fun heq => hnd.1 (heq ▸ List.getElem_mem hx')
      rw [List.getElem_cons_succ, findCode, if_neg hne, ih hnd.2 hx', Nat.add_assoc, Nat.add_comm 1]

omit h in
theorem PrefixFree.nodup {codes : List Bits} (hpf : PrefixFree codes) : codes.Nodup :=
  List.Pairwise.imp (S := (· ≠ ·)) (fun hne heq => hne.1 (heq ▸ List.prefix_refl _)) hpf.2

omit h in
/-- A code's proper beginning is no code. -/
theorem PrefixFree.not_mem_of_prefix {codes : List Bits} (hpf : PrefixFree codes) {c p : Bits} (hc : c ∈ codes)
    (hp : p <+: c) (hne : p ≠ c) : p ∉ codes := fun hmem => by
  have : Std.Symm (fun c d : Bits => ¬ c <+: d ∧ ¬ d <+: c) := ⟨fun _ _ h => ⟨h.2, h.1⟩⟩
  exact (hpf.2.forall hmem hc hne).1 hp

/-- The rest `u` of a code after the bits `p` leads to its symbol. -/
theorem decodeLoop_turns {t : Fin 16} (hpf : PrefixFree (s.slot t).codes) {x : Nat} (hx : x < (s.slot t).codes.length)
    {p u : Bits} (hu : u ≠ []) (hcode : p ++ u = (s.slot t).codes[x]) {fuel : Nat} (hfuel : u.length ≤ fuel) :
    Turns s room (decodeLoop t fuel p) e u [] x e := by
  induction u generalizing p fuel with
  | nil => exact absurd rfl hu
  | cons b u ih =>
    obtain ⟨fuel, rfl⟩ : ∃ k, fuel = k + 1 := ⟨fuel - 1, by simp at hfuel; omega⟩
    refine (readBit_turns h b).bind (u' := u) (v' := []) (Turns.get_bind fun r w rest _ => ?_)
    rw [State.working_slot]
    have hnext : p ++ [b] ++ u = (s.slot t).codes[x] := by rw [← hcode]; simp
    rcases eq_or_ne u [] with rfl | hne
    · rw [List.append_nil] at hnext
      rw [hnext, findCode_getElem hpf.nodup hx]
      simpa using Turns.pure x
    · have hproper : p ++ [b] ∉ (s.slot t).codes :=
        hpf.not_mem_of_prefix (List.getElem_mem hx) ⟨u, hnext⟩ (by rw [← hnext]; simpa using hne)
      rw [findCode_none hproper]
      exact ih hne hnext (by simpa using hfuel)

theorem decodeNext_turns {t : Fin 16} (hpf : PrefixFree (s.slot t).codes) {x : Nat} (hx : x < (s.slot t).codes.length) :
    Turns s room (decodeNext t) e ((s.slot t).code x) [] x e := by
  have hcode : (s.slot t).code x = (s.slot t).codes[x] := by rw [Slot.code, List.getD_eq_getElem _ _ hx]
  rw [hcode]
  refine Turns.get_bind fun r w rest hleft => ?_
  refine decodeLoop_turns h hpf hx (hpf.1 _ (List.getElem_mem hx)) (List.nil_append _) ?_
  rw [h.avail hleft, List.length_append]
  omega

/-! ### Structural bytes (43_format_walker.md R231) -/

theorem copyByte_turns (b : Byte) : Turns s room copyByte e (natBits 8 b.toNat) (natBits 8 b.toNat) b e := by
  have hwrite : Turns s room (liftM (writeByte b) >>= fun _ => pure b) e [] (natBits 8 b.toNat) b e :=
    (writeByte_turns h b).bind (Turns.pure b)
  exact (readByte_turns h b).bind hwrite

theorem copyByte_halts {rest : Bits} (hrest : rest.length < 8) : Halts s room copyByte e [] [] rest e :=
  (readByte_halts h hrest).bind

theorem copyBytes_turns (bs : List Byte) :
    Turns s room (copyBytes bs.length) e (bytesBits bs) (bytesBits bs) bs e := by
  induction bs with
  | nil => exact Turns.pure []
  | cons b bs ih =>
    have hrest : Turns s room (copyBytes bs.length >>= fun bs => pure (b :: bs)) e (bytesBits bs) (bytesBits bs)
        (b :: bs) e := ih.bind (Turns.pure _)
    exact (copyByte_turns h b).bind hrest

end

end Sys2Proof.Machine
end

section
/-! SUPPORT. Proofs: The format walks of whole streams -/

namespace Sys2Proof.Machine

/-! ### The source as bytes and as bits (30_encoding.md R100) -/

theorem natBits_eq_byteBits (b : Byte) (p : Nat) (hp : p % 8 = 0) :
    natBits 8 b.toNat = (List.range 8).map (fun i => byteBit b (p + i)) := by
  simp only [natBits, List.range, List.range.loop, List.map_cons, List.map_nil, byteBit, BitVec.getLsbD,
    show (p + 0) % 8 = 0 by omega, show (p + 1) % 8 = 1 by omega, show (p + 2) % 8 = 2 by omega,
    show (p + 3) % 8 = 3 by omega, show (p + 4) % 8 = 4 by omega, show (p + 5) % 8 = 5 by omega,
    show (p + 6) % 8 = 6 by omega, show (p + 7) % 8 = 7 by omega]

theorem streamBits_append (m : Memory) (base p n k : Nat) :
    streamBits m base p (n + k) = streamBits m base p n ++ streamBits m base (p + n) k := by
  simp [streamBits, List.range_add, Function.comp_def, Nat.add_assoc]

theorem slice_succ (m : Memory) (a n : Nat) : m.slice a (n + 1) = m.slice a n ++ [m.read (a + n)] := by
  simp [Memory.slice, List.range_succ]

theorem streamBits_slice (m : Memory) (base n : Nat) : streamBits m base 0 (8 * n) = bytesBits (m.slice base n) := by
  induction n with
  | zero => rfl
  | succ n ih =>
    have hbyte : streamBits m base (8 * n) 8 = natBits 8 (m.read (base + n)).toNat := by
      rw [natBits_eq_byteBits _ (8 * n) (by omega), streamBits]
      refine List.map_congr_left fun i hi => ?_
      rw [streamBit, show (8 * n + i) / 8 = n by have := List.mem_range.1 hi; omega]
    rw [slice_succ, bytesBits_append, ← ih, Nat.mul_succ, streamBits_append, Nat.zero_add, hbyte]
    simp

theorem State.sourceStream_eq (s : State) : s.sourceStream = bytesBits s.source := streamBits_slice _ _ _

/-! ### Literal slots (43_format_walker.md R232, R233) -/

/-- The engine-internal state after `n` more literals are asked for and done. -/
def Engine.addLiterals (n : Nat) (e : Engine) : Engine :=
  { e with requested := e.requested + n, completed := e.completed + n, lit := 0 }

theorem Engine.addLiterals_zero {e : Engine} (h : e.lit = 0) : e.addLiterals 0 = e := by
  cases e
  cases h
  rfl

theorem Engine.addLiterals_add (m n : Nat) (e : Engine) : (e.addLiterals m).addLiterals n = e.addLiterals (m + n) := by
  simp [Engine.addLiterals, Nat.add_assoc]

@[simp] theorem Engine.addLiterals_lit (n : Nat) (e : Engine) : (e.addLiterals n).lit = 0 := rfl

/-- A transform of one literal: it reads `from b` and writes `to b`, for any byte `b`, and keeps the engine-internal
state. -/
def Transforms (s : State) (room : Nat) (x : Rd Unit) (src dst : Byte → Bits) : Prop :=
  ∀ b e, Turns s room x e (src b) (dst b) () e

section
variable {s : State} {room : Nat} {e : Engine} {x : Rd Unit} {src dst : Byte → Bits}

theorem slotLoop_turns (hx : Transforms s room x src dst) (xs : List Byte) (hlit : e.lit = xs.length) :
    Turns s room (slotLoop x xs.length) e (xs.flatMap src) (xs.flatMap dst) ()
      { e with lit := 0, completed := e.completed + xs.length } := by
  induction xs generalizing e with
  | nil =>
    cases e
    cases hlit
    exact Turns.pure ()
  | cons b xs ih =>
    let next : Engine := { e with lit := e.lit - 1, completed := e.completed + 1 }
    have hrest := ih (e := next) (by simp [next, hlit])
    refine Turns.get_bind fun r w rest _ => ?_
    rw [if_neg (by simp [hlit])]
    have hcount : Turns s room (liftM (modifyEng fun e => { e with lit := e.lit - 1, completed := e.completed + 1 }) >>=
        fun _ => slotLoop x xs.length) e (xs.flatMap src) (xs.flatMap dst) ()
        { next with lit := 0, completed := next.completed + xs.length } := (Turns.modifyEng _).bind hrest
    have hsum : next.completed + xs.length = e.completed + (b :: xs).length := by simp [next]; omega
    rw [hsum] at hcount
    exact (hx b e).bind hcount

theorem literalSlots_turns (hx : Transforms s room x src dst) (xs : List Byte) :
    Turns s room (literalSlots x xs.length) e (xs.flatMap src) (xs.flatMap dst) () (e.addLiterals xs.length) := by
  have hslots := slotLoop_turns (e := { e with requested := e.requested + xs.length, lit := xs.length }) hx xs rfl
  exact (Turns.modifyEng _).bind hslots

variable (h : Ready s room)
include h

theorem xformPass_transforms :
    Transforms s room xformPass (fun b => natBits 8 b.toNat) (fun b => natBits 8 b.toNat) := fun b e => by
  exact (readByte_turns h b).bind (writeByte_turns h b)

theorem xformComp_transforms (t : Fin 16) :
    Transforms s room (xformComp t) (fun b => natBits 8 b.toNat) (fun b => (s.slot t).code b.toNat) := fun b e => by
  exact (readByte_turns h b).bind (writeCode_turns h t _)

theorem xformDecomp_transforms {t : Fin 16} (hpf : PrefixFree (s.slot t).codes) (hlen : 256 ≤ (s.slot t).codes.length) :
    Transforms s room (xformDecomp t) (fun b => (s.slot t).code b.toNat) (fun b => natBits 8 b.toNat) := fun b e => by
  have hb : b.toNat < 256 := b.isLt
  have hwrite := writeByte_turns (e := e) h b
  refine (decodeNext_turns h hpf (x := b.toNat) (by omega)).bind (u' := []) (v' := natBits 8 b.toNat) ?_
  simpa [show ¬ 256 ≤ b.toNat by omega] using hwrite

end

/-! ### LZ4-shaped streams (30_encoding.md R106 to R108, 43_format_walker.md R235) -/

/-- A sequence's bits with the literals coded. -/
def Lz4Seq.coded (code : Byte → Bits) (q : Lz4Seq) : Bits :=
  bytesBits q.head ++ q.literals.flatMap code ++ bytesBits q.tail

/-- A stream's bits with the literals coded. -/
def Lz4Stream.coded (code : Byte → Bits) (z : Lz4Stream) : Bits :=
  z.seqs.flatMap (Lz4Seq.coded code) ++ z.last.toList.flatMap (fun q => bytesBits q.head ++ q.literals.flatMap code)

theorem bytesBits_flatMap {α : Type} (f : α → List Byte) (l : List α) :
    bytesBits (l.flatMap f) = l.flatMap (fun a => bytesBits (f a)) := by
  simp [bytesBits, List.flatMap_assoc]

theorem Lz4Seq.coded_plain (q : Lz4Seq) : q.coded (fun b => natBits 8 b.toNat) = bytesBits q.bytes := by
  simp [Lz4Seq.coded, Lz4Seq.bytes, bytesBits]

theorem Lz4Stream.coded_plain (z : Lz4Stream) : z.coded (fun b => natBits 8 b.toNat) = bytesBits z.bytes := by
  have hseq : Lz4Seq.coded (fun b => natBits 8 b.toNat) = fun q => bytesBits q.bytes := funext Lz4Seq.coded_plain
  rw [Lz4Stream.coded, Lz4Stream.bytes, bytesBits_append, bytesBits_flatMap, bytesBits_flatMap, hseq]
  simp [bytesBits]

theorem Lz4Stream.coded_codes (sl : Slot) (z : Lz4Stream) : z.coded (fun b => sl.code b.toNat) = z.compressed sl := rfl

/-- What a sequence begins with: its token, its literals; answers the match-length code. -/
def lz4Head (x : Rd Unit) : Rd Nat := do
  let tok ← copyByte
  let n ← nibbleLength (tok.toNat / 16)
  literalSlots x n
  return tok.toNat % 16

/-- What a sequence ends with: its offset and the extension of its match length. -/
def lz4Tail (m : Nat) : Rd Unit := do
  let _ ← copyBytes 2
  let _ ← nibbleLength m

theorem lz4Sequence_eq (x : Rd Unit) : lz4Sequence x = lz4Head x >>= lz4Tail := by
  simp [lz4Sequence, lz4Head, lz4Tail]

section
variable {s : State} {room : Nat} {e : Engine} (h : Ready s room)
include h

/-- Extension bytes 255 and a last one below 255 add up. -/
theorem extension_turns (q last : Nat) (hlast : last < 255) {fuel : Nat} (hfuel : q < fuel) (n : Nat) :
    Turns s room (extension fuel n) e (bytesBits (List.replicate q 255#8 ++ [byte last]))
      (bytesBits (List.replicate q 255#8 ++ [byte last])) (n + 255 * q + last) e := by
  induction q generalizing fuel n with
  | zero =>
    obtain ⟨fuel, rfl⟩ : ∃ k, fuel = k + 1 := ⟨fuel - 1, by omega⟩
    refine (copyByte_turns h (byte last)).bind (u' := []) (v' := []) ?_
    have hbyte : (byte last).toNat = last := by rw [byte_toNat, Nat.mod_eq_of_lt (by omega)]
    rw [hbyte, if_pos hlast]
    exact Turns.pure _
  | succ q ih =>
    obtain ⟨fuel, rfl⟩ : ∃ k, fuel = k + 1 := ⟨fuel - 1, by omega⟩
    refine (copyByte_turns h 255#8).bind (u' := bytesBits (List.replicate q 255#8 ++ [byte last]))
      (v' := bytesBits (List.replicate q 255#8 ++ [byte last])) ?_ rfl rfl
    rw [if_neg (by decide), show n + 255 * (q + 1) + last = n + (255#8).toNat + 255 * q + last by simp; omega]
    exact ih (by omega) _

theorem nibbleLength_turns (n : Nat) :
    Turns s room (nibbleLength (lz4Nibble n)) e (bytesBits (lz4Extension n)) (bytesBits (lz4Extension n)) n e := by
  rcases Nat.lt_or_ge n 15 with hn | hn
  · rw [lz4Nibble, Nat.min_eq_left (by omega), lz4Extension, if_pos hn, nibbleLength, if_neg (by omega)]
    exact Turns.pure n
  · rw [lz4Nibble, Nat.min_eq_right hn, lz4Extension, if_neg (by omega), nibbleLength, if_pos rfl]
    refine Turns.get_bind fun r w rest hleft => ?_
    have hext := extension_turns (e := e) h ((n - 15) / 255) ((n - 15) % 255) (Nat.mod_lt _ (by decide))
      (fuel := (s.working r w e).avail + 1) (by rw [h.avail hleft]; simp; omega) 15
    rwa [show 15 + 255 * ((n - 15) / 255) + (n - 15) % 255 = n by omega] at hext

theorem lz4Tail_turns (q : Lz4Seq) :
    Turns s room (lz4Tail (lz4Nibble q.matchLen)) e (bytesBits q.tail) (bytesBits q.tail) () e := by
  have hext : Turns s room (nibbleLength (lz4Nibble q.matchLen) >>= fun _ => pure ()) e
      (bytesBits (lz4Extension q.matchLen)) (bytesBits (lz4Extension q.matchLen)) () e :=
    (nibbleLength_turns h _).bind (Turns.pure _)
  have hoffset : Turns s room (copyBytes 2) e _ _ _ e := copyBytes_turns h [q.offset0, q.offset1]
  exact hoffset.bind hext (bytesBits_append [q.offset0, q.offset1] _) (bytesBits_append [q.offset0, q.offset1] _)

variable {x : Rd Unit} {src dst : Byte → Bits} (hx : Transforms s room x src dst)
include hx

theorem lz4Head_turns (q : Lz4Seq) :
    Turns s room (lz4Head x) e (bytesBits q.head ++ q.literals.flatMap src) (bytesBits q.head ++ q.literals.flatMap dst)
      (lz4Nibble q.matchLen) (e.addLiterals q.literals.length) := by
  have hnib : ∀ n, lz4Nibble n ≤ 15 := fun n => Nat.min_le_right _ _
  have h1 := hnib q.literals.length
  have h2 := hnib q.matchLen
  let tok := 16 * lz4Nibble q.literals.length + lz4Nibble q.matchLen
  refine (copyByte_turns h (byte tok)).bind (u' := bytesBits (lz4Extension q.literals.length) ++ q.literals.flatMap src)
    (v' := bytesBits (lz4Extension q.literals.length) ++ q.literals.flatMap dst) ?_ (by simp [Lz4Seq.head, tok])
    (by simp [Lz4Seq.head, tok])
  have hhigh : (byte tok).toNat / 16 = lz4Nibble q.literals.length := by rw [byte_toNat]; omega
  have hlow : (byte tok).toNat % 16 = lz4Nibble q.matchLen := by rw [byte_toNat]; omega
  rw [hhigh, hlow]
  have hslots : Turns s room (literalSlots x q.literals.length >>= fun _ => pure (lz4Nibble q.matchLen)) e
      (q.literals.flatMap src) (q.literals.flatMap dst) (lz4Nibble q.matchLen) (e.addLiterals q.literals.length) :=
    (literalSlots_turns hx _).bind (Turns.pure _)
  exact (nibbleLength_turns h _).bind hslots rfl rfl

theorem lz4Sequence_turns (q : Lz4Seq) :
    Turns s room (lz4Sequence x) e (q.coded src) (q.coded dst) () (e.addLiterals q.literals.length) := by
  rw [lz4Sequence_eq]
  exact (lz4Head_turns h hx q).bind (lz4Tail_turns h q) rfl rfl

/-- A literal-only sequence ends the walk where its offset is missing. -/
theorem lz4Sequence_halts (q : Lz4Seq) {rest : Bits} (hrest : rest.length < 8) :
    Halts s room (lz4Sequence x) e (bytesBits q.head ++ q.literals.flatMap src)
      (bytesBits q.head ++ q.literals.flatMap dst) rest (e.addLiterals q.literals.length) := by
  rw [lz4Sequence_eq]
  exact (lz4Head_turns h hx q).bind_halts (u' := []) (v' := []) (copyByte_halts h hrest).bind.bind

theorem lz4Loop_halts (last : Option Lz4Seq) {rest : Bits} (hrest : rest.length < 8) (seqs : List Lz4Seq)
    {fuel : Nat} (hfuel : seqs.length < fuel) (he : e.lit = 0) :
    Halts s room (lz4Loop x fuel) e (Lz4Stream.coded src ⟨seqs, last⟩) (Lz4Stream.coded dst ⟨seqs, last⟩) rest
      (e.addLiterals (Lz4Stream.literalCount ⟨seqs, last⟩)) := by
  obtain ⟨fuel, rfl⟩ : ∃ k, fuel = k + 1 := ⟨fuel - 1, by omega⟩
  induction seqs generalizing fuel e with
  | nil =>
    rcases last with _ | q
    · have hcount : e.addLiterals (Lz4Stream.literalCount ⟨[], none⟩) = e := Engine.addLiterals_zero he
      rw [hcount]
      exact (copyByte_halts h hrest).bind.bind
    · refine Halts.bind ?_
      simpa [Lz4Stream.coded, Lz4Stream.literalCount] using lz4Sequence_halts (e := e) h hx q hrest
  | cons q seqs ih =>
    obtain ⟨fuel, rfl⟩ : ∃ k, fuel = k + 1 := ⟨fuel - 1, by simp at hfuel; omega⟩
    have hloop := ih (e := e.addLiterals q.literals.length) rfl fuel (by simpa using hfuel)
    rw [Engine.addLiterals_add] at hloop
    exact (lz4Sequence_turns h hx q).bind_halts hloop (by simp [Lz4Stream.coded]) (by simp [Lz4Stream.coded])

/-- The walk of a stream of whole sequences reads all of it and stops at what is left, fewer than eight bits. -/
theorem walkLz4_halts (z : Lz4Stream) {rest : Bits} (hrest : rest.length < 8) (he : e.lit = 0) :
    Halts s room (walkLz4 x) e (z.coded src) (z.coded dst) rest (e.addLiterals z.literalCount) := by
  refine Halts.get_bind fun r w hleft => lz4Loop_halts h hx z.last hrest z.seqs ?_ he
  have hlong : ∀ seqs : List Lz4Seq, seqs.length ≤ (seqs.flatMap (Lz4Seq.coded src)).length := fun seqs => by
    induction seqs with
    | nil => exact Nat.le_refl _
    | cons q seqs ih =>
      simp only [List.flatMap_cons, List.length_append, List.length_cons, Lz4Seq.coded, Lz4Seq.head,
        bytesBits_length]
      omega
  have := hlong z.seqs
  rw [h.avail hleft, Lz4Stream.coded, List.length_append, List.length_append]
  omega

end

end Sys2Proof.Machine
end

section
/-! SUPPORT. Proofs: The walk commands on whole streams -/

namespace Sys2Proof.Machine

/-! ### The epilogue (43_format_walker.md R242) -/

/-- What a walker command that read `u` and wrote `v`, with `n` literals, leaves behind. -/
def State.walked (s : State) (r : Nat) (v : Bits) (n : Nat) : State :=
  { s.produced r (padded v) ((padded v).length / 8) with res1 := word n, res2 := word n }

section
variable {s : State} {room : Nat} (h : Ready s room) {walk : Rd Unit} {u v rest : Bits} {n : Nat}
include h

/-- A walk that stops in the end is closed and its counters are reported. -/
theorem walkBody_working (hwalk : Halts s room walk Engine.idle u v rest (Engine.idle.addLiterals n))
    (hsource : s.sourceStream = u ++ rest) (hroom : v.length ≤ room) :
    (walkBody walk).run (s.working 0 [] Engine.idle) =
      .ok () { s.working u.length (padded v) (Engine.idle.addLiterals n) with
        res0 := word ((padded v).length / 8), res1 := word n, res2 := word n } := by
  have hleft : s.Left 0 (u ++ rest) := hsource ▸ State.Left.start s
  have hrun := hwalk 0 [] hleft (by simpa using hroom)
  rw [Nat.zero_add, List.nil_append] at hrun
  have hfits := h.fits
  have hclose := close_working (r := u.length) (e := Engine.idle.addLiterals n) h.toBuffers (w := v) (by omega)
    fun i hi => h.writable i (by omega)
  refine reporting_ok ?_
  rw [Eng.bind_ok hrun, Eng.bind_ok hclose, Eng.bind_ok (setRes0_run _ _), Eng.bind_ok (Eng.get_run _),
    Eng.bind_ok (setRes1_run _ _), Eng.bind_ok (Eng.get_run _), setRes2_run]
  simp [Engine.addLiterals, Engine.idle]

variable (hok : s.buffersOk = true)
include hok

/-- A walker command without a table succeeds when its walk goes through. -/
theorem inspectCommand_succeeds (hwalk : Halts s room walk Engine.idle u v rest (Engine.idle.addLiterals n))
    (hsource : s.sourceStream = u ++ rest) (hroom : v.length ≤ room) :
    runCommand (inspectCommand walk) s = .next ((s.walked u.length v n).complete 0#8) := by
  have hstart : (inspectCommand walk).run s = (walkBody walk).run (s.working 0 [] Engine.idle) := by
    rw [inspectCommand, Eng.bind_ok (checkBuffers_ok hok), Eng.bind_ok (startHighLevel_working s)]
  have hend := runCommand_ok (hstart.trans (walkBody_working h hwalk hsource hroom))
  exact hend

/-- A walker command with a table succeeds when its walk goes through. -/
theorem tableWalkCommand_succeeds {t : Fin 16} (hfinal : (s.slot t).final = true) (hsize : 256 ≤ (s.slot t).alpha.size)
    (hwalk : Halts s room walk Engine.idle u v rest (Engine.idle.addLiterals n))
    (hsource : s.sourceStream = u ++ rest) (hroom : v.length ≤ room) :
    runCommand (tableWalkCommand t walk) s = .next ((s.walked u.length v n).complete 0#8) := by
  have hbuilt : (checkBuilt t).run s = .ok () s := by rw [checkBuilt_run, if_pos hfinal]
  have hbytes : (checkByteTable t).run s = .ok () s := require_ok (by simpa using hsize)
  have hstart : (tableWalkCommand t walk).run s = (walkBody walk).run (s.working 0 [] Engine.idle) := by
    rw [tableWalkCommand, Eng.bind_ok (checkBuffers_ok hok), Eng.bind_ok hbuilt, Eng.bind_ok hbytes,
      Eng.bind_ok (startHighLevel_working s)]
  have hend := runCommand_ok (hstart.trans (walkBody_working h hwalk hsource hroom))
  exact hend

end

/-! ### Streams of whole bytes -/

theorem padded_bytesBits (xs : List Byte) : padded (bytesBits xs) = bytesBits xs := by
  simp [padded, padding]

/-- Walked bytes need no padding. -/
theorem State.walked_bytes (s : State) (r : Nat) (xs : List Byte) (n : Nat) :
    s.walked r (bytesBits xs) n =
      { s.produced r (bytesBits xs) xs.length with res1 := word n, res2 := word n } := by
  rw [State.walked, padded_bytesBits, bytesBits_length, Nat.mul_div_cancel_left _ (by decide)]

theorem State.source_length (s : State) : s.source.length = s.srcLen.toNat := by simp [State.source, Memory.slice]

theorem padding_lt (n : Nat) : (padding n).length < 8 := by
  rw [padding_length]
  omega

/-! ### LZ4-shaped streams -/

/-- The walk of a plain stream reads all of the source. -/
theorem lz4_plain_source {s : State} {z : Lz4Stream} (hsource : s.source = z.bytes) :
    s.sourceStream = z.coded (fun b => natBits 8 b.toNat) ++ [] ∧
      (z.coded (fun b => natBits 8 b.toNat)).length = 8 * s.srcLen.toNat := by
  rw [z.coded_plain, ← hsource, List.append_nil, bytesBits_length, s.source_length]
  exact ⟨s.sourceStream_eq, rfl⟩

/-- Settles O46: one walk for the three transforms of a literal. -/
theorem lz4Walks : Obligations.Lz4Walks := by
  refine fun s k z => ⟨fun hsource hready => ?_, fun hfinal hsize hsource hready => ?_,
    fun hfinal hsize hpf hlen hsource hready => ?_⟩
  · have h := Ready.of_ready hready
    obtain ⟨hstream, hbits⟩ := lz4_plain_source hsource
    have hwalk := walkLz4_halts (e := Engine.idle) h (xformPass_transforms h) z (rest := []) (by decide) rfl
    have hend := inspectCommand_succeeds h (State.ready_iff.1 hready).1 hwalk hstream (by omega)
    rwa [hbits, z.coded_plain, s.walked_bytes] at hend
  · have h := Ready.of_ready hready
    obtain ⟨hstream, hbits⟩ := lz4_plain_source hsource
    have hwalk := walkLz4_halts (e := Engine.idle) h (xformComp_transforms h k) z (rest := []) (by decide) rfl
    have hend := tableWalkCommand_succeeds h (State.ready_iff.1 hready).1 hfinal hsize hwalk hstream
      (by rw [z.coded_codes, padded_length]; omega)
    rwa [hbits] at hend
  · have h := Ready.of_ready hready
    have hwalk := walkLz4_halts (e := Engine.idle) h (xformDecomp_transforms h hpf (hlen ▸ hsize)) z
      (padding_lt (z.compressed (s.slot k)).length) rfl
    have hend := tableWalkCommand_succeeds h (State.ready_iff.1 hready).1 hfinal hsize hwalk hsource
      (by rw [z.coded_plain, bytesBits_length])
    rwa [z.coded_plain, s.walked_bytes] at hend

end Sys2Proof.Machine
end

section
/-! SUPPORT. Proofs: The Snappy-shaped walks and the whole-block encoder -/

namespace Sys2Proof.Machine

/-! ### Snappy-shaped streams (30_encoding.md R109 to R112, 43_format_walker.md R237, R238) -/

/-- A token's bits with the literals coded. -/
def SnappyToken.coded (bias : Nat) (code : Byte → Bits) (k : SnappyToken) : Bits :=
  bytesBits (k.head bias) ++ k.literals.flatMap code

/-- A stream's bits with the literals coded. -/
def SnappyStream.coded (bias : Nat) (code : Byte → Bits) (z : SnappyStream) : Bits :=
  bytesBits (z.preamble ++ [z.preambleEnd]) ++ z.tokens.flatMap (SnappyToken.coded bias code)

theorem SnappyStream.coded_codes (bias : Nat) (sl : Slot) (z : SnappyStream) :
    z.coded bias (fun b => sl.code b.toNat) = z.compressed bias sl := rfl

theorem SnappyStream.coded_plain (bias : Nat) (z : SnappyStream) :
    z.coded bias (fun b => natBits 8 b.toNat) = bytesBits (z.bytes bias) := by
  have htoken : SnappyToken.coded bias (fun b => natBits 8 b.toNat) = fun k => bytesBits (k.head bias ++ k.literals) :=
    funext fun k => (bytesBits_append _ _).symm
  rw [SnappyStream.coded, SnappyStream.bytes, bytesBits_append _ (z.tokens.flatMap _), bytesBits_flatMap, htoken]

/-- The little-endian bytes of a value that fits have that value. -/
theorem littleEndian_leBytes (m v : Nat) (h : v < 256 ^ m) : littleEndian (leBytes m v) = v := by
  induction m generalizing v with
  | zero => rw [leBytes, littleEndian]; omega
  | succ m ih =>
    rw [pow_succ] at h
    rw [leBytes, littleEndian, ih _ (Nat.div_lt_of_lt_mul (by rwa [Nat.mul_comm] at h)), byte_toNat]
    omega

@[simp] theorem leBytes_length (m v : Nat) : (leBytes m v).length = m := by
  induction m generalizing v with
  | zero => rfl
  | succ m ih => rw [leBytes, List.length_cons, ih]

theorem SnappyToken.ok_literal {bias m : Nat} {xs : List Byte} (h : SnappyToken.ok bias (.literal m xs) = true) :
    snappyValue bias xs + bias = xs.length ∧ m ≤ 4 ∧ snappyValue bias xs < if m = 0 then 60 else 256 ^ m := by
  simp only [SnappyToken.ok, Bool.and_eq_true, decide_eq_true_eq] at h
  obtain ⟨⟨hbias, hm⟩, hvalue⟩ := h
  exact ⟨Nat.sub_add_cancel hbias, hm, hvalue⟩

theorem SnappyToken.ok_copy {bias kind sel : Nat} {rest : List Byte}
    (h : SnappyToken.ok bias (.copy kind sel rest) = true) :
    1 ≤ kind ∧ kind ≤ 3 ∧ sel < 64 ∧ rest.length = copyTokenBytes kind := by
  simpa [SnappyToken.ok, and_assoc] using h

theorem SnappyStream.ok_iff {bias : Nat} {z : SnappyStream} : z.ok bias = true ↔
    (∀ b ∈ z.preamble, 128 ≤ b.toNat) ∧ z.preambleEnd.toNat < 128 ∧ ∀ k ∈ z.tokens, k.ok bias = true := by
  simp [SnappyStream.ok, and_assoc]

section
variable {s : State} {room : Nat} {e : Engine} (h : Ready s room)
include h

theorem snappyPreamble_turns {last : Byte} (hlast : last.toNat < 128) (bs : List Byte)
    (hbs : ∀ b ∈ bs, 128 ≤ b.toNat) {fuel : Nat} (hfuel : bs.length < fuel) :
    Turns s room (snappyPreamble fuel) e (bytesBits (bs ++ [last])) (bytesBits (bs ++ [last])) () e := by
  obtain ⟨fuel, rfl⟩ : ∃ k, fuel = k + 1 := ⟨fuel - 1, by omega⟩
  induction bs generalizing fuel with
  | nil =>
    refine (copyByte_turns h last).bind (u' := []) (v' := []) ?_
    rw [if_pos hlast]
    exact Turns.pure ()
  | cons b bs ih =>
    obtain ⟨fuel, rfl⟩ : ∃ k, fuel = k + 1 := ⟨fuel - 1, by simp at hfuel; omega⟩
    have hb := hbs b (by simp)
    refine (copyByte_turns h b).bind (u' := bytesBits (bs ++ [last])) (v' := bytesBits (bs ++ [last])) ?_ rfl rfl
    rw [if_neg (by omega)]
    exact ih (fun c hc => hbs c (by simp [hc])) fuel (by simpa using hfuel)

omit h in
/-- A literal length that stands in the selector. -/
theorem snappyLength_short {v : Nat} (hv : v < 60) :
    Turns s room (snappyLength v) e [] [] (v + s.params.snappyBias) e := by
  rw [snappyLength, if_pos hv]
  exact Turns.get_bind fun r w rest _ => Turns.pure _

/-- A literal length in `m` bytes of its own. -/
theorem snappyLength_long {m v : Nat} (hm : 1 ≤ m) (hv : v < 256 ^ m) :
    Turns s room (snappyLength (59 + m)) e (bytesBits (leBytes m v)) (bytesBits (leBytes m v))
      (v + s.params.snappyBias) e := by
  have hbytes := copyBytes_turns (e := e) h (leBytes m v)
  rw [leBytes_length] at hbytes
  rw [snappyLength, if_neg (by omega), Nat.add_sub_cancel_left]
  refine hbytes.bind (u' := []) (v' := []) (Turns.get_bind fun r w rest _ => ?_)
  rw [littleEndian_leBytes m v hv]
  exact Turns.pure _

variable {x : Rd Unit} {src dst : Byte → Bits} (hx : Transforms s room x src dst)
include hx

/-- A literal token behind its tag byte, the length being read as `n`. -/
theorem snappyToken_literal {sel n : Nat} (hsel : sel < 64) {bs : List Byte} (xs : List Byte) (hn : n = xs.length)
    (hlength : Turns s room (snappyLength sel) e (bytesBits bs) (bytesBits bs) n e) :
    Turns s room (snappyToken x) e (bytesBits (byte (4 * sel) :: bs) ++ xs.flatMap src)
      (bytesBits (byte (4 * sel) :: bs) ++ xs.flatMap dst) () (e.addLiterals xs.length) := by
  subst hn
  refine (copyByte_turns h (byte (4 * sel))).bind (u' := bytesBits bs ++ xs.flatMap src)
    (v' := bytesBits bs ++ xs.flatMap dst) ?_
  rw [if_pos (by rw [byte_toNat]; omega), show (byte (4 * sel)).toNat / 4 = sel by rw [byte_toNat]; omega]
  exact hlength.bind (literalSlots_turns hx xs) rfl rfl

theorem snappyToken_turns {k : SnappyToken} (hk : k.ok s.params.snappyBias = true) (he : e.lit = 0) :
    Turns s room (snappyToken x) e (k.coded s.params.snappyBias src) (k.coded s.params.snappyBias dst) ()
      (e.addLiterals k.literals.length) := by
  cases k with
  | literal m xs =>
    obtain ⟨hn, hm, hvalue⟩ := SnappyToken.ok_literal hk
    rcases Nat.eq_zero_or_pos m with rfl | hpos
    · exact snappyToken_literal h hx (by simp at hvalue; omega) (bs := []) xs hn (snappyLength_short hvalue)
    · rw [if_neg (by omega)] at hvalue
      have htoken := snappyToken_literal h hx (sel := 59 + m) (by omega) xs hn (snappyLength_long (e := e) h hpos hvalue)
      simpa [SnappyToken.coded, SnappyToken.head, SnappyToken.literals, show m ≠ 0 by omega] using htoken
  | copy kind sel rest =>
    obtain ⟨hlow, hhigh, hsel, hlen⟩ := SnappyToken.ok_copy hk
    have hkeep : e.addLiterals (SnappyToken.copy kind sel rest).literals.length = e := Engine.addLiterals_zero he
    have hcopy := copyBytes_turns (e := e) h rest
    rw [hlen] at hcopy
    rw [hkeep]
    refine (copyByte_turns h (byte (4 * sel + kind))).bind (u' := bytesBits rest) (v' := bytesBits rest) ?_
      (by simp [SnappyToken.coded, SnappyToken.head, SnappyToken.literals])
      (by simp [SnappyToken.coded, SnappyToken.head, SnappyToken.literals])
    rw [if_neg (by rw [byte_toNat]; omega), show (byte (4 * sel + kind)).toNat % 4 = kind by rw [byte_toNat]; omega]
    exact hcopy.bind (Turns.pure ())

theorem snappyLoop_halts {rest : Bits} (hrest : rest.length < 8) (ks : List SnappyToken)
    (hks : ∀ k ∈ ks, k.ok s.params.snappyBias = true) {fuel : Nat} (hfuel : ks.length < fuel) (he : e.lit = 0) :
    Halts s room (snappyLoop x fuel) e (ks.flatMap (SnappyToken.coded s.params.snappyBias src))
      (ks.flatMap (SnappyToken.coded s.params.snappyBias dst)) rest
      (e.addLiterals (ks.map (fun k => k.literals.length)).sum) := by
  obtain ⟨fuel, rfl⟩ : ∃ k, fuel = k + 1 := ⟨fuel - 1, by omega⟩
  induction ks generalizing fuel e with
  | nil =>
    rw [List.map_nil, List.sum_nil, Engine.addLiterals_zero he]
    exact (copyByte_halts h hrest).bind.bind
  | cons k ks ih =>
    obtain ⟨fuel, rfl⟩ : ∃ k, fuel = k + 1 := ⟨fuel - 1, by simp at hfuel; omega⟩
    have hloop := ih (e := e.addLiterals k.literals.length) (fun k hk => hks k (by simp [hk])) rfl fuel
      (by simpa using hfuel)
    rw [Engine.addLiterals_add] at hloop
    exact (snappyToken_turns h hx (hks k (by simp)) he).bind_halts hloop rfl rfl

/-- The walk of a stream of whole tokens reads all of it and stops at what is left, fewer than eight bits. -/
theorem walkSnappy_halts {z : SnappyStream} (hz : z.ok s.params.snappyBias = true) {rest : Bits}
    (hrest : rest.length < 8) (he : e.lit = 0) :
    Halts s room (walkSnappy x) e (z.coded s.params.snappyBias src) (z.coded s.params.snappyBias dst) rest
      (e.addLiterals z.literalCount) := by
  obtain ⟨hpre, hend, htokens⟩ := SnappyStream.ok_iff.1 hz
  refine Halts.get_bind fun r w hleft => ?_
  have hpreamble := snappyPreamble_turns (e := e) h hend z.preamble hpre (fuel := (s.working r w e).avail + 1) (by
    rw [h.avail hleft]; simp [SnappyStream.coded]; omega)
  refine hpreamble.bind_halts (Halts.get_bind fun r w hleft => snappyLoop_halts h hx hrest z.tokens htokens ?_ he) rfl rfl
  have hlong : ∀ ks : List SnappyToken, ks.length ≤ (ks.flatMap (SnappyToken.coded s.params.snappyBias src)).length :=
    fun ks => by
      induction ks with
      | nil => exact Nat.le_refl _
      | cons k ks ih =>
        have hhead : 1 ≤ (k.head s.params.snappyBias).length := by
          cases k <;> simp [SnappyToken.head]
          split_ifs <;> simp
        simp only [List.flatMap_cons, List.length_append, List.length_cons, SnappyToken.coded, bytesBits_length]
        omega
  have := hlong z.tokens
  rw [h.avail hleft, List.length_append]
  omega

end

/-- The walk of a plain stream reads all of the source. -/
theorem snappy_plain_source {s : State} {z : SnappyStream} {bias : Nat} (hsource : s.source = z.bytes bias) :
    s.sourceStream = z.coded bias (fun b => natBits 8 b.toNat) ++ [] ∧
      (z.coded bias (fun b => natBits 8 b.toNat)).length = 8 * s.srcLen.toNat := by
  rw [z.coded_plain, ← hsource, List.append_nil, bytesBits_length, s.source_length]
  exact ⟨s.sourceStream_eq, rfl⟩

/-- Settles O47: one walk for the three transforms of a literal. -/
theorem snappyWalks : Obligations.SnappyWalks := by
  refine fun s k z hz => ⟨fun hsource hready => ?_, fun hfinal hsize hsource hready => ?_,
    fun hfinal hsize hpf hlen hsource hready => ?_⟩
  · have h := Ready.of_ready hready
    obtain ⟨hstream, hbits⟩ := snappy_plain_source hsource
    have hwalk := walkSnappy_halts (e := Engine.idle) h (xformPass_transforms h) hz (rest := []) (by decide) rfl
    have hend := inspectCommand_succeeds h (State.ready_iff.1 hready).1 hwalk hstream (by omega)
    rwa [hbits, z.coded_plain, s.walked_bytes] at hend
  · have h := Ready.of_ready hready
    obtain ⟨hstream, hbits⟩ := snappy_plain_source hsource
    have hwalk := walkSnappy_halts (e := Engine.idle) h (xformComp_transforms h k) hz (rest := []) (by decide) rfl
    have hend := tableWalkCommand_succeeds h (State.ready_iff.1 hready).1 hfinal hsize hwalk hstream
      (by rw [z.coded_codes, padded_length]; omega)
    rwa [hbits] at hend
  · have h := Ready.of_ready hready
    have hwalk := walkSnappy_halts (e := Engine.idle) h (xformDecomp_transforms h hpf (hlen ▸ hsize)) hz
      (padding_lt (z.compressed s.params.snappyBias (s.slot k)).length) rfl
    have hend := tableWalkCommand_succeeds h (State.ready_iff.1 hready).1 hfinal hsize hwalk hsource
      (by rw [z.coded_plain, bytesBits_length])
    rwa [z.coded_plain, s.walked_bytes] at hend

/-! ### Whole blocks (30_encoding.md R114, 44_block_codec.md R271) -/

/-- Every byte of the source is read and its code written. -/
theorem encodeLoop_turns {s : State} {room : Nat} {e : Engine} (h : Ready s room) (t : Fin 16) (xs : List Byte) :
    Turns s room (encodeLoop t xs.length) e (bytesBits xs) (literalCodes (s.slot t) xs) () e := by
  induction xs with
  | nil => exact Turns.pure ()
  | cons b xs ih =>
    have hcode : Turns s room (liftM (writeCode t b.toNat) >>= fun _ => encodeLoop t xs.length) e (bytesBits xs)
        (literalCodes (s.slot t) (b :: xs)) () e := (writeCode_turns h t b.toNat).bind ih rfl rfl
    exact (readByte_turns h b).bind hcode rfl rfl

/-- Settles O48: the loop over the source, the sentinel, the padding. -/
theorem blockEncode : Obligations.BlockEncode := by
  intro k s bs hfinal hsize hready
  have h := Ready.of_ready hready
  have hfits := h.fits
  have hroom : (blockBits (s.slot k) s.source).length ≤ bs.length := by rw [padded_length]; omega
  have hbuilt : (checkBuilt k).run s = .ok () s := by rw [checkBuilt_run, if_pos hfinal]
  have halpha : (require (fun s => (s.slot k).alpha == .a257) (.badOperand 8)).run s = .ok () s :=
    require_ok (by rw [hsize]; rfl)
  have hstart : (blockPrologue k).run s = .ok () (s.working 0 [] Engine.idle) := by
    rw [blockPrologue, Eng.bind_ok (checkBuffers_ok (State.ready_iff.1 hready).1), Eng.bind_ok hbuilt, Eng.bind_ok halpha]
    rfl
  have hloop := encodeLoop_turns (e := Engine.idle) h k s.source 0 [] [] (by
    rw [List.append_nil, ← s.sourceStream_eq]
    exact State.Left.start s) (by rw [blockBits, List.length_append] at hroom; simp; omega)
  rw [s.source_length, Nat.zero_add, bytesBits_length, s.source_length, List.nil_append] at hloop
  have hsentinel : (writeCode k sentinel).run (s.working (8 * s.srcLen.toNat) (literalCodes (s.slot k) s.source) Engine.idle) =
      .ok () (s.working (8 * s.srcLen.toNat) (blockBits (s.slot k) s.source) Engine.idle) := by
    rw [blockBits, List.length_append] at hroom
    rw [writeCode_run]
    exact writeString_working h.toBuffers _ (by simp; omega) fun i hi => h.writable _ (by simp at hi; omega)
  have hclose := close_working (r := 8 * s.srcLen.toNat) (e := Engine.idle) h.toBuffers
    (w := blockBits (s.slot k) s.source) (by omega) fun i hi => h.writable i (by omega)
  have hbody : (do
      let _ ← (encodeLoop k (← get).srcLen.toNat).run
      writeCode k sentinel
      let n ← close
      setRes0 n : Eng Unit).run (s.working 0 [] Engine.idle) =
      .ok () { s.working (8 * s.srcLen.toNat) bs Engine.idle with res0 := word (bs.length / 8) } := by
    rw [Eng.bind_ok (Eng.get_run _), State.working_srcLen, Eng.bind_ok hloop, Eng.bind_ok hsentinel, Eng.bind_ok hclose,
      setRes0_run]
  refine runCommand_ok (t := { s.working (8 * s.srcLen.toNat) bs Engine.idle with res0 := word (bs.length / 8) }) ?_
  rw [Eng.bind_ok hstart]
  exact reporting_ok hbody

end Sys2Proof.Machine
end

section
/-! SUPPORT. Proofs: The room that LZ.COMP needs -/

namespace Sys2Proof.Machine

/-! ### Lengths of codes under the default parameters (41_prefix_table.md R185, 42_varint.md R210, 45_lz77.md R296) -/

theorem vint_codes_short : (presetSlot defaultParams .a8 6).codes.all (fun c => decide (c.length ≤ 5)) = true := by
  decide +kernel

theorem meta_codes_short : (presetSlot defaultParams .a4 7).codes.all (fun c => decide (c.length ≤ 3)) = true := by
  decide +kernel

theorem uniform_codes_short : (presetSlot defaultParams .a256 5).codes.all (fun c => decide (c.length ≤ 8)) = true := by
  decide +kernel

/-- No symbol has a code longer than the longest of the list; one without a code has the empty one (log 14). -/
theorem codeLen_le {sl : Slot} {n : Nat} (h : sl.codes.all (fun c => decide (c.length ≤ n)) = true) (x : Nat) :
    sl.codeLen x ≤ n := by
  rw [Slot.codeLen, Slot.code, List.getD_eq_getElem?_getD]
  rcases hx : sl.codes[x]? with _ | c
  · simp
  · exact of_decide_eq_true (List.all_eq_true.1 h c (List.mem_of_getElem? hx))

theorem vintWidth_le (k : Nat) : vintWidth k ≤ 31 := by
  rw [vintWidth, List.getD_eq_getElem?_getD]
  rcases hk : Config.vintWidths[k]? with _ | w
  · simp
  · exact (by decide : ∀ w ∈ Config.vintWidths, w ≤ 31) w (List.mem_of_getElem? hk)

theorem literalCodes_length (sl : Slot) (xs : List Byte) :
    (literalCodes sl xs).length = (xs.map (fun b => sl.codeLen b.toNat)).sum := by
  simp [literalCodes, Slot.codeLen, List.length_flatMap]

/-! ### The least of the candidates (45_lz77.md R295) -/

/-- A fold that takes a candidate only for a lower cost ends at none dearer than its start or any candidate. -/
theorem foldl_least (f : Nat → Nat) (ks : List Nat) (best : Nat) :
    let chosen := ks.foldl (fun best k => if f k < f best then k else best) best
    f chosen ≤ f best ∧ ∀ k ∈ ks, f chosen ≤ f k := by
  induction ks generalizing best with
  | nil => exact ⟨Nat.le_refl _, by simp⟩
  | cons k ks ih =>
    obtain ⟨hbest, hks⟩ := ih (if f k < f best then k else best)
    have hpick : f (if f k < f best then k else best) ≤ f best ∧ f (if f k < f best then k else best) ≤ f k := by
      split_ifs <;> omega
    refine ⟨hbest.trans hpick.1, fun j hj => ?_⟩
    rcases List.mem_cons.1 hj with rfl | hj
    · exact hbest.trans hpick.2
    · exact hks j hj

/-- The bits of a literal run under its best candidate, selector included, are at most those under any of the last
three. -/
theorem bestCandidate_le (s : State) (run : List Byte) {k : Nat} (hk : k ∈ [1, 2, 3]) :
    (literalCodes (s.slot (candSlot (bestCandidate s run))) run).length +
        (s.slot metaSlot).codeLen (bestCandidate s run) ≤
      (literalCodes (s.slot (candSlot k)) run).length + (s.slot metaSlot).codeLen k := by
  simp only [literalCodes_length]
  exact (foldl_least (fun k => (run.map (fun b => (s.slot (candSlot k)).codeLen b.toNat)).sum +
    (s.slot metaSlot).codeLen k) [1, 2, 3] 0).2 k hk

/-! ### Matches (45_lz77.md R287, R289) -/

theorem commonPrefix_le (xs ys : List Byte) : commonPrefix xs ys ≤ ys.length := by
  induction xs generalizing ys with
  | nil => simp [commonPrefix]
  | cons x xs ih =>
    cases ys with
    | nil => simp [commonPrefix]
    | cons y ys =>
      have := ih ys
      rw [commonPrefix, List.length_cons]
      split_ifs <;> omega

/-- Sequences with `n` bytes in common have a common beginning of at least `n`. -/
theorem le_commonPrefix {n : Nat} {xs ys : List Byte} (h : xs.take n = ys.take n) (hn : n ≤ ys.length) :
    n ≤ commonPrefix xs ys := by
  induction n generalizing xs ys with
  | zero => exact Nat.zero_le _
  | succ n ih =>
    cases ys with
    | nil => cases hn
    | cons y ys =>
      cases xs with
      | nil => simp at h
      | cons x xs =>
        rw [List.take_succ_cons, List.take_succ_cons, List.cons.injEq] at h
        obtain ⟨rfl, h⟩ := h
        have := ih h (by simpa using hn)
        rw [commonPrefix, if_pos rfl]
        omega

/-- A match is at least four bytes long and stays in the source. -/
theorem matchAt_length {xs : List Byte} {recorded : List Nat} {last i : Nat} (h : matchAt xs recorded last = some i) :
    4 ≤ commonPrefix (xs.drop i) (xs.drop last) ∧ last + commonPrefix (xs.drop i) (xs.drop last) ≤ xs.length := by
  rw [matchAt] at h
  split_ifs at h with hlast
  have hsame : (xs.drop i).take 4 = (xs.drop last).take 4 := by simpa using List.find?_some h
  have hle := commonPrefix_le (xs.drop i) (xs.drop last)
  rw [List.length_drop] at hle
  exact ⟨le_commonPrefix hsame (by rw [List.length_drop]; omega), by omega⟩

/-! ### The tokens of the scan (45_lz77.md R288, R292) -/

/-- The offsets recorded when the scan looks for a match at `last`, latest first. -/
def seenAt (last : Nat) (recorded : List Nat) : List Nat := if 4 ≤ last then (last - 4) :: recorded else recorded

/-- The literal token of the bytes from `first` on, if there are any. -/
def finalTokens (s : State) (xs : List Byte) (first : Nat) : List LzToken :=
  if first < xs.length then [literalToken s xs first xs.length] else []

section
variable (s : State) (xs : List Byte) (fuel first last : Nat) (recorded : List Nat)

theorem scanFrom_end (h : ¬ last < xs.length) :
    scanFrom s xs (fuel + 1) first last recorded = finalTokens s xs first := by
  rw [scanFrom, if_neg h]
  rfl

theorem scanFrom_match (h : last < xs.length) {i : Nat} (hi : matchAt xs (seenAt last recorded) last = some i) :
    scanFrom s xs (fuel + 1) first last recorded =
      literalToken s xs first last :: .substitution i (commonPrefix (xs.drop i) (xs.drop last)) ::
        scanFrom s xs fuel (last + commonPrefix (xs.drop i) (xs.drop last))
          (last + commonPrefix (xs.drop i) (xs.drop last)) (seenAt last recorded) := by
  rw [seenAt] at hi
  simp only [scanFrom, if_pos h, hi]
  rfl

theorem scanFrom_none (h : last < xs.length) (hi : matchAt xs (seenAt last recorded) last = none) :
    scanFrom s xs (fuel + 1) first last recorded = scanFrom s xs fuel first (last + 1) (seenAt last recorded) := by
  rw [seenAt] at hi
  simp only [scanFrom, if_pos h, hi]
  rfl

end

/-! ### The bound (45_lz77.md R298) -/

section
variable {s : State} (h : s.slots = resetSlots defaultParams)
include h

theorem vint_codeLen_le (x : Nat) : (s.slot vintSlot).codeLen x ≤ 5 := by
  rw [show s.slot vintSlot = presetSlot defaultParams .a8 6 by rw [State.slot, h]; rfl]
  exact codeLen_le vint_codes_short x

theorem meta_codeLen_le (x : Nat) : (s.slot metaSlot).codeLen x ≤ 3 := by
  rw [show s.slot metaSlot = presetSlot defaultParams .a4 7 by rw [State.slot, h]; rfl]
  exact codeLen_le meta_codes_short x

theorem uniform_codeLen_le (x : Nat) : (s.slot (candSlot 3)).codeLen x ≤ 8 := by
  rw [show s.slot (candSlot 3) = presetSlot defaultParams .a256 5 by rw [State.slot, h]; rfl]
  exact codeLen_le uniform_codes_short x

theorem vintBits_short (v : Nat) : (vintBits (s.slot vintSlot) v).length ≤ 36 := by
  have hcode := vint_codeLen_le h (bucket v)
  have hwidth := vintWidth_le (bucket v)
  rw [Slot.codeLen] at hcode
  rw [vintBits, vintFieldBits, List.length_append, natBits_length]
  omega

theorem uniform_literalCodes_le (xs : List Byte) : (literalCodes (s.slot (candSlot 3)) xs).length ≤ 8 * xs.length := by
  induction xs with
  | nil => exact Nat.le_refl _
  | cons b xs ih =>
    have hb := uniform_codeLen_le h b.toNat
    rw [Slot.codeLen] at hb
    rw [literalCodes, List.flatMap_cons, List.length_append, ← literalCodes, List.length_cons]
    omega

theorem literalToken_short (xs : List Byte) {a b : Nat} (hab : a ≤ b) (hb : b ≤ xs.length) :
    ((literalToken s xs a b).bits s).length ≤ 40 + 8 * (b - a) := by
  have hrun : ((xs.drop a).take (b - a)).length = b - a := by
    rw [List.length_take, List.length_drop]
    omega
  have hlen := vintBits_short h (b - a)
  have hbest := bestCandidate_le s ((xs.drop a).take (b - a)) (k := 3) (by decide)
  have hsel := meta_codeLen_le h 3
  have hcodes := uniform_literalCodes_le h ((xs.drop a).take (b - a))
  rw [Slot.codeLen] at hbest
  simp only [literalToken, LzToken.bits, List.length_cons, List.length_append]
  rw [hrun] at hcodes ⊢
  omega

theorem substitution_short (off len : Nat) : ((LzToken.substitution off len).bits s).length ≤ 74 := by
  have hoff := vintBits_short h off
  have hlen := vintBits_short h len
  simp only [LzToken.bits, List.length_cons, List.length_append]
  omega

theorem finalTokens_short (xs : List Byte) {first : Nat} (hfirst : first ≤ xs.length) :
    ((finalTokens s xs first).flatMap (LzToken.bits s)).length ≤ 32 * (xs.length - first) + 16 := by
  have hlit := literalToken_short h xs hfirst (Nat.le_refl _)
  rw [finalTokens]
  split_ifs with hmore
  · rw [List.flatMap_singleton]
    omega
  · exact Nat.zero_le _

/-- Each round of the scan keeps within four bytes of output for a byte of source; the final literal needs two more. -/
theorem scanFrom_short (xs : List Byte) (fuel : Nat) {first last : Nat} (recorded : List Nat) (hfirst : first ≤ last)
    (hlast : last ≤ xs.length) :
    ((scanFrom s xs fuel first last recorded).flatMap (LzToken.bits s)).length ≤ 32 * (xs.length - first) + 16 := by
  induction fuel generalizing first last recorded with
  | zero => exact finalTokens_short h xs (hfirst.trans hlast)
  | succ fuel ih =>
    by_cases hmore : last < xs.length
    · rcases hmatch : matchAt xs (seenAt last recorded) last with _ | i
      · rw [scanFrom_none s xs fuel first last recorded hmore hmatch]
        exact ih _ (by omega) hmore
      · obtain ⟨hfour, hin⟩ := matchAt_length hmatch
        have hlit := literalToken_short h xs hfirst hlast
        have hsub := substitution_short h i (commonPrefix (xs.drop i) (xs.drop last))
        have hrest := ih (seenAt last recorded) (Nat.le_refl _) hin
        rw [scanFrom_match s xs fuel first last recorded hmore hmatch]
        simp only [List.flatMap_cons, List.length_append]
        omega
    · rw [scanFrom_end s xs fuel first last recorded hmore]
      exact finalTokens_short h xs (hfirst.trans hlast)

end

/-- Settles O54: the uvarint has at most five bytes, the rest is bounded along the scan. -/
theorem lzCapacity : Obligations.LzCapacity := by
  intro s xs h hxs
  have hscan := scanFrom_short h xs xs.length [] (Nat.le_refl 0) (Nat.zero_le _)
  have hlast : uvLast xs.length ≤ 4 := by
    have hlt : xs.length < 2 ^ 29 := Nat.lt_of_le_of_lt hxs (by decide)
    have : Nat.log 2 xs.length < 29 := Nat.log_lt_of_lt_pow' (by decide) hlt
    rw [uvLast, Nat.log2_eq_log_two]
    omega
  rw [padded_length, containerBits, List.length_append, List.length_append, bytesBits_length, uvarint_length, scanTokens,
    endBits, List.length_cons, List.length_singleton]
  omega

end Sys2Proof.Machine
end

section
/-! SUPPORT. Proofs: Writing field by field, up to the first that cannot be written -/

namespace Sys2Proof.Machine

/-! ### Where writing stops (40_bitstream.md R144, R145) -/

/-- Where writing units from position `pos` on stops, and the error. -/
def State.stopAt (s : State) (pos : Nat) (us : List Bits) : Option (Nat × Raised) :=
  (writeStopFrom s.params s.dstAddr.toNat s.dstCap.toNat 0 pos us).map Prod.snd

/-- The number of units written before does not matter to where writing stops. -/
theorem writeStopFrom_map (params : Params) (base cap : Nat) (us : List Bits) (n m pos : Nat) :
    (writeStopFrom params base cap n pos us).map Prod.snd = (writeStopFrom params base cap m pos us).map Prod.snd := by
  induction us generalizing n m pos with
  | nil => rfl
  | cons u us ih =>
    simp only [writeStopFrom]
    split_ifs
    · rfl
    · split
      · rfl
      · exact ih _ _ _

section
variable {s : State}

@[simp] theorem State.stopAt_nil (pos : Nat) : s.stopAt pos [] = none := rfl

theorem State.stopAt_cons (pos : Nat) (u : Bits) (us : List Bits) :
    s.stopAt pos (u :: us) = (s.stopAt pos [u]).or (s.stopAt (pos + u.length) us) := by
  simp only [State.stopAt, writeStopFrom]
  split_ifs
  · rfl
  · split
    · rfl
    · simpa using writeStopFrom_map _ _ _ us _ _ _

theorem State.stopAt_append (pos : Nat) (us vs : List Bits) :
    s.stopAt pos (us ++ vs) = (s.stopAt pos us).or (s.stopAt (pos + us.flatten.length) vs) := by
  induction us generalizing pos with
  | nil => simp
  | cons u us ih =>
    rw [List.cons_append, State.stopAt_cons, State.stopAt_cons pos u us, ih, Option.or_assoc, List.flatten_cons,
      List.length_append, Nat.add_assoc]

theorem State.stopAt_of_writeStop_none {us : List Bits} (h : s.writeStop us = none) : s.stopAt 0 us = none := by
  rw [State.stopAt, ← State.writeStop, h]
  rfl

theorem State.stopAt_of_writeStop_some {us : List Bits} {n q : Nat} {err : Raised}
    (h : s.writeStop us = some (n, q, err)) : s.stopAt 0 us = some (q, err) := by
  rw [State.stopAt, ← State.writeStop, h]
  rfl

/-- Units that are all written fit the destination, and their bytes may be accessed. -/
theorem State.stopAt_none {us : List Bits} {pos : Nat} (h : s.stopAt pos us = none) (hpos : pos ≤ 8 * s.dstCap.toNat) :
    pos + us.flatten.length ≤ 8 * s.dstCap.toNat ∧
      ∀ q < us.flatten.length, memOk s.params (s.dstAddr.toNat + (pos + q) / 8) = true :=
  writeStopFrom_none (Option.map_eq_none_iff.1 h) hpos

/-- Writing stops at no unit where all of them fit and may be accessed. -/
theorem State.stopAt_eq_none {us : List Bits} {pos : Nat} (hfit : pos + us.flatten.length ≤ 8 * s.dstCap.toNat)
    (hok : ∀ q < us.flatten.length, memOk s.params (s.dstAddr.toNat + (pos + q) / 8) = true) : s.stopAt pos us = none := by
  induction us generalizing pos with
  | nil => rfl
  | cons u us ih =>
    rw [List.flatten_cons, List.length_append] at hfit hok
    have hu : s.stopAt pos [u] = none := by
      have hfind : (List.range u.length).find? (fun i => !memOk s.params (s.dstAddr.toNat + (pos + i) / 8)) = none := by
        rw [List.find?_eq_none]
        intro i hi
        have := hok i (by have := List.mem_range.1 hi; omega)
        simp [this]
      simp only [State.stopAt, writeStopFrom, if_neg (show ¬ 8 * s.dstCap.toNat < pos + u.length by omega), hfind]
      rfl
    rw [State.stopAt_cons, hu, Option.none_or]
    refine ih (by omega) fun q hq => ?_
    rw [Nat.add_assoc]
    exact hok _ (by omega)

/-- The two ways in which one unit cannot be written. -/
theorem State.stopAt_single {pos q : Nat} {u : Bits} {err : Raised} (h : s.stopAt pos [u] = some (q, err)) :
    (8 * s.dstCap.toNat < pos + u.length ∧ q = pos ∧ err = .outputFull pos) ∨
      ∃ i < u.length, pos + u.length ≤ 8 * s.dstCap.toNat ∧ q = pos + i ∧
        err = .bus (s.dstAddr.toNat + (pos + i) / 8) ∧
        (∀ j < i, memOk s.params (s.dstAddr.toNat + (pos + j) / 8) = true) ∧
        memOk s.params (s.dstAddr.toNat + (pos + i) / 8) = false := by
  simp only [State.stopAt, writeStopFrom] at h
  split_ifs at h with hfull
  · obtain ⟨rfl, rfl⟩ := Prod.mk.inj (Option.some.inj h)
    exact .inl ⟨hfull, rfl, rfl⟩
  · split at h
    · rename_i i hfind
      obtain ⟨rfl, rfl⟩ := Prod.mk.inj (Option.some.inj h)
      obtain ⟨hbad, hmem, hbefore⟩ := List.find?_range_eq_some.1 hfind
      exact .inr ⟨i, List.mem_range.1 hmem, by omega, rfl, rfl, fun j hj => by simpa using hbefore j hj, by simpa using hbad⟩
    · cases h

/-- Writing stops inside the unit that cannot be written. -/
theorem State.stopAt_some {us : List Bits} {pos q : Nat} {err : Raised} (h : s.stopAt pos us = some (q, err))
    (hpos : pos ≤ 8 * s.dstCap.toNat) : pos ≤ q ∧ q < pos + us.flatten.length ∧ q ≤ 8 * s.dstCap.toNat := by
  induction us generalizing pos with
  | nil => cases h
  | cons u us ih =>
    rw [State.stopAt_cons, Option.or_eq_some_iff] at h
    rw [List.flatten_cons, List.length_append]
    rcases h with h | ⟨hnone, h⟩
    · rcases State.stopAt_single h with ⟨hfull, rfl, -⟩ | ⟨i, hi, hfit, rfl, -⟩ <;> omega
    · have hfit := (State.stopAt_none hnone hpos).1
      simp only [List.flatten_cons, List.flatten_nil, List.append_nil] at hfit
      have := ih h hfit
      omega

end

/-! ### Parts that write fields and read no bits of the stream -/

/-- The tokens written so far (45_lz77.md R298). -/
def Engine.counts (e : Engine) : Nat × Nat := (e.literals, e.substitutions)

/-- The part `m` writes the fields `us`, if nothing keeps it from doing so, answers `a`, and takes the engine-internal
state `e` to `e'`. -/
def Finishes {α : Type} (s : State) (m : Eng α) (e : Engine) (us : List Bits) (a : α) (e' : Engine) : Prop :=
  ∀ w : Bits, w.length ≤ 8 * s.dstCap.toNat → s.stopAt w.length us = none →
    m.run (s.working 0 w e) = .ok a (s.working 0 (w ++ us.flatten) e')

/-- Where one of the fields `us` cannot be written, the part `m` ends there with that error, the bits before kept; after
`n` of its bits it has counted `count n` tokens. -/
def Stops {α : Type} (s : State) (m : Eng α) (e : Engine) (us : List Bits) (count : Nat → Nat × Nat) : Prop :=
  ∀ w : Bits, w.length ≤ 8 * s.dstCap.toNat → ∀ q err, s.stopAt w.length us = some (q, err) →
    ∃ e', e'.counts = count (q - w.length) ∧
      m.run (s.working 0 w e) = .error err (s.working 0 ((w ++ us.flatten).take q) e')

/-- The part `m` writes the fields `us`, or those before the first that cannot be written and then counts no token. -/
structure Writes {α : Type} (s : State) (m : Eng α) (e : Engine) (us : List Bits) (a : α) (e' : Engine) : Prop where
  finishes : Finishes s m e us a e'
  stops : Stops s m e us fun _ => e.counts

section
variable {α β : Type} {s : State} {e e' e'' : Engine}

theorem Finishes.bind {m : Eng α} {f : α → Eng β} {us vs : List Bits} {a : α} {b : β} (hm : Finishes s m e us a e')
    (hf : Finishes s (f a) e' vs b e'') : Finishes s (m >>= f) e (us ++ vs) b e'' := by
  intro w hw hnone
  rw [State.stopAt_append, Option.or_eq_none_iff] at hnone
  obtain ⟨hus, hvs⟩ := hnone
  have hfit := (State.stopAt_none hus hw).1
  rw [← List.length_append] at hvs hfit
  rw [Eng.bind_ok (hm w hw hus), hf _ hfit hvs, List.flatten_append, List.append_assoc]

/-- Of two parts either the first stops, or it finishes and the second stops; `count` puts their counts together. -/
theorem Stops.bind {m : Eng α} {f : α → Eng β} {us vs : List Bits} {a : α} {c c' count : Nat → Nat × Nat}
    (hm : Finishes s m e us a e') (hms : Stops s m e us c) (hfs : Stops s (f a) e' vs c')
    (hc : ∀ n < us.flatten.length, count n = c n) (hc' : ∀ n, count (us.flatten.length + n) = c' n) :
    Stops s (m >>= f) e (us ++ vs) count := by
  intro w hw q err hsome
  rw [State.stopAt_append, Option.or_eq_some_iff] at hsome
  rw [List.flatten_append, ← List.append_assoc]
  rcases hsome with hus | ⟨hus, hvs⟩
  · obtain ⟨hle, hq, -⟩ := State.stopAt_some hus hw
    obtain ⟨e₁, hc₁, hrun⟩ := hms w hw q err hus
    refine ⟨e₁, by rw [hc₁, hc _ (by omega)], ?_⟩
    rw [← List.length_append] at hq
    rw [Eng.bind_error hrun, List.take_append_of_le_length hq.le]
  · have hfit := (State.stopAt_none hus hw).1
    obtain ⟨hle, -, -⟩ := State.stopAt_some hvs hfit
    obtain ⟨n, rfl⟩ := Nat.exists_eq_add_of_le hle
    rw [← List.length_append] at hvs hfit
    obtain ⟨e₁, hc₁, hrun⟩ := hfs _ hfit _ err hvs
    refine ⟨e₁, ?_, by rw [Eng.bind_ok (hm w hw hus), hrun, List.length_append]⟩
    rw [hc₁, List.length_append, Nat.add_sub_cancel_left, Nat.add_assoc, Nat.add_sub_cancel_left, hc']

/-- A part that writes nothing ends with its value. -/
theorem Writes.silent {m : Eng α} {a : α}
    (h : ∀ w : Bits, w.length ≤ 8 * s.dstCap.toNat → m.run (s.working 0 w e) = .ok a (s.working 0 w e')) :
    Writes s m e [] a e' := ⟨fun w hw _ => by simpa using h w hw, nofun⟩

theorem Writes.pure (a : α) : Writes s (pure a) e [] a e := .silent fun _ _ => rfl

theorem Writes.modifyEng (f : Engine → Engine) : Writes s (modifyEng f) e [] () (f e) := .silent fun _ _ => rfl

/-- One part after the other, the first of which counts no token. -/
theorem Writes.bind {m : Eng α} {f : α → Eng β} {us vs ws : List Bits} {a : α} {b : β} (hm : Writes s m e us a e')
    (hcounts : e'.counts = e.counts) (hf : Writes s (f a) e' vs b e'') (hws : ws = us ++ vs := by simp) :
    Writes s (m >>= f) e ws b e'' := by
  subst hws
  exact ⟨hm.finishes.bind hf.finishes,
    Stops.bind hm.finishes hm.stops hf.stops (fun _ _ => rfl) fun _ => hcounts.symm⟩

/-- A part behind one that writes nothing. -/
theorem Writes.silent_bind {m : Eng α} {f : α → Eng β} {us : List Bits} {a : α} {b : β} (hm : Writes s m e [] a e')
    (hcounts : e'.counts = e.counts) (hf : Writes s (f a) e' us b e'') : Writes s (m >>= f) e us b e'' :=
  hm.bind hcounts hf (List.nil_append _).symm

theorem Writes.get_bind {f : State → Eng β} {us : List Bits} {b : β}
    (h : ∀ w, Writes s (f (s.working 0 w e)) e us b e') : Writes s (get >>= f) e us b e' :=
  ⟨fun w hw => by rw [Eng.bind_ok (Eng.get_run _)]; exact (h w).finishes w hw,
    fun w hw => by rw [Eng.bind_ok (Eng.get_run _)]; exact (h w).stops w hw⟩

variable (h : Buffers s)
include h

theorem writeString_writes (u : Bits) : Writes s (writeString u) e [u] () e := by
  have hcap := h.dest
  have hflat : [u].flatten = u := by simp
  constructor
  · intro w hw hnone
    rw [hflat]
    obtain ⟨hfit, hok⟩ := State.stopAt_none hnone hw
    rw [hflat] at hfit hok
    exact writeString_working h u hfit hok
  · intro w hw q err hsome
    have hlen : (word w.length).toNat = w.length := word_toNat (by omega)
    refine ⟨e, rfl, ?_⟩
    rw [hflat]
    rcases State.stopAt_single hsome with ⟨hfull, rfl, rfl⟩ | ⟨i, hi, hfit, rfl, rfl, hok, hbad⟩
    · rw [writeString_full (by simpa [hlen] using hfull), State.working_wpos, hlen, List.take_left]
    · rw [writeString_fits (by simp [hlen]; omega), writeBitList_stops h u hfit hi hok hbad,
        List.take_length_add_append]

theorem writeBit_writes (b : Bool) : Writes s (writeBit b) e [[b]] () e := by
  have hcap := h.dest
  constructor
  · intro w hw hnone
    obtain ⟨hfit, hok⟩ := State.stopAt_none hnone hw
    have hmem : memOk s.params (s.dstAddr.toNat + w.length / 8) = true := by simpa using hok 0 (by simp)
    simp only [List.flatten_cons, List.flatten_nil, List.append_nil, List.length_singleton] at hfit
    rw [writeBit_working h b (by omega), if_pos hmem]
    rfl
  · intro w hw q err hsome
    have hlen : (word w.length).toNat = w.length := word_toNat (by omega)
    refine ⟨e, rfl, ?_⟩
    rcases State.stopAt_single hsome with ⟨hfull, rfl, rfl⟩ | ⟨i, hi, hfit, rfl, rfl, -, hbad⟩
    · rw [List.length_singleton] at hfull
      rw [writeBit_run, if_pos (by simp [hlen]; omega), State.working_wpos, hlen, List.take_left]
    · obtain rfl : i = 0 := by simpa using hi
      rw [List.length_singleton] at hfit
      rw [Nat.add_zero] at hbad ⊢
      rw [writeBit_working h b (by omega), if_neg (by simp [hbad]), List.take_left]

theorem writeCode_writes (t : Fin 16) (x : Nat) : Writes s (writeCode t x) e [(s.slot t).code x] () e :=
  Writes.get_bind fun _ => writeString_writes h _

theorem writeByte_writes (b : Byte) : Writes s (writeByte b) e [natBits 8 b.toNat] () e := writeString_writes h _

theorem writeBytes_writes (bs : List Byte) :
    Writes s (writeBytes bs) e (bs.map (fun b => natBits 8 b.toNat)) () e := by
  induction bs with
  | nil => exact Writes.pure ()
  | cons b bs ih => exact (writeByte_writes h b).bind rfl ih

/-- The hint is the standard uvarint (42_varint.md R215, 30_encoding.md R115). -/
theorem uvEncode_writes {v : Nat} (hv : v < 2 ^ 64) :
    Writes s (uvEncode v) e ((uvarint v).map (fun b => natBits 8 b.toNat)) () e := by
  rw [uvEncode, uvBytes_eq_uvarint _ (hv.trans (by decide))]
  exact writeBytes_writes h _

/-- A bucket varint is its selector, then its field (42_varint.md R211). -/
theorem vEncode_writes {v : Nat} (hv : v < 2 ^ 31) :
    Writes s (vEncode v) e ((vintFields (s.slot vintSlot) v).map Prod.snd) () e := by
  rw [vEncode, if_neg (by omega)]
  exact (writeCode_writes h vintSlot (bucket v)).bind rfl (writeString_writes h _) rfl

theorem emitEnd_writes : Writes s emitEnd e [[true], [false]] () e :=
  (writeBit_writes h true).bind rfl (writeBit_writes h false)

/-- A substitution token (45_lz77.md R297). -/
theorem emitSubst_writes {i cp : Nat} (hi : i < 2 ^ 31) (hcp : cp < 2 ^ 31) :
    Writes s (emitSubst i cp) e (((LzToken.substitution i cp).fields s).map Prod.snd) ()
      { e with substitutions := e.substitutions + 1 } := by
  have hlen : Writes s (vEncode cp >>= fun _ => modifyEng fun e => { e with substitutions := e.substitutions + 1 }) e
      ((vintFields (s.slot vintSlot) cp).map Prod.snd) () { e with substitutions := e.substitutions + 1 } :=
    (vEncode_writes h hcp).bind rfl (Writes.modifyEng _)
  have hpair := (vEncode_writes (e := e) h hi).bind (f := fun _ => _) rfl hlen rfl
  have hbit := (writeBit_writes (e := e) h true).bind (f := fun _ => _) rfl hpair rfl
  have hall := (writeBit_writes (e := e) h true).bind (f := fun _ => _) rfl hbit rfl
  have hfields : ((LzToken.substitution i cp).fields s).map Prod.snd = [[true]] ++ ([[true]] ++
      ((vintFields (s.slot vintSlot) i).map Prod.snd ++ (vintFields (s.slot vintSlot) cp).map Prod.snd)) := by
    simp [LzToken.fields]
  rw [hfields]
  exact hall

end

end Sys2Proof.Machine
end

section
/-! SUPPORT. Proofs: The source bytes and the literal tokens of LZ.COMP -/

namespace Sys2Proof.Machine

/-! ### The source as far as it may be accessed (20_memory.md R64) -/

/-- The first `f` source bytes may be accessed, and the next one, if there is one, may not. -/
structure Opened (s : State) (f : Nat) : Prop extends Buffers s where
  inside : f ≤ s.srcLen.toNat
  opened : ∀ p < f, memOk s.params (s.srcAddr.toNat + p) = true
  shut : f < s.srcLen.toNat → memOk s.params (s.srcAddr.toNat + f) = false

/-- A source that may be accessed as a whole. -/
theorem Opened.of_open {s : State} (h : Buffers s) (hopen : s.sourceOpen = true) : Opened s s.srcLen.toNat :=
  ⟨h, Nat.le_refl _, State.sourceOpen_iff.1 hopen, fun hlt => absurd hlt (Nat.lt_irrefl _)⟩

theorem Opened.of_shut {s : State} {f : Nat} (h : Buffers s) (hshut : s.sourceShut f = true) :
    Opened s f ∧ f < s.srcLen.toNat := by
  simp only [State.sourceShut, Bool.and_eq_true, decide_eq_true_eq, Bool.not_eq_true'] at hshut
  obtain ⟨⟨hlt, hspan⟩, hbad⟩ := hshut
  refine ⟨⟨h, hlt.le, fun p hp => ?_, fun _ => hbad⟩, hlt⟩
  simpa using spanOk_iff.1 hspan (8 * p) (by omega)

/-- Source byte `p` (45_lz77.md R285). -/
def State.byteAt (s : State) (p : Nat) : Byte := s.mem.read (s.srcAddr.toNat + p)

/-- The key at `p` (45_lz77.md R287). -/
def State.keyWord (s : State) (p : Nat) : Word := s.byteAt (p + 3) ++ s.byteAt (p + 2) ++ s.byteAt (p + 1) ++ s.byteAt p

theorem State.source_drop {s : State} {p : Nat} (hp : p < s.srcLen.toNat) :
    s.source.drop p = s.byteAt p :: s.source.drop (p + 1) := by
  rw [List.drop_eq_getElem_cons (by rwa [s.source_length])]
  simp [State.source, Memory.slice, State.byteAt]

/-- The first of some bytes that stand at `p` is byte `p`, the others stand behind it. -/
theorem State.source_cons {s : State} {p : Nat} {y : Byte} {ys : List Byte} (h : y :: ys <+: s.source.drop p) :
    y = s.byteAt p ∧ ys <+: s.source.drop (p + 1) := by
  have hp : p < s.srcLen.toNat := by
    have := h.length_le
    rw [List.length_drop, s.source_length, List.length_cons] at this
    omega
  rw [State.source_drop hp] at h
  exact List.cons_prefix_cons.1 h

/-! ### Parts that end at a source byte that may not be accessed -/

/-- The part `m` writes `us`, if nothing keeps it from doing so, and then ends with ERR_BUS of source byte `f`, the tokens
counted as `c` says. -/
def Breaks {α : Type} (s : State) (f : Nat) (m : Eng α) (e : Engine) (us : List Bits) (c : Nat × Nat) : Prop :=
  ∀ w : Bits, w.length ≤ 8 * s.dstCap.toNat → s.stopAt w.length us = none →
    ∃ e', e'.counts = c ∧
      m.run (s.working 0 w e) = .error (.bus (s.srcAddr.toNat + f)) (s.working 0 (w ++ us.flatten) e')

section
variable {α β : Type} {s : State} {f : Nat} {e e' : Engine} {c : Nat × Nat}

theorem Breaks.bind {m : Eng α} {g : α → Eng β} {us : List Bits} (hm : Breaks s f m e us c) :
    Breaks s f (m >>= g) e us c := fun w hw hnone => by
  obtain ⟨e₁, hc, hrun⟩ := hm w hw hnone
  exact ⟨e₁, hc, Eng.bind_error hrun⟩

theorem Finishes.bind_breaks {m : Eng α} {g : α → Eng β} {us vs ws : List Bits} {a : α} (hm : Finishes s m e us a e')
    (hg : Breaks s f (g a) e' vs c) (hws : ws = us ++ vs := by simp) : Breaks s f (m >>= g) e ws c := by
  subst hws
  intro w hw hnone
  rw [State.stopAt_append, Option.or_eq_none_iff] at hnone
  obtain ⟨hus, hvs⟩ := hnone
  have hfit := (State.stopAt_none hus hw).1
  rw [← List.length_append] at hvs hfit
  obtain ⟨e₁, hc, hrun⟩ := hg _ hfit hvs
  refine ⟨e₁, hc, ?_⟩
  rw [Eng.bind_ok (hm w hw hus), hrun, List.flatten_append, List.append_assoc]

theorem Writes.bind_breaks {m : Eng α} {g : α → Eng β} {us vs ws : List Bits} {a : α} (hm : Writes s m e us a e')
    (hg : Breaks s f (g a) e' vs c) (hws : ws = us ++ vs := by simp) : Breaks s f (m >>= g) e ws c :=
  hm.finishes.bind_breaks hg hws

/-- A part that ends early behind one that writes nothing. -/
theorem Writes.silent_bind_breaks {m : Eng α} {g : α → Eng β} {us : List Bits} {a : α} (hm : Writes s m e [] a e')
    (hg : Breaks s f (g a) e' us c) : Breaks s f (m >>= g) e us c :=
  hm.bind_breaks hg (List.nil_append _).symm

theorem Breaks.get_bind {g : State → Eng β} {us : List Bits} (h : ∀ w, Breaks s f (g (s.working 0 w e)) e us c) :
    Breaks s f (get >>= g) e us c := fun w hw hnone => by
  rw [Eng.bind_ok (Eng.get_run _)]
  exact h w w hw hnone

variable (h : Opened s f)
include h

/-! ### Source bytes and keys (45_lz77.md R285, R287) -/

theorem srcByte_writes {p : Nat} (hp : p < f) : Writes s (srcByte p) e [] (s.byteAt p) e := by
  refine Writes.silent fun w hw => ?_
  have hread := h.read_source hw (show p < s.srcLen.toNat by have := h.inside; omega)
  rw [srcByte, Eng.bind_ok (Eng.get_run _), memRead_run, State.working_params, State.working_srcAddr, State.working_mem,
    if_pos (h.opened p hp), hread]
  rfl

theorem srcByte_breaks (hf : f < s.srcLen.toNat) : Breaks s f (srcByte f) e [] e.counts := fun w _ _ => by
  refine ⟨e, rfl, ?_⟩
  rw [srcByte, Eng.bind_ok (Eng.get_run _), memRead_run, if_neg (by simp [h.shut hf]), List.flatten_nil, List.append_nil]
  rfl

theorem keyAt_writes {p : Nat} (hp : p + 4 ≤ f) : Writes s (keyAt p) e [] (s.keyWord p) e := by
  refine (srcByte_writes h (p := p) (by omega)).silent_bind rfl ?_
  refine (srcByte_writes h (p := p + 1) (by omega)).silent_bind rfl ?_
  refine (srcByte_writes h (p := p + 2) (by omega)).silent_bind rfl ?_
  exact (srcByte_writes h (p := p + 3) (by omega)).silent_bind rfl (Writes.pure _)

theorem keyAt_breaks {p : Nat} (hp : p ≤ f) (hp4 : f < p + 4) (hf : f < s.srcLen.toNat) :
    Breaks s f (keyAt p) e [] e.counts := by
  obtain rfl | hp := Nat.eq_or_lt_of_le hp
  · exact (srcByte_breaks h hf).bind
  refine (srcByte_writes h hp).silent_bind_breaks ?_
  obtain rfl | hp := Nat.eq_or_lt_of_le (Nat.succ_le_of_lt hp)
  · exact (srcByte_breaks h hf).bind
  refine (srcByte_writes h hp).silent_bind_breaks ?_
  obtain rfl | hp := Nat.eq_or_lt_of_le (Nat.succ_le_of_lt hp)
  · exact (srcByte_breaks h hf).bind
  refine (srcByte_writes h hp).silent_bind_breaks ?_
  obtain rfl : f = p + 3 := by omega
  exact (srcByte_breaks h hf).bind

/-! ### Histogram and choice of the candidate (45_lz77.md R294, R295) -/

theorem histogramLoop_writes {ys : List Byte} {p : Nat} (hys : ys <+: s.source.drop p) (hf : p + ys.length ≤ f) :
    Writes s (histogramLoop ys.length p) e [] () { e with hist := ys.foldl countByte e.hist } := by
  induction ys generalizing p e with
  | nil => exact Writes.pure ()
  | cons y ys ih =>
    obtain ⟨rfl, htail⟩ := State.source_cons hys
    rw [List.length_cons] at hf
    refine (srcByte_writes h (by omega)).silent_bind rfl ?_
    exact (Writes.modifyEng _).silent_bind rfl (ih (e := { e with hist := countByte e.hist (s.byteAt p) }) htail (by omega))

theorem histogramLoop_breaks {r p : Nat} (hp : p ≤ f) (hr : f < p + r) (hf : f < s.srcLen.toNat) :
    Breaks s f (histogramLoop r p) e [] e.counts := by
  induction r generalizing p e with
  | zero => omega
  | succ r ih =>
    obtain rfl | hlt := Nat.eq_or_lt_of_le hp
    · exact (srcByte_breaks h hf).bind
    · refine (srcByte_writes h hlt).silent_bind_breaks ?_
      exact (Writes.modifyEng _).silent_bind_breaks
        (ih (e := { e with hist := countByte e.hist (s.byteAt p) }) hlt (by omega))

end

/-- Σ h[v]·L(v) over the counters from symbol `k` on. -/
def weighted (L : Nat → Nat) (k : Nat) (h : List Nat) : Nat := ((h.zipIdx k).map (fun (c, v) => c * L v)).sum

theorem weighted_modify (L : Nat → Nat) {i k : Nat} {h : List Nat} (hi : i < h.length) :
    weighted L k (h.modify i (· + 1)) = weighted L k h + L (k + i) := by
  induction h generalizing i k with
  | nil => cases hi
  | cons c h ih =>
    rcases i with _ | i
    · simp only [weighted, List.modify_zero_cons, List.zipIdx_cons, List.map_cons, List.sum_cons, Nat.add_zero,
        Nat.add_mul, Nat.one_mul]
      omega
    · have hrest := ih (k := k + 1) (i := i) (by simpa using hi)
      rw [show k + 1 + i = k + (i + 1) by omega] at hrest
      simp only [weighted] at hrest
      simp only [weighted, List.modify_succ_cons, List.zipIdx_cons, List.map_cons, List.sum_cons, hrest]
      omega

theorem weighted_zero (L : Nat → Nat) (n k : Nat) : weighted L k (List.replicate n 0) = 0 := by
  induction n generalizing k with
  | zero => rfl
  | succ n ih =>
    have := ih (k + 1)
    simp only [weighted] at this
    simp [weighted, List.replicate_succ, this]

/-- Counting bytes adds up what they weigh. -/
theorem weighted_count (L : Nat → Nat) (ys : List Byte) {h : List Nat} (hlen : h.length = 256) :
    weighted L 0 (ys.foldl countByte h) = weighted L 0 h + (ys.map (fun b => L b.toNat)).sum := by
  induction ys generalizing h with
  | nil => rfl
  | cons y ys ih =>
    have hy : y.toNat < h.length := hlen ▸ y.isLt
    rw [List.foldl_cons, ih (by rw [countByte, List.length_modify, hlen]), countByte, weighted_modify L hy, Nat.zero_add,
      List.map_cons, List.sum_cons, Nat.add_assoc]

/-- The histogram of a run (45_lz77.md R294). -/
def runHist (run : List Byte) : List Nat := run.foldl countByte (List.replicate 256 0)

theorem cost_runHist (s : State) (run : List Byte) (k : Nat) : cost s (runHist run) k =
    (run.map (fun b => (s.slot (candSlot k)).codeLen b.toNat)).sum + (s.slot metaSlot).codeLen k := by
  have hcount := weighted_count (s.slot (candSlot k)).codeLen run (List.length_replicate (n := 256) (a := 0))
  rw [weighted_zero, Nat.zero_add] at hcount
  rw [← hcount]
  rfl

theorem selectFrom_eq_foldl (s : State) (h : List Nat) (ks : List Nat) (best : Nat) :
    selectFrom s h ks best = ks.foldl (fun best k => if cost s h k < cost s h best then k else best) best := by
  induction ks generalizing best with
  | nil => rfl
  | cons k ks ih => rw [selectFrom, ih, List.foldl_cons]

/-- The coder's choice from the histogram is the choice by the codes' lengths. -/
theorem select_runHist (s : State) (run : List Byte) : select s (runHist run) = bestCandidate s run := by
  rw [select, selectFrom_eq_foldl]
  simp only [cost_runHist]
  rfl

/-! ### Literal tokens (45_lz77.md R293) -/

section
variable {s : State} {f : Nat} {e : Engine} (h : Opened s f)
include h

theorem literalLoop_writes (k : Nat) {ys : List Byte} {p : Nat} (hys : ys <+: s.source.drop p) (hf : p + ys.length ≤ f) :
    Writes s (literalLoop k ys.length p) e (ys.map (fun b => (s.slot (candSlot k)).code b.toNat)) () e := by
  induction ys generalizing p with
  | nil => exact Writes.pure ()
  | cons y ys ih =>
    obtain ⟨rfl, htail⟩ := State.source_cons hys
    rw [List.length_cons] at hf
    refine (srcByte_writes h (by omega)).silent_bind rfl ?_
    exact (writeCode_writes h.toBuffers _ _).bind rfl (ih htail (by omega))

theorem histogram_writes {a b : Nat} {run : List Byte} (hrun : run <+: s.source.drop a) (hlen : run.length = b - a)
    (hf : a + run.length ≤ f) : Writes s (histogram a b) e [] () { e with hist := runHist run } := by
  rw [histogram, ← hlen]
  exact (Writes.modifyEng _).silent_bind rfl
    (histogramLoop_writes (e := { e with hist := List.replicate 256 0 }) h hrun hf)

/-- The engine-internal state after a literal token. -/
def Engine.afterLiteral (run : List Byte) (e : Engine) : Engine :=
  { e with hist := runHist run, literals := e.literals + 1 }

theorem emitLiteral_writes {a b : Nat} (hab : a ≤ b) (hb : b ≤ f) :
    Writes s (emitLiteral a b) e (((literalToken s s.source a b).fields s).map Prod.snd) ()
      (e.afterLiteral ((s.source.drop a).take (b - a))) := by
  have hinside := h.inside
  have hsmall := h.source
  have hprefix : (s.source.drop a).take (b - a) <+: s.source.drop a := List.take_prefix _ _
  have hlen : ((s.source.drop a).take (b - a)).length = b - a := by
    rw [List.length_take, List.length_drop, s.source_length]
    omega
  rw [literalToken]
  generalize (s.source.drop a).take (b - a) = run at hprefix hlen ⊢
  have hcodes := literalLoop_writes (e := { e with hist := runHist run }) h (bestCandidate s run) hprefix (by omega)
  rw [hlen] at hcodes
  have hrun := hcodes.bind (f := fun _ => modifyEng fun e => { e with literals := e.literals + 1 }) rfl (Writes.modifyEng _)
    (List.append_nil _).symm
  have hsel := (writeCode_writes (e := { e with hist := runHist run }) h.toBuffers metaSlot (bestCandidate s run)).bind
    (f := fun _ => literalLoop (bestCandidate s run) (b - a) a >>= fun _ =>
      modifyEng fun e => { e with literals := e.literals + 1 }) rfl hrun rfl
  have hfields : ((LzToken.literal (bestCandidate s run) run).fields s).map Prod.snd =
      [[false]] ++ ((vintFields (s.slot vintSlot) (b - a)).map Prod.snd ++ ([(s.slot metaSlot).code (bestCandidate s run)] ++
        run.map (fun b => (s.slot (candSlot (bestCandidate s run))).code b.toNat))) := by
    simp [LzToken.fields, hlen]
  rw [hfields]
  refine (writeBit_writes h.toBuffers false).bind rfl ?_ rfl
  refine (vEncode_writes h.toBuffers (by omega)).bind rfl ?_ rfl
  refine (histogram_writes h hprefix hlen (by omega)).silent_bind rfl ?_
  refine Writes.get_bind fun w => Writes.get_bind fun w' => ?_
  rw [State.working_eng, show select (s.working 0 w _) = select s from rfl, select_runHist]
  exact hsel

/-- A literal token whose run holds the byte that may not be accessed ends before its selector. -/
theorem emitLiteral_breaks {a b : Nat} (ha : a ≤ f) (hb : f < b) (hn : b ≤ s.srcLen.toNat) :
    Breaks s f (emitLiteral a b) e ([false] :: (vintFields (s.slot vintSlot) (b - a)).map Prod.snd) e.counts := by
  have hsmall := h.source
  have hhist : Breaks s f (histogram a b) e [] e.counts := by
    refine (Writes.modifyEng _).silent_bind_breaks ?_
    exact histogramLoop_breaks (e := { e with hist := List.replicate 256 0 }) h ha (by omega) (by omega)
  refine (writeBit_writes h.toBuffers false).bind_breaks ?_ rfl
  exact (vEncode_writes h.toBuffers (by omega)).bind_breaks hhist.bind (List.append_nil _).symm

end

end Sys2Proof.Machine
end

section
/-! SUPPORT. Proofs: The scan of LZ.COMP -/

namespace Sys2Proof.Machine

/-! ### Tokens written and counted (45_lz77.md R298) -/

/-- The fields of tokens as they are written. -/
def tokenUnits (s : State) (ts : List LzToken) : List Bits := (ts.flatMap (LzToken.fields s)).map Prod.snd

@[simp] theorem tokenUnits_nil (s : State) : tokenUnits s [] = [] := rfl

theorem tokenUnits_append (s : State) (ts ts' : List LzToken) :
    tokenUnits s (ts ++ ts') = tokenUnits s ts ++ tokenUnits s ts' := by
  simp [tokenUnits]

theorem tokenUnits_singleton (s : State) (k : LzToken) : tokenUnits s [k] = (k.fields s).map Prod.snd := by
  simp [tokenUnits]

theorem tokenUnits_flatten (s : State) (ts : List LzToken) : (tokenUnits s ts).flatten = (ts.map (LzToken.bits s)).flatten := by
  induction ts with
  | nil => rfl
  | cons k ts ih =>
    rw [← List.singleton_append, tokenUnits_append, List.flatten_append, tokenUnits_singleton, fields_flatten, ih]
    simp

theorem LzToken.bits_pos (s : State) (k : LzToken) : 0 < (k.bits s).length := by
  cases k <;> simp [LzToken.bits]

/-- The counters of literals and substitutions after the tokens `ts`. -/
def addTokens (c : Nat × Nat) (ts : List LzToken) : Nat × Nat :=
  (c.1 + ts.countP (fun k => !k.isSubstitution), c.2 + ts.countP LzToken.isSubstitution)

@[simp] theorem addTokens_nil (c : Nat × Nat) : addTokens c [] = c := rfl

theorem addTokens_append (c : Nat × Nat) (ts ts' : List LzToken) :
    addTokens (addTokens c ts) ts' = addTokens c (ts ++ ts') := by
  simp [addTokens, Nat.add_assoc]

/-- Of units in too little room for the first list, none of the second counts. -/
theorem unitsWithin_append_lt {us : List Bits} {n : Nat} (h : n < us.flatten.length) (vs : List Bits) :
    unitsWithin n (us ++ vs) = unitsWithin n us ∧ unitsWithin n us ≤ us.length := by
  induction us generalizing n with
  | nil => cases h
  | cons u us ih =>
    rw [List.flatten_cons, List.length_append] at h
    rw [List.cons_append, unitsWithin, unitsWithin, List.length_cons]
    split_ifs with hu
    · obtain ⟨heq, hle⟩ := ih (n := n - u.length) (by omega)
      exact ⟨by rw [heq], by omega⟩
    · exact ⟨rfl, Nat.zero_le _⟩

/-- Units that all have room count, and then those behind them. -/
theorem unitsWithin_append_ge {us : List Bits} {n : Nat} (h : us.flatten.length ≤ n) (vs : List Bits) :
    unitsWithin n (us ++ vs) = us.length + unitsWithin (n - us.flatten.length) vs := by
  induction us generalizing n with
  | nil => simp
  | cons u us ih =>
    rw [List.flatten_cons, List.length_append] at h
    rw [List.cons_append, unitsWithin, if_pos (by omega), ih (by omega), List.flatten_cons, List.length_append,
      List.length_cons, Nat.sub_sub]
    omega

/-- The tokens that stand whole in the first `n` bits of tokens. -/
def wholeTokens (s : State) (ts : List LzToken) (n : Nat) : List LzToken :=
  ts.take (unitsWithin n (ts.map (LzToken.bits s)))

theorem wholeTokens_append_lt {s : State} {ts : List LzToken} {n : Nat} (h : n < (tokenUnits s ts).flatten.length)
    (ts' : List LzToken) : wholeTokens s (ts ++ ts') n = wholeTokens s ts n := by
  rw [tokenUnits_flatten] at h
  obtain ⟨heq, hle⟩ := unitsWithin_append_lt h (ts'.map (LzToken.bits s))
  rw [List.length_map] at hle
  rw [wholeTokens, List.map_append, heq, List.take_append_of_le_length hle, wholeTokens]

theorem wholeTokens_append_ge {s : State} {ts : List LzToken} {n : Nat} (h : (tokenUnits s ts).flatten.length ≤ n)
    (ts' : List LzToken) :
    wholeTokens s (ts ++ ts') n = ts ++ wholeTokens s ts' (n - (tokenUnits s ts).flatten.length) := by
  rw [tokenUnits_flatten] at h ⊢
  rw [wholeTokens, List.map_append, unitsWithin_append_ge h, List.length_map, List.take_length_add_append, wholeTokens]

/-- In less than the first token's bits no token stands whole. -/
theorem wholeTokens_head {s : State} {k : LzToken} {ts : List LzToken} {n : Nat} (h : n < (k.bits s).length) :
    wholeTokens s (k :: ts) n = [] := by
  rw [wholeTokens, List.map_cons, unitsWithin, if_neg (by omega), List.take_zero]

/-- The part `m` writes the tokens `ts` and counts them; where a field cannot be written it has counted the tokens that
stand whole. -/
structure Emits {α : Type} (s : State) (m : Eng α) (e : Engine) (ts : List LzToken) (a : α) (e' : Engine) : Prop where
  counted : e'.counts = addTokens e.counts ts
  finishes : Finishes s m e (tokenUnits s ts) a e'
  stops : Stops s m e (tokenUnits s ts) fun n => addTokens e.counts (wholeTokens s ts n)

section
variable {α β : Type} {s : State} {e e' e'' : Engine}

theorem Emits.silent {m : Eng α} {a : α} (hm : Writes s m e [] a e') (hc : e'.counts = e.counts) :
    Emits s m e [] a e' := ⟨hc, hm.finishes, nofun⟩

theorem Emits.token {m : Eng α} {k : LzToken} {a : α} (hm : Writes s m e ((k.fields s).map Prod.snd) a e')
    (hc : e'.counts = addTokens e.counts [k]) : Emits s m e [k] a e' := by
  rw [← tokenUnits_singleton] at hm
  refine ⟨hc, hm.finishes, fun w hw q err hsome => ?_⟩
  obtain ⟨hle, hq, -⟩ := State.stopAt_some hsome hw
  rw [tokenUnits_singleton, fields_flatten] at hq
  beta_reduce
  rw [wholeTokens_head (show q - w.length < (k.bits s).length by omega)]
  exact hm.stops w hw q err hsome

theorem Emits.bind {m : Eng α} {g : α → Eng β} {ts ts' us : List LzToken} {a : α} {b : β} (hm : Emits s m e ts a e')
    (hg : Emits s (g a) e' ts' b e'') (hus : us = ts ++ ts' := by simp) : Emits s (m >>= g) e us b e'' := by
  subst hus
  refine ⟨by rw [hg.counted, hm.counted, addTokens_append], ?_, ?_⟩
  · rw [tokenUnits_append]
    exact hm.finishes.bind hg.finishes
  · rw [tokenUnits_append]
    refine Stops.bind hm.finishes hm.stops hg.stops (fun n hn => by rw [wholeTokens_append_lt hn]) fun n => ?_
    rw [wholeTokens_append_ge (Nat.le_add_right _ _), hm.counted, addTokens_append, Nat.add_sub_cancel_left]

/-- Tokens behind a part that writes nothing. -/
theorem Emits.silent_bind {m : Eng α} {g : α → Eng β} {ts : List LzToken} {a : α} {b : β} (hm : Writes s m e [] a e')
    (hc : e'.counts = e.counts) (hg : Emits s (g a) e' ts b e'') : Emits s (m >>= g) e ts b e'' :=
  (Emits.silent hm hc).bind hg (List.nil_append _).symm

theorem Emits.get_bind {g : State → Eng β} {ts : List LzToken} {b : β}
    (h : ∀ w, Emits s (g (s.working 0 w e)) e ts b e') : Emits s (get >>= g) e ts b e' :=
  ⟨(h []).counted, fun w hw => by rw [Eng.bind_ok (Eng.get_run _)]; exact (h w).finishes w hw,
    fun w hw => by rw [Eng.bind_ok (Eng.get_run _)]; exact (h w).stops w hw⟩

end

/-! ### Keys (45_lz77.md R287, 10_state.md R46) -/

theorem append_inj {n m : Nat} {a x : BitVec n} {b y : BitVec m} (h : a ++ b = x ++ y) : a = x ∧ b = y := by
  have hleft := congrArg (BitVec.extractLsb' m n) h
  have hright := congrArg (BitVec.extractLsb' 0 m) h
  rw [BitVec.extractLsb'_append_eq_left, BitVec.extractLsb'_append_eq_left] at hleft
  rw [BitVec.extractLsb'_append_eq_right, BitVec.extractLsb'_append_eq_right] at hright
  exact ⟨hleft, hright⟩

theorem State.source_take_four {s : State} {p : Nat} (hp : p + 4 ≤ s.srcLen.toNat) :
    (s.source.drop p).take 4 = [s.byteAt p, s.byteAt (p + 1), s.byteAt (p + 2), s.byteAt (p + 3)] := by
  rw [State.source_drop (by omega), State.source_drop (by omega), State.source_drop (by omega),
    State.source_drop (by omega)]
  rfl

/-- Two keys are equal exactly where the same four bytes stand. -/
theorem State.keyWord_eq_iff {s : State} {p q : Nat} (hp : p + 4 ≤ s.srcLen.toNat) (hq : q + 4 ≤ s.srcLen.toNat) :
    s.keyWord p = s.keyWord q ↔ (s.source.drop p).take 4 = (s.source.drop q).take 4 := by
  rw [State.source_take_four hp, State.source_take_four hq]
  constructor
  · intro h
    obtain ⟨h, h0⟩ := append_inj h
    obtain ⟨h, h1⟩ := append_inj h
    obtain ⟨h3, h2⟩ := append_inj h
    rw [h0, h1, h2, h3]
  · intro h
    simp only [List.cons.injEq, and_true] at h
    obtain ⟨h0, h1, h2, h3⟩ := h
    rw [State.keyWord, State.keyWord, h0, h1, h2, h3]

/-- The engine-internal state `e` is that of a scan from `begin = first` and `end = last` on, with the offsets recorded so
far, latest first (45_lz77.md R286, R288). -/
structure ScanState (s : State) (e : Engine) (first last : Nat) (recorded : List Nat) : Prop where
  start : e.scanBegin = first
  cursor : e.scanEnd = last
  keys : ∀ k, keyLookup k e.keyMap = recorded.find? (fun p => s.keyWord p == k)
  before : ∀ p ∈ recorded, p + 4 ≤ last

/-- A match in the key map is a match in the source. -/
theorem ScanState.lookup {s : State} {e : Engine} {first last : Nat} {recorded : List Nat}
    (hscan : ScanState s e first last recorded) (hlast : last + 4 ≤ s.srcLen.toNat) :
    keyLookup (s.keyWord last) e.keyMap = matchAt s.source recorded last := by
  rw [hscan.keys, matchAt, if_pos (by rwa [s.source_length])]
  refine List.find?_congr fun p hp => ?_
  have := hscan.before p hp
  rw [Bool.eq_iff_iff, beq_iff_eq, beq_iff_eq]
  exact State.keyWord_eq_iff (by omega) hlast

/-- The engine-internal state with an offset recorded under a key (45_lz77.md R291). -/
def Engine.withKey (k : Word) (p : Nat) (e : Engine) : Engine := { e with keyMap := keyStore k p e.keyMap }

section
variable {s : State} {f : Nat} {e : Engine} (h : Opened s f) {first last : Nat} {recorded : List Nat}
  (hscan : ScanState s e first last recorded)
include h hscan

/-- Step 1 of the scan records the key four bytes back. -/
theorem recordKey_writes (hlast : last < 4 ∨ last ≤ f) :
    ∃ e', Writes s recordKey e [] () e' ∧ e'.counts = e.counts ∧ ScanState s e' first last (seenAt last recorded) := by
  by_cases hfour : 4 ≤ last
  · refine ⟨e.withKey (s.keyWord (last - 4)) (last - 4), ?_, rfl,
      ⟨hscan.start, hscan.cursor, fun k => ?_, fun p hp => ?_⟩⟩
    · refine Writes.get_bind fun w => ?_
      rw [State.working_eng, hscan.cursor, if_pos hfour]
      exact (keyAt_writes h (p := last - 4) (by omega)).silent_bind rfl (Writes.modifyEng _)
    · rw [seenAt, if_pos hfour, List.find?_cons, Engine.withKey]
      by_cases hk : k = s.keyWord (last - 4)
      · rw [hk, keyLookup_keyStore_same, beq_self_eq_true]
      · rw [keyLookup_keyStore_other hk, hscan.keys, beq_eq_false_iff_ne.2 (Ne.symm hk)]
    · rw [seenAt, if_pos hfour, List.mem_cons] at hp
      rcases hp with rfl | hp
      · omega
      · exact hscan.before p hp
  · refine ⟨e, Writes.get_bind fun w => ?_, rfl, ?_⟩
    · rw [State.working_eng, hscan.cursor, if_neg hfour]
      exact Writes.pure ()
    · rw [seenAt, if_neg hfour]
      exact hscan

theorem recordKey_breaks (hfour : 4 ≤ last) (hlow : last ≤ f + 4) (hhigh : f < last) (hf : f < s.srcLen.toNat) :
    Breaks s f recordKey e [] e.counts := by
  refine Breaks.get_bind fun w => ?_
  rw [State.working_eng, hscan.cursor, if_pos hfour]
  exact (keyAt_breaks h (p := last - 4) (by omega) (by omega) hf).bind

/-- Step 2 of the scan finds the match, if there is one. -/
theorem lookupKey_writes (hlast : last + 4 ≤ s.srcLen.toNat → last + 4 ≤ f) :
    Writes s (lookupKey s.srcLen.toNat) e [] (matchAt s.source recorded last) e := by
  refine Writes.get_bind fun w => ?_
  rw [State.working_eng, hscan.cursor]
  by_cases hfour : last + 4 ≤ s.srcLen.toNat
  · rw [if_pos hfour, ← hscan.lookup hfour]
    exact (keyAt_writes h (hlast hfour)).silent_bind rfl (Writes.get_bind fun _ => Writes.pure _)
  · rw [if_neg hfour, matchAt, if_neg (by rwa [s.source_length])]
    exact Writes.pure none

theorem lookupKey_breaks (hlast : last + 4 ≤ s.srcLen.toNat) (hlow : last ≤ f) (hhigh : f < last + 4) :
    Breaks s f (lookupKey s.srcLen.toNat) e [] e.counts := by
  refine Breaks.get_bind fun w => ?_
  rw [State.working_eng, hscan.cursor, if_pos hlast]
  exact (keyAt_breaks h hlow hhigh (by omega)).bind

omit hscan in
/-- The common length is counted byte by byte, up to the end of the source or a byte that may not be accessed. -/
theorem commonFrom_run {i cp : Nat} (hi : i < last) (hcp : last + cp ≤ f) :
    (∃ n, n = cp + commonPrefix (s.source.drop (i + cp)) (s.source.drop (last + cp)) ∧ last + n ≤ f ∧
      Writes s (commonFrom i last (s.srcLen.toNat - (last + cp)) cp) e [] n e) ∨
    (f < s.srcLen.toNat ∧ Breaks s f (commonFrom i last (s.srcLen.toNat - (last + cp)) cp) e [] e.counts) := by
  have hinside := h.inside
  generalize hfuel : s.srcLen.toNat - (last + cp) = fuel
  induction fuel generalizing cp with
  | zero =>
    refine .inl ⟨cp, ?_, hcp, Writes.pure cp⟩
    have hnil : s.source.drop (last + cp) = [] := List.drop_of_length_le (by rw [s.source_length]; omega)
    rw [hnil]
    cases s.source.drop (i + cp) <;> rfl
  | succ fuel ih =>
    have hx := srcByte_writes (e := e) h (p := i + cp) (by omega)
    obtain rfl | hlt := Nat.eq_or_lt_of_le hcp
    · refine .inr ⟨by omega, ?_⟩
      rw [commonFrom]
      exact hx.silent_bind_breaks (srcByte_breaks h (by omega)).bind
    · have hy := srcByte_writes (e := e) h hlt
      rw [State.source_drop (show i + cp < s.srcLen.toNat by omega), State.source_drop (show last + cp < s.srcLen.toNat by omega),
        commonPrefix, commonFrom]
      by_cases hsame : s.byteAt (i + cp) = s.byteAt (last + cp)
      · rcases ih (cp := cp + 1) (by omega) (by omega) with ⟨n, hn, hle, hrun⟩ | ⟨hf, hrun⟩
        · refine .inl ⟨n, by rw [hn, if_pos hsame]; simp only [Nat.add_assoc]; omega, hle, ?_⟩
          refine hx.silent_bind rfl (hy.silent_bind rfl ?_)
          rw [if_pos hsame]
          exact hrun
        · refine .inr ⟨hf, hx.silent_bind_breaks (hy.silent_bind_breaks ?_)⟩
          rw [if_pos hsame]
          exact hrun
      · refine .inl ⟨cp, by rw [if_neg hsame, Nat.add_zero], by omega, hx.silent_bind rfl (hy.silent_bind rfl ?_)⟩
        rw [if_neg hsame]
        exact Writes.pure cp

end

end Sys2Proof.Machine
end

section
/-! SUPPORT. Proofs: LZ.COMP from the first round of the scan to the result -/

namespace Sys2Proof.Machine

/-! ### One round of the scan (45_lz77.md R288) -/

/-- Where the scan can stand: no byte before `end` is shut, or the source ends before a key at `end` and the shut byte is
met when the key four bytes back is recorded. -/
def Reach (s : State) (f last : Nat) : Prop :=
  last ≤ f ∨ (f < last ∧ f < s.srcLen.toNat ∧ s.srcLen.toNat < last + 4 ∧ last ≤ f + 4)

/-- A match is at an offset recorded before. -/
theorem matchAt_mem {xs : List Byte} {recorded : List Nat} {last i : Nat} (h : matchAt xs recorded last = some i) :
    i ∈ recorded ∧ last + 4 ≤ xs.length := by
  rw [matchAt] at h
  split_ifs at h with hlast
  exact ⟨List.mem_of_find?_eq_some h, hlast⟩

/-- How a round of the scan from `begin = first`, `end = last` ends: without a match, with one, or at the byte that may
not be accessed. -/
inductive RoundEnds (s : State) (f : Nat) (e : Engine) (first last : Nat) (recorded : List Nat) : Prop
  | missed (e' : Engine) (nothing : matchAt s.source (seenAt last recorded) last = none) (reach : Reach s f (last + 1))
      (scan : ScanState s e' first (last + 1) (seenAt last recorded))
      (run : Emits s (scanRound s.srcLen.toNat) e [] () e')
  | matched (i cp : Nat) (e' : Engine) (found : matchAt s.source (seenAt last recorded) last = some i)
      (common : cp = commonPrefix (s.source.drop i) (s.source.drop last)) (reach : last + cp ≤ f)
      (scan : ScanState s e' (last + cp) (last + cp) (seenAt last recorded))
      (run : Emits s (scanRound s.srcLen.toNat) e [literalToken s s.source first last, .substitution i cp] () e')
  | broken (shut : f < s.srcLen.toNat) (run : Breaks s f (scanRound s.srcLen.toNat) e [] e.counts)

section
variable {s : State} {f : Nat} {e : Engine} (h : Opened s f) {first last : Nat} {recorded : List Nat}
  (hscan : ScanState s e first last recorded) (hfirst : first ≤ last)
include h hscan hfirst

/-- The tokens of a match: the literal run before it, and the substitution. -/
theorem matchTokens_emits {i cp : Nat} (hcp : last + cp ≤ f) (hi : i < last) :
    ∃ e', Emits s (do
        emitLiteral (← get).eng.scanBegin last
        emitSubst i cp
        modifyEng (fun e => { e with scanBegin := last + cp, scanEnd := last + cp })) e
        [literalToken s s.source first last, .substitution i cp] () e' ∧
      e'.keyMap = e.keyMap ∧ e'.scanBegin = last + cp ∧ e'.scanEnd = last + cp := by
  have hsmall := h.source
  have hinside := h.inside
  let run := (s.source.drop first).take (last - first)
  let e₁ := e.afterLiteral run
  let e₂ : Engine := { e₁ with substitutions := e₁.substitutions + 1 }
  let e₃ : Engine := { e₂ with scanBegin := last + cp, scanEnd := last + cp }
  refine ⟨e₃, Emits.get_bind fun w => ?_, rfl, rfl, rfl⟩
  rw [State.working_eng, hscan.start]
  have hlit : Emits s (emitLiteral first last) e [literalToken s s.source first last] () e₁ :=
    Emits.token (emitLiteral_writes h hfirst (by omega)) rfl
  have hsub : Emits s (emitSubst i cp) e₁ [.substitution i cp] () e₂ :=
    Emits.token (emitSubst_writes h.toBuffers (by omega) (by omega)) rfl
  have hmove : Emits s (modifyEng fun e => { e with scanBegin := last + cp, scanEnd := last + cp }) e₂ [] () e₃ :=
    Emits.silent (Writes.modifyEng _) rfl
  exact hlit.bind (hsub.bind hmove rfl) rfl

theorem scanRound_run (hreach : Reach s f last) (hmore : last < s.srcLen.toNat) :
    RoundEnds s f e first last recorded := by
  by_cases hrecord : last < 4 ∨ last ≤ f
  · obtain ⟨e₁, hrec, hc₁, hscan₁⟩ := recordKey_writes h hscan hrecord
    by_cases hlook : last + 4 ≤ s.srcLen.toNat → last + 4 ≤ f
    · have hlookup := lookupKey_writes h hscan₁ hlook
      rcases hmatch : matchAt s.source (seenAt last recorded) last with _ | i
      · let e₂ : Engine := { e₁ with scanEnd := e₁.scanEnd + 1 }
        rw [hmatch] at hlookup
        refine .missed e₂ hmatch ?_ ⟨hscan₁.start, by rw [← hscan₁.cursor], hscan₁.keys,
          fun p hp => (hscan₁.before p hp).trans (Nat.le_succ _)⟩ ?_
        · have := h.inside
          unfold Reach at hreach ⊢
          omega
        · exact Emits.silent_bind hrec hc₁ (Emits.silent_bind hlookup rfl (Emits.silent (Writes.modifyEng _) rfl))
      · obtain ⟨hmem, hin⟩ := matchAt_mem hmatch
        rw [s.source_length] at hin
        have hi := hscan₁.before i hmem
        rw [hmatch] at hlookup
        rcases commonFrom_run (e := e₁) (cp := 0) h (last := last) (i := i) (by omega) (by omega) with
          ⟨cp, hcp, hle, hrun⟩ | ⟨hf, hrun⟩
        · obtain ⟨e₂, htokens, hkeys, hbegin, hend⟩ := matchTokens_emits h hscan₁ hfirst hle (show i < last by omega)
          rw [Nat.zero_add] at hcp
          refine .matched i cp e₂ hmatch hcp hle ⟨hbegin, hend, fun k => by rw [hkeys, hscan₁.keys],
            fun p hp => (hscan₁.before p hp).trans (Nat.le_add_right _ _)⟩ ?_
          have hround := Emits.silent_bind (g := fun cp => do
            emitLiteral (← get).eng.scanBegin last
            emitSubst i cp
            modifyEng (fun e => { e with scanBegin := last + cp, scanEnd := last + cp })) hrun rfl htokens
          refine Emits.silent_bind hrec hc₁ (Emits.silent_bind hlookup rfl (Emits.get_bind fun w => ?_))
          rw [State.working_eng, hscan₁.cursor]
          exact hround
        · refine .broken hf (hc₁ ▸ hrec.silent_bind_breaks (hlookup.silent_bind_breaks (Breaks.get_bind fun w => ?_)))
          rw [State.working_eng, hscan₁.cursor]
          exact Breaks.bind hrun
    · have hf := h.inside
      unfold Reach at hreach
      exact .broken (by omega) (hc₁ ▸ hrec.silent_bind_breaks
        (lookupKey_breaks h hscan₁ (by omega) (by omega) (by omega)).bind)
  · unfold Reach at hreach
    exact .broken (by omega) (recordKey_breaks h hscan (by omega) (by omega) (by omega) (by omega)).bind

/-! ### All rounds -/

/-- How the rounds of the scan end: all of them done, the bytes from `begin` on left for the final literal; or at the byte
that may not be accessed, with tokens of the scan written before. -/
inductive LoopEnds (s : State) (f : Nat) (m : Eng Unit) (e : Engine) (tokens : List LzToken) : Prop
  | done (ts : List LzToken) (e' : Engine) (split : tokens = ts ++ finalTokens s s.source e'.scanBegin)
      (reach : e'.scanBegin ≤ f) (run : Emits s m e ts () e')
  | broken (shut : f < s.srcLen.toNat) (ts more : List LzToken) (split : tokens = ts ++ more)
      (run : Breaks s f m e (tokenUnits s ts) (addTokens e.counts ts))

end

/-- Tokens written before the rounds that are left. -/
theorem LoopEnds.after {s : State} {f : Nat} {m : Eng Unit} {g : Unit → Eng Unit} {e e' : Engine} {ts tokens : List LzToken}
    (hm : Emits s m e ts () e') (hg : LoopEnds s f (g ()) e' tokens) : LoopEnds s f (m >>= g) e (ts ++ tokens) := by
  cases hg with
  | done ts' e'' split reach run => exact .done (ts ++ ts') e'' (by rw [split, List.append_assoc]) reach (hm.bind run rfl)
  | broken shut ts' more split run =>
    refine .broken shut (ts ++ ts') more (by rw [split, List.append_assoc]) ?_
    rw [hm.counted, addTokens_append] at run
    exact hm.finishes.bind_breaks run (tokenUnits_append s ts ts')

/-- The rounds as they run from the state the command is in. -/
theorem LoopEnds.congr {s : State} {f : Nat} {m m' : Eng Unit} {e : Engine} {tokens : List LzToken}
    (hm : LoopEnds s f m e tokens) (heq : ∀ w, m'.run (s.working 0 w e) = m.run (s.working 0 w e)) :
    LoopEnds s f m' e tokens := by
  cases hm with
  | done ts e' split reach run =>
    exact .done ts e' split reach ⟨run.counted, fun w => heq w ▸ run.finishes w, fun w => heq w ▸ run.stops w⟩
  | broken shut ts more split run => exact .broken shut ts more split fun w => heq w ▸ run w

section
variable {s : State} {f : Nat} (h : Opened s f)
include h

theorem scanLoop_run (fuel : Nat) {e : Engine} {first last : Nat} {recorded : List Nat}
    (hscan : ScanState s e first last recorded) (hfirst : first ≤ last) (hf : first ≤ f) (hreach : Reach s f last) :
    LoopEnds s f (scanLoop s.srcLen.toNat fuel) e (scanFrom s s.source fuel first last recorded) := by
  induction fuel generalizing e first last recorded with
  | zero =>
    exact .done [] e (by rw [hscan.start]; rfl) (by rwa [hscan.start]) (Emits.silent (Writes.pure ()) rfl)
  | succ fuel ih =>
    by_cases hmore : last < s.srcLen.toNat
    · have hmore' : last < s.source.length := by rwa [s.source_length]
      refine LoopEnds.congr (m := scanRound s.srcLen.toNat >>= fun _ => scanLoop s.srcLen.toNat fuel) ?_ fun w => ?_
      · cases scanRound_run h hscan hfirst hreach hmore with
        | missed e' nothing reach scan run =>
          rw [scanFrom_none _ _ _ _ _ _ hmore' nothing]
          exact LoopEnds.after run (ih scan (by omega) hf reach)
        | matched i cp e' found common reach scan run =>
          rw [scanFrom_match _ _ _ _ _ _ hmore' found, ← common]
          exact LoopEnds.after run (ih scan (Nat.le_refl _) reach (.inl reach))
        | broken shut run => exact .broken shut [] _ rfl run.bind
      · rw [scanLoop, Eng.bind_ok (Eng.get_run _), State.working_eng, hscan.cursor, if_pos hmore]
    · refine LoopEnds.congr (m := pure ()) ?_ fun w => ?_
      · rw [scanFrom_end _ _ _ _ _ _ (by rwa [s.source_length])]
        exact .done [] e (by rw [hscan.start]; rfl) (by rwa [hscan.start]) (Emits.silent (Writes.pure ()) rfl)
      · rw [scanLoop, Eng.bind_ok (Eng.get_run _), State.working_eng, hscan.cursor, if_neg hmore]

/-! ### The final literal (45_lz77.md R292) -/

/-- The scan without its End token. -/
def scanBody (n : Nat) : Eng Unit := do
  scanLoop n n
  let first := (← get).eng.scanBegin
  if first < n then emitLiteral first n

omit h in
theorem scan_eq (n : Nat) : scan n = scanBody n >>= fun _ => emitEnd := by
  simp only [scan, scanBody, bind_assoc]
  congr
  funext _
  congr
  funext t
  split_ifs
  · rfl
  · exact (pure_bind (m := Eng) () fun _ => emitEnd).symm

omit h in
theorem scanState_start (s : State) : ScanState s Engine.idle 0 0 [] := ⟨rfl, rfl, fun _ => rfl, nofun⟩

omit h in
/-- Of a source that may be accessed the scan writes all tokens. -/
theorem scanBody_emits (h : Opened s s.srcLen.toNat) :
    ∃ e', Emits s (scanBody s.srcLen.toNat) Engine.idle (scanTokens s s.source) () e' := by
  have hloop := scanLoop_run h s.srcLen.toNat (scanState_start s) (Nat.le_refl 0) (Nat.zero_le _) (.inl (Nat.zero_le _))
  rw [scanTokens, s.source_length]
  cases hloop with
  | broken shut => exact absurd shut (Nat.lt_irrefl _)
  | done ts e' split reach run =>
    rw [split, finalTokens, s.source_length]
    by_cases hmore : e'.scanBegin < s.srcLen.toNat
    · obtain ⟨e'', hlit⟩ : ∃ e'', Emits s (emitLiteral e'.scanBegin s.srcLen.toNat) e'
          [literalToken s s.source e'.scanBegin s.srcLen.toNat] () e'' :=
        ⟨_, Emits.token (emitLiteral_writes h reach (Nat.le_refl _)) rfl⟩
      refine ⟨e'', run.bind (Emits.get_bind fun w => ?_) rfl⟩
      rw [State.working_eng, if_pos hmore, if_pos hmore]
      exact hlit
    · refine ⟨e', run.bind (Emits.get_bind fun w => ?_) rfl⟩
      rw [State.working_eng, if_neg hmore, if_neg hmore]
      exact Emits.silent (Writes.pure ()) rfl

omit h in
theorem bestCandidate_lt (s : State) (run : List Byte) : bestCandidate s run < 4 := by
  simp only [bestCandidate, List.foldl]
  split_ifs <;> decide

omit h in
/-- A literal token is longer than its fields up to the selector, which is no empty code (41_prefix_table.md R171). -/
theorem literalToken_selector (hsel : selectorsOk s) (xs : List Byte) (a b : Nat) (hrun : ((xs.drop a).take (b - a)).length = b - a) :
    let us := [false] :: (vintFields (s.slot vintSlot) (b - a)).map Prod.snd
    us <+: ((literalToken s xs a b).fields s).map Prod.snd ∧ us.flatten.length < ((literalToken s xs a b).bits s).length := by
  obtain ⟨-, ⟨hpf, hlen⟩, -⟩ := hsel
  have hk : bestCandidate s ((xs.drop a).take (b - a)) < (s.slot metaSlot).codes.length :=
    hlen ▸ bestCandidate_lt s _
  have hcode : (s.slot metaSlot).code (bestCandidate s ((xs.drop a).take (b - a))) ≠ [] := by
    rw [Slot.code, List.getD_eq_getElem _ _ hk]
    exact hpf.1 _ (List.getElem_mem hk)
  have hpos := List.length_pos_of_ne_nil hcode
  constructor
  · simp [literalToken, LzToken.fields, hrun]
  · simp only [literalToken, LzToken.bits, hrun, List.flatten_cons, vintFields_flatten, List.length_append,
      List.length_cons, List.length_nil]
    omega

/-- Of a source whose byte `f` may not be accessed the scan writes a beginning of the fields of all tokens, and counts the
tokens that stand whole in it. -/
theorem scanBody_breaks (hf : f < s.srcLen.toNat) (hsel : selectorsOk s) :
    ∃ ts more us, scanTokens s s.source = ts ++ more ∧ us <+: tokenUnits s more ∧
      wholeTokens s more us.flatten.length = [] ∧
      Breaks s f (scanBody s.srcLen.toNat) Engine.idle (tokenUnits s ts ++ us) (addTokens (0, 0) ts) := by
  have hloop := scanLoop_run h s.srcLen.toNat (scanState_start s) (Nat.le_refl 0) (Nat.zero_le _) (.inl (Nat.zero_le _))
  rw [scanTokens, s.source_length]
  cases hloop with
  | broken shut ts more split run =>
    refine ⟨ts, more, [], split, List.nil_prefix, ?_, by rw [List.append_nil]; exact run.bind⟩
    cases more with
    | nil => rfl
    | cons k more => exact wholeTokens_head (k.bits_pos s)
  | done ts e' split reach run =>
    have hmore : e'.scanBegin < s.srcLen.toNat := by omega
    rw [finalTokens, s.source_length, if_pos hmore] at split
    obtain ⟨hprefix, hshort⟩ := literalToken_selector hsel s.source e'.scanBegin s.srcLen.toNat (by
      rw [List.length_take, List.length_drop, s.source_length, Nat.min_self])
    refine ⟨ts, _, _, split, by rw [tokenUnits_singleton]; exact hprefix, wholeTokens_head hshort, ?_⟩
    have hlit := emitLiteral_breaks (e := e') h reach hf (Nat.le_refl _)
    rw [run.counted] at hlit
    refine run.finishes.bind_breaks (Breaks.get_bind fun w => ?_) rfl
    rw [State.working_eng, if_pos hmore]
    exact hlit

end

end Sys2Proof.Machine
end

section
/-! SUPPORT. Proofs: The container that LZ.COMP writes -/

namespace Sys2Proof.Machine

/-! ### The container, field by field (30_encoding.md R115, R116) -/

/-- The hint of a container, byte by byte. -/
def hintUnits (s : State) : List Bits := (uvarint s.srcLen.toNat).map (fun b => natBits 8 b.toNat)

/-- The container of the source's tokens. -/
def lzUnits (s : State) : List Bits :=
  (containerFields s (uvarint s.srcLen.toNat) (scanTokens s s.source)).map Prod.snd

theorem lzUnits_eq (s : State) :
    lzUnits s = hintUnits s ++ (tokenUnits s (scanTokens s s.source) ++ [[true], [false]]) := by
  simp [lzUnits, containerFields, hintUnits, tokenUnits]

theorem hintUnits_length (s : State) : (hintUnits s).flatten.length = 8 * (uvarint s.srcLen.toNat).length := by
  rw [← bytesBits_length]
  rfl

theorem lzUnits_flatten (s : State) :
    (lzUnits s).flatten = containerBits s (uvarint s.srcLen.toNat) (scanTokens s s.source) :=
  containerFields_flatten _ _ _

/-- The tokens counted when `q` bits of the container are written. -/
def lzCounts (s : State) (q : Nat) : Nat × Nat :=
  addTokens (0, 0) (wholeTokens s (scanTokens s s.source) (q - (hintUnits s).flatten.length))

theorem wholeTokens_zero (s : State) (ts : List LzToken) : wholeTokens s ts 0 = [] := by
  cases ts with
  | nil => rfl
  | cons k ts => exact wholeTokens_head (k.bits_pos s)

theorem wholeTokens_all (s : State) {ts : List LzToken} {n : Nat} (hn : (tokenUnits s ts).flatten.length ≤ n) :
    wholeTokens s ts n = ts := by
  have hall := wholeTokens_append_ge hn []
  rw [List.append_nil] at hall
  rw [hall]
  simp [wholeTokens]

/-- What LZ.COMP writes before it closes the stream. -/
def lzWrite (n : Nat) : Eng Unit := do
  uvEncode n
  scanBody n
  emitEnd

section
variable {s : State} (h : Opened s s.srcLen.toNat)
include h

/-- A container that can be written is written, and every token counted; else LZ.COMP stops at the first field that cannot
be written, the tokens counted that stand whole. -/
theorem lzWrite_run : ∃ e, e.counts = addTokens (0, 0) (scanTokens s s.source) ∧
    Finishes s (lzWrite s.srcLen.toNat) Engine.idle (lzUnits s) () e ∧
    Stops s (lzWrite s.srcLen.toNat) Engine.idle (lzUnits s) (lzCounts s) := by
  obtain ⟨e, hscan⟩ := scanBody_emits h
  have hlen := h.source
  have hhint := uvEncode_writes (e := Engine.idle) h.toBuffers (v := s.srcLen.toNat) (by omega)
  have hend := emitEnd_writes (e := e) h.toBuffers
  rw [lzUnits_eq]
  refine ⟨e, hscan.counted, hhint.finishes.bind (hscan.finishes.bind hend.finishes), ?_⟩
  refine Stops.bind hhint.finishes hhint.stops (Stops.bind hscan.finishes hscan.stops hend.stops
    (count := fun n => addTokens (0, 0) (wholeTokens s (scanTokens s s.source) n)) (fun _ _ => rfl) fun n => ?_)
    (fun n hn => ?_) fun n => ?_
  · rw [wholeTokens_all s (Nat.le_add_right _ _)]
    exact hscan.counted.symm
  · rw [lzCounts, show n - (hintUnits s).flatten.length = 0 from Nat.sub_eq_zero_of_le hn.le, wholeTokens_zero]
    rfl
  · rw [lzCounts, show (hintUnits s).flatten.length = _ from rfl, hintUnits, Nat.add_sub_cancel_left]

end

/-- A source byte that may not be accessed ends LZ.COMP after some whole number of fields. -/
theorem lzWrite_breaks {s : State} {f : Nat} (h : Opened s f) (hf : f < s.srcLen.toNat) (hsel : selectorsOk s) :
    ∃ us, us <+: lzUnits s ∧
      Breaks s f (lzWrite s.srcLen.toNat) Engine.idle us (lzCounts s us.flatten.length) := by
  obtain ⟨ts, more, us, hsplit, hprefix, hwhole, hscan⟩ := scanBody_breaks h hf hsel
  have hlen := h.source
  have hhint := uvEncode_writes (e := Engine.idle) h.toBuffers (v := s.srcLen.toNat) (by omega)
  refine ⟨hintUnits s ++ (tokenUnits s ts ++ us), ?_, ?_⟩
  · rw [lzUnits_eq, hsplit, tokenUnits_append, List.prefix_append_right_inj, List.append_assoc,
      List.prefix_append_right_inj]
    exact hprefix.trans (List.prefix_append _ _)
  · have hcount : lzCounts s (hintUnits s ++ (tokenUnits s ts ++ us)).flatten.length = addTokens (0, 0) ts := by
      rw [lzCounts, hsplit, List.flatten_append, List.length_append, Nat.add_sub_cancel_left,
        List.flatten_append, List.length_append, wholeTokens_append_ge (Nat.le_add_right _ _), Nat.add_sub_cancel_left,
        hwhole, List.append_nil]
    rw [hcount]
    exact hhint.bind_breaks hscan.bind rfl

/-! ### The command (45_lz77.md R298) -/

/-- LZ.COMP writes the container, closes the stream and reports. -/
def lzCompBody (n : Nat) : Eng Unit := do
  lzWrite n
  let bytes ← close
  setRes0 bytes
  setRes1 (← get).eng.substitutions
  setRes2 (← get).eng.literals

/-- The command's own steps, in the model's order, are `lzCompBody`. -/
theorem lzCompBody_eq (s : State) : (do
      let n := (← get).srcLen.toNat
      uvEncode n
      scan n
      let bytes ← close
      setRes0 bytes
      setRes1 (← get).eng.substitutions
      setRes2 (← get).eng.literals : Eng Unit).run (s.working 0 [] Engine.idle) =
      (lzCompBody s.srcLen.toNat).run (s.working 0 [] Engine.idle) := by
  rw [Eng.bind_ok (Eng.get_run _), State.working_srcLen]
  simp only [scan_eq, lzCompBody, lzWrite, bind_assoc]

section
variable {s : State} (hok : s.buffersOk = true)
include hok

theorem lzComp_ok {t : State}
    (h : (lzCompBody s.srcLen.toNat).run (s.working 0 [] Engine.idle) = .ok () t) : succeeds .lzComp s t := by
  refine runCommand_ok ?_
  rw [Eng.bind_ok (checkBuffers_ok hok), Eng.bind_ok (startHighLevel_working s)]
  exact reporting_ok ((lzCompBody_eq s).trans h)

/-- An error keeps what is written, and reports its bytes and the tokens counted (60_exceptions.md R329). -/
theorem lzComp_error {w : Bits} {e : Engine} {q : Nat} {err : Raised} (hq : q < 2 ^ 32)
    (hcount : e.counts = lzCounts s q)
    (hw : w = (containerBits s (uvarint s.srcLen.toNat) (scanTokens s s.source)).take q) (hlen : w.length = q)
    (h : (lzWrite s.srcLen.toNat).run (s.working 0 [] Engine.idle) = .error err (s.working 0 w e)) :
    failsWith .lzComp s err (s.lzCompAt q) := by
  have hbody : (lzCompBody s.srcLen.toNat).run (s.working 0 [] Engine.idle) = .error err (s.working 0 w e) :=
    Eng.bind_error h
  have hend : failsWith .lzComp s err (lzCompReport (s.working 0 w e)) := by
    refine runCommand_error ?_
    rw [Eng.bind_ok (checkBuffers_ok hok), Eng.bind_ok (startHighLevel_working s)]
    exact reporting_error ((lzCompBody_eq s).trans hbody)
  have hlits : e.literals = (lzCounts s q).1 := congrArg Prod.fst hcount
  have hsubs : e.substitutions = (lzCounts s q).2 := congrArg Prod.snd hcount
  have hbytes : (s.working 0 w e).outputBytes = (q + 7) / 8 := by
    rw [State.outputBytes, State.working_wpos, hlen, word_toNat hq]
  have hreport : (lzCompReport (s.working 0 w e)).takeError err = (s.lzCompAt q).takeError err := by
    rw [lzCompReport, hbytes, State.working_eng, hlits, hsubs, hw]
    simp only [lzCounts, addTokens, wholeTokens, hintUnits_length, Nat.zero_add]
    rfl
  rw [failsWith, ← hreport]
  exact hend

end

/-- The whole container is written, closed and reported. -/
theorem lzComp_writes {s : State} (hready : s.ready (padded (lzUnits s).flatten).length = true) :
    ∃ e : Engine, e.counts = addTokens (0, 0) (scanTokens s s.source) ∧
      (lzCompBody s.srcLen.toNat).run (s.working 0 [] Engine.idle) =
        .ok () { s.working 0 (padded (lzUnits s).flatten) e with
          res0 := word ((padded (lzUnits s).flatten).length / 8)
          res1 := word e.substitutions
          res2 := word e.literals } := by
  have h := Ready.of_ready hready
  have hfits := h.fits
  have hroom : (lzUnits s).flatten.length ≤ (padded (lzUnits s).flatten).length := by rw [padded_length]; omega
  obtain ⟨e, hcount, hwrite, -⟩ := lzWrite_run (Opened.of_open h.toBuffers (State.ready_iff.1 hready).2.1)
  have hnone : s.stopAt ([] : Bits).length (lzUnits s) = none := by
    refine State.stopAt_eq_none (by rw [List.length_nil]; omega) fun q hq => ?_
    rw [List.length_nil, Nat.zero_add]
    exact h.writable q (by omega)
  have hrun := hwrite [] (Nat.zero_le _) hnone
  rw [List.nil_append] at hrun
  have hclose := close_working (r := 0) (e := e) h.toBuffers (w := (lzUnits s).flatten) (by omega)
    fun i hi => h.writable i (by omega)
  refine ⟨e, hcount, ?_⟩
  rw [lzCompBody, Eng.bind_ok hrun, Eng.bind_ok hclose]
  rfl

/-- Settles O52: the container written field by field, to its end, to the first field that cannot be written, or to the
first source byte that may not be accessed. -/
theorem lzCompress : Obligations.LzCompress := by
  intro s ts bs fields
  have hflat := lzUnits_flatten s
  refine ⟨fun hready => ?_, fun n q err hok hopen hstop => ?_, fun f hsel hok hshut hstop => ?_⟩
  · have hready' : s.ready (padded (lzUnits s).flatten).length = true := by rwa [hflat]
    obtain ⟨e, hcount, hrun⟩ := lzComp_writes hready'
    have hlits : e.literals = 0 + ts.countP (fun k => !k.isSubstitution) := congrArg Prod.fst hcount
    have hsubs : e.substitutions = 0 + ts.countP LzToken.isSubstitution := congrArg Prod.snd hcount
    have hend := lzComp_ok (State.ready_iff.1 hready).1 hrun
    rw [hflat, hlits, hsubs, Nat.zero_add, Nat.zero_add] at hend
    exact hend
  · have h := Buffers.of_ok hok
    have hcap := h.dest
    have hstopAt : s.stopAt ([] : Bits).length (lzUnits s) = some (q, err) := State.stopAt_of_writeStop_some hstop
    obtain ⟨-, hlt, hle⟩ := State.stopAt_some hstopAt (Nat.zero_le _)
    rw [List.length_nil, Nat.zero_add] at hlt
    obtain ⟨-, -, -, hstops⟩ := lzWrite_run (Opened.of_open h hopen)
    obtain ⟨e, hcount, hrun⟩ := hstops [] (Nat.zero_le _) q err hstopAt
    rw [List.nil_append] at hrun
    exact lzComp_error hok (by omega) hcount (by rw [hflat]) (by rw [List.length_take, Nat.min_eq_left hlt.le]) hrun
  · have h := Buffers.of_ok hok
    have hcap := h.dest
    obtain ⟨hopened, hf⟩ := Opened.of_shut h hshut
    obtain ⟨us, hprefix, hbreaks⟩ := lzWrite_breaks hopened hf hsel
    have hnone : s.stopAt ([] : Bits).length us = none := by
      obtain ⟨vs, hvs⟩ := hprefix
      have hall : s.stopAt 0 (lzUnits s) = none := State.stopAt_of_writeStop_none hstop
      rw [← hvs, State.stopAt_append, Option.or_eq_none_iff] at hall
      exact hall.1
    have hfit := (State.stopAt_none hnone (Nat.zero_le _)).1
    rw [List.length_nil, Nat.zero_add] at hfit
    obtain ⟨e, hcount, hrun⟩ := hbreaks [] (Nat.zero_le _) hnone
    rw [List.nil_append] at hrun
    have hus : fields.take us.length = us := (List.prefix_iff_eq_take.1 hprefix).symm
    refine ⟨us.length, ?_⟩
    rw [hus]
    refine lzComp_error hok (by omega) hcount ?_ rfl hrun
    rw [← hflat]
    obtain ⟨vs, hvs⟩ := hprefix
    rw [← hvs, List.flatten_append, List.take_left]

end Sys2Proof.Machine
end

section
/-! SUPPORT. Proofs: Reading bits at RPOS -/

namespace Sys2Proof.Machine

/-! ### The state with RPOS moved on -/

theorem word_toNat_add (m n : Nat) : word ((word m).toNat + n) = word (m + n) := by
  rw [word, BitVec.ofNat_add, BitVec.ofNat_toNat, BitVec.setWidth_eq, word, word, BitVec.ofNat_add]

@[simp] theorem State.skip_zero (s : State) : s.skip 0 = s := by simp [State.skip, word]

@[simp] theorem State.skip_sourceOk (s : State) (n : Nat) : (s.skip n).sourceOk = s.sourceOk := rfl

theorem State.skip_skip (s : State) (m n : Nat) : (s.skip m).skip n = s.skip (m + n) := by
  simp only [State.skip, word_toNat_add, Nat.add_assoc]

theorem State.sourceOk_bits {s : State} (h : s.sourceOk = true) : 8 * s.srcLen.toNat < 2 ^ 32 := bufferOk_bits h

theorem State.canRead_iff {s : State} {n : Nat} : s.canRead n = true ↔
    s.sourceOk = true ∧ n ≤ s.avail ∧ ∀ i < n, memOk s.params (s.srcAddr.toNat + (s.rpos.toNat + i) / 8) = true := by
  simp [State.canRead, spanOk_iff, and_assoc]

section
variable {s : State} {m n q : Nat}

/-- RPOS stays exact while no more bits are read than are left. -/
theorem State.skip_rpos_toNat (hsrc : s.sourceOk = true) (hm : m ≤ s.avail) :
    (s.skip m).rpos.toNat = s.rpos.toNat + m := by
  have := State.sourceOk_bits hsrc
  have := s.rpos.isLt
  rw [State.avail] at hm
  rw [State.skip_rpos, word_toNat (by omega)]

theorem State.skip_avail (hsrc : s.sourceOk = true) (hm : m ≤ s.avail) : (s.skip m).avail = s.avail - m := by
  rw [State.avail, State.skip_rpos_toNat hsrc hm, State.skip_srcLen, State.avail, Nat.sub_sub]

/-- The bits past those read are those left. -/
theorem State.skip_sourceRest (hsrc : s.sourceOk = true) (hm : m ≤ s.avail) :
    (s.skip m).sourceRest = s.sourceRest.drop m := by
  have hsplit := streamBits_append s.mem s.srcAddr.toNat s.rpos.toNat m (s.avail - m)
  rw [Nat.add_sub_cancel' hm] at hsplit
  rw [State.sourceRest, State.sourceRest, State.skip_avail hsrc hm, State.skip_rpos_toNat hsrc hm, hsplit,
    List.drop_left' (streamBits_length _ _ _ _)]
  rfl

/-- Bits can be read when the first ones can and, past those, the others. -/
theorem State.canRead_add : s.canRead (m + n) = true ↔ s.canRead m = true ∧ (s.skip m).canRead n = true := by
  constructor
  · intro h
    obtain ⟨hsrc, hlen, hok⟩ := State.canRead_iff.1 h
    refine ⟨State.canRead_iff.2 ⟨hsrc, by omega, fun i hi => hok i (by omega)⟩, State.canRead_iff.2 ⟨hsrc, ?_, fun i hi => ?_⟩⟩
    · rw [State.skip_avail hsrc (by omega)]
      omega
    · rw [State.skip_rpos_toNat hsrc (by omega), Nat.add_assoc]
      exact hok _ (by omega)
  · rintro ⟨hm, hn⟩
    obtain ⟨hsrc, hlen, hok⟩ := State.canRead_iff.1 hm
    obtain ⟨-, hlen', hok'⟩ := State.canRead_iff.1 hn
    rw [State.skip_avail hsrc hlen] at hlen'
    refine State.canRead_iff.2 ⟨hsrc, by omega, fun i hi => ?_⟩
    rcases Nat.lt_or_ge i m with him | him
    · exact hok i him
    · have hnext := hok' (i - m) (by omega)
      rwa [State.skip_rpos_toNat hsrc hlen, Nat.add_assoc, Nat.add_sub_cancel' him] at hnext

/-- The bits before the one where reading stops can be read, and there reading stops at once. -/
theorem State.readStopsAt_skip (hsrc : s.sourceOk = true) (h : s.readStopsAt q = true) :
    s.canRead q = true ∧ (s.skip q).readStopsAt 0 = true := by
  obtain ⟨hlt, hok, hbad⟩ := State.readStopsAt_iff.1 h
  refine ⟨State.canRead_iff.2 ⟨hsrc, hlt.le, spanOk_iff.1 hok⟩, State.readStopsAt_iff.2 ⟨?_, rfl, ?_⟩⟩
  · rw [State.skip_avail hsrc hlt.le]
    omega
  · rwa [State.skip_rpos_toNat hsrc hlt.le]

/-! ### Runs of the bit reader (40_bitstream.md R141, R142) -/

/-- A bit that can be read is the first of those left. -/
theorem readBit_next {b : Bool} {rest : Bits} (h : s.canRead 1 = true) (hb : s.sourceRest = b :: rest) :
    readBit.run.run s = .ok (some b) (s.skip 1) := by
  obtain ⟨hsrc, hlen, hok⟩ := State.canRead_iff.1 h
  have hhead : s.sourceRest.head? = some (streamBit s.mem s.srcAddr.toNat s.rpos.toNat) := by
    obtain ⟨k, hk⟩ := Nat.exists_eq_add_of_le hlen
    rw [State.sourceRest, hk, streamBits_append]
    rfl
  rw [hb, List.head?_cons, Option.some_inj] at hhead
  rw [readBit_run, if_neg (by omega), if_pos (by simpa using hok 0 (by omega)), ← hhead]
  rfl

theorem readBit_stops (h : s.readStopsAt 0 = true) :
    readBit.run.run s = .error (.bus (s.srcAddr.toNat + s.rpos.toNat / 8)) s := by
  obtain ⟨hlen, -, hbad⟩ := State.readStopsAt_iff.1 h
  rw [Nat.add_zero] at hbad
  rw [readBit_run, if_neg (by omega), if_neg (by simp [hbad])]

/-- Bits that can be read are read one after the other. -/
theorem readBitsLoop_next {u : Bits} (h : s.canRead u.length = true) (hu : u <+: s.sourceRest) (v : Nat) :
    (readBitsLoop u.length v).run.run s = .ok (some (v * 2 ^ u.length + bitsVal u)) (s.skip u.length) := by
  induction u generalizing s v with
  | nil => simp [readBitsLoop]
  | cons b u ih =>
    obtain ⟨rest, hrest⟩ := hu
    rw [List.length_cons, Nat.add_comm, State.canRead_add] at h
    obtain ⟨hfirst, hothers⟩ := h
    obtain ⟨hsrc, hlen, -⟩ := State.canRead_iff.1 hfirst
    have hleft : u <+: (s.skip 1).sourceRest := ⟨rest, by rw [State.skip_sourceRest hsrc hlen, ← hrest]; rfl⟩
    have hvalue : (2 * v + b.toNat) * 2 ^ u.length + bitsVal u = v * 2 ^ (b :: u).length + bitsVal (b :: u) := by
      rw [bitsVal_cons, List.length_cons, pow_succ]
      ring
    rw [List.length_cons, readBitsLoop, Rd.bind_some (readBit_next hfirst hrest.symm), ih hothers hleft, hvalue,
      State.skip_skip, Nat.add_comm 1]
    rfl

theorem readBits_whole (h : s.canRead n = true) :
    (readBits n).run.run s = .ok (some (bitsVal (s.sourceRest.take n))) (s.skip n) := by
  obtain ⟨-, hlen, -⟩ := State.canRead_iff.1 h
  have htake : (s.sourceRest.take n).length = n := by
    rw [List.length_take, State.sourceRest, streamBits_length, Nat.min_eq_left hlen]
  have hloop := readBitsLoop_next (u := s.sourceRest.take n) (by rwa [htake]) (List.take_prefix _ _) 0
  rw [htake, Nat.zero_mul, Nat.zero_add] at hloop
  rw [readBits, Rd.bind_some (Rd.get_run s), if_neg (by omega)]
  exact hloop

theorem readBits_short (h : s.avail < n) : (readBits n).run.run s = .ok none s := by
  rw [readBits, Rd.bind_some (Rd.get_run s), if_pos h]
  rfl

/-- The loop reads its first bits, then the others. -/
theorem readBitsLoop_add (m n v : Nat) :
    readBitsLoop (m + n) v = readBitsLoop m v >>= readBitsLoop n := by
  induction m generalizing v with
  | zero => simp [readBitsLoop]
  | succ m ih => simp [Nat.succ_add, readBitsLoop, ih]

/-- Reading ends at the first bit whose byte may not be accessed, the bits before it consumed. -/
theorem readBits_stops (hsrc : s.sourceOk = true) (hn : n ≤ s.avail) (hq : q < n) (h : s.readStopsAt q = true) :
    (readBits n).run.run s = .error (.bus (s.srcAddr.toNat + (s.rpos.toNat + q) / 8)) (s.skip q) := by
  obtain ⟨hbefore, hstop⟩ := State.readStopsAt_skip hsrc h
  obtain ⟨k, rfl⟩ : ∃ k, n = q + (k + 1) := ⟨n - q - 1, by omega⟩
  have hfirst : (readBitsLoop q 0).run.run s = .ok (some (bitsVal (s.sourceRest.take q))) (s.skip q) := by
    have := readBits_whole hbefore
    rwa [readBits, Rd.bind_some (Rd.get_run s), if_neg (by omega)] at this
  rw [readBits, Rd.bind_some (Rd.get_run s), if_neg (by omega)]
  refine (congrArg (fun m : Rd Nat => m.run.run s) (readBitsLoop_add q (k + 1) 0)).trans ?_
  rw [Rd.bind_some hfirst, readBitsLoop, Rd.bind_error (readBit_stops hstop),
    State.skip_rpos_toNat hsrc (by omega), State.skip_srcAddr]

/-! ### The commands (40_bitstream.md R151 to R153) -/

/-- `n` bits read have a value below 2^n. -/
theorem readBitsLoop_lt {v x : Nat} {t : State} (h : (readBitsLoop n v).run.run s = .ok (some x) t) :
    x < (v + 1) * 2 ^ n := by
  induction n generalizing s v with
  | zero =>
    cases h
    omega
  | succ n ih =>
    rw [readBitsLoop] at h
    rcases hb : readBit.run.run s with ⟨_ | b, u⟩ | ⟨e, u⟩
    · rw [Rd.bind_none hb] at h
      cases h
    · rw [Rd.bind_some hb] at h
      have hbit : 2 * v + b.toNat + 1 ≤ 2 * (v + 1) := by
        have := Bool.toNat_le b
        omega
      calc x < (2 * v + b.toNat + 1) * 2 ^ n := ih h
        _ ≤ 2 * (v + 1) * 2 ^ n := Nat.mul_le_mul_right _ hbit
        _ = (v + 1) * 2 ^ (n + 1) := by ring
    · rw [Rd.bind_error hb] at h
      cases h

theorem readBits_lt {x : Nat} {t : State} (h : (readBits n).run.run s = .ok (some x) t) : x < 2 ^ n := by
  rcases Nat.lt_or_ge s.avail n with hlen | hlen
  · rw [readBits_short hlen] at h
    cases h
  · rw [readBits, Rd.bind_some (Rd.get_run s), if_neg (by omega)] at h
    simpa using readBitsLoop_lt (v := 0) h

end

/-- What BS.RBITS does after its checks. -/
def readCommand (n : Nat) : Eng Unit := do
  let v ← orTruncated (readBits n)
  setRes0 v

/-- A reader whose values are those of `ReadBits(n)` makes the same command. -/
theorem readCommand_of_value {α : Type} {m : Rd α} {value : α → Nat} {n : Nat} {s : State}
    (h : (m >>= fun a => pure (value a)).run.run s = (readBits n).run.run s) :
    (orTruncated m >>= fun a => setRes0 (value a)).run s = (readCommand n).run s := by
  rw [readCommand]
  rcases hm : m.run.run s with ⟨_ | a, t⟩ | ⟨e, t⟩
  · rw [Rd.bind_none hm] at h
    rw [Eng.bind_error (orTruncated_none hm), Eng.bind_error (orTruncated_none h.symm)]
  · rw [Rd.bind_some hm] at h
    rw [Eng.bind_ok (orTruncated_some hm), Eng.bind_ok (orTruncated_some h.symm)]
  · rw [Rd.bind_error hm] at h
    rw [Eng.bind_error (orTruncated_error hm), Eng.bind_error (orTruncated_error h.symm)]

theorem readBit_value (s : State) : (readBit >>= fun b => pure b.toNat).run.run s = (readBits 1).run.run s := by
  rcases Nat.lt_or_ge s.avail 1 with hlen | hlen
  · have hbit : readBit.run.run s = .ok none s := by rw [readBit_run, if_pos hlen]
    rw [readBits_short hlen, Rd.bind_none hbit]
  · rw [readBits, Rd.bind_some (Rd.get_run s), if_neg (by omega)]
    simp [readBitsLoop]

theorem readByte_value (s : State) : (readByte >>= fun b => pure b.toNat).run.run s = (readBits 8).run.run s := by
  rw [readByte, bind_assoc]
  rcases h : (readBits 8).run.run s with ⟨_ | x, t⟩ | ⟨e, t⟩
  · exact Rd.bind_none h
  · have hx : x < 256 := readBits_lt (n := 8) h
    rw [Rd.bind_some h, pure_bind, byte_toNat, Nat.mod_eq_of_lt hx]
    rfl
  · exact Rd.bind_error h

/-- The commands that read `n` bits. -/
theorem exec_bitRead {s : State} {i : Instr} {n : Nat}
    (hi : (i = .bsRbit ∧ n = 1) ∨ (i = .bsRbyte ∧ n = 8) ∨ (i = .bsRbits n ∧ n ≤ 32)) (hsrc : s.sourceOk = true) :
    exec i s = runCommand (readCommand n) s := by
  have hsource : checkSource.run s = .ok () s := by rw [checkSource_run, if_pos hsrc]
  rcases hi with ⟨rfl, rfl⟩ | ⟨rfl, rfl⟩ | ⟨rfl, hn⟩
  · simp only [exec, execBsRbit, runCommand]
    rw [Eng.bind_ok hsource, readCommand_of_value (readBit_value s)]
  · simp only [exec, execBsRbyte, runCommand]
    rw [Eng.bind_ok hsource, readCommand_of_value (readByte_value s)]
  · have hcount : (checkCount n).run s = .ok () s := by rw [checkCount_run, if_pos hn]
    simp only [exec, execBsRbits, runCommand]
    rw [Eng.bind_ok hcount, Eng.bind_ok hsource]
    rfl

/-- Settles O27: too few bits read nothing, and a shut byte ends the read at its first bit. -/
theorem bitReadErrors : Obligations.BitReadErrors := by
  intro s i n hi hsrc
  refine ⟨fun hshort => ?_, fun q hq hn hok hbad => ?_⟩
  · rw [failsWith, exec_bitRead hi hsrc]
    exact runCommand_error (Eng.bind_error (orTruncated_none (readBits_short hshort)))
  · have hstop : s.readStopsAt q = true := State.readStopsAt_iff.2 ⟨by omega, hok, hbad⟩
    rw [failsWith, exec_bitRead hi hsrc]
    exact runCommand_error (Eng.bind_error (orTruncated_error (readBits_stops hsrc hn hq hstop)))

/-- Settles O30: every one of the three is a read of as many bits as it names. -/
theorem bitReads : Obligations.BitReads := by
  intro s
  have key : ∀ (i : Instr) (n : Nat), (i = .bsRbit ∧ n = 1) ∨ (i = .bsRbyte ∧ n = 8) ∨ (i = .bsRbits n ∧ n ≤ 32) →
      s.canRead n = true → succeeds i s { s.skip n with res0 := word (bitsVal (s.sourceRest.take n)) } := by
    intro i n hi hread
    rw [succeeds, exec_bitRead hi (State.canRead_iff.1 hread).1]
    exact runCommand_ok (Eng.bind_ok (orTruncated_some (readBits_whole hread)))
  exact ⟨key _ _ (.inl ⟨rfl, rfl⟩), key _ _ (.inr (.inl ⟨rfl, rfl⟩)), fun n hn => key _ _ (.inr (.inr ⟨rfl, hn⟩))⟩

end Sys2Proof.Machine
end

section
/-! SUPPORT. Proofs: Writing bits at WPOS -/

namespace Sys2Proof.Machine

/-! ### The state with bits written -/

@[simp] theorem State.emit_nil (s : State) : s.emit [] = s := by simp [State.emit, storeBits, word]

@[simp] theorem State.emit_destOk (s : State) (bs : Bits) : (s.emit bs).destOk = s.destOk := rfl

theorem State.destOk_bits {s : State} (h : s.destOk = true) : 8 * s.dstCap.toNat < 2 ^ 32 := bufferOk_bits h

theorem State.canWrite_iff {s : State} {n : Nat} : s.canWrite n = true ↔
    s.destOk = true ∧ s.wpos.toNat + n ≤ 8 * s.dstCap.toNat ∧
      ∀ i < n, memOk s.params (s.dstAddr.toNat + (s.wpos.toNat + i) / 8) = true := by
  simp [State.canWrite, spanOk_iff, and_assoc]

section
variable {s : State} {bs cs : Bits} {n q : Nat}

/-- WPOS stays exact while it stays below 2^32. -/
theorem State.emit_wpos_toNat (h : s.wpos.toNat + bs.length < 2 ^ 32) :
    (s.emit bs).wpos.toNat = s.wpos.toNat + bs.length := by
  rw [State.emit_wpos, word_toNat h]

theorem State.emit_emit (h : s.wpos.toNat + bs.length < 2 ^ 32) : (s.emit bs).emit cs = s.emit (bs ++ cs) := by
  have hpos := State.emit_wpos_toNat h
  simp only [State.emit] at hpos ⊢
  rw [hpos, storeBits_append, List.length_append, Nat.add_assoc]

/-- Bits can be written when the first ones can and, past those, the others. -/
theorem State.canWrite_add : s.canWrite (bs.length + n) = true ↔
    s.canWrite bs.length = true ∧ (s.emit bs).canWrite n = true := by
  constructor
  · intro h
    obtain ⟨hdst, hfit, hok⟩ := State.canWrite_iff.1 h
    have hcap := State.destOk_bits hdst
    have hpos : (s.emit bs).wpos.toNat = s.wpos.toNat + bs.length := State.emit_wpos_toNat (by omega)
    refine ⟨State.canWrite_iff.2 ⟨hdst, by omega, fun i hi => hok i (by omega)⟩,
      State.canWrite_iff.2 ⟨hdst, by rw [hpos, State.emit_dstCap]; omega, fun i hi => ?_⟩⟩
    rw [hpos, Nat.add_assoc]
    exact hok _ (by omega)
  · rintro ⟨hfirst, hothers⟩
    obtain ⟨hdst, hfit, hok⟩ := State.canWrite_iff.1 hfirst
    obtain ⟨-, hfit', hok'⟩ := State.canWrite_iff.1 hothers
    have hcap := State.destOk_bits hdst
    have hpos : (s.emit bs).wpos.toNat = s.wpos.toNat + bs.length := State.emit_wpos_toNat (by omega)
    rw [hpos, State.emit_dstCap] at hfit'
    refine State.canWrite_iff.2 ⟨hdst, by omega, fun i hi => ?_⟩
    rcases Nat.lt_or_ge i bs.length with him | him
    · exact hok i him
    · have hnext := hok' (i - bs.length) (by omega)
      rwa [hpos, Nat.add_assoc, Nat.add_sub_cancel' him] at hnext

/-! ### Runs of the bit writer (40_bitstream.md R144, R145) -/

theorem writeBit_next (h : s.canWrite 1 = true) (b : Bool) : (writeBit b).run s = .ok () (s.emit [b]) := by
  obtain ⟨-, hfit, hok⟩ := State.canWrite_iff.1 h
  have hpos : s.wpos + 1#32 = word (s.wpos.toNat + 1) := by
    rw [← word_succ, word, BitVec.ofNat_toNat, BitVec.setWidth_eq]
  rw [writeBit_run, if_neg (by omega), if_pos (by simpa using hok 0 (by omega)), hpos]
  rfl

theorem writeBit_stops (hroom : s.wpos.toNat < 8 * s.dstCap.toNat)
    (hbad : memOk s.params (s.dstAddr.toNat + s.wpos.toNat / 8) = false) (b : Bool) :
    (writeBit b).run s = .error (.bus (s.dstAddr.toNat + s.wpos.toNat / 8)) s := by
  rw [writeBit_run, if_neg (by omega), if_neg (by simp [hbad])]

/-- Bits that can be written are written one after the other. -/
theorem writeBitList_next (h : s.canWrite bs.length = true) : (writeBitList bs).run s = .ok () (s.emit bs) := by
  induction bs generalizing s with
  | nil =>
    rw [State.emit_nil]
    rfl
  | cons b bs ih =>
    rw [List.length_cons, Nat.add_comm, ← List.length_singleton (a := b), State.canWrite_add] at h
    obtain ⟨hfirst, hothers⟩ := h
    obtain ⟨hdst, hfit, -⟩ := State.canWrite_iff.1 hfirst
    have hcap := State.destOk_bits hdst
    rw [writeBitList_cons, Eng.bind_ok (writeBit_next hfirst b), ih hothers, State.emit_emit (by omega),
      List.singleton_append]

theorem writeString_whole (h : s.canWrite bs.length = true) : (writeString bs).run s = .ok () (s.emit bs) := by
  obtain ⟨-, hfit, -⟩ := State.canWrite_iff.1 h
  rw [writeString_fits (by omega), writeBitList_next h]

/-- The bits of two strings, those of the first before those of the second. -/
theorem writeBitList_append (bs cs : Bits) :
    writeBitList (bs ++ cs) = writeBitList bs >>= fun _ => writeBitList cs := by
  induction bs with
  | nil => rfl
  | cons b bs ih => simp [writeBitList, ih]

/-- Writing ends at the first bit whose byte may not be accessed, the bits before it written. -/
theorem writeString_stops (hdst : s.destOk = true) (hfit : s.wpos.toNat + bs.length ≤ 8 * s.dstCap.toNat)
    (hq : q < bs.length) (hok : spanOk s.params s.dstAddr.toNat s.wpos.toNat q = true)
    (hbad : memOk s.params (s.dstAddr.toNat + (s.wpos.toNat + q) / 8) = false) :
    (writeString bs).run s = .error (.bus (s.dstAddr.toNat + (s.wpos.toNat + q) / 8)) (s.emit (bs.take q)) := by
  have hcap := State.destOk_bits hdst
  have hlen : (bs.take q).length = q := by rw [List.length_take, Nat.min_eq_left hq.le]
  have hfirst : s.canWrite (bs.take q).length = true := by
    rw [hlen]
    exact State.canWrite_iff.2 ⟨hdst, by omega, spanOk_iff.1 hok⟩
  have hpos : (s.emit (bs.take q)).wpos.toNat = s.wpos.toNat + q := by rw [State.emit_wpos_toNat (by omega), hlen]
  have hsplit : bs = bs.take q ++ bs[q] :: bs.drop (q + 1) := by rw [← List.drop_eq_getElem_cons hq, List.take_append_drop]
  have hstop := writeBit_stops (s := s.emit (bs.take q)) (by rw [hpos, State.emit_dstCap]; omega) (by rwa [hpos]) bs[q]
  rw [hpos] at hstop
  rw [writeString_fits (by omega)]
  refine (congrArg (fun bs => (writeBitList bs).run s) hsplit).trans ?_
  rw [writeBitList_append, Eng.bind_ok (writeBitList_next hfirst), writeBitList_cons, Eng.bind_error hstop]
  rfl

/-! ### The commands that write (40_bitstream.md R154 to R156) -/

/-- A bit is a string of one. -/
theorem writeString_singleton (b : Bool) : (writeString [b]).run s = (writeBit b).run s := by
  rcases Nat.lt_or_ge s.wpos.toNat (8 * s.dstCap.toNat) with hroom | hfull
  · have hone : writeBitList [b] = writeBit b := by simp [writeBitList]
    rw [writeString_fits (by simp; omega), hone]
  · rw [writeString_full (by simp; omega), writeBit_run, if_pos hfull]

/-- The low bits of a field are those of the value's low bits. -/
theorem natBits_mod (n v : Nat) {k : Nat} (h : n ≤ k) : natBits n (v % 2 ^ k) = natBits n v := by
  induction n with
  | zero => rfl
  | succ n ih => rw [natBits, natBits, ih (by omega), Nat.testBit_mod_two_pow, decide_eq_true (by omega), Bool.true_and]

/-- The commands that write the low `n` bits of ARG0. -/
theorem exec_bitWrite {i : Instr} (hi : (i = .bsWbit ∧ n = 1) ∨ (i = .bsWbyte ∧ n = 8) ∨ (i = .bsWbits n ∧ n ≤ 32))
    (hdst : s.destOk = true) : exec i s = runCommand (writeString (natBits n s.arg0.toNat)) s := by
  have hdest : checkDest.run s = .ok () s := by rw [checkDest_run, if_pos hdst]
  rcases hi with ⟨rfl, rfl⟩ | ⟨rfl, rfl⟩ | ⟨rfl, hn⟩
  · simp only [exec, execBsWbit, runCommand]
    rw [Eng.bind_ok hdest, ← writeString_singleton]
    rfl
  · have hlow : natBits 8 (s.arg0.extractLsb' 0 8).toNat = natBits 8 s.arg0.toNat := by
      rw [BitVec.extractLsb'_toNat, Nat.shiftRight_zero, natBits_mod _ _ (Nat.le_refl 8)]
    simp only [exec, execBsWbyte, runCommand]
    rw [Eng.bind_ok hdest, writeByte, writeBits, hlow]
  · have hcount : (checkCount n).run s = .ok () s := by rw [checkCount_run, if_pos hn]
    simp only [exec, execBsWbits, runCommand]
    rw [Eng.bind_ok hcount, Eng.bind_ok hdest]
    rfl

end

/-- Settles O28: a string that does not fit writes nothing, and a shut byte ends the write at its first bit. -/
theorem bitWriteErrors : Obligations.BitWriteErrors := by
  intro s i n hi hdst
  refine ⟨fun hfull => ?_, fun q hq hfit hok hbad => ?_⟩
  · rw [failsWith, exec_bitWrite hi hdst]
    exact runCommand_error (writeString_full (by rwa [natBits_length]))
  · rw [failsWith, exec_bitWrite hi hdst]
    exact runCommand_error (writeString_stops hdst (by rwa [natBits_length]) (by rwa [natBits_length]) hok hbad)

/-- Settles O31: every one of the three is a write of as many bits as it names. -/
theorem bitWrites : Obligations.BitWrites := by
  intro s
  have key : ∀ (i : Instr) (n : Nat), (i = .bsWbit ∧ n = 1) ∨ (i = .bsWbyte ∧ n = 8) ∨ (i = .bsWbits n ∧ n ≤ 32) →
      s.canWrite n = true → succeeds i s (s.emit (natBits n s.arg0.toNat)) := by
    intro i n hi hwrite
    rw [succeeds, exec_bitWrite hi (State.canWrite_iff.1 hwrite).1]
    exact runCommand_ok (writeString_whole (by rwa [natBits_length]))
  exact ⟨key _ _ (.inl ⟨rfl, rfl⟩), key _ _ (.inr (.inl ⟨rfl, rfl⟩)), fun n hn => key _ _ (.inr (.inr ⟨rfl, hn⟩))⟩

/-! ### Padding to a byte boundary (40_bitstream.md R147, R148, R157, R158) -/

section
variable {s : State}

theorem State.canAlign_iff : s.canAlign = true ↔
    s.destOk = true ∧ (s.wpos.toNat % 8 = 0 ∨ s.canWrite (padding s.wpos.toNat).length = true) := by
  simp [State.canAlign]

/-- Zero bits up to the next byte boundary, `n` of them, from any WPOS. -/
theorem alignLoop_pads {n fuel : Nat} (hn : (s.wpos.toNat + n) % 8 = 0) (hn8 : n < 8) (hfuel : n ≤ fuel)
    (h : n = 0 ∨ s.canWrite n = true) : (alignLoop fuel).run s = .ok () (s.emit (List.replicate n false)) := by
  induction fuel generalizing s n with
  | zero =>
    obtain rfl : n = 0 := by omega
    rw [List.replicate_zero, State.emit_nil]
    rfl
  | succ fuel ih =>
    rw [alignLoop, Eng.bind_ok (Eng.get_run s)]
    rcases n with _ | n
    · rw [if_neg (by omega), List.replicate_zero, State.emit_nil]
      rfl
    · rw [Nat.add_comm n 1] at h
      obtain ⟨hfirst, hothers⟩ := (State.canWrite_add (bs := [false])).1 (h.resolve_left (by omega))
      obtain ⟨hdst, hfit, -⟩ := State.canWrite_iff.1 hfirst
      have hcap := State.destOk_bits hdst
      have hpos : (s.emit [false]).wpos.toNat = s.wpos.toNat + 1 := State.emit_wpos_toNat (by omega)
      rw [if_pos (by omega), Eng.bind_ok (writeBit_next hfirst false),
        ih (by omega) (by omega) (by omega) (.inr hothers), State.emit_emit (by omega), List.replicate_succ,
        List.singleton_append]

theorem align_pads (h : s.canAlign = true) : align.run s = .ok () (s.emit (padding s.wpos.toNat)) := by
  obtain ⟨-, hpad⟩ := State.canAlign_iff.1 h
  rw [padding_length] at hpad
  exact alignLoop_pads (by omega) (by omega) (by omega) (hpad.imp_left fun h => by omega)

/-- The padding ends at a byte boundary. -/
theorem emit_padding_wpos (h : s.canAlign = true) : (s.emit (padding s.wpos.toNat)).wpos.toNat % 8 = 0 := by
  obtain ⟨hdst, hpad⟩ := State.canAlign_iff.1 h
  have hcap := State.destOk_bits hdst
  have hlen := padding_length s.wpos.toNat
  have hlt := s.wpos.isLt
  have hfit : s.wpos.toNat + (padding s.wpos.toNat).length < 2 ^ 32 := by
    rcases hpad with hboundary | hpad
    · omega
    · have := (State.canWrite_iff.1 hpad).2.1
      omega
  rw [State.emit_wpos_toNat hfit]
  omega

/-- Off a boundary Align ends as its first zero bit does. -/
theorem align_error {e : Raised} (hoff : s.wpos.toNat % 8 ≠ 0) (h : (writeBit false).run s = .error e s) :
    align.run s = .error e s := by
  rw [align, alignLoop, Eng.bind_ok (Eng.get_run s), if_pos hoff, Eng.bind_error h]

theorem align_close_error {e : Raised} {i : Instr} (hi : i = .bsAlign ∨ i = .bsClose) (hdst : s.destOk = true)
    (h : align.run s = .error e s) : failsWith i s e s := by
  have hdest : checkDest.run s = .ok () s := by rw [checkDest_run, if_pos hdst]
  rcases hi with rfl | rfl
  · exact runCommand_error ((Eng.bind_ok hdest).trans h)
  · have hclose : close.run s = .error e s := Eng.bind_error h
    exact runCommand_error ((Eng.bind_ok hdest).trans (Eng.bind_error hclose))

end

/-- Settles O32: zero bits up to the boundary, or the error of the first of them. -/
theorem alignAndClose : Obligations.AlignAndClose := by
  intro s t a
  refine ⟨fun halign => ⟨?_, ?_, emit_padding_wpos halign⟩, fun i hi hdst hoff => ⟨fun hfull => ?_, fun hroom hbad => ?_⟩⟩
  · have hdest : checkDest.run s = .ok () s := by rw [checkDest_run, if_pos (State.canAlign_iff.1 halign).1]
    exact runCommand_ok ((Eng.bind_ok hdest).trans (align_pads halign))
  · have hdest : checkDest.run s = .ok () s := by rw [checkDest_run, if_pos (State.canAlign_iff.1 halign).1]
    have hclose : close.run s = .ok (t.wpos.toNat / 8) t := Eng.bind_ok (align_pads halign)
    exact runCommand_ok ((Eng.bind_ok hdest).trans (Eng.bind_ok hclose))
  · exact align_close_error hi hdst (align_error hoff (by rw [writeBit_run, if_pos hfull]))
  · exact align_close_error hi hdst (align_error hoff (writeBit_stops hroom hbad false))

end Sys2Proof.Machine
end

section
/-! SUPPORT. Proofs: The block commands up to the first byte that cannot be written or read -/

namespace Sys2Proof.Machine

/-! ### One code decoded, wherever RPOS stands (41_prefix_table.md R192, R193) -/

section
variable {s : State} {t : Fin 16} {p : Bits} {fuel : Nat}

/-- Bits in which no code ends lead the walk on past them. -/
theorem decodeLoop_walks {u : Bits} (h : s.canRead u.length = true) (hu : u <+: s.sourceRest)
    (hno : ∀ c ∈ (s.slot t).codes, c <+: p ++ u → c.length ≤ p.length) :
    (decodeLoop t (u.length + fuel) p).run.run s = (decodeLoop t fuel (p ++ u)).run.run (s.skip u.length) := by
  induction u generalizing s p with
  | nil => simp
  | cons b u ih =>
    obtain ⟨rest, hrest⟩ := hu
    rw [List.length_cons, Nat.add_comm, State.canRead_add] at h
    obtain ⟨hfirst, hothers⟩ := h
    obtain ⟨hsrc, hlen, -⟩ := State.canRead_iff.1 hfirst
    have hleft : u <+: (s.skip 1).sourceRest := ⟨rest, by rw [State.skip_sourceRest hsrc hlen, ← hrest]; rfl⟩
    have hsplit : p ++ b :: u = p ++ [b] ++ u := by simp
    have hmiss : p ++ [b] ∉ ((s.skip 1).slot t).codes := fun hmem => by
      have hle := hno _ hmem (by rw [hsplit]; exact List.prefix_append _ _)
      simp at hle
    have hno' : ∀ c ∈ ((s.skip 1).slot t).codes, c <+: p ++ [b] ++ u → c.length ≤ (p ++ [b]).length := fun c hc hcu => by
      have hle := hno c hc (by rwa [hsplit])
      rw [List.length_append]
      omega
    rw [List.length_cons, Nat.add_right_comm, decodeLoop, Rd.bind_some (readBit_next hfirst hrest.symm),
      Rd.bind_some (Rd.get_run _)]
    rw [findCode_none hmiss]
    refine (ih hothers hleft hno').trans ?_
    rw [hsplit, State.skip_skip, Nat.add_comm 1]

/-- The next code of the source is decoded to its symbol. -/
theorem decodeNext_whole (hpf : PrefixFree (s.slot t).codes) {x : Nat} (hx : x < (s.slot t).codes.length)
    (h : s.canRead ((s.slot t).code x).length = true) (hcode : (s.slot t).code x <+: s.sourceRest) :
    (decodeNext t).run.run s = .ok (some x) (s.skip ((s.slot t).code x).length) := by
  have hget : (s.slot t).code x = (s.slot t).codes[x] := by rw [Slot.code, List.getD_eq_getElem _ _ hx]
  have hmem : (s.slot t).code x ∈ (s.slot t).codes := hget ▸ List.getElem_mem hx
  have hfound : findCode ((s.slot t).code x) (s.slot t).codes 0 = some x := by
    rw [hget, findCode_getElem hpf.nodup hx, Nat.zero_add]
  rcases List.eq_nil_or_concat ((s.slot t).code x) with hnil | ⟨u, b, hsplit⟩
  · exact absurd hnil (hpf.1 _ hmem)
  · have hlen : ((s.slot t).code x).length = u.length + 1 := by rw [hsplit, List.length_concat]
    rw [List.concat_eq_append] at hsplit
    obtain ⟨rest, hrest⟩ := hcode
    rw [hlen, State.canRead_add] at h
    obtain ⟨hbefore, hlast⟩ := h
    obtain ⟨hsrc, havail, -⟩ := State.canRead_iff.1 hbefore
    have hu : u <+: s.sourceRest := ⟨b :: rest, by rw [← hrest, hsplit]; simp⟩
    have hb : (s.skip u.length).sourceRest = b :: rest := by
      rw [State.skip_sourceRest hsrc havail, ← hrest, hsplit, List.append_assoc, List.drop_left]
      rfl
    have hno : ∀ c ∈ (s.slot t).codes, c <+: [] ++ u → c.length ≤ ([] : Bits).length := fun c hc hcu => by
      have hproper : c <+: (s.slot t).code x := hsplit ▸ hcu.trans (List.prefix_append _ _)
      have hne : c ≠ (s.slot t).code x := fun heq => by
        have hle := hcu.length_le
        rw [heq, hlen, List.nil_append] at hle
        omega
      exact absurd hc (hpf.not_mem_of_prefix hmem hproper hne)
    obtain ⟨fuel, hfuel⟩ : ∃ fuel, s.avail + 1 = u.length + (fuel + 1) := ⟨s.avail - u.length, by omega⟩
    have hwalk := decodeLoop_walks (fuel := fuel + 1) hbefore hu hno
    rw [List.nil_append] at hwalk
    have hfound' : findCode (u ++ [b]) (((s.skip u.length).skip 1).slot t).codes 0 = some x := hsplit ▸ hfound
    rw [decodeNext, Rd.bind_some (Rd.get_run s), hfuel, hwalk, decodeLoop, Rd.bind_some (readBit_next hlast hb),
      Rd.bind_some (Rd.get_run _), hfound', hlen, State.skip_skip]
    rfl

/-- The walk ends at the first bit whose byte may not be accessed, when no code ends before it. -/
theorem decodeNext_stops {q : Nat} (hsrc : s.sourceOk = true) (h : s.readStopsAt q = true)
    (hno : ∀ c ∈ (s.slot t).codes, ¬ c <+: s.sourceRest.take q) :
    (decodeNext t).run.run s = .error (.bus (s.srcAddr.toNat + (s.rpos.toNat + q) / 8)) (s.skip q) := by
  obtain ⟨hbefore, hstop⟩ := State.readStopsAt_skip hsrc h
  obtain ⟨-, hlen, -⟩ := State.canRead_iff.1 hbefore
  have htake : (s.sourceRest.take q).length = q := by
    rw [List.length_take, State.sourceRest, streamBits_length, Nat.min_eq_left hlen]
  obtain ⟨fuel, hfuel⟩ : ∃ fuel, s.avail + 1 = q + (fuel + 1) := ⟨s.avail - q, by omega⟩
  have hwalk := decodeLoop_walks (t := t) (fuel := fuel + 1) (p := []) (by rwa [htake]) (List.take_prefix q s.sourceRest)
    fun c hc hcu => absurd hcu (hno c hc)
  rw [htake] at hwalk
  rw [decodeNext, Rd.bind_some (Rd.get_run s), hfuel, hwalk, decodeLoop, Rd.bind_error (readBit_stops hstop),
    State.skip_rpos_toNat hsrc hlen, State.skip_srcAddr]

end

/-! ### The parts of the block commands, under way (20_memory.md R64, R65) -/

theorem State.working_skip (s : State) (r n : Nat) (w : Bits) (e : Engine) :
    (s.working r w e).skip n = s.working (r + n) w e := by
  simp only [State.working, State.skip, word_toNat_add]

section
variable {s : State} {f r n q : Nat} {w u : Bits} {e : Engine} {err : Raised}

/-- The bits that are left stand at RPOS: writing has not changed them. -/
theorem State.Left.working_rest (h : Buffers s) (hw : w.length ≤ 8 * s.dstCap.toNat) (hleft : s.Left r u) :
    (s.working r w e).sourceRest = u := by
  have hlen := hleft.length
  have hsrc := h.source
  have hpos : (word r).toNat = r := word_toNat (by omega)
  have havail : (s.working r w e).avail = u.length := by
    rw [State.avail, State.working_rpos, State.working_srcLen, hpos]
    omega
  have hsplit := streamBits_append s.mem s.srcAddr.toNat 0 r u.length
  rw [hlen, Nat.zero_add, ← State.sourceStream] at hsplit
  rw [← hleft.2, hsplit, List.drop_left' (streamBits_length _ _ _ _), State.sourceRest, havail, State.working_rpos, hpos]
  refine List.map_congr_left fun i hi => ?_
  rw [streamBit, State.working_mem, State.working_srcAddr,
    h.read_source hw (by have := List.mem_range.1 hi; omega), ← streamBit]

/-- A field that cannot be written ends with its error, the bits before kept. -/
theorem writeString_working_stops (h : Buffers s) (hw : w.length ≤ 8 * s.dstCap.toNat)
    (hstop : s.stopAt w.length [u] = some (q, err)) :
    (writeString u).run (s.working r w e) = .error err (s.working r ((w ++ u).take q) e) := by
  have hcap := h.dest
  have hlen : (word w.length).toNat = w.length := word_toNat (by omega)
  rcases State.stopAt_single hstop with ⟨hfull, rfl, rfl⟩ | ⟨i, hi, hfit, rfl, rfl, hok, hbad⟩
  · rw [writeString_full (by simpa [hlen] using hfull), State.working_wpos, hlen, List.take_left]
  · rw [writeString_fits (by simp [hlen]; omega), writeBitList_stops h u hfit hi hok hbad, List.take_length_add_append]

/-- A field at which writing does not stop is written. -/
theorem writeString_working_whole (h : Buffers s) (hw : w.length ≤ 8 * s.dstCap.toNat) (hnone : s.stopAt w.length [u] = none) :
    (writeString u).run (s.working r w e) = .ok () (s.working r (w ++ u) e) ∧
      (w ++ u).length ≤ 8 * s.dstCap.toNat := by
  obtain ⟨hfit, hok⟩ := State.stopAt_none hnone hw
  rw [List.flatten_singleton] at hfit hok
  exact ⟨writeString_working h u hfit hok, by rwa [List.length_append]⟩

variable (h : Opened s f) (hsrc : s.sourceOk = true)
include h hsrc

theorem Opened.canRead (hr : r + n ≤ 8 * f) : (s.working r w e).canRead n = true := by
  have hinside := h.inside
  have hsmall := h.source
  have hpos : (word r).toNat = r := word_toNat (by omega)
  refine State.canRead_iff.2 ⟨hsrc, ?_, fun i hi => ?_⟩
  · rw [State.avail, State.working_rpos, State.working_srcLen, hpos]
    omega
  · rw [State.working_rpos, hpos]
    exact h.opened _ (by omega)

theorem Opened.readStopsAt (hf : f < s.srcLen.toNat) (hr : r + n = 8 * f) : (s.working r w e).readStopsAt n = true := by
  have hsmall := h.source
  have hpos : (word r).toNat = r := word_toNat (by omega)
  obtain ⟨-, -, hok⟩ := State.canRead_iff.1 (h.canRead hsrc (w := w) (e := e) hr.le)
  refine State.readStopsAt_iff.2 ⟨?_, spanOk_iff.2 hok, ?_⟩
  · rw [State.avail, State.working_rpos, State.working_srcLen, hpos]
    omega
  · rw [State.working_rpos, hpos, hr, Nat.mul_div_cancel_left _ (by decide)]
    exact h.shut hf

/-- A byte of the source that may be accessed. -/
theorem readByte_working {b : Byte} {rest : Bits} (hw : w.length ≤ 8 * s.dstCap.toNat)
    (hleft : s.Left r (natBits 8 b.toNat ++ rest)) (hr : r + 8 ≤ 8 * f) :
    readByte.run.run (s.working r w e) = .ok (some b) (s.working (r + 8) w e) := by
  have hbits := readBits_whole (h.canRead hsrc (w := w) (e := e) hr)
  rw [hleft.working_rest h.toBuffers hw, List.take_left' (natBits_length _ _), bitsVal_natBits, Nat.mod_eq_of_lt b.isLt,
    State.working_skip] at hbits
  rw [readByte, Rd.bind_some hbits, byte_toNat_self]
  rfl

/-- The first byte of the source that may not be accessed. -/
theorem readByte_working_stops (hf : f < s.srcLen.toNat) :
    readByte.run.run (s.working (8 * f) w e) = .error (.bus (s.srcAddr.toNat + f)) (s.working (8 * f) w e) := by
  have hsmall := h.source
  have hpos : (word (8 * f)).toNat = 8 * f := word_toNat (by omega)
  have havail : 8 ≤ (s.working (8 * f) w e).avail := by
    rw [State.avail, State.working_rpos, State.working_srcLen, hpos]
    omega
  have hstop := readBits_stops (s := s.working (8 * f) w e) hsrc havail (q := 0) (by decide) (h.readStopsAt hsrc hf (Nat.add_zero _))
  rw [State.skip_zero, State.working_rpos, hpos, Nat.add_zero, Nat.mul_div_cancel_left _ (by decide)] at hstop
  exact Rd.bind_error hstop

end

end Sys2Proof.Machine
end

section
/-! SUPPORT. Proofs: The block commands that an error ends -/

namespace Sys2Proof.Machine

/-! ### The unit at which writing stops -/

theorem writeStopFrom_cons (s : State) (m pos : Nat) (u : Bits) (us : List Bits) :
    writeStopFrom s.params s.dstAddr.toNat s.dstCap.toNat m pos (u :: us) =
      ((s.stopAt pos [u]).map fun stop => (m, stop)).or
        (writeStopFrom s.params s.dstAddr.toNat s.dstCap.toNat (m + 1) (pos + u.length) us) := by
  simp only [State.stopAt, writeStopFrom]
  split_ifs
  · rfl
  · split <;> rfl

/-- Writing stops at one unit; it does not stop at those before. -/
theorem State.writeStop_split {s : State} {units : List Bits} {n q : Nat} {err : Raised}
    (h : s.writeStop units = some (n, q, err)) :
    ∃ us u vs, units = us ++ u :: vs ∧ us.length = n ∧ s.stopAt 0 us = none ∧
      s.stopAt us.flatten.length [u] = some (q, err) := by
  have key : ∀ (units : List Bits) (m pos : Nat),
      writeStopFrom s.params s.dstAddr.toNat s.dstCap.toNat m pos units = some (n, q, err) →
      ∃ us u vs, units = us ++ u :: vs ∧ m + us.length = n ∧ s.stopAt pos us = none ∧
        s.stopAt (pos + us.flatten.length) [u] = some (q, err) := by
    intro units
    induction units with
    | nil => exact nofun
    | cons u units ih =>
      intro m pos h
      rw [writeStopFrom_cons] at h
      rcases hu : s.stopAt pos [u] with _ | ⟨q', err'⟩ <;> rw [hu] at h
      · obtain ⟨us, x, vs, rfl, hn, hnone, hsome⟩ := ih _ _ h
        refine ⟨u :: us, x, vs, rfl, by rw [List.length_cons]; omega, ?_, ?_⟩
        · rw [State.stopAt_cons, hu, hnone]
          rfl
        · rwa [List.flatten_cons, List.length_append, ← Nat.add_assoc]
      · cases h
        exact ⟨[], u, units, rfl, rfl, rfl, by simpa using hu⟩
  obtain ⟨us, u, vs, hsplit, hn, hnone, hsome⟩ := key units 0 0 h
  exact ⟨us, u, vs, hsplit, by omega, hnone, by rwa [Nat.zero_add] at hsome⟩

/-- Units that are all written from the start of the destination fit it. -/
theorem State.stopAt_room {s : State} {us : List Bits} (h : s.stopAt 0 us = none) :
    us.flatten.length ≤ 8 * s.dstCap.toNat := by
  simpa using (State.stopAt_none h (Nat.zero_le _)).1

theorem State.stopAt_full {s : State} {pos : Nat} {u : Bits} (h : 8 * s.dstCap.toNat < pos + u.length) :
    s.stopAt pos [u] = some (pos, .outputFull pos) := by
  simp only [State.stopAt, writeStopFrom, if_pos h]
  rfl

/-- The bits written when writing stops in the unit behind `w`. -/
theorem State.stopAt_length {s : State} {w u : Bits} {q : Nat} {err : Raised} (hw : w.length ≤ 8 * s.dstCap.toNat)
    (h : s.stopAt w.length [u] = some (q, err)) : ((w ++ u).take q).length = q ∧ q ≤ 8 * s.dstCap.toNat := by
  obtain ⟨-, hq, hcap⟩ := State.stopAt_some h hw
  rw [List.flatten_singleton, ← List.length_append] at hq
  exact ⟨List.length_take_of_le hq.le, hcap⟩

/-- Nothing past the unit in which writing stops is written. -/
theorem flatten_take {s : State} {us vs : List Bits} {u : Bits} {q : Nat} {err : Raised} (hus : s.stopAt 0 us = none)
    (hu : s.stopAt us.flatten.length [u] = some (q, err)) : (us ++ u :: vs).flatten.take q = (us.flatten ++ u).take q := by
  obtain ⟨-, hq, -⟩ := State.stopAt_some hu (State.stopAt_room hus)
  rw [List.flatten_singleton, ← List.length_append] at hq
  rw [List.flatten_append, List.flatten_cons, ← List.append_assoc, List.take_append_of_le_length hq.le]

/-! ### Whole bytes encoded and decoded -/

/-- The fields of a block of bytes under a table. -/
def codeUnits (sl : Slot) (xs : List Byte) : List Bits := xs.map (fun b => sl.code b.toNat)

/-- Bytes as fields of eight bits. -/
def byteUnits (xs : List Byte) : List Bits := xs.map (fun b => natBits 8 b.toNat)

@[simp] theorem codeUnits_flatten (sl : Slot) (xs : List Byte) : (codeUnits sl xs).flatten = literalCodes sl xs := by
  rw [codeUnits, literalCodes, List.flatMap_def]

@[simp] theorem byteUnits_flatten (xs : List Byte) : (byteUnits xs).flatten = bytesBits xs := by
  rw [byteUnits, bytesBits, List.flatMap_def]

/-- Every byte has a code in a table of 257. -/
theorem code_mem_codes {sl : Slot} (hlen : sl.codes.length = 257) (b : Byte) : sl.code b.toNat ∈ sl.codes := by
  have hb : b.toNat < sl.codes.length := by
    have := b.isLt
    omega
  rw [Slot.code, List.getD_eq_getElem _ _ hb]
  exact List.getElem_mem hb

theorem literalCodes_concat (sl : Slot) (xs : List Byte) (b : Byte) :
    literalCodes sl (xs ++ [b]) = literalCodes sl xs ++ sl.code b.toNat := by simp [literalCodes]

theorem literalCodes_prefix (sl : Slot) {xs ys : List Byte} (h : xs <+: ys) : literalCodes sl xs <+: literalCodes sl ys := by
  obtain ⟨zs, rfl⟩ := h
  exact ⟨literalCodes sl zs, by simp [literalCodes]⟩

theorem State.source_take_succ {s : State} {p : Nat} (hp : p < s.srcLen.toNat) :
    s.source.take (p + 1) = s.source.take p ++ [s.byteAt p] := by
  rw [List.take_succ_eq_append_getElem (by rwa [s.source_length])]
  simp [State.source, Memory.slice, State.byteAt]

/-- A code takes at least one bit. -/
theorem length_le_literalCodes {sl : Slot} (hpf : PrefixFree sl.codes) (hlen : sl.codes.length = 257) (xs : List Byte) :
    xs.length ≤ (literalCodes sl xs).length := by
  induction xs with
  | nil => exact Nat.zero_le _
  | cons b xs ih =>
    have hpos := List.length_pos_iff.2 (hpf.1 _ (code_mem_codes hlen b))
    have hcodes : literalCodes sl (b :: xs) = sl.code b.toNat ++ literalCodes sl xs := rfl
    rw [hcodes, List.length_append, List.length_cons]
    omega

/-- The next code reaches past bit `q`: up to there no code ends. -/
theorem noCodeWithin_code {s : State} {sl : Slot} (hpf : PrefixFree sl.codes) (hlen : sl.codes.length = 257)
    {ys : List Byte} {b : Byte} {q : Nat} (hys : literalCodes sl (ys ++ [b]) <+: s.sourceStream)
    (hq : (literalCodes sl ys).length ≤ q) (hlt : q < (literalCodes sl (ys ++ [b])).length) :
    s.noCodeWithin sl (literalCodes sl ys).length q = true := by
  obtain ⟨rest, hrest⟩ := hys
  rw [literalCodes_concat, List.length_append] at hlt
  rw [literalCodes_concat, List.append_assoc] at hrest
  refine State.noCodeWithin_iff.2 ⟨hq, fun c hc hprefix => ?_⟩
  rw [← hrest, List.drop_left, List.take_append_of_le_length (by omega)] at hprefix
  have hshort := hprefix.length_le
  rw [List.length_take_of_le (by omega)] at hshort
  have hne : c ≠ sl.code b.toNat := fun heq => by
    rw [heq] at hshort
    omega
  exact hpf.not_mem_of_prefix (code_mem_codes hlen b) (hprefix.trans (List.take_prefix _ _)) hne hc

section
variable {s : State} {f : Nat} (h : Opened s f) (hsrc : s.sourceOk = true) {k : Fin 16} {e : Engine}
include h hsrc

/-- The encoder gets past bytes that can be read and whose codes can be written. -/
theorem encodeLoop_working {ys : List Byte} {r : Nat} {w rest : Bits} (hleft : s.Left r (bytesBits ys ++ rest))
    (hr : r + 8 * ys.length ≤ 8 * f) (hw : w.length ≤ 8 * s.dstCap.toNat)
    (hnone : s.stopAt w.length (codeUnits (s.slot k) ys) = none) (m : Nat) :
    (encodeLoop k (ys.length + m)).run.run (s.working r w e) =
      (encodeLoop k m).run.run (s.working (r + 8 * ys.length) (w ++ literalCodes (s.slot k) ys) e) := by
  induction ys generalizing r w with
  | nil => simp [literalCodes]
  | cons b ys ih =>
    rw [codeUnits, List.map_cons, State.stopAt_cons, Option.or_eq_none_iff, ← List.length_append] at hnone
    rw [bytesBits_cons, List.append_assoc] at hleft
    rw [List.length_cons] at hr
    have hread := readByte_working (e := e) h hsrc hw hleft (by omega)
    obtain ⟨hwrite, hfit⟩ := writeString_working_whole (r := r + 8) (e := e) h.toBuffers hw hnone.1
    have hcode : (writeCode k b.toNat).run (s.working (r + 8) w e) =
        .ok () (s.working (r + 8) (w ++ (s.slot k).code b.toNat) e) := (writeCode_run k _ _).trans hwrite
    have hleft' := hleft.drop
    rw [natBits_length] at hleft'
    have hnext := ih hleft' (by omega) hfit hnone.2
    rw [List.length_cons, Nat.add_right_comm, encodeLoop, Rd.bind_some hread, Rd.lift_bind_ok hcode, hnext,
      List.append_assoc, Nat.add_assoc, Nat.mul_succ, Nat.add_comm 8]
    rfl

/-- The code of a byte that can be read is decoded. -/
theorem decodeNext_working (hpf : PrefixFree (s.slot k).codes) (hlen : (s.slot k).codes.length = 257) {b : Byte}
    {r : Nat} {w rest : Bits} (hw : w.length ≤ 8 * s.dstCap.toNat)
    (hleft : s.Left r ((s.slot k).code b.toNat ++ rest)) (hr : r + ((s.slot k).code b.toNat).length ≤ 8 * f) :
    (decodeNext k).run.run (s.working r w e) =
      .ok (some b.toNat) (s.working (r + ((s.slot k).code b.toNat).length) w e) := by
  have hsymbol : b.toNat < ((s.working r w e).slot k).codes.length := by
    have := b.isLt
    rw [State.working_slot]
    omega
  have hcode : (s.slot k).code b.toNat <+: (s.working r w e).sourceRest := by
    rw [hleft.working_rest h.toBuffers hw]
    exact List.prefix_append _ _
  rw [← State.working_skip]
  exact decodeNext_whole (s := s.working r w e) hpf hsymbol (h.canRead hsrc hr) hcode

/-- The decoder gets past codes that can be read and whose bytes can be written. -/
theorem blockDecodeLoop_working (hpf : PrefixFree (s.slot k).codes) (hlen : (s.slot k).codes.length = 257)
    {ys : List Byte} {r : Nat} {w rest : Bits} (hleft : s.Left r (literalCodes (s.slot k) ys ++ rest))
    (hr : r + (literalCodes (s.slot k) ys).length ≤ 8 * f) (hw : w.length ≤ 8 * s.dstCap.toNat)
    (hnone : s.stopAt w.length (byteUnits ys) = none) (fuel : Nat) :
    (blockDecodeLoop k (ys.length + fuel)).run.run (s.working r w e) =
      (blockDecodeLoop k fuel).run.run (s.working (r + (literalCodes (s.slot k) ys).length) (w ++ bytesBits ys) e) := by
  induction ys generalizing r w with
  | nil => simp [literalCodes]
  | cons b ys ih =>
    have hcodes : literalCodes (s.slot k) (b :: ys) = (s.slot k).code b.toNat ++ literalCodes (s.slot k) ys := rfl
    rw [byteUnits, List.map_cons, State.stopAt_cons, Option.or_eq_none_iff, ← List.length_append] at hnone
    rw [hcodes, List.append_assoc] at hleft
    rw [hcodes, List.length_append] at hr
    have hdecode := decodeNext_working (e := e) h hsrc hpf hlen hw hleft (by omega)
    obtain ⟨hwrite, hfit⟩ := writeString_working_whole (r := r + ((s.slot k).code b.toNat).length) (e := e) h.toBuffers hw
      hnone.1
    have hbyte : ¬ 256 ≤ b.toNat := Nat.not_le.2 b.isLt
    have hnext := ih hleft.drop (by omega) hfit hnone.2
    rw [List.length_cons, Nat.add_right_comm, blockDecodeLoop, Rd.bind_some hdecode, if_neg hbyte, byte_toNat_self,
      Rd.lift_bind_ok (m := writeByte b) hwrite, hnext, List.append_assoc, Nat.add_assoc, hcodes, List.length_append]
    rfl

/-- Decoding ends at the first byte that may not be accessed, when no code ends before it. -/
theorem decodeNext_working_stops (hf : f < s.srcLen.toNat) {r : Nat} {w : Bits} (hw : w.length ≤ 8 * s.dstCap.toNat)
    (hr : r ≤ 8 * f) (hno : ∀ c ∈ (s.slot k).codes, ¬ c <+: (s.sourceStream.drop r).take (8 * f - r)) :
    (decodeNext k).run.run (s.working r w e) = .error (.bus (s.srcAddr.toNat + f)) (s.working (8 * f) w e) := by
  have hsmall := h.source
  have hpos : (word r).toNat = r := word_toNat (by omega)
  have hrest : (s.working r w e).sourceRest = s.sourceStream.drop r :=
    State.Left.working_rest h.toBuffers hw ⟨by omega, rfl⟩
  have hstop : (s.working r w e).readStopsAt (8 * f - r) = true := h.readStopsAt hsrc hf (by omega)
  have hrun := decodeNext_stops (s := s.working r w e) (t := k) hsrc hstop (by rw [hrest]; exact hno)
  rw [hrun, State.working_skip, State.working_rpos, hpos, Nat.add_sub_cancel' hr, Nat.mul_div_cancel_left _ (by decide)]
  rfl

end

/-! ### How the commands end (44_block_codec.md R271, R272, 60_exceptions.md R329) -/

section
variable {k : Fin 16} {s : State} (hok : s.buffersOk = true) (hfinal : (s.slot k).final = true)
  (halpha : (s.slot k).alpha = .a257)
include hok hfinal halpha

theorem blockPrologue_working : (blockPrologue k).run s = .ok () (s.working 0 [] Engine.idle) := by
  have hbuilt : (checkBuilt k).run s = .ok () s := by rw [checkBuilt_run, if_pos hfinal]
  have hwide : (require (fun s => (s.slot k).alpha == .a257) (.badOperand 8)).run s = .ok () s :=
    require_ok (by rw [halpha]; rfl)
  rw [blockPrologue, Eng.bind_ok (checkBuffers_ok hok), Eng.bind_ok hbuilt, Eng.bind_ok hwide]
  rfl

/-- An error keeps what is written and reports the bytes begun. -/
theorem blockCommand_error {m : Eng Unit} {r : Nat} {w : Bits} {err : Raised} (hw : w.length ≤ 8 * s.dstCap.toNat)
    (h : m.run (s.working 0 [] Engine.idle) = .error err (s.working r w Engine.idle)) :
    runCommand (blockPrologue k >>= fun _ => reporting blockReport m) s =
      .next ((s.produced r w ((w.length + 7) / 8)).takeError err) := by
  have hcap := (Buffers.of_ok hok).dest
  have hbytes : (s.working r w Engine.idle).outputBytes = (w.length + 7) / 8 := by
    rw [State.outputBytes, State.working_wpos, word_toNat (by omega)]
  have hreport : (blockReport (s.working r w Engine.idle)).takeError err =
      (s.produced r w ((w.length + 7) / 8)).takeError err := by
    rw [blockReport, hbytes]
    rfl
  rw [← hreport]
  refine runCommand_error ?_
  rw [Eng.bind_ok (blockPrologue_working hok hfinal halpha)]
  exact reporting_error h

/-- BLK.ENC ends where its loop raises an error. -/
theorem blkEnc_loop_error {r : Nat} {w : Bits} {err : Raised} (hw : w.length ≤ 8 * s.dstCap.toNat)
    (h : (encodeLoop k s.srcLen.toNat).run.run (s.working 0 [] Engine.idle) = .error err (s.working r w Engine.idle)) :
    failsWith (.blkEnc k) s err (s.produced r w ((w.length + 7) / 8)) := by
  refine blockCommand_error hok hfinal halpha hw ?_
  rw [Eng.bind_ok (Eng.get_run _), State.working_srcLen, Eng.bind_error h]

/-- BLK.ENC ends where the sentinel's code raises an error. -/
theorem blkEnc_sentinel_error {r r' : Nat} {w w' : Bits} {err : Raised} (hw : w.length ≤ 8 * s.dstCap.toNat)
    (hloop : (encodeLoop k s.srcLen.toNat).run.run (s.working 0 [] Engine.idle) = .ok (some ()) (s.working r' w' Engine.idle))
    (h : (writeCode k sentinel).run (s.working r' w' Engine.idle) = .error err (s.working r w Engine.idle)) :
    failsWith (.blkEnc k) s err (s.produced r w ((w.length + 7) / 8)) := by
  refine blockCommand_error hok hfinal halpha hw ?_
  rw [Eng.bind_ok (Eng.get_run _), State.working_srcLen, Eng.bind_ok hloop, Eng.bind_error h]

/-- BLK.DEC ends where its loop raises an error. -/
theorem blkDec_loop_error {r : Nat} {w : Bits} {err : Raised} (hw : w.length ≤ 8 * s.dstCap.toNat)
    (h : (blockDecodeLoop k (8 * s.srcLen.toNat + 1)).run.run (s.working 0 [] Engine.idle) =
      .error err (s.working r w Engine.idle)) :
    failsWith (.blkDec k) s err (s.produced r w ((w.length + 7) / 8)) := by
  refine blockCommand_error hok hfinal halpha hw ?_
  have havail : (s.working 0 [] Engine.idle).avail = 8 * s.srcLen.toNat := rfl
  rw [Eng.bind_ok (Eng.get_run _), havail, Eng.bind_error h]

/-! ### BLK.ENC -/

omit hfinal halpha in
/-- BLK.ENC gets past the bytes that can be read and whose codes can be written. -/
theorem blkEnc_past {f : Nat} (h : Opened s f) {ys zs : List Byte} (hsource : s.source = ys ++ zs) (hr : ys.length ≤ f)
    (hnone : s.stopAt 0 (codeUnits (s.slot k) ys) = none) :
    (encodeLoop k s.srcLen.toNat).run.run (s.working 0 [] Engine.idle) =
      (encodeLoop k zs.length).run.run (s.working (8 * ys.length) (literalCodes (s.slot k) ys) Engine.idle) := by
  have hleft : s.Left 0 (bytesBits ys ++ bytesBits zs) := by
    rw [← bytesBits_append, ← hsource, ← s.sourceStream_eq]
    exact State.Left.start s
  rw [← s.source_length, hsource, List.length_append,
    encodeLoop_working h (s.buffersOk_iff.1 hok).1 hleft (by omega) (w := []) (Nat.zero_le _) hnone, Nat.zero_add,
    List.nil_append]

/-- BLK.ENC ends at the first byte whose code cannot be written. -/
theorem blkEnc_byte_stops (hopen : s.sourceOpen = true) {ys zs : List Byte} {b : Byte} {q : Nat} {err : Raised}
    (hsource : s.source = ys ++ b :: zs) (hnone : s.stopAt 0 (codeUnits (s.slot k) ys) = none)
    (hstop : s.stopAt (literalCodes (s.slot k) ys).length [(s.slot k).code b.toNat] = some (q, err)) :
    failsWith (.blkEnc k) s err (s.produced (8 * ys.length + 8)
      ((literalCodes (s.slot k) ys ++ (s.slot k).code b.toNat).take q) ((q + 7) / 8)) := by
  have hb := Buffers.of_ok hok
  have hsrc := (s.buffersOk_iff.1 hok).1
  have h := Opened.of_open hb hopen
  have hlen : s.srcLen.toNat = ys.length + (zs.length + 1) := by
    rw [← s.source_length, hsource, List.length_append, List.length_cons]
  have hroom : (literalCodes (s.slot k) ys).length ≤ 8 * s.dstCap.toNat := by simpa using State.stopAt_room hnone
  obtain ⟨htake, hcap⟩ := State.stopAt_length hroom hstop
  have hleft : s.Left (8 * ys.length) (natBits 8 b.toNat ++ bytesBits zs) := by
    have hall := State.Left.start s
    rw [s.sourceStream_eq, hsource, bytesBits_append] at hall
    simpa using hall.drop
  have hread := readByte_working (e := Engine.idle) h hsrc hroom hleft (by omega)
  have hwrite := writeString_working_stops (r := 8 * ys.length + 8) (e := Engine.idle) hb hroom hstop
  have hcode := (writeCode_run k b.toNat _).trans hwrite
  have hend := blkEnc_loop_error hok hfinal halpha (by rwa [htake]) (by
    rw [blkEnc_past hok h hsource (by omega) hnone, List.length_cons, encodeLoop, Rd.bind_some hread,
      Rd.lift_bind_error hcode])
  rwa [htake] at hend

/-- BLK.ENC ends at the sentinel's code when that cannot be written. -/
theorem blkEnc_sentinel_stops (hopen : s.sourceOpen = true) {q : Nat} {err : Raised}
    (hnone : s.stopAt 0 (codeUnits (s.slot k) s.source) = none)
    (hstop : s.stopAt (literalCodes (s.slot k) s.source).length [(s.slot k).code sentinel] = some (q, err)) :
    failsWith (.blkEnc k) s err (s.produced (8 * s.srcLen.toNat)
      ((literalCodes (s.slot k) s.source ++ (s.slot k).code sentinel).take q) ((q + 7) / 8)) := by
  have hb := Buffers.of_ok hok
  have hroom : (literalCodes (s.slot k) s.source).length ≤ 8 * s.dstCap.toNat := by simpa using State.stopAt_room hnone
  obtain ⟨htake, hcap⟩ := State.stopAt_length hroom hstop
  have hpast := blkEnc_past hok (Opened.of_open hb hopen) (List.append_nil _).symm s.source_length.le hnone
  rw [s.source_length] at hpast
  have hwrite := writeString_working_stops (r := 8 * s.srcLen.toNat) (e := Engine.idle) hb hroom hstop
  have hend := blkEnc_sentinel_error hok hfinal halpha (by rwa [htake]) hpast ((writeCode_run k sentinel _).trans hwrite)
  rwa [htake] at hend

/-- BLK.ENC ends at the first of its codes that cannot be written: a byte's, or the sentinel's. -/
theorem blkEnc_writeStop (hopen : s.sourceOpen = true) {n q : Nat} {err : Raised}
    (hstop : s.writeStop (codeUnits (s.slot k) s.source ++ [(s.slot k).code sentinel]) = some (n, q, err)) :
    failsWith (.blkEnc k) s err (s.produced (8 * min (n + 1) s.srcLen.toNat)
      ((codeUnits (s.slot k) s.source ++ [(s.slot k).code sentinel]).flatten.take q) ((q + 7) / 8)) := by
  obtain ⟨us, u, vs, hsplit, rfl, hus, hu⟩ := State.writeStop_split hstop
  rw [hsplit, flatten_take hus hu]
  rcases List.eq_nil_or_concat vs with rfl | ⟨vs, v, rfl⟩
  · obtain ⟨rfl, hlast⟩ := List.append_inj' hsplit rfl
    obtain rfl : (s.slot k).code sentinel = u := List.singleton_inj.1 hlast
    rw [codeUnits_flatten] at hu ⊢
    have hlen : (codeUnits (s.slot k) s.source).length = s.srcLen.toNat := by rw [codeUnits, List.length_map, s.source_length]
    rw [hlen, Nat.min_eq_right (Nat.le_succ _)]
    exact blkEnc_sentinel_stops hok hfinal halpha hopen hus hu
  · rw [List.concat_eq_append, ← List.cons_append, ← List.append_assoc] at hsplit
    obtain ⟨hbytes, -⟩ := List.append_inj' hsplit rfl
    obtain ⟨ys, bzs, hsource, rfl, hrest⟩ := List.map_eq_append_iff.1 hbytes
    obtain ⟨b, zs, rfl, rfl, -⟩ := List.map_eq_cons_iff.1 hrest
    have hlen : s.srcLen.toNat = ys.length + (zs.length + 1) := by
      rw [← s.source_length, hsource, List.length_append, List.length_cons]
    rw [← codeUnits, codeUnits_flatten] at hu ⊢
    rw [codeUnits, List.length_map, Nat.min_eq_left (by omega), Nat.mul_succ]
    exact blkEnc_byte_stops hok hfinal halpha hopen hsource hus hu

/-- BLK.ENC ends at the first source byte that may not be accessed. -/
theorem blkEnc_shut {f : Nat} (hshut : s.sourceShut f = true)
    (hnone : s.stopAt 0 (codeUnits (s.slot k) (s.source.take f)) = none) :
    failsWith (.blkEnc k) s (.bus (s.srcAddr.toNat + f))
      (s.produced (8 * f) (literalCodes (s.slot k) (s.source.take f))
        (((literalCodes (s.slot k) (s.source.take f)).length + 7) / 8)) := by
  obtain ⟨h, hf⟩ := Opened.of_shut (Buffers.of_ok hok) hshut
  have hlen : (s.source.take f).length = f := List.length_take_of_le (by rw [s.source_length]; exact hf.le)
  have hroom : (literalCodes (s.slot k) (s.source.take f)).length ≤ 8 * s.dstCap.toNat := by
    simpa using State.stopAt_room hnone
  have hpast := blkEnc_past hok h (List.take_append_drop f s.source).symm hlen.le hnone
  rw [State.source_drop hf, List.length_cons, hlen] at hpast
  refine blkEnc_loop_error hok hfinal halpha hroom ?_
  rw [hpast, encodeLoop, Rd.bind_error (readByte_working_stops h (s.buffersOk_iff.1 hok).1 hf)]

/-- BLK.ENC whose first `n` bytes fit ends with ERR_OUTPUT_FULL when the next code does not. -/
theorem blkEnc_full {n : Nat} (hn : n ≤ s.srcLen.toNat)
    (hready : s.ready (literalCodes (s.slot k) (s.source.take n)).length = true)
    (hfull : 8 * s.dstCap.toNat < (literalCodes (s.slot k) (s.source.take (n + 1)) ++
      if n = s.srcLen.toNat then (s.slot k).code sentinel else []).length) :
    failsWith (.blkEnc k) s (.outputFull (literalCodes (s.slot k) (s.source.take n)).length)
      (s.produced (8 * min (n + 1) s.srcLen.toNat) (literalCodes (s.slot k) (s.source.take n))
        (((literalCodes (s.slot k) (s.source.take n)).length + 7) / 8)) := by
  have hopen := (State.ready_iff.1 hready).2.1
  have hr := Ready.of_ready hready
  have hnone : s.stopAt 0 (codeUnits (s.slot k) (s.source.take n)) = none := by
    refine State.stopAt_eq_none ?_ fun q hq => ?_
    · rw [codeUnits_flatten, Nat.zero_add]
      exact hr.fits
    · rw [codeUnits_flatten] at hq
      rw [Nat.zero_add]
      exact hr.writable q hq
  rcases Nat.eq_or_lt_of_le hn with rfl | hlt
  · have hall : ∀ m, s.srcLen.toNat ≤ m → s.source.take m = s.source := fun m hm =>
      List.take_of_length_le (by rwa [s.source_length])
    rw [hall _ (Nat.le_succ _), if_pos rfl, List.length_append] at hfull
    rw [hall _ (Nat.le_refl _)] at hnone ⊢
    have hend := blkEnc_sentinel_stops hok hfinal halpha hopen hnone (State.stopAt_full hfull)
    rwa [List.take_left, ← Nat.min_eq_right (Nat.le_succ s.srcLen.toNat)] at hend
  · have hsource : s.source = s.source.take n ++ s.byteAt n :: s.source.drop (n + 1) := by
      rw [← State.source_drop hlt, List.take_append_drop]
    have hlen : (s.source.take n).length = n := List.length_take_of_le (by rw [s.source_length]; exact hn)
    rw [State.source_take_succ hlt, if_neg hlt.ne, List.append_nil, literalCodes_concat, List.length_append] at hfull
    have hend := blkEnc_byte_stops hok hfinal halpha hopen hsource hnone (State.stopAt_full hfull)
    rw [Nat.min_eq_left (Nat.succ_le_of_lt hlt), Nat.mul_succ]
    rwa [List.take_left, hlen] at hend

/-! ### BLK.DEC -/

variable (hpf : PrefixFree (s.slot k).codes) (hlen : (s.slot k).codes.length = 257)
include hpf hlen

omit hfinal halpha in
/-- BLK.DEC gets past the bytes whose codes can be read and which can be written. -/
theorem blkDec_past {f : Nat} (h : Opened s f) {ys : List Byte} (hys : literalCodes (s.slot k) ys <+: s.sourceStream)
    (hr : (literalCodes (s.slot k) ys).length ≤ 8 * f) (hnone : s.stopAt 0 (byteUnits ys) = none) :
    ∃ fuel, (blockDecodeLoop k (8 * s.srcLen.toNat + 1)).run.run (s.working 0 [] Engine.idle) =
      (blockDecodeLoop k (fuel + 1)).run.run
        (s.working (literalCodes (s.slot k) ys).length (bytesBits ys) Engine.idle) := by
  obtain ⟨rest, hrest⟩ := hys
  have hleft : s.Left 0 (literalCodes (s.slot k) ys ++ rest) := hrest ▸ State.Left.start s
  have hcount := length_le_literalCodes hpf hlen ys
  have hinside := h.inside
  obtain ⟨fuel, hfuel⟩ : ∃ fuel, 8 * s.srcLen.toNat + 1 = ys.length + (fuel + 1) :=
    ⟨8 * s.srcLen.toNat - ys.length, by omega⟩
  refine ⟨fuel, ?_⟩
  rw [hfuel, blockDecodeLoop_working h (s.buffersOk_iff.1 hok).1 hpf hlen hleft (by omega) (w := [])
    (Nat.zero_le _) hnone, Nat.zero_add, List.nil_append]

/-- BLK.DEC ends at the first byte that cannot be written. -/
theorem blkDec_stops (hopen : s.sourceOpen = true) {ys : List Byte} {b : Byte} {q : Nat} {err : Raised}
    (hys : literalCodes (s.slot k) (ys ++ [b]) <+: s.sourceStream) (hnone : s.stopAt 0 (byteUnits ys) = none)
    (hstop : s.stopAt (bytesBits ys).length [natBits 8 b.toNat] = some (q, err)) :
    failsWith (.blkDec k) s err (s.produced (literalCodes (s.slot k) (ys ++ [b])).length
      ((bytesBits ys ++ natBits 8 b.toNat).take q) ((q + 7) / 8)) := by
  have hb := Buffers.of_ok hok
  have hsrc := (s.buffersOk_iff.1 hok).1
  have h := Opened.of_open hb hopen
  have hfits := hys.length_le
  obtain ⟨rest, hrest⟩ := hys
  rw [s.sourceStream_length] at hfits
  rw [literalCodes_concat, List.length_append] at hfits ⊢
  rw [literalCodes_concat, List.append_assoc] at hrest
  have hleft : s.Left 0 (literalCodes (s.slot k) ys ++ ((s.slot k).code b.toNat ++ rest)) := hrest ▸ State.Left.start s
  have hroom : (bytesBits ys).length ≤ 8 * s.dstCap.toNat := by simpa using State.stopAt_room hnone
  obtain ⟨htake, hcap⟩ := State.stopAt_length hroom hstop
  obtain ⟨fuel, hpast⟩ := blkDec_past hok hpf hlen h ⟨_, hrest⟩ (by omega) hnone
  have hleft' := hleft.drop
  rw [Nat.zero_add] at hleft'
  have hdecode := decodeNext_working (e := Engine.idle) h hsrc hpf hlen hroom hleft' (by omega)
  have hbyte : ¬ 256 ≤ b.toNat := Nat.not_le.2 b.isLt
  have hwrite := writeString_working_stops
    (r := (literalCodes (s.slot k) ys).length + ((s.slot k).code b.toNat).length) (e := Engine.idle) hb hroom hstop
  have hend := blkDec_loop_error hok hfinal halpha (by rwa [htake]) (by
    rw [hpast, blockDecodeLoop, Rd.bind_some hdecode, if_neg hbyte, byte_toNat_self,
      Rd.lift_bind_error (m := writeByte b) hwrite])
  rwa [htake] at hend

/-- BLK.DEC ends at the first source byte that may not be accessed, when no code ends between the bytes decoded and it. -/
theorem blkDec_shut {f : Nat} (hshut : s.sourceShut f = true) {ys : List Byte}
    (hys : literalCodes (s.slot k) ys <+: s.sourceStream) (hnone : s.stopAt 0 (byteUnits ys) = none)
    (hno : s.noCodeWithin (s.slot k) (literalCodes (s.slot k) ys).length (8 * f) = true) :
    failsWith (.blkDec k) s (.bus (s.srcAddr.toNat + f)) (s.produced (8 * f) (bytesBits ys) ys.length) := by
  have hsrc := (s.buffersOk_iff.1 hok).1
  obtain ⟨h, hf⟩ := Opened.of_shut (Buffers.of_ok hok) hshut
  obtain ⟨hr, hno⟩ := State.noCodeWithin_iff.1 hno
  have hroom : (bytesBits ys).length ≤ 8 * s.dstCap.toNat := by simpa using State.stopAt_room hnone
  obtain ⟨fuel, hpast⟩ := blkDec_past hok hpf hlen h hys hr hnone
  have hend := blkDec_loop_error hok hfinal halpha hroom (by
    rw [hpast, blockDecodeLoop, Rd.bind_error (decodeNext_working_stops h hsrc hf hroom hr hno)])
  rwa [bytesBits_length, show (8 * ys.length + 7) / 8 = ys.length by omega] at hend

/-- BLK.DEC of codes whose bytes cannot all be written. -/
theorem blkDec_writeStop (hopen : s.sourceOpen = true) {xs : List Byte} {n q : Nat} {err : Raised}
    (hxs : literalCodes (s.slot k) xs <+: s.sourceStream) (hstop : s.writeStop (byteUnits xs) = some (n, q, err)) :
    failsWith (.blkDec k) s err (s.produced (literalCodes (s.slot k) (xs.take (n + 1))).length ((bytesBits xs).take q)
      ((q + 7) / 8)) := by
  obtain ⟨us, u, vs, hsplit, rfl, hus, hu⟩ := State.writeStop_split hstop
  have hbits : (bytesBits xs).take q = (us.flatten ++ u).take q := by
    rw [← flatten_take hus hu, ← hsplit, byteUnits_flatten]
  obtain ⟨ys, bzs, rfl, rfl, hrest⟩ := List.map_eq_append_iff.1 hsplit
  obtain ⟨b, zs, rfl, rfl, -⟩ := List.map_eq_cons_iff.1 hrest
  have hsplit' : ys ++ b :: zs = ys ++ [b] ++ zs := by simp
  have htake : (ys ++ b :: zs).take ((byteUnits ys).length + 1) = ys ++ [b] := by
    rw [hsplit']
    exact List.take_left' (by simp [byteUnits])
  have hys := (literalCodes_prefix (s.slot k) (show ys ++ [b] <+: ys ++ b :: zs from ⟨zs, hsplit'.symm⟩)).trans hxs
  rw [← byteUnits] at hus hu hbits ⊢
  rw [byteUnits_flatten] at hu hbits
  rw [hbits, htake]
  exact blkDec_stops hok hfinal halpha hpf hlen hopen hys hus hu

/-- BLK.DEC of a code that reaches into the first source byte that may not be accessed. -/
theorem blkDec_code_shut {f n : Nat} (hshut : s.sourceShut f = true) {xs : List Byte}
    (hxs : literalCodes (s.slot k) xs <+: s.sourceStream)
    (hle : (literalCodes (s.slot k) (xs.take n)).length ≤ 8 * f)
    (hlt : 8 * f < (literalCodes (s.slot k) (xs.take (n + 1))).length) (hnone : s.stopAt 0 (byteUnits (xs.take n)) = none) :
    failsWith (.blkDec k) s (.bus (s.srcAddr.toNat + f)) (s.produced (8 * f) (bytesBits (xs.take n)) n) := by
  have hn : n < xs.length := by
    by_contra hall
    rw [List.take_of_length_le (by omega)] at hle hlt
    omega
  have hnext : xs.take (n + 1) = xs.take n ++ [xs[n]] := List.take_succ_eq_append_getElem hn
  have hys := (literalCodes_prefix (s.slot k) (List.take_prefix (n + 1) xs)).trans hxs
  rw [hnext] at hlt hys
  have hno := noCodeWithin_code hpf hlen hys hle hlt
  have hend := blkDec_shut hok hfinal halpha hpf hlen hshut
    ((literalCodes_prefix (s.slot k) (List.take_prefix n xs)).trans hxs) hnone hno
  rwa [List.length_take_of_le hn.le] at hend

end

/-- Settles O49: each command ends at the first unit it cannot write or the first byte it cannot read. -/
theorem blockEncodeFull : Obligations.BlockEncodeFull := by
  refine ⟨?_, ?_⟩
  · intro k s n sl written hfinal halpha hn hready hfull
    exact blkEnc_full (State.ready_iff.1 hready).1 hfinal halpha hn hready hfull
  · intro k s sl units hfinal halpha hok
    refine ⟨⟨?_, ?_⟩, ?_⟩
    · intro n q err hopen hstop
      exact blkEnc_writeStop hok hfinal halpha hopen hstop
    · intro f hshut hnone done
      have hf : f ≤ (s.source.map fun b => sl.code b.toNat).length := by
        rw [List.length_map, s.source_length]
        exact (Opened.of_shut (Buffers.of_ok hok) hshut).2.le
      have hunits : units.take f = codeUnits sl (s.source.take f) := by
        rw [List.take_append_of_le_length hf, ← List.map_take, codeUnits]
      have hdone : done = literalCodes sl (s.source.take f) := by rw [← codeUnits_flatten, ← hunits]
      rw [hdone]
      exact blkEnc_shut hok hfinal halpha hshut (State.stopAt_of_writeStop_none (hunits ▸ hnone))
    · intro xs read written hpf hlen hxs
      refine ⟨?_, ?_, ?_⟩
      · intro n q err hopen hstop
        exact blkDec_writeStop hok hfinal halpha hpf hlen hopen hxs hstop
      · intro f n hshut hle hlt hnone
        have hunits : written.take n = byteUnits (xs.take n) := (List.map_take ..).symm
        exact blkDec_code_shut hok hfinal halpha hpf hlen hshut hxs hle hlt
          (State.stopAt_of_writeStop_none (hunits ▸ hnone))
      · intro f hshut hno hnone
        exact blkDec_shut hok hfinal halpha hpf hlen hshut hxs (State.stopAt_of_writeStop_none hnone) hno

end Sys2Proof.Machine
end

section
/-! SUPPORT. Proofs: Sorting, and the rule of RefLengths -/

namespace Sys2Proof.Machine

/-! ### Sorting by a key -/

section
variable {α κ : Type} [LinearOrder κ] {before : α → α → Bool} {key : α → κ}

theorem mergeHead_sorted (hkey : ∀ x y, before x y = true ↔ key x < key y) {x : α} {xs : List α}
    {tail : List α → List α} (hperm : ∀ l, (tail l).Perm (xs ++ l)) (hx : ∀ z ∈ xs, key x ≤ key z)
    (htail : ∀ l, l.Pairwise (fun u v => key u ≤ key v) → (tail l).Pairwise (fun u v => key u ≤ key v)) :
    ∀ l : List α, l.Pairwise (fun u v => key u ≤ key v) →
      (mergeHead before x tail l).Pairwise (fun u v => key u ≤ key v)
  | [], h => List.pairwise_cons.2 ⟨fun z hz => hx z (by simpa using (hperm []).mem_iff.1 hz), htail [] h⟩
  | y :: ys, h => by
    obtain ⟨hy, hys⟩ := List.pairwise_cons.1 h
    unfold mergeHead
    cases hb : before y x with
    | true =>
      have hyx : key y < key x := (hkey y x).1 hb
      refine List.pairwise_cons.2 ⟨fun z hz => ?_, mergeHead_sorted hkey hperm hx htail ys hys⟩
      rcases List.mem_cons.1 ((mergeHead_perm before x tail xs hperm ys).mem_iff.1 hz) with rfl | hz
      · exact hyx.le
      · rcases List.mem_append.1 hz with hz | hz
        · exact hyx.le.trans (hx z hz)
        · exact hy z hz
    | false =>
      have hxy : key x ≤ key y := not_lt.1 fun hlt => by simp [(hkey y x).2 hlt] at hb
      refine List.pairwise_cons.2 ⟨fun z hz => ?_, htail _ h⟩
      rcases List.mem_append.1 ((hperm _).mem_iff.1 hz) with hz | hz
      · exact hx z hz
      · rcases List.mem_cons.1 hz with rfl | hz
        · exact hxy
        · exact hxy.trans (hy z hz)

theorem mergeSorted_sorted (hkey : ∀ x y, before x y = true ↔ key x < key y) :
    ∀ xs ys : List α, xs.Pairwise (fun u v => key u ≤ key v) → ys.Pairwise (fun u v => key u ≤ key v) →
      (mergeSorted before xs ys).Pairwise (fun u v => key u ≤ key v)
  | [], _, _, h => h
  | x :: xs, ys, hxs, hys => by
    obtain ⟨hx, hxs⟩ := List.pairwise_cons.1 hxs
    exact mergeHead_sorted hkey (mergeSorted_perm before xs) hx (fun l => mergeSorted_sorted hkey xs l hxs) ys hys

theorem mergePairs_sorted (hkey : ∀ x y, before x y = true ↔ key x < key y) :
    ∀ ls : List (List α), (∀ l ∈ ls, l.Pairwise (fun u v => key u ≤ key v)) →
      ∀ l ∈ mergePairs before ls, l.Pairwise (fun u v => key u ≤ key v)
  | [], h => h
  | [_], h => h
  | a :: b :: rest, h => by
    rw [mergePairs, List.forall_mem_cons]
    exact ⟨mergeSorted_sorted hkey a b (h a (by simp)) (h b (by simp)),
      mergePairs_sorted hkey rest fun l hl => h l (by simp [hl])⟩

theorem mergePairs_length : ∀ ls : List (List α), (mergePairs before ls).length = (ls.length + 1) / 2
  | [] => by simp [mergePairs]
  | [_] => by simp [mergePairs]
  | a :: b :: rest => by
    rw [mergePairs, List.length_cons, mergePairs_length rest, List.length_cons, List.length_cons]
    omega

/-- Each round merges two lists at least into one, so `fuel` rounds are enough for `fuel + 1` lists. -/
theorem mergeRounds_sorted (hkey : ∀ x y, before x y = true ↔ key x < key y) :
    ∀ (fuel : Nat) (ls : List (List α)), ls.length ≤ fuel + 1 → (∀ l ∈ ls, l.Pairwise (fun u v => key u ≤ key v)) →
      (mergeRounds before fuel ls).Pairwise (fun u v => key u ≤ key v)
  | _, [], _, _ => by simp [mergeRounds]
  | _, [l], _, h => by simpa [mergeRounds] using h l
  | 0, _ :: _ :: _, hlen, _ => absurd hlen (by simp)
  | fuel + 1, a :: b :: rest, hlen, h => by
    rw [mergeRounds]
    · refine mergeRounds_sorted hkey fuel _ ?_ (mergePairs_sorted hkey _ h)
      simp only [mergePairs_length, List.length_cons] at hlen ⊢
      omega
    · nofun
    · nofun

/-- `sortBy` puts the items in the order of their keys. -/
theorem sortBy_sorted (hkey : ∀ x y, before x y = true ↔ key x < key y) (l : List α) :
    (sortBy before l).Pairwise (fun u v => key u ≤ key v) := by
  refine mergeRounds_sorted hkey _ _ (by simp) fun l' hl' => ?_
  obtain ⟨x, -, rfl⟩ := List.mem_map.1 hl'
  exact List.pairwise_singleton _ _

end

theorem pairBefore_iff (x y : Nat × Nat) : pairBefore x y = true ↔ toLex x < toLex y := by
  rw [Prod.Lex.toLex_lt_toLex, pairBefore]
  cases h : Nat.beq x.1 y.1 with
  | true => simp [Nat.eq_of_beq_eq_true h]
  | false => simpa using fun heq => absurd heq (Nat.ne_of_beq_eq_false h)

/-- Items that carry the numbers below `n`, each once, sorted by them, carry them in their order. -/
theorem map_fst_eq_range {β : Type} {l : List (Nat × β)} {n : Nat} (hperm : (l.map Prod.fst).Perm (List.range n))
    (hsorted : l.Pairwise (fun u v => u.1 ≤ v.1)) : l.map Prod.fst = List.range n :=
  hperm.eq_of_pairwise (fun _ _ _ _ => Nat.le_antisymm) (List.pairwise_map.2 hsorted) List.pairwise_le_range

theorem sortBy_pairBefore_fst {l : List (Nat × Nat)} {n : Nat} (hperm : (l.map Prod.fst).Perm (List.range n)) :
    (sortBy pairBefore l).map Prod.fst = List.range n := by
  refine map_fst_eq_range (((sortBy_perm _ l).map _).trans hperm) ?_
  exact (sortBy_sorted pairBefore_iff l).imp fun h => Prod.Lex.monotone_fst _ _ h

/-! ### The least live node (41_prefix_table.md R172) -/

/-- What the live nodes are ordered by: weight, then rank (41_prefix_table.md R172). -/
def nodeKey (n : BuildNode) : Nat ×ₗ Nat := toLex (n.weight, n.rank)

theorem nodeBefore_iff (x y : BuildNode) : nodeBefore x y = true ↔ nodeKey x < nodeKey y := pairBefore_iff _ _

theorem weight_le_of_nodeKey_le {x y : BuildNode} (h : nodeKey x ≤ nodeKey y) : x.weight ≤ y.weight :=
  Prod.Lex.monotone_fst _ _ h

theorem rank_eq_of_nodeKey_eq {x y : BuildNode} (h : nodeKey x = nodeKey y) : x.rank = y.rank :=
  congrArg (fun k => (ofLex k).2) h

/-- The nodes rise in the order of R172. -/
def Rising (l : List BuildNode) : Prop := l.Pairwise (fun x y => nodeKey x ≤ nodeKey y)

section
variable {l i l' i' : List BuildNode} {x : BuildNode}

theorem takeLeast_sublist (h : takeLeast l i = some (x, l', i')) : l'.Sublist l ∧ i'.Sublist i := by
  rcases l with - | ⟨a, l⟩ <;> rcases i with - | ⟨b, i⟩ <;> simp only [takeLeast] at h
  · cases h
  · cases h
    exact ⟨List.Sublist.refl _, List.sublist_cons_self _ _⟩
  · cases h
    exact ⟨List.sublist_cons_self _ _, List.Sublist.refl _⟩
  · cases hb : nodeBefore a b <;> rw [hb] at h <;> cases h
    · exact ⟨List.Sublist.refl _, List.sublist_cons_self _ _⟩
    · exact ⟨List.sublist_cons_self _ _, List.Sublist.refl _⟩

/-- The lesser of the two heads is the least of all. -/
theorem takeLeast_least (hl : Rising l) (hi : Rising i) (h : takeLeast l i = some (x, l', i')) :
    ∀ z ∈ l' ++ i', nodeKey x ≤ nodeKey z := by
  rcases l with - | ⟨a, l⟩ <;> rcases i with - | ⟨b, i⟩ <;> simp only [takeLeast] at h
  · cases h
  · cases h
    simpa using (List.pairwise_cons.1 hi).1
  · cases h
    simpa using (List.pairwise_cons.1 hl).1
  · have hla := (List.pairwise_cons.1 hl).1
    have hib := (List.pairwise_cons.1 hi).1
    cases hb : nodeBefore a b with
    | false =>
      have hba : nodeKey b ≤ nodeKey a := not_lt.1 fun hlt => by simp [(nodeBefore_iff a b).2 hlt] at hb
      rw [hb] at h
      cases h
      rw [List.cons_append, List.forall_mem_cons, List.forall_mem_append]
      exact ⟨hba, fun z hz => hba.trans (hla z hz), hib⟩
    | true =>
      have hab := ((nodeBefore_iff a b).1 hb).le
      rw [hb] at h
      cases h
      rw [List.forall_mem_append, List.forall_mem_cons]
      exact ⟨hla, hab, fun z hz => hab.trans (hib z hz)⟩

end

theorem leastNode_mem (x : BuildNode) (l : List BuildNode) : leastNode x l ∈ x :: l := by
  induction l generalizing x with
  | nil => exact List.mem_singleton_self x
  | cons y ys ih =>
    rw [leastNode]
    split_ifs
    · exact List.mem_cons_of_mem _ (ih y)
    · rcases List.mem_cons.1 (ih x) with h | h
      · rw [h]
        exact List.mem_cons_self
      · exact List.mem_cons_of_mem _ (List.mem_cons_of_mem _ h)

theorem leastNode_least (x : BuildNode) (l : List BuildNode) : ∀ z ∈ x :: l, nodeKey (leastNode x l) ≤ nodeKey z := by
  induction l generalizing x with
  | nil => simp [leastNode]
  | cons y ys ih =>
    rw [leastNode]
    split_ifs with h
    · have hyx := ((nodeBefore_iff y x).1 h).le
      rw [List.forall_mem_cons]
      exact ⟨(ih y y List.mem_cons_self).trans hyx, ih y⟩
    · have hxy : nodeKey x ≤ nodeKey y := not_lt.1 fun hlt => h ((nodeBefore_iff y x).2 hlt)
      have hx := ih x x List.mem_cons_self
      rw [List.forall_mem_cons, List.forall_mem_cons]
      exact ⟨hx, hx.trans hxy, fun z hz => ih x z (List.mem_cons_of_mem _ hz)⟩

/-- Without the rank of one of its nodes, a live set of distinct ranks has the other nodes. -/
theorem withoutRank_perm {live rest : List BuildNode} {x : BuildNode} (h : live.Perm (x :: rest))
    (hranks : (live.map BuildNode.rank).Nodup) : (withoutRank x.rank live).Perm rest := by
  have hothers : ∀ z ∈ rest, (z.rank != x.rank) = true := fun z hz => by
    have hx := (List.nodup_cons.1 ((h.map BuildNode.rank).nodup_iff.1 hranks)).1
    exact bne_iff_ne.2 fun heq => hx (heq ▸ List.mem_map_of_mem hz)
  have hfilter := h.filter (fun z => z.rank != x.rank)
  rwa [List.filter_cons_of_neg (by simp), List.filter_eq_self.2 hothers] at hfilter

/-! ### Leaves and internal nodes held apart follow the rule (41_prefix_table.md R172) -/

/-- What holds of the leaves and the internal nodes before each round: both rise, ranks are distinct and those of nodes
made before, and no internal node weighs more than two of the live nodes. -/
structure Merging (a j : Nat) (l i : List BuildNode) : Prop where
  leaves : Rising l
  inner : Rising i
  ranks : ((l ++ i).map BuildNode.rank).Nodup
  made : ∀ n ∈ l ++ i, n.rank < a + j
  light : ∃ b, (∀ n ∈ l ++ i, b ≤ n.weight) ∧ ∀ n ∈ i, n.weight ≤ 2 * b

section
variable {a j : Nat} {l i l1 i1 l2 i2 live : List BuildNode} {x y : BuildNode}

/-- Taken one after the other, the two least nodes leave those that weigh no less. -/
theorem Merging.two_least (h : Merging a j l i) (hx : takeLeast l i = some (x, l1, i1))
    (hy : takeLeast l1 i1 = some (y, l2, i2)) : (l ++ i).Perm (x :: y :: (l2 ++ i2)) ∧ l2.Sublist l ∧ i2.Sublist i ∧
      x.weight ≤ y.weight ∧ ∀ z ∈ l2 ++ i2, y.weight ≤ z.weight := by
  obtain ⟨hl1, hi1⟩ := takeLeast_sublist hx
  obtain ⟨hl2, hi2⟩ := takeLeast_sublist hy
  have hy1 : y ∈ l1 ++ i1 := (takeLeast_perm hy).mem_iff.2 List.mem_cons_self
  exact ⟨(takeLeast_perm hx).trans ((takeLeast_perm hy).cons x), hl2.trans hl1, hi2.trans hi1,
    weight_le_of_nodeKey_le (takeLeast_least h.leaves h.inner hx y hy1), fun z hz =>
      weight_le_of_nodeKey_le (takeLeast_least (h.leaves.sublist hl1) (h.inner.sublist hi1) hy z hz)⟩

/-- The new internal node goes behind the others. -/
theorem Merging.next (h : Merging a j l i) (hx : takeLeast l i = some (x, l1, i1))
    (hy : takeLeast l1 i1 = some (y, l2, i2)) (t : CodeTree) :
    Merging a (j + 1) l2 (i2 ++ [⟨x.weight + y.weight, a + j, t⟩]) := by
  obtain ⟨b, hb, hb2⟩ := h.light
  obtain ⟨hperm, hl2, hi2, hxy, hleast⟩ := h.two_least hx hy
  have hsub := hl2.append hi2
  have hbx : b ≤ x.weight := hb x (hperm.mem_iff.2 (by simp))
  have hby : b ≤ y.weight := hb y (hperm.mem_iff.2 (by simp))
  refine ⟨h.leaves.sublist hl2, ?_, ?_, ?_, y.weight, ?_, ?_⟩
  · refine List.pairwise_append.2 ⟨h.inner.sublist hi2, List.pairwise_singleton _ _, fun z hz n hn => ?_⟩
    rw [List.mem_singleton.1 hn]
    have hrank := h.made z (List.mem_append_right _ (hi2.mem hz))
    have hweight := hb2 z (hi2.mem hz)
    refine Prod.Lex.toLex_le_toLex.2 ?_
    rcases Nat.lt_or_ge z.weight (x.weight + y.weight) with hlt | hge
    · exact .inl hlt
    · exact .inr ⟨Nat.le_antisymm (hweight.trans (by dsimp only; omega)) hge, hrank.le⟩
  · rw [← List.append_assoc, List.map_append, List.nodup_append]
    refine ⟨h.ranks.sublist (hsub.map _), by simp, fun r hr r' hr' => ?_⟩
    obtain ⟨n, hn, rfl⟩ := List.mem_map.1 hr
    have hlt := h.made n (hsub.mem hn)
    have heq : r' = a + j := by simpa using hr'
    omega
  · intro n hn
    rw [← List.append_assoc, List.mem_append] at hn
    rcases hn with hn | hn
    · have := h.made n (hsub.mem hn)
      omega
    · rw [List.mem_singleton.1 hn]
      simp
  · intro n hn
    rw [← List.append_assoc, List.mem_append] at hn
    rcases hn with hn | hn
    · exact hleast n hn
    · rw [List.mem_singleton.1 hn]
      exact Nat.le_add_left _ _
  · intro n hn
    rcases List.mem_append.1 hn with hn | hn
    · have := hb2 n (hi2.mem hn)
      omega
    · rw [List.mem_singleton.1 hn]
      dsimp only
      omega

/-- One search of the live set finds the node that the two heads give, and leaves the same others. -/
theorem leastNode_eq_takeLeast {n : BuildNode} {rest : List BuildNode} (hl : Rising l) (hi : Rising i)
    (hranks : ((l ++ i).map BuildNode.rank).Nodup) (hlive : (n :: rest).Perm (l ++ i))
    (hx : takeLeast l i = some (x, l1, i1)) :
    leastNode n rest = x ∧ (withoutRank x.rank (n :: rest)).Perm (l1 ++ i1) := by
  have hperm := hlive.trans (takeLeast_perm hx)
  have hnodup := (hlive.map BuildNode.rank).nodup_iff.2 hranks
  refine ⟨?_, withoutRank_perm hperm hnodup⟩
  have hle : nodeKey (leastNode n rest) ≤ nodeKey x := leastNode_least n rest x (hperm.mem_iff.2 (by simp))
  have hge : nodeKey x ≤ nodeKey (leastNode n rest) := by
    rcases List.mem_cons.1 (hperm.mem_iff.1 (leastNode_mem n rest)) with heq | hmem
    · rw [heq]
    · exact takeLeast_least hl hi hx _ hmem
  exact List.inj_on_of_nodup_map hnodup (leastNode_mem n rest) (hperm.mem_iff.2 (by simp))
    (rank_eq_of_nodeKey_eq (le_antisymm hle hge))

/-- The loop over two rising lists makes the tree of the loop over one live set. -/
theorem ruleMerge_eq_mergeNodes (fuel : Nat) (h : Merging a j l i) (hlive : live.Perm (l ++ i)) :
    ruleMerge a fuel j live = mergeNodes a fuel j l i := by
  induction fuel generalizing j l i live with
  | zero => simp [ruleMerge, mergeNodes]
  | succ fuel ih =>
    rw [mergeNodes]
    cases hx : takeLeast l i with
    | none =>
      rw [takeLeast_none hx] at hlive
      rw [hlive.eq_nil]
      simp [ruleMerge]
    | some r =>
      obtain ⟨x, l1, i1⟩ := r
      have hperm := hlive.trans (takeLeast_perm hx)
      dsimp only
      cases hy : takeLeast l1 i1 with
      | none =>
        rw [takeLeast_none hy] at hperm
        rw [List.perm_singleton.1 hperm]
        simp [ruleMerge]
      | some r =>
        obtain ⟨y, l2, i2⟩ := r
        have hsubx := takeLeast_sublist hx
        have hlen := hperm.length_eq
        rw [List.length_cons, (takeLeast_perm hy).length_eq, List.length_cons] at hlen
        obtain ⟨n, m, rest, rfl⟩ : ∃ n m rest, live = n :: m :: rest := by
          rcases live with - | ⟨n, - | ⟨m, rest⟩⟩
          · simp at hlen
          · simp at hlen
          · exact ⟨n, m, rest, rfl⟩
        obtain ⟨hleast, hothers⟩ := leastNode_eq_takeLeast h.leaves h.inner h.ranks hlive hx
        obtain ⟨k, others, hk⟩ : ∃ k others, withoutRank x.rank (n :: m :: rest) = k :: others := by
          refine List.exists_cons_of_ne_nil fun hnil => ?_
          rw [hnil] at hothers
          have := (hothers.trans (takeLeast_perm hy)).length_eq
          simp at this
        rw [hk] at hothers
        obtain ⟨hleast', hothers'⟩ := leastNode_eq_takeLeast (h.leaves.sublist hsubx.1) (h.inner.sublist hsubx.2)
          (h.ranks.sublist ((hsubx.1.append hsubx.2).map _)) hothers hy
        rw [ruleMerge, hleast, hk]
        · dsimp only
          rw [hleast']
          refine ih (h.next hx hy _) ?_
          rw [← List.append_assoc]
          exact (hothers'.cons _).trans (List.perm_append_singleton _ _).symm
        · simp

end

/-! ### The tree of a weight vector -/

theorem leafNodes_rank (a : Nat) (s : Nat) (w : List Nat) (h : s + w.length = a) :
    ∀ n ∈ leafNodes a s w, n.rank < w.length := by
  induction w generalizing s with
  | nil => simp [leafNodes]
  | cons v w ih =>
    rw [List.length_cons] at h
    rw [leafNodes, List.forall_mem_cons, List.length_cons]
    refine ⟨by dsimp only; omega, fun n hn => ?_⟩
    have := ih (s + 1) (by omega) n hn
    omega

theorem leafNodes_ranks_nodup (a : Nat) (s : Nat) (w : List Nat) (h : s + w.length = a) :
    ((leafNodes a s w).map BuildNode.rank).Nodup := by
  induction w generalizing s with
  | nil => simp [leafNodes]
  | cons v w ih =>
    rw [List.length_cons] at h
    rw [leafNodes, List.map_cons, List.nodup_cons]
    refine ⟨fun hmem => ?_, ih (s + 1) (by omega)⟩
    obtain ⟨n, hn, heq⟩ := List.mem_map.1 hmem
    have := leafNodes_rank a (s + 1) w (by omega) n hn
    dsimp only at heq
    omega

theorem merging_leaves (w : List Nat) : Merging w.length 0 (sortBy nodeBefore (leafNodes w.length 0 w)) [] := by
  have hperm := sortBy_perm nodeBefore (leafNodes w.length 0 w)
  refine ⟨sortBy_sorted nodeBefore_iff _, List.Pairwise.nil, ?_, ?_, 0, fun _ _ => Nat.zero_le _, by simp⟩
  · rw [List.append_nil]
    exact (hperm.map _).nodup_iff.2 (leafNodes_ranks_nodup _ 0 w (Nat.zero_add _))
  · intro n hn
    rw [List.append_nil] at hn
    exact leafNodes_rank _ 0 w (Nat.zero_add _) n (hperm.mem_iff.1 hn)

theorem huffmanTree_eq_ruleTree (w : List Nat) : huffmanTree w = ruleTree w :=
  (ruleMerge_eq_mergeNodes w.length (merging_leaves w) (by rw [List.append_nil]; exact (sortBy_perm _ _).symm)).symm

/-- How Huffman's procedure can join live nodes into a tree: two nodes of least weight become one, until one is left
(41_prefix_table.md R172). -/
inductive Joins : List BuildNode → CodeTree → Prop
  | done (x : BuildNode) : Joins [x] x.tree
  | join {live rest next : List BuildNode} {x y : BuildNode} {r : Nat} {t : CodeTree} (two : live.Perm (x :: y :: rest))
    (least : x.weight ≤ y.weight) (others : ∀ z ∈ rest, y.weight ≤ z.weight)
    (one : next.Perm (⟨x.weight + y.weight, r, .node x.tree y.tree⟩ :: rest)) (more : Joins next t) : Joins live t

theorem mergeNodes_joins {a fuel j : Nat} {l i : List BuildNode} (h : Merging a j l i) (hne : l ++ i ≠ [])
    (hlen : (l ++ i).length ≤ fuel) : Joins (l ++ i) (mergeNodes a fuel j l i) := by
  induction fuel generalizing j l i with
  | zero => exact absurd (List.eq_nil_of_length_eq_zero (Nat.le_zero.1 hlen)) hne
  | succ fuel ih =>
    rw [mergeNodes]
    cases hx : takeLeast l i with
    | none => exact absurd (takeLeast_none hx) hne
    | some r =>
      obtain ⟨x, l1, i1⟩ := r
      have hpx := takeLeast_perm hx
      dsimp only
      cases hy : takeLeast l1 i1 with
      | none =>
        rw [takeLeast_none hy] at hpx
        rw [List.perm_singleton.1 hpx]
        exact Joins.done x
      | some r =>
        obtain ⟨y, l2, i2⟩ := r
        obtain ⟨hperm, -, -, hxy, hleast⟩ := h.two_least hx hy
        have hsize := hperm.length_eq
        have hnext : (l2 ++ (i2 ++ [(⟨x.weight + y.weight, a + j, .node x.tree y.tree⟩ : BuildNode)])).Perm
            (⟨x.weight + y.weight, a + j, .node x.tree y.tree⟩ :: (l2 ++ i2)) := by
          rw [← List.append_assoc]
          exact List.perm_append_singleton _ _
        refine Joins.join hperm hxy hleast hnext (ih (h.next hx hy _) (by simp) ?_)
        rw [hnext.length_eq]
        simp only [List.length_cons] at hsize ⊢
        omega

theorem leafNodes_ne_nil {w : List Nat} (hw : w ≠ []) (a s : Nat) : leafNodes a s w ≠ [] := fun h => by
  have hlen := leafNodes_length a s w
  rw [h] at hlen
  exact hw (List.eq_nil_of_length_eq_zero hlen.symm)

/-- The tree of a weight vector is joined from its leaves. -/
theorem huffmanTree_joins {w : List Nat} (hw : w ≠ []) :
    Joins (sortBy nodeBefore (leafNodes w.length 0 w)) (huffmanTree w) := by
  have hperm := sortBy_perm nodeBefore (leafNodes w.length 0 w)
  have hjoins := mergeNodes_joins (fuel := w.length) (merging_leaves w) ?_ ?_
  · rwa [List.append_nil] at hjoins
  · rw [List.append_nil]
    exact fun hnil => leafNodes_ne_nil hw _ _ (hnil ▸ hperm).nil_eq.symm
  · rw [List.append_nil, hperm.length_eq, leafNodes_length]

/-! ### The symbols of the tree -/

/-- The symbols of a tree, from left to right. -/
def treeSymbols : CodeTree → List Nat
  | .leaf s => [s]
  | .node l r => treeSymbols l ++ treeSymbols r

theorem leafDepths_fst (t : CodeTree) (d : Nat) : (leafDepths t d).map Prod.fst = treeSymbols t := by
  induction t generalizing d with
  | leaf s => rfl
  | node l r ihl ihr => rw [leafDepths, List.map_append, ihl, ihr, treeSymbols]

theorem Joins.symbols {live : List BuildNode} {t : CodeTree} (h : Joins live t) :
    (treeSymbols t).Perm (live.flatMap fun n => treeSymbols n.tree) := by
  induction h with
  | done x => simp
  | join two least others one more ih =>
    refine ih.trans (((one.flatMap_right _).trans ?_).trans (two.flatMap_right _).symm)
    simp [treeSymbols]

theorem leafNodes_symbols (a s : Nat) (w : List Nat) :
    ((leafNodes a s w).flatMap fun n => treeSymbols n.tree) = List.range' s w.length := by
  induction w generalizing s with
  | nil => rfl
  | cons v w ih => rw [leafNodes, List.flatMap_cons, ih, List.length_cons, List.range'_succ]; rfl

theorem huffmanTree_symbols {w : List Nat} (hw : w ≠ []) (d : Nat) :
    ((leafDepths (huffmanTree w) d).map Prod.fst).Perm (List.range w.length) := by
  rw [leafDepths_fst, List.range_eq_range', ← leafNodes_symbols w.length 0 w]
  exact (huffmanTree_joins hw).symbols.trans ((sortBy_perm _ _).flatMap_right _)

theorem lookup_of_mem {β : Type} {l : List (Nat × β)} (hnodup : (l.map Prod.fst).Nodup) {p : Nat × β} (hp : p ∈ l) :
    l.lookup p.1 = some p.2 := by
  induction l with
  | nil => cases hp
  | cons q l ih =>
    obtain ⟨hq, hl⟩ := List.nodup_cons.1 hnodup
    rcases List.mem_cons.1 hp with rfl | hp
    · exact List.lookup_cons_self
    · have hne : (p.1 == q.1) = false := beq_false_of_ne fun heq => hq (heq ▸ List.mem_map_of_mem hp)
      rw [List.lookup_cons, hne]
      exact ih hl hp

/-- Settles O59: both loops make the same tree, whose leaves sorted by symbol have their depths in symbol order. -/
theorem builderFollowsRule : Obligations.BuilderFollowsRule := by
  intro w hw
  have hsymbols := huffmanTree_symbols hw 0
  have hperm := sortBy_perm pairBefore (leafDepths (huffmanTree w) 0)
  rw [ruleLengths, ← huffmanTree_eq_ruleTree, refLengths, ← sortBy_pairBefore_fst hsymbols, List.map_map]
  refine List.map_congr_left fun p hp => ?_
  have hfound := lookup_of_mem (hsymbols.nodup_iff.2 List.nodup_range) (hperm.mem_iff.1 hp)
  rw [Function.comp_apply, hfound, Option.getD_some]

end Sys2Proof.Machine
end

section
/-! SUPPORT. Proofs: Kraft sums, and the canonical codes of RefCodes -/

namespace Sys2Proof.Machine

/-! ### Kraft sums -/

/-- The Kraft sum of code lengths: the share of all long bit strings that begin with a code. -/
def kraft (lens : List Nat) : ℚ := (lens.map fun n => (1 / 2 : ℚ) ^ n).sum

@[simp] theorem kraft_nil : kraft [] = 0 := rfl

@[simp] theorem kraft_cons (n : Nat) (lens : List Nat) : kraft (n :: lens) = (1 / 2) ^ n + kraft lens := by simp [kraft]

theorem kraft_append (xs ys : List Nat) : kraft (xs ++ ys) = kraft xs + kraft ys := by simp [kraft]

theorem kraft_perm {xs ys : List Nat} (h : xs.Perm ys) : kraft xs = kraft ys := (h.map _).sum_eq

theorem kraft_nonneg (lens : List Nat) : 0 ≤ kraft lens := by
  induction lens with
  | nil => exact le_refl _
  | cons n lens ih =>
    rw [kraft_cons]
    positivity

theorem two_pow_mul_half_pow (n : Nat) : (2 : ℚ) ^ n * (1 / 2) ^ n = 1 := by
  rw [← mul_pow]
  norm_num

/-- The two subtrees of a node take half of its share each. -/
theorem kraft_leafDepths (t : CodeTree) (d : Nat) : kraft ((leafDepths t d).map Prod.snd) = (1 / 2) ^ d := by
  induction t generalizing d with
  | leaf s => simp [leafDepths]
  | node l r ihl ihr =>
    rw [leafDepths, List.map_append, kraft_append, ihl, ihr, pow_succ]
    ring

/-! ### Beginnings and values -/

theorem bitsVal_append (p q : Bits) : bitsVal (p ++ q) = bitsVal p * 2 ^ q.length + bitsVal q := by
  rw [bitsVal, List.foldl_append, ← bitsVal, bitsVal_foldl]

/-- A raw field begins a bit string when its value is that of as many bits. -/
theorem natBits_prefix_iff {n v : Nat} {q : Bits} (hv : v < 2 ^ n) (hn : n ≤ q.length) :
    natBits n v <+: q ↔ bitsVal q / 2 ^ (q.length - n) = v := by
  have htake : (q.take n).length = n := List.length_take_of_le hn
  have hvalue : bitsVal q / 2 ^ (q.length - n) = bitsVal (q.take n) := by
    have hlt := bitsVal_lt (q.drop n)
    conv_lhs => rw [← List.take_append_drop n q, bitsVal_append, List.take_append_drop]
    rw [List.length_drop] at hlt ⊢
    rw [Nat.add_comm, Nat.add_mul_div_right _ _ (Nat.two_pow_pos _), Nat.div_eq_of_lt hlt, Nat.zero_add]
  rw [List.prefix_iff_eq_take, natBits_length, hvalue]
  constructor
  · intro h
    rw [← h, bitsVal_natBits, Nat.mod_eq_of_lt hv]
  · intro h
    have htaken := natBits_bitsVal (q.take n)
    rwa [htake, h] at htaken

/-! ### The codes of RefCodes one after the other (41_prefix_table.md R173) -/

/-- The last code given is `code`, of `prev` bits; the lengths to come do not fall, and with the codes up to the last
they fill the tree: the codes given so far are the `code + 1` strings of `prev` bits from 0 on. -/
structure Canonical (code prev : Nat) (rest : List (Nat × Nat)) : Prop where
  rising : (prev :: rest.map Prod.fst).Pairwise (· ≤ ·)
  full : (code + 1) * (1 / 2 : ℚ) ^ prev + kraft (rest.map Prod.fst) = 1

/-- A whole number of shares of `n` bits in the whole are as many strings of `n` bits. -/
theorem mul_half_pow_le_one_iff (v n : Nat) : (v : ℚ) * (1 / 2) ^ n ≤ 1 ↔ v ≤ 2 ^ n := by
  rw [one_div, inv_pow, ← div_eq_mul_inv, div_le_one (by positivity)]
  exact_mod_cast Iff.rfl

section
variable {code prev len sym : Nat} {rest : List (Nat × Nat)}

theorem Canonical.code_lt (h : Canonical code prev rest) : code < 2 ^ prev := by
  have hnonneg := kraft_nonneg (rest.map Prod.fst)
  have hfull := h.full
  have hle : ((code + 1 : Nat) : ℚ) * (1 / 2) ^ prev ≤ 1 := by
    push_cast
    linarith
  exact (mul_half_pow_le_one_iff _ _).1 hle

theorem Canonical.prev_le (h : Canonical code prev ((len, sym) :: rest)) : prev ≤ len :=
  (List.pairwise_cons.1 h.rising).1 len (by simp)

theorem Canonical.next (h : Canonical code prev ((len, sym) :: rest)) :
    Canonical ((code + 1) <<< (len - prev)) len rest where
  rising := (List.pairwise_cons.1 h.rising).2
  full := by
    obtain ⟨k, rfl⟩ := Nat.exists_eq_add_of_le h.prev_le
    have hfull := h.full
    rw [List.map_cons, kraft_cons, pow_add] at hfull
    rw [Nat.add_sub_cancel_left, Nat.shiftLeft_eq, pow_add]
    push_cast
    linear_combination hfull + ((code : ℚ) + 1) * (1 / 2) ^ prev * two_pow_mul_half_pow k

/-- A bit string that lies past the shifted code lies past the code. -/
theorem shifted_mul_le {m : Nat} (hprev : prev ≤ len) (hlen : len ≤ m) :
    (code + 1) <<< (len - prev) * 2 ^ (m - len) = (code + 1) * 2 ^ (m - prev) := by
  rw [Nat.shiftLeft_eq, Nat.mul_assoc, ← pow_add, show len - prev + (m - len) = m - prev by omega]

/-- The codes to come are no shorter, and lie past all strings that begin with a code given so far. -/
theorem assignNext_past (h : Canonical code prev rest) : ∀ x ∈ assignNext code prev rest,
    prev ≤ x.2.length ∧ (code + 1) * 2 ^ (x.2.length - prev) ≤ bitsVal x.2 := by
  induction rest generalizing code prev with
  | nil => simp [assignNext]
  | cons p rest ih =>
    obtain ⟨len, sym⟩ := p
    have hle := h.prev_le
    rw [assignNext, List.forall_mem_cons]
    refine ⟨?_, fun x hx => ?_⟩
    · dsimp only
      rw [natBits_length, bitsVal_natBits, Nat.mod_eq_of_lt h.next.code_lt, Nat.shiftLeft_eq]
      exact ⟨hle, le_refl _⟩
    · obtain ⟨hlen, hpast⟩ := ih h.next x hx
      refine ⟨hle.trans hlen, ?_⟩
      rw [← shifted_mul_le hle hlen]
      exact (Nat.mul_le_mul_right _ (Nat.le_succ _)).trans hpast

/-- What lies past a code does not begin with it, and, no shorter, is not its beginning. -/
theorem not_prefix_of_past {c : Bits} (hcode : code < 2 ^ prev) (hlen : prev ≤ c.length)
    (hpast : (code + 1) * 2 ^ (c.length - prev) ≤ bitsVal c) :
    ¬ natBits prev code <+: c ∧ ¬ c <+: natBits prev code := by
  have hnot : ¬ natBits prev code <+: c := fun hprefix => by
    have hdiv := (natBits_prefix_iff hcode hlen).1 hprefix
    have := (Nat.le_div_iff_mul_le (Nat.two_pow_pos _)).2 hpast
    omega
  refine ⟨hnot, fun hprefix => hnot ?_⟩
  rw [hprefix.eq_of_length_le (by rwa [natBits_length])]

theorem assignNext_pairwise (h : Canonical code prev rest) :
    (natBits prev code :: (assignNext code prev rest).map Prod.snd).Pairwise (fun c d => ¬ c <+: d ∧ ¬ d <+: c) := by
  induction rest generalizing code prev with
  | nil => simp [assignNext]
  | cons p rest ih =>
    refine List.pairwise_cons.2 ⟨fun c hc => ?_, ih h.next⟩
    obtain ⟨x, hx, rfl⟩ := List.mem_map.1 hc
    obtain ⟨hlen, hpast⟩ := assignNext_past h x hx
    exact not_prefix_of_past h.code_lt hlen hpast

/-- Every long bit string past the codes given so far begins with one of those to come. -/
theorem assignNext_covers (h : Canonical code prev rest) {q : Bits} (hlong : ∀ p ∈ rest, p.1 ≤ q.length)
    (hprev : prev ≤ q.length) (hpast : (code + 1) * 2 ^ (q.length - prev) ≤ bitsVal q) :
    ∃ x ∈ assignNext code prev rest, x.2 <+: q := by
  induction rest generalizing code prev with
  | nil =>
    have hfull : (code + 1 : ℚ) = 2 ^ prev := by
      have := h.full
      rw [List.map_nil, kraft_nil, add_zero, one_div, inv_pow] at this
      field_simp at this
      exact this
    have hcode : code + 1 = 2 ^ prev := by exact_mod_cast hfull
    rw [hcode, ← pow_add, Nat.add_sub_cancel' hprev] at hpast
    exact absurd (bitsVal_lt q) (by omega)
  | cons p rest ih =>
    obtain ⟨len, sym⟩ := p
    have hlen : len ≤ q.length := hlong _ List.mem_cons_self
    rw [← shifted_mul_le h.prev_le hlen] at hpast
    rw [assignNext]
    rcases Nat.lt_or_ge (bitsVal q) (((code + 1) <<< (len - prev) + 1) * 2 ^ (q.length - len)) with hlt | hge
    · refine ⟨_, List.mem_cons_self, (natBits_prefix_iff h.next.code_lt hlen).2 (Nat.le_antisymm ?_ ?_)⟩
      · exact Nat.le_of_lt_succ ((Nat.div_lt_iff_lt_mul (Nat.two_pow_pos _)).2 hlt)
      · exact (Nat.le_div_iff_mul_le (Nat.two_pow_pos _)).2 hpast
    · obtain ⟨x, hx, hprefix⟩ := ih h.next (fun p hp => hlong p (List.mem_cons_of_mem _ hp)) hlen hge
      exact ⟨x, List.mem_cons_of_mem _ hx, hprefix⟩

end

/-! ### The code table -/

section
variable {order : List (Nat × Nat)} {lens : List Nat}

theorem canonical_first {len sym : Nat} {rest : List (Nat × Nat)}
    (hrising : (((len, sym) :: rest).map Prod.fst).Pairwise (· ≤ ·))
    (hfull : kraft (((len, sym) :: rest).map Prod.fst) = 1) : Canonical 0 len rest where
  rising := hrising
  full := by simpa using hfull

theorem assignCodes_pairwise (hrising : (order.map Prod.fst).Pairwise (· ≤ ·))
    (hfull : kraft (order.map Prod.fst) = 1) :
    ((assignCodes order).map Prod.snd).Pairwise (fun c d => ¬ c <+: d ∧ ¬ d <+: c) := by
  rcases order with - | ⟨⟨len, sym⟩, rest⟩
  · simp [assignCodes]
  · exact assignNext_pairwise (canonical_first hrising hfull)

theorem assignCodes_covers (hrising : (order.map Prod.fst).Pairwise (· ≤ ·)) (hfull : kraft (order.map Prod.fst) = 1)
    {q : Bits} (hlong : ∀ p ∈ order, p.1 ≤ q.length) : ∃ x ∈ assignCodes order, x.2 <+: q := by
  rcases order with - | ⟨⟨len, sym⟩, rest⟩
  · simp at hfull
  · have hfirst := canonical_first hrising hfull
    obtain ⟨hlen, hrest⟩ := List.forall_mem_cons.1 hlong
    rw [assignCodes]
    rcases Nat.eq_zero_or_pos (bitsVal q / 2 ^ (q.length - len)) with hzero | hpos
    · exact ⟨_, List.mem_cons_self, (natBits_prefix_iff hfirst.code_lt hlen).2 hzero⟩
    · obtain ⟨x, hx, hprefix⟩ := assignNext_covers hfirst hrest hlen
        ((Nat.le_div_iff_mul_le (Nat.two_pow_pos _)).1 hpos)
      exact ⟨x, List.mem_cons_of_mem _ hx, hprefix⟩

theorem assignNext_shape (code prev : Nat) (rest : List (Nat × Nat)) :
    (assignNext code prev rest).map (fun x => (x.2.length, x.1)) = rest := by
  induction rest generalizing code prev with
  | nil => rfl
  | cons p rest ih => simp [assignNext, ih]

/-- Each symbol gets a code of its length. -/
theorem assignCodes_shape (order : List (Nat × Nat)) :
    (assignCodes order).map (fun x => (x.2.length, x.1)) = order := by
  rcases order with - | ⟨⟨len, sym⟩, rest⟩
  · rfl
  · simp [assignCodes, assignNext_shape]

/-- The (length, symbol) pairs in the order in which RefCodes takes them (41_prefix_table.md R173). -/
def codeOrder (lens : List Nat) : List (Nat × Nat) := sortBy pairBefore (lens.zip (List.range lens.length))

theorem codeOrder_perm (lens : List Nat) : (codeOrder lens).Perm (lens.zip (List.range lens.length)) := sortBy_perm _ _

theorem codeOrder_lengths (lens : List Nat) : ((codeOrder lens).map Prod.fst).Perm lens := by
  have hperm := (codeOrder_perm lens).map Prod.fst
  rwa [List.map_fst_zip (by simp)] at hperm

theorem codeOrder_rising (lens : List Nat) : ((codeOrder lens).map Prod.fst).Pairwise (· ≤ ·) :=
  List.pairwise_map.2 ((sortBy_sorted pairBefore_iff _).imp fun h => Prod.Lex.monotone_fst _ _ h)

/-- The codes with their symbols, in symbol order. -/
def codeTableOf (lens : List Nat) : List (Nat × Bits) :=
  sortBy (fun x y => Nat.blt x.1 y.1) (assignCodes (codeOrder lens))

theorem refCodes_eq (lens : List Nat) : refCodes lens = (codeTableOf lens).map Prod.snd := rfl

theorem codeTableOf_perm (lens : List Nat) : (codeTableOf lens).Perm (assignCodes (codeOrder lens)) := sortBy_perm _ _

theorem codeTableOf_shape (lens : List Nat) :
    ((codeTableOf lens).map (fun x => (x.2.length, x.1))).Perm (lens.zip (List.range lens.length)) := by
  have hperm := (codeTableOf_perm lens).map (fun x => (x.2.length, x.1))
  rw [assignCodes_shape] at hperm
  exact hperm.trans (codeOrder_perm lens)

theorem codeTableOf_symbols (lens : List Nat) : (codeTableOf lens).map Prod.fst = List.range lens.length := by
  have hperm := (codeTableOf_shape lens).map Prod.snd
  rw [List.map_map, List.map_snd_zip (by simp)] at hperm
  exact map_fst_eq_range hperm (sortBy_sorted (fun x y : Nat × Bits => by simp) _)

/-- Code by code, the lengths are those asked for. -/
theorem refCodes_map_length (lens : List Nat) : (refCodes lens).map List.length = lens := by
  have hlength : ∀ x ∈ codeTableOf lens, x.2.length = lens.getD x.1 0 := fun x hx => by
    have hmem := (codeTableOf_shape lens).mem_iff.1 (List.mem_map_of_mem hx)
    obtain ⟨i, hi, heq⟩ := List.getElem_of_mem hmem
    have hi' : i < lens.length := by simpa using hi
    rw [List.getElem_zip, List.getElem_range, Prod.mk.injEq] at heq
    rw [← heq.1, ← heq.2, List.getD_eq_getElem _ _ hi']
  calc (refCodes lens).map List.length
      = ((codeTableOf lens).map Prod.fst).map (fun s => lens.getD s 0) := by
        rw [refCodes_eq, List.map_map, List.map_map]
        exact List.map_congr_left hlength
    _ = (List.range lens.length).map (fun s => lens.getD s 0) := by rw [codeTableOf_symbols]
    _ = lens := List.ext_getElem (by simp) fun i _ hi => by simp [hi]

theorem refCodes_perm (lens : List Nat) : (refCodes lens).Perm ((assignCodes (codeOrder lens)).map Prod.snd) :=
  (codeTableOf_perm lens).map _

/-- Lengths above 0 that fill the tree give a `PrefixFree` table (41_prefix_table.md R171, R173). -/
theorem refCodes_prefixFree (hfull : kraft lens = 1) (hpos : ∀ n ∈ lens, 1 ≤ n) : PrefixFree (refCodes lens) := by
  refine ⟨fun c hc hnil => ?_, ?_⟩
  · have hmem : c.length ∈ lens := refCodes_map_length lens ▸ List.mem_map_of_mem hc
    have := hpos _ hmem
    rw [hnil] at this
    simp at this
  · have hpairs := assignCodes_pairwise (codeOrder_rising lens) ((kraft_perm (codeOrder_lengths lens)).trans hfull)
    exact ((refCodes_perm lens).pairwise_iff fun h => ⟨h.2, h.1⟩).2 hpairs

/-- Lengths that fill the tree give a complete table (41_prefix_table.md R171, R173). -/
theorem refCodes_complete (hfull : kraft lens = 1) : CompleteCode (refCodes lens) := fun p => by
  have hlong : ∀ x ∈ codeOrder lens, x.1 ≤ (p ++ List.replicate lens.sum false).length := fun x hx => by
    have hmem := (codeOrder_lengths lens).mem_iff.1 (List.mem_map_of_mem hx)
    have := List.le_sum_of_mem hmem
    rw [List.length_append, List.length_replicate]
    omega
  obtain ⟨x, hx, hprefix⟩ :=
    assignCodes_covers (codeOrder_rising lens) ((kraft_perm (codeOrder_lengths lens)).trans hfull) hlong
  exact ⟨x.2, (refCodes_perm lens).mem_iff.2 (List.mem_map_of_mem hx),
    List.prefix_or_prefix_of_prefix hprefix (List.prefix_append p _)⟩

end

end Sys2Proof.Machine
end

section
/-! SUPPORT. Proofs: Huffman's codes are optimal, and what BUILD answers -/

namespace Sys2Proof.Machine

/-! ### Prefix-free tables do not overfill the tree -/

/-- Codes read one after the other can be told apart (41_prefix_table.md R171 item 1). -/
theorem PrefixFree.uniquelyDecodable {codes : List Bits} (hpf : PrefixFree codes) :
    InformationTheory.UniquelyDecodable {c | c ∈ codes} := by
  intro xs
  induction xs with
  | nil =>
    rintro (- | ⟨c, ys⟩) - hys h
    · rfl
    · have hc : c = [] := (List.append_eq_nil_iff.1 h.symm).1
      exact absurd hc (hpf.1 c (hys c List.mem_cons_self))
  | cons b xs ih =>
    rintro (- | ⟨c, ys⟩) hxs hys h
    · have hb : b = [] := (List.append_eq_nil_iff.1 h).1
      exact absurd hb (hpf.1 b (hxs b List.mem_cons_self))
    · have hb : b ∈ codes := hxs b List.mem_cons_self
      have hc : c ∈ codes := hys c List.mem_cons_self
      rw [List.flatten_cons, List.flatten_cons] at h
      have hbc : b = c := by
        by_contra hne
        rcases List.prefix_or_prefix_of_prefix (List.prefix_append b _) (h ▸ List.prefix_append c _) with hp | hp
        · exact hpf.not_mem_of_prefix hc hp hne hb
        · exact hpf.not_mem_of_prefix hb hp (Ne.symm hne) hc
      subst hbc
      rw [ih ys (fun x hx => hxs x (List.mem_cons_of_mem _ hx)) (fun y hy => hys y (List.mem_cons_of_mem _ hy))
        (List.append_cancel_left h)]

theorem PrefixFree.kraft_le_one {codes : List Bits} (hpf : PrefixFree codes) : kraft (codes.map List.length) ≤ 1 := by
  have hud : InformationTheory.UniquelyDecodable (codes.toFinset : Set Bits) := by
    rw [List.coe_toFinset]
    exact hpf.uniquelyDecodable
  have hsum := InformationTheory.kraft_mcmillan_inequality hud
  rw [List.sum_toFinset _ hpf.nodup, Fintype.card_bool] at hsum
  have hcast : ((kraft (codes.map List.length) : ℚ) : ℝ) = (codes.map fun c => (1 / (2 : Nat) : ℝ) ^ c.length).sum := by
    rw [kraft, List.map_map, Rat.cast_list_sum, List.map_map]
    refine congrArg List.sum (List.map_congr_left fun c _ => ?_)
    simp
  exact_mod_cast hcast ▸ hsum

/-! ### The least cost of lengths for given weights -/

/-- Σ weight · length over pairs of a weight and a length. -/
def pairCost (ps : List (Nat × Nat)) : Nat := (ps.map fun p => p.1 * p.2).sum

@[simp] theorem pairCost_cons (p : Nat × Nat) (ps : List (Nat × Nat)) :
    pairCost (p :: ps) = p.1 * p.2 + pairCost ps := by
  simp [pairCost]

theorem pairCost_perm {ps qs : List (Nat × Nat)} (h : ps.Perm qs) : pairCost ps = pairCost qs := (h.map _).sum_eq

/-- A pair of the given weight comes first, in some order of the pairs. -/
theorem perm_cons_of_weight {ps : List (Nat × Nat)} {x : Nat} {ws : List Nat} (h : (ps.map Prod.fst).Perm (x :: ws)) :
    ∃ a qs, ps.Perm ((x, a) :: qs) ∧ (qs.map Prod.fst).Perm ws := by
  obtain ⟨⟨_, a⟩, hmem, rfl⟩ := List.mem_map.1 (h.mem_iff.2 List.mem_cons_self)
  have hperm := List.perm_cons_erase hmem
  exact ⟨a, _, hperm, ((hperm.map Prod.fst).symm.trans h).cons_inv⟩

/-- The lengths given out anew so that a least weight gets the longest cost no more. -/
theorem exists_longest_to_least {ps : List (Nat × Nat)} {x : Nat} {ws : List Nat} (h : (ps.map Prod.fst).Perm (x :: ws))
    (hx : ∀ v ∈ ws, x ≤ v) : ∃ m qs, (qs.map Prod.fst).Perm ws ∧ (m :: qs.map Prod.snd).Perm (ps.map Prod.snd) ∧
      (∀ n ∈ qs.map Prod.snd, n ≤ m) ∧ x * m + pairCost qs ≤ pairCost ps := by
  obtain ⟨a, qs, hps, hqs⟩ := perm_cons_of_weight h
  by_cases hlong : ∀ n ∈ qs.map Prod.snd, n ≤ a
  · exact ⟨a, qs, hqs, (hps.map Prod.snd).symm, hlong, by rw [pairCost_perm hps, pairCost_cons]⟩
  · push Not at hlong
    obtain ⟨n, hn, han⟩ := hlong
    obtain ⟨⟨w, m⟩, hwm, hmax⟩ := qs.toFinset.exists_max_image Prod.snd (by
      obtain ⟨p, hp, -⟩ := List.mem_map.1 hn
      exact ⟨p, List.mem_toFinset.2 hp⟩)
    have hperm := List.perm_cons_erase (List.mem_toFinset.1 hwm)
    have hlens := hperm.map Prod.snd
    have hmost : ∀ k ∈ qs.map Prod.snd, k ≤ m := fun k hk => by
      obtain ⟨p, hp, rfl⟩ := List.mem_map.1 hk
      exact hmax p (List.mem_toFinset.2 hp)
    have ham : a ≤ m := han.le.trans (hmost n hn)
    have hxw : x ≤ w := hx w (hqs.mem_iff.1 (List.mem_map_of_mem (List.mem_toFinset.1 hwm)))
    refine ⟨m, (w, a) :: qs.erase (w, m), (hperm.map Prod.fst).symm.trans hqs, ?_, ?_, ?_⟩
    · have hswap := (List.Perm.swap a m ((qs.erase (w, m)).map Prod.snd)).trans (hlens.symm.cons a)
      exact hswap.trans (hps.map Prod.snd).symm
    · rw [List.map_cons, List.forall_mem_cons]
      exact ⟨ham, fun k hk => hmost k (hlens.mem_iff.2 (List.mem_cons_of_mem _ hk))⟩
    · rw [pairCost_perm hps, pairCost_cons, pairCost_cons, pairCost_perm hperm, pairCost_cons]
      have hexchange : x * m + w * a ≤ x * a + w * m := mul_add_mul_le_mul_add_mul hxw ham
      dsimp only
      omega

/-- Lengths up to `n` take a whole number of shares of `n` bits. -/
theorem kraft_eq_mul {lens : List Nat} {n : Nat} (h : ∀ k ∈ lens, k ≤ n) : ∃ v : Nat, kraft lens = v * (1 / 2) ^ n := by
  induction lens with
  | nil => exact ⟨0, by simp⟩
  | cons k lens ih =>
    obtain ⟨hk, hlens⟩ := List.forall_mem_cons.1 h
    obtain ⟨v, hv⟩ := ih hlens
    obtain ⟨j, rfl⟩ := Nat.exists_eq_add_of_le hk
    refine ⟨2 ^ j + v, ?_⟩
    rw [kraft_cons, hv, pow_add]
    push_cast
    linear_combination -((1 / 2 : ℚ) ^ k) * two_pow_mul_half_pow j

/-- Beside lengths up to `n`, where any code has room, one of `n` bits has. -/
theorem kraft_room {lens : List Nat} {m n : Nat} (hlens : ∀ k ∈ lens, k ≤ n) (hroom : (1 / 2) ^ m + kraft lens ≤ 1) :
    (1 / 2) ^ n + kraft lens ≤ 1 := by
  obtain ⟨v, hv⟩ := kraft_eq_mul hlens
  have hshare : (0 : ℚ) < (1 / 2) ^ m := by positivity
  have hlt : v < 2 ^ n := by
    refine lt_of_le_of_ne ((mul_half_pow_le_one_iff v n).1 (by linarith)) fun heq => ?_
    have hone : kraft lens = 1 := by
      rw [hv, heq]
      exact_mod_cast two_pow_mul_half_pow n
    linarith
  have hnext := (mul_half_pow_le_one_iff (v + 1) n).2 hlt
  push_cast at hnext
  rw [hv]
  linarith

/-- Lengths for two least weights and others leave lengths for their sum and the others that cost less by the sum. -/
theorem exists_joined_lengths {ps : List (Nat × Nat)} {x y : Nat} {ws : List Nat}
    (h : (ps.map Prod.fst).Perm (x :: y :: ws)) (hxy : x ≤ y) (hy : ∀ v ∈ ws, y ≤ v)
    (hroom : kraft (ps.map Prod.snd) ≤ 1) : ∃ qs : List (Nat × Nat), (qs.map Prod.fst).Perm ((x + y) :: ws) ∧
      kraft (qs.map Prod.snd) ≤ 1 ∧ pairCost qs + (x + y) ≤ pairCost ps := by
  obtain ⟨m, qs, hqs, hlens, hmost, hcost⟩ :=
    exists_longest_to_least h (List.forall_mem_cons.2 ⟨hxy, fun v hv => hxy.trans (hy v hv)⟩)
  obtain ⟨n, rs, hrs, hlens', hmost', hcost'⟩ := exists_longest_to_least hqs hy
  have hnm : n ≤ m := hmost n (hlens'.mem_iff.1 List.mem_cons_self)
  have hall : kraft (ps.map Prod.snd) = (1 / 2) ^ m + kraft (n :: rs.map Prod.snd) := by
    rw [← kraft_perm hlens, kraft_cons, kraft_perm hlens']
  have htwo := kraft_room (List.forall_mem_cons.2 ⟨le_refl n, hmost'⟩) (hall ▸ hroom)
  rw [kraft_cons] at htwo
  obtain ⟨k, rfl⟩ : ∃ k, n = k + 1 := by
    refine Nat.exists_eq_succ_of_ne_zero fun hzero => ?_
    have := kraft_nonneg (rs.map Prod.snd)
    rw [hzero, pow_zero] at htwo
    linarith
  refine ⟨(x + y, k) :: rs, hrs.cons _, ?_, ?_⟩
  · rw [List.map_cons, kraft_cons]
    rw [pow_succ] at htwo
    linarith
  · rw [pairCost_cons]
    have hlonger : x * (k + 1) ≤ x * m := Nat.mul_le_mul_left x hnm
    dsimp only
    rw [Nat.add_mul]
    rw [Nat.mul_add_one] at hlonger hcost'
    omega

/-! ### The cost of a tree -/

/-- The weight of the symbols below a tree. -/
def treeWeight (w : List Nat) : CodeTree → Nat
  | .leaf s => w.getD s 0
  | .node l r => treeWeight w l + treeWeight w r

/-- Σ w[s] · depth over the leaves of a tree. -/
def treeCost (w : List Nat) : CodeTree → Nat
  | .leaf _ => 0
  | .node l r => treeCost w l + treeCost w r + (treeWeight w l + treeWeight w r)

theorem leafDepths_cost (w : List Nat) (t : CodeTree) (d : Nat) :
    ((leafDepths t d).map fun p => w.getD p.1 0 * p.2).sum = treeCost w t + treeWeight w t * d := by
  induction t generalizing d with
  | leaf s => simp [leafDepths, treeCost, treeWeight]
  | node l r ihl ihr =>
    rw [leafDepths, List.map_append, List.sum_append, ihl, ihr, treeCost, treeWeight]
    ring

/-- Huffman's procedure joins to a tree that costs no more than any lengths for the nodes it begins with
(41_prefix_table.md R174). -/
theorem Joins.cost_le {w : List Nat} {live : List BuildNode} {t : CodeTree} (h : Joins live t)
    (hweight : ∀ n ∈ live, n.weight = treeWeight w n.tree) (ps : List (Nat × Nat))
    (hps : (ps.map Prod.fst).Perm (live.map BuildNode.weight)) (hroom : kraft (ps.map Prod.snd) ≤ 1) :
    treeCost w t ≤ (live.map fun n => treeCost w n.tree).sum + pairCost ps := by
  induction h generalizing ps with
  | done x => simp
  | @join live rest next x y r t two least others one more ih =>
    obtain ⟨hx, hlive⟩ := List.forall_mem_cons.1 fun n hn => hweight n (two.mem_iff.2 hn)
    obtain ⟨hy, hrest⟩ := List.forall_mem_cons.1 hlive
    have hothers : ∀ v ∈ rest.map BuildNode.weight, y.weight ≤ v := fun v hv => by
      obtain ⟨z, hz, rfl⟩ := List.mem_map.1 hv
      exact others z hz
    obtain ⟨qs, hqs, hroom', hcost⟩ := exists_joined_lengths (hps.trans (two.map _)) least hothers hroom
    have hnext : ∀ n ∈ next, n.weight = treeWeight w n.tree := fun n hn => by
      rcases List.mem_cons.1 (one.mem_iff.1 hn) with rfl | hn
      · rw [treeWeight, ← hx, ← hy]
      · exact hrest n hn
    have hle := ih hnext qs (hqs.trans (one.map BuildNode.weight).symm) hroom'
    rw [(one.map fun n => treeCost w n.tree).sum_eq, List.map_cons, List.sum_cons, treeCost, ← hx, ← hy] at hle
    rw [(two.map fun n => treeCost w n.tree).sum_eq, List.map_cons, List.sum_cons, List.map_cons, List.sum_cons]
    omega

theorem leafNodes_weight (a s : Nat) (v w : List Nat) (h : ∀ i, v.getD i 0 = w.getD (s + i) 0) :
    ∀ n ∈ leafNodes a s v, n.weight = treeWeight w n.tree ∧ treeCost w n.tree = 0 := by
  induction v generalizing s with
  | nil => simp [leafNodes]
  | cons x v ih =>
    rw [leafNodes, List.forall_mem_cons]
    refine ⟨⟨h 0, rfl⟩, ih (s + 1) fun i => ?_⟩
    rw [Nat.add_right_comm, Nat.add_assoc]
    exact h (i + 1)

theorem leafNodes_map_weight (a s : Nat) (w : List Nat) : (leafNodes a s w).map BuildNode.weight = w := by
  induction w generalizing s with
  | nil => rfl
  | cons x w ih => rw [leafNodes, List.map_cons, ih]

/-- No lengths that a `PrefixFree` table can have cost less than the tree. -/
theorem huffmanTree_cost_le {w lens : List Nat} (hw : w ≠ []) (hlen : lens.length = w.length) (hroom : kraft lens ≤ 1) :
    treeCost w (huffmanTree w) ≤ pairCost (w.zip lens) := by
  have hperm := sortBy_perm nodeBefore (leafNodes w.length 0 w)
  have hleaf := leafNodes_weight w.length 0 w w fun i => by rw [Nat.zero_add]
  have hweights := hperm.map BuildNode.weight
  rw [leafNodes_map_weight] at hweights
  have hcost := (huffmanTree_joins hw).cost_le (fun n hn => (hleaf n (hperm.mem_iff.1 hn)).1) (w.zip lens)
    (by rw [List.map_fst_zip hlen.ge]; exact hweights.symm)
    (by rwa [List.map_snd_zip hlen.le])
  have hzero : ((sortBy nodeBefore (leafNodes w.length 0 w)).map fun n => treeCost w n.tree).sum = 0 :=
    List.sum_eq_zero fun c hc => by
      obtain ⟨n, hn, rfl⟩ := List.mem_map.1 hc
      exact (hleaf n (hperm.mem_iff.1 hn)).2
  rwa [hzero, Nat.zero_add] at hcost

/-! ### The reference builder (41_prefix_table.md R171 to R174) -/

theorem codeCost_eq (w : List Nat) (codes : List Bits) :
    codeCost w codes = pairCost (w.zip (codes.map List.length)) := by
  rw [codeCost, pairCost, List.zip_map_right, List.map_map, ← List.map_uncurry_zip_eq_zipWith]
  rfl

theorem refLengths_kraft (w : List Nat) : kraft (refLengths w) = 1 := by
  rw [refLengths, kraft_perm ((sortBy_perm _ _).map _), kraft_leafDepths, pow_zero]

theorem leafDepths_ge (t : CodeTree) (d : Nat) : ∀ p ∈ leafDepths t d, d ≤ p.2 := by
  induction t generalizing d with
  | leaf s => simp [leafDepths]
  | node l r ihl ihr =>
    rw [leafDepths, List.forall_mem_append]
    exact ⟨fun p hp => (Nat.le_succ d).trans (ihl _ p hp), fun p hp => (Nat.le_succ d).trans (ihr _ p hp)⟩

/-- Of two symbols or more none stands at the root. -/
theorem refLengths_pos {w : List Nat} (h : 2 ≤ w.length) : ∀ n ∈ refLengths w, 1 ≤ n := fun n hn => by
  have hw : w ≠ [] := by rintro rfl; simp at h
  obtain ⟨p, hp, rfl⟩ := List.mem_map.1 hn
  have hp := (sortBy_perm _ _).mem_iff.1 hp
  have hcount := huffmanTree_leafCount w hw
  cases ht : huffmanTree w with
  | leaf s =>
    rw [ht, leafCount] at hcount
    omega
  | node l r =>
    rw [ht, leafDepths, List.mem_append] at hp
    rcases hp with hp | hp
    · exact leafDepths_ge l 1 p hp
    · exact leafDepths_ge r 1 p hp

theorem referenceBuild_cost {w : List Nat} (hw : w ≠ []) :
    codeCost w (referenceBuild w) = treeCost w (huffmanTree w) := by
  have hperm := sortBy_perm pairBefore (leafDepths (huffmanTree w) 0)
  have hsymbols := sortBy_pairBefore_fst (huffmanTree_symbols hw 0)
  have hweights : w = (sortBy pairBefore (leafDepths (huffmanTree w) 0)).map fun p => w.getD p.1 0 := by
    calc w = (List.range w.length).map fun s => w.getD s 0 := List.ext_getElem (by simp) fun i hi _ => by simp [hi]
      _ = _ := by rw [← hsymbols, List.map_map]; rfl
  have hzip : w.zip (refLengths w) =
      (sortBy pairBefore (leafDepths (huffmanTree w) 0)).map fun p => (w.getD p.1 0, p.2) :=
    (congrArg (List.zip · (refLengths w)) hweights).trans (List.zip_map' ..)
  have hcost := leafDepths_cost w (huffmanTree w) 0
  rw [Nat.mul_zero, Nat.add_zero] at hcost
  rw [codeCost_eq, referenceBuild, refCodes_map_length, hzip, pairCost, List.map_map, ← hcost]
  exact (hperm.map _).sum_eq

theorem referenceBuild_optimal {w : List Nat} (hw : w ≠ []) : OptimalCode w (referenceBuild w) := by
  intro codes hpf hlen
  rw [referenceBuild_cost hw, codeCost_eq]
  exact huffmanTree_cost_le hw (by rw [List.length_map, hlen]) hpf.kraft_le_one

theorem referenceBuild_complete (w : List Nat) : CompleteCode (referenceBuild w) :=
  refCodes_complete (refLengths_kraft w)

theorem referenceBuild_prefixFree {w : List Nat} (h : 2 ≤ w.length) : PrefixFree (referenceBuild w) :=
  refCodes_prefixFree (refLengths_kraft w) (refLengths_pos h)

/-! ### BUILD, whichever it is (41_prefix_table.md R171) -/

theorem build_spec (b : Builder) {w : List Nat} (h : 2 ≤ w.length) :
    PrefixFree (build b w) ∧ CompleteCode (build b w) ∧ (build b w).length = w.length ∧ OptimalCode w (build b w) := by
  have hw : w ≠ [] := by rintro rfl; simp at h
  rcases build_cases b w with href | hallowed
  · rw [href]
    exact ⟨referenceBuild_prefixFree h, referenceBuild_complete w, referenceBuild_length w hw,
      referenceBuild_optimal hw⟩
  · obtain ⟨hpf, hcomplete, hlen, hcost⟩ := buildAllowed_spec hallowed
    exact ⟨hpf, hcomplete, hlen, fun codes hcodes hsame => hcost.trans (referenceBuild_optimal hw codes hcodes hsame)⟩

/-- The longest code is no longer than any bound of all. -/
theorem maxCodeLen_le_iff {codes : List Bits} {n : Nat} : maxCodeLen codes ≤ n ↔ ∀ c ∈ codes, c.length ≤ n := by
  have key : ∀ m, codes.foldl (fun m c => max m c.length) m ≤ n ↔ m ≤ n ∧ ∀ c ∈ codes, c.length ≤ n := by
    induction codes with
    | nil => simp
    | cons c codes ih =>
      intro m
      rw [List.foldl_cons, ih, max_le_iff, List.forall_mem_cons, and_assoc]
  exact (key 0).trans (and_iff_right (Nat.zero_le n))

/-! ### FINAL slots (10_state.md R44 item 3) -/

theorem textWeights_length (p : Params) (a : Nat) : (textWeights p a).length = a := by
  have key : ∀ (classes : List (List Byte × Word)) (w : List Word), (classes.foldl addClass w).length = w.length := by
    intro classes
    induction classes with
    | nil => exact fun _ => rfl
    | cons cls classes ih => exact fun w => by rw [List.foldl_cons, ih, addClass, List.length_map, List.length_zipIdx]
  rw [textWeights, key, List.length_replicate]

/-- Each preset has a weight for each symbol, and its codes fit (00_scope.md R9, 10_state.md R41, R44). -/
theorem preset_of_wf {p : Params} (hp : Params.wf p = true) (k : Fin 16) (hk : k.val < 8) : ∃ alpha : Alphabet,
    (resetSlots p)[k] = presetSlot p alpha k.val ∧ (presetWeights p k.val).length = alpha.size ∧ 2 ≤ alpha.size ∧
      maxCodeLen (presetSlot p alpha k.val).codes ≤ 64 := by
  simp only [Params.wf, Bool.and_eq_true, beq_iff_eq] at hp
  obtain ⟨⟨⟨⟨⟨hvint, hmeta⟩, hlow⟩, hhigh⟩, -⟩, hfits⟩ := hp
  have hshort : maxCodeLen (build p.builder ((presetWeights p k.val).map BitVec.toNat)) ≤ 64 := by
    exact of_decide_eq_true (List.all_eq_true.1 hfits k.val (List.mem_range.2 hk))
  obtain ⟨k, hlt⟩ := k
  dsimp only at hk hshort ⊢
  interval_cases k
  · exact ⟨.a257, rfl, List.length_replicate, by decide, hshort⟩
  · exact ⟨.a257, rfl, textWeights_length p 257, by decide, hshort⟩
  · exact ⟨.a256, rfl, textWeights_length p 256, by decide, hshort⟩
  · exact ⟨.a256, rfl, hlow, by decide, hshort⟩
  · exact ⟨.a256, rfl, hhigh, by decide, hshort⟩
  · exact ⟨.a256, rfl, List.length_replicate, by decide, hshort⟩
  · exact ⟨.a8, rfl, hvint, by decide, hshort⟩
  · exact ⟨.a4, rfl, hmeta, by decide, hshort⟩

/-- A FINAL slot has the codes that BUILD answers for its weights, two at least. -/
theorem State.Inv.final_codes {s : State} (h : s.Inv) {k : Fin 16} (hfinal : (s.slot k).final = true) :
    (s.slot k).codes = build s.params.builder ((s.slot k).weights.map BitVec.toNat) ∧
      (s.slot k).weights.length = (s.slot k).alpha.size ∧ 2 ≤ (s.slot k).alpha.size ∧
      maxCodeLen (s.slot k).codes ≤ 64 := by
  have hslot := h.slotFile k
  by_cases hk : k.val < 8
  · rw [if_pos hk] at hslot
    obtain ⟨alpha, hreset, hlen, htwo, hshort⟩ := preset_of_wf h.parameters k hk
    rw [hslot, hreset]
    exact ⟨rfl, hlen, htwo, hshort⟩
  · rw [if_neg hk] at hslot
    obtain ⟨-, hlen, -, halpha, hcodes, -⟩ := (userSlotOk_iff _ _).1 hslot
    obtain ⟨hne, hbuilt, hshort⟩ := hcodes hfinal
    refine ⟨hbuilt, hlen, ?_, hshort⟩
    simp only [List.mem_cons, List.not_mem_nil, or_false, hne, false_or] at halpha
    rcases halpha with halpha | halpha <;> rw [halpha] <;> decide

/-- Settles O60: canonical codes of lengths that fill the tree are `PrefixFree` and complete, and Huffman's joins cost
no more than any lengths within the Kraft sum; a platform's builder is held to the same, and a FINAL slot's codes are
BUILD's. -/
theorem builderCodes : Obligations.BuilderCodes := by
  refine ⟨fun w h => ?_, fun b w h => build_spec b h, fun s k hinv hfinal => ?_⟩
  · obtain ⟨hpf, hcomplete, hlen, -⟩ := build_spec .reference h
    exact ⟨hpf, hcomplete, hlen⟩
  · obtain ⟨hbuilt, hlen, htwo, hshort⟩ := hinv.final_codes hfinal
    have hmap : ((s.slot k).weights.map BitVec.toNat).length = (s.slot k).alpha.size := by rw [List.length_map, hlen]
    obtain ⟨hpf, hcomplete, hcount, -⟩ := build_spec s.params.builder (hmap.symm ▸ htwo)
    rw [← hbuilt] at hpf hcomplete hcount
    exact ⟨hpf, hcomplete, hcount.trans hmap, fun c hc =>
      ⟨List.length_pos_iff.2 (hpf.1 c hc), maxCodeLen_le_iff.1 hshort c hc⟩⟩

end Sys2Proof.Machine
end

section
/-! SUPPORT. Proofs: The commands that change a slot -/

namespace Sys2Proof.Machine

/-! ### An error changes no slot (60_exceptions.md R322) -/

section
variable {α β : Type} {s : State}

/-- A run from `s` that an error ends has changed nothing. -/
def FailsClean (m : Eng α) (s : State) : Prop := ∀ e t, m.run s = .error e t → t = s

theorem FailsClean.of_ok {m : Eng α} {a : α} {t : State} (h : m.run s = .ok a t) : FailsClean m s := fun _ _ h' =>
  nomatch h.symm.trans h'

theorem FailsClean.of_error {m : Eng α} {e : Raised} (h : m.run s = .error e s) : FailsClean m s := fun _ _ h' => by
  rw [h] at h'
  cases h'
  rfl

/-- A first part that changes nothing, then one that fails clean. -/
theorem FailsClean.bind_same {x : Eng α} {f : α → Eng β} (hx : Keeps Eq x) (hf : ∀ a, FailsClean (f a) s) :
    FailsClean (x >>= f) s := fun e t h => by
  rcases hrun : x.run s with ⟨a, u⟩ | ⟨e', u⟩
  · obtain rfl := (hx s).1 a u hrun
    exact hf a e t (by rwa [Eng.bind_ok hrun] at h)
  · obtain rfl := (hx s).2 e' u hrun
    exact FailsClean.of_error (Eng.bind_error hrun) e t h

theorem FailsClean.require_bind {cond : State → Bool} {e : Raised} {f : Unit → Eng β} (hf : ∀ a, FailsClean (f a) s) :
    FailsClean (require cond e >>= f) s := .bind_same (require_keeps (fun _ => rfl) cond e) hf

theorem raiseWeights_failsClean (k : Fin 16) (amount : Nat → Nat) : FailsClean (raiseWeights k amount) s := by
  cases h : firstOverflow (s.slot k).weights amount with
  | none => exact .of_ok (raiseWeights_fits h)
  | some x => exact .of_error (raiseWeights_overflow h)

theorem FailsClean.slots_of_err {m : Eng Unit} (h : FailsClean m s) {t : State} (hrun : runCommand m s = .next t)
    (herr : t.err ≠ 0#8) : t.slots = s.slots := by
  rcases runCommand_next m s with ⟨u, -, hnext⟩ | ⟨e, u, hm, hnext⟩ <;> rw [hnext] at hrun <;> cases hrun
  · exact absurd (State.complete_err u 0#8) herr
  · rw [State.takeError_slots, h e u hm]

end

/-- Every command that can change a slot changes it last. -/
theorem slotCommand_slots_of_err {i : Instr} {k : Fin 16} (hi : slotChanged i = some k) {s t : State}
    (hexec : exec i s = .next t) (herr : t.err ≠ 0#8) : t.slots = s.slots := by
  cases i <;> simp only [slotChanged, reduceCtorEq] at hi
  case tblCreate t' wide =>
    refine FailsClean.slots_of_err ?_ hexec herr
    exact .require_bind fun _ => .bind_same (Keeps.get fun _ => rfl) fun _ => .of_ok (setSlot_run _ _ _)
  case tblIncr t' =>
    refine FailsClean.slots_of_err ?_ hexec herr
    exact .require_bind fun _ => .require_bind fun _ => .require_bind fun _ => raiseWeights_failsClean _ _
  case tblIncs t' =>
    refine FailsClean.slots_of_err ?_ hexec herr
    exact .require_bind fun _ => .require_bind fun _ =>
      .bind_same (countSource_keeps Eq.refl (fun _ _ _ => Eq.trans) _ _ _) fun _ => raiseWeights_failsClean _ _
  case tblFin t' =>
    refine FailsClean.slots_of_err ?_ hexec herr
    refine .bind_same (Keeps.get fun _ => rfl) fun _ => ?_
    dsimp only
    split_ifs
    · exact .of_ok rfl
    · exact .require_bind fun _ => .of_error rfl
    · exact .require_bind fun _ => .of_ok (setSlot_run _ _ _)

/-! ### The slot frame (20_memory.md R75) -/

/-- From `s` to `t` every slot is the same but the one that the command names. -/
def SameOtherSlots (i : Instr) (s t : State) : Prop := ∀ k, slotChanged i ≠ some k → t.slot k = s.slot k

theorem sameOtherSlots_admits (i : Instr) : Admits i (SameOtherSlots i) where
  refl _ _ _ := rfl
  trans _ _ _ h h' k hk := (h' k hk).trans (h k hk)
  res0 _ _ _ _ _ := rfl
  res1 _ _ _ _ _ := rfl
  res2 _ _ _ _ _ := rfl
  read _ _ _ _ _ := rfl
  write _ _ _ _ _ _ _ := rfl
  start _ _ _ _ := rfl
  engine _ _ _ _ _ := rfl
  slot j hj s sl _ k hk := State.slot_set_other s j k sl fun heq => hk (heq ▸ hj)

theorem exec_sameOtherSlots {i : Instr} {s t : State} (h : exec i s = .next t) : SameOtherSlots i s t := by
  obtain ⟨u, hu, hend | ⟨e, hend⟩⟩ := exec_ends s (sameOtherSlots_admits i) <;> rw [hend] at h <;> cases h
  · exact hu
  · exact hu

theorem slots_eq_of_slot_eq {s t : State} (h : ∀ k, t.slot k = s.slot k) : t.slots = s.slots :=
  Vector.ext fun i hi => h ⟨i, hi⟩

/-- Settles O14: the frame of every part of a command, and that a command changes its slot last. -/
theorem slotFrame : Obligations.SlotFrame := by
  intro i s t hexec
  have hsame := exec_sameOtherSlots hexec
  refine ⟨hsame, fun herr => ?_⟩
  cases hi : slotChanged i with
  | none => exact slots_eq_of_slot_eq fun k => hsame k (by rw [hi]; nofun)
  | some k => exact slotCommand_slots_of_err hi hexec herr

/-! ### TBL.CREATE (41_prefix_table.md R180) -/

/-- Settles O34. -/
theorem tableCreate : Obligations.TableCreate := by
  intro k wide s
  refine ⟨by revert k wide; decide, fun hpreset => ?_, fun huser => ?_⟩
  · exact runCommand_error (Eng.bind_error (require_error (by simp [hpreset])))
  · have hslot : (s.slot k).created wide = ⟨if wide then .a257 else .a256,
        List.replicate (if wide then 257 else 256) 1#32, false, false, []⟩ := by
      rw [Slot.created, huser]
      cases wide <;> rfl
    rw [← hslot]
    exact runCommand_ok ((Eng.bind_ok (require_ok (by simp [huser]))).trans (Eng.bind_ok (Eng.get_run s)))

/-! ### Weights raised (41_prefix_table.md R181, R182) -/

/-- The weight of symbol `x` would pass 2^32 - 1. -/
def overflowsAt (w : List Word) (amount : Nat → Nat) (x : Nat) : Prop :=
  ∃ v, w[x]? = some v ∧ 2 ^ 32 ≤ v.toNat + amount x

section
variable {w : List Word} {amount : Nat → Nat} {k : Fin 16} {s : State}

theorem firstOverflow_none (h : ∀ x, ¬ overflowsAt w amount x) : firstOverflow w amount = none := by
  refine Option.map_eq_none_iff.2 (List.find?_eq_none.2 fun p hp => ?_)
  rw [decide_eq_true_eq]
  exact fun hbig => h p.2 ⟨p.1, List.mem_zipIdx_iff_getElem?.1 hp, hbig⟩

theorem firstOverflow_some {x : Nat} (h : overflowsAt w amount x) (hleast : ∀ y, y < x → ¬ overflowsAt w amount y) :
    firstOverflow w amount = some x := by
  obtain ⟨v, hv, hbig⟩ := h
  obtain ⟨hx, rfl⟩ := List.getElem?_eq_some_iff.1 hv
  refine Option.map_eq_some_iff.2 ⟨(w[x], x), List.find?_eq_some_iff_getElem.2 ⟨?_, x, ?_, ?_, ?_⟩, rfl⟩
  · simpa using hbig
  · simpa using hx
  · simp
  · intro y hy
    have hyw : y < w.length := hy.trans hx
    have hsmall : ¬ 2 ^ 32 ≤ w[y].toNat + amount y := fun hbig =>
      hleast y hy ⟨w[y], List.getElem?_eq_getElem hyw, hbig⟩
    simpa using hsmall

theorem addWeights_eq_mapIdx (w : List Word) (amount : Nat → Nat) :
    addWeights w amount = w.mapIdx fun x v => v + word (amount x) := by
  rw [addWeights, List.mapIdx_eq_zipIdx_map]

/-- Both outcomes of the update that TBL.INCR and TBL.INCS share. -/
theorem raiseWeights_outcome {i : Instr} (hi : exec i s = runCommand (raiseWeights k amount) s) :
    ((∀ x, ¬ overflowsAt (s.slot k).weights amount x) →
      succeeds i s { s with slots := s.slots.set k ((s.slot k).raised amount) }) ∧
    ∀ x, overflowsAt (s.slot k).weights amount x → (∀ y, y < x → ¬ overflowsAt (s.slot k).weights amount y) →
      failsWith i s (.overflow x) s :=
  ⟨fun h => hi.trans (runCommand_ok (raiseWeights_fits (firstOverflow_none h))), fun _ hx hleast =>
    hi.trans (runCommand_error (raiseWeights_overflow (firstOverflow_some hx hleast)))⟩

theorem checkBuilding_ok (h : (s.slot k).building = true) : (checkBuilding k).run s = .ok () s := require_ok h

theorem checkBuilding_error (h : (s.slot k).building = false) :
    (checkBuilding k).run s = .error (.illegalState k.val) s := require_error h

theorem Slot.building_iff (sl : Slot) :
    sl.building = true ↔ sl.preset = false ∧ sl.alpha ≠ .empty ∧ sl.final = false := by
  simp [Slot.building, and_assoc]

end

/-! ### TBL.INCR (41_prefix_table.md R181) -/

/-- What TBL.INCR adds to each weight: ARG2 from symbol ARG0 to symbol ARG1. -/
def State.rangeAmount (s : State) (x : Nat) : Nat := if s.arg0.toNat ≤ x ∧ x ≤ s.arg1.toNat then s.arg2.toNat else 0

theorem overflowsAt_rangeAmount (s : State) (w : List Word) (x : Nat) : overflowsAt w s.rangeAmount x ↔
    (s.arg0.toNat ≤ x ∧ x ≤ s.arg1.toNat) ∧ ∃ v, w[x]? = some v ∧ 2 ^ 32 ≤ v.toNat + s.arg2.toNat := by
  by_cases hx : s.arg0.toNat ≤ x ∧ x ≤ s.arg1.toNat
  · have hamount : s.rangeAmount x = s.arg2.toNat := if_pos hx
    rw [overflowsAt, hamount, and_iff_right hx]
  · have hamount : s.rangeAmount x = 0 := if_neg hx
    refine iff_of_false ?_ fun h => hx h.1
    rintro ⟨v, -, hbig⟩
    have := v.isLt
    omega

theorem addWeights_rangeAmount (s : State) (w : List Word) : addWeights w s.rangeAmount =
    w.mapIdx fun x v => if s.arg0.toNat ≤ x ∧ x ≤ s.arg1.toNat then v + s.arg2 else v := by
  rw [addWeights_eq_mapIdx]
  congr 1
  funext x v
  rw [State.rangeAmount]
  split_ifs <;> simp [word]

theorem encode_tblIncr : ∀ k : Fin 16, encode (.tblIncr k) = word (0x21 + 2 ^ 8 * k.val) := by decide

/-- Past its checks TBL.INCR is the shared update. -/
theorem exec_tblIncr {k : Fin 16} {s : State} (h0 : s.arg0.toNat ≤ 255) (h1 : s.arg1.toNat ≤ 255)
    (hstate : (s.slot k).building = true) : exec (.tblIncr k) s = runCommand (raiseWeights k s.rangeAmount) s := by
  simp only [exec, execTblIncr, runCommand]
  rw [Eng.bind_ok (require_ok (decide_eq_true h0)), Eng.bind_ok (require_ok (decide_eq_true h1)),
    Eng.bind_ok (checkBuilding_ok hstate)]
  rfl

/-- Settles O35: the three checks in their order, then the shared update. -/
theorem tableIncrement : Obligations.TableIncrement := by
  intro k s sl notBuilding inRange tooBig
  have hnot : notBuilding ↔ sl.building = false := by
    rw [← Bool.not_eq_true, Slot.building_iff]
    simp only [notBuilding]
    cases sl.preset <;> cases sl.final <;> simp
  refine ⟨encode_tblIncr k, fun h0 => ?_, fun h0 h1 => ?_, fun h0 h1 hstate => ?_, fun h0 h1 hstate => ?_⟩
  · exact runCommand_error (Eng.bind_error (require_error (decide_eq_false (by omega))))
  · exact runCommand_error ((Eng.bind_ok (require_ok (decide_eq_true h0))).trans
      (Eng.bind_error (require_error (decide_eq_false (by omega)))))
  · exact runCommand_error ((Eng.bind_ok (require_ok (decide_eq_true h0))).trans
      ((Eng.bind_ok (require_ok (decide_eq_true h1))).trans (Eng.bind_error (checkBuilding_error (hnot.1 hstate)))))
  · have hbuilding : sl.building = true := Bool.not_eq_false _ ▸ fun h => hstate (hnot.2 h)
    have htooBig : ∀ x, tooBig x ↔ overflowsAt sl.weights s.rangeAmount x := fun x =>
      (overflowsAt_rangeAmount s sl.weights x).symm
    obtain ⟨hfits, hover⟩ := raiseWeights_outcome (exec_tblIncr h0 h1 hbuilding)
    simp only [htooBig]
    refine ⟨fun h => ?_, hover⟩
    rw [← addWeights_rangeAmount]
    exact hfits h

/-! ### TBL.INCS (41_prefix_table.md R182) -/

theorem slice_cons (m : Memory) (a n : Nat) : m.slice a (n + 1) = m.read a :: m.slice (a + 1) n := by
  simp [Memory.slice, List.range_succ_eq_map, Function.comp_def, Nat.add_right_comm, Nat.add_assoc]

section
variable {s : State} {n a : Nat} {cnt : List Nat}

/-- The read pass over bytes that may be accessed counts them. -/
theorem countSource_run (h : ∀ i, i < n → memOk s.params (a + i) = true) :
    (countSource n a cnt).run s = .ok ((s.mem.slice a n).foldl countByte cnt) s := by
  induction n generalizing a cnt with
  | zero => rfl
  | succ n ih =>
    have hfirst : (memRead a).run s = .ok (s.mem.read a) s := by
      rw [memRead_run, if_pos (by simpa using h 0 (Nat.succ_pos n))]
    rw [countSource, Eng.bind_ok hfirst, slice_cons, List.foldl_cons]
    exact ih fun i hi => by
      have := h (i + 1) (by omega)
      rwa [Nat.add_right_comm, Nat.add_assoc]

/-- The read pass ends at the first byte that may not be accessed. -/
theorem countSource_stops {f : Nat} (hf : f < n) (hopen : ∀ i, i < f → memOk s.params (a + i) = true)
    (hshut : memOk s.params (a + f) = false) : (countSource n a cnt).run s = .error (.bus (a + f)) s := by
  induction n generalizing a cnt f with
  | zero => omega
  | succ n ih =>
    rw [countSource]
    rcases f with - | f
    · exact Eng.bind_error (by rw [memRead_run, if_neg (by simpa using hshut)]; rfl)
    · have hfirst : (memRead a).run s = .ok (s.mem.read a) s := by
        rw [memRead_run, if_pos (by simpa using hopen 0 (Nat.succ_pos f))]
      have hnext : ∀ i, a + (i + 1) = a + 1 + i := fun i => by omega
      rw [Eng.bind_ok hfirst, hnext f]
      exact ih (by omega) (fun i hi => hnext i ▸ hopen (i + 1) (by omega)) (hnext f ▸ hshut)

end

/-- The counters of a run of bytes hold how often each byte value stands in it. -/
theorem runHist_getD (run : List Byte) (x : Nat) : (runHist run).getD x 0 = run.countP fun b => b.toNat == x := by
  have key : ∀ cnt : List Nat, cnt.length = 256 →
      (run.foldl countByte cnt).getD x 0 = cnt.getD x 0 + run.countP fun b => b.toNat == x := by
    induction run with
    | nil => simp
    | cons b run ih =>
      intro cnt hlen
      have hb : b.toNat < cnt.length := hlen ▸ b.isLt
      rw [List.foldl_cons, ih _ (by rw [countByte, List.length_modify, hlen]), countByte, List.countP_cons,
        List.getD_eq_getElem?_getD, List.getD_eq_getElem?_getD, List.getElem?_modify]
      by_cases hx : b.toNat = x
      · subst hx
        simp [hb]
        omega
      · simp [hx]
  rw [runHist, key _ List.length_replicate, List.getD_eq_getElem?_getD, List.getElem?_replicate]
  split_ifs <;> simp

/-- What TBL.INCS adds to each weight: ARG2 for each time the byte stands in the source. -/
def State.sourceAmount (s : State) (x : Nat) : Nat := (s.source.countP fun b => b.toNat == x) * s.arg2.toNat

/-- No byte has a value above 255. -/
theorem sourceAmount_large (s : State) {x : Nat} (hx : 256 ≤ x) : s.sourceAmount x = 0 := by
  have hnone : (s.source.countP fun b => b.toNat == x) = 0 := List.countP_eq_zero.2 fun b _ => by
    have := b.isLt
    rw [beq_iff_eq]
    omega
  rw [State.sourceAmount, hnone, Nat.zero_mul]

theorem overflowsAt_sourceAmount (s : State) (w : List Word) (x : Nat) : overflowsAt w s.sourceAmount x ↔
    x < 256 ∧ ∃ v, w[x]? = some v ∧ 2 ^ 32 ≤ v.toNat + s.sourceAmount x := by
  refine ⟨fun h => ⟨?_, h⟩, fun h => h.2⟩
  by_contra hx
  obtain ⟨v, -, hbig⟩ := h
  rw [sourceAmount_large s (by omega)] at hbig
  have := v.isLt
  omega

theorem addWeights_eq_word (w : List Word) (amount : Nat → Nat) :
    addWeights w amount = w.mapIdx fun x v => word (v.toNat + amount x) := by
  rw [addWeights_eq_mapIdx]
  congr 1
  funext x v
  rw [word, word, BitVec.ofNat_add, BitVec.ofNat_toNat, BitVec.setWidth_eq]

theorem encode_tblIncs : ∀ k : Fin 16, encode (.tblIncs k) = word (0x22 + 2 ^ 8 * k.val) := by decide

/-- Past its checks and its read pass TBL.INCS is the shared update. -/
theorem exec_tblIncs {k : Fin 16} {s : State} (hsrc : s.sourceOk = true) (hstate : (s.slot k).building = true)
    (hopen : ∀ i, i < s.srcLen.toNat → memOk s.params (s.srcAddr.toNat + i) = true) :
    exec (.tblIncs k) s = runCommand (raiseWeights k s.sourceAmount) s := by
  have hamount : (fun x => (runHist s.source).getD x 0 * s.arg2.toNat) = s.sourceAmount := by
    funext x
    rw [runHist_getD, State.sourceAmount]
  have hsource : checkSource.run s = .ok () s := require_ok hsrc
  simp only [exec, execTblIncs, runCommand]
  rw [Eng.bind_ok hsource, Eng.bind_ok (checkBuilding_ok hstate), Eng.bind_ok (countSource_run hopen), ← hamount]
  rfl

/-- Settles O36: the two checks in their order, the read pass, then the shared update with the counters it made. -/
theorem tableIncrementSource : Obligations.TableIncrementSource := by
  intro k s sl building rise tooBig
  have hbuilding : building ↔ sl.building = true := (Slot.building_iff sl).symm
  have hsource : s.sourceOk = true → checkSource.run s = .ok () s := fun h => require_ok h
  refine ⟨encode_tblIncs k, fun hsrc => ?_, fun hsrc hstate => ?_, fun n hn hsrc hstate hopen hshut => ?_,
    fun hsrc hstate hopen => ?_⟩
  · exact runCommand_error (Eng.bind_error (require_error hsrc))
  · rw [hbuilding, Bool.not_eq_true] at hstate
    exact runCommand_error ((Eng.bind_ok (hsource hsrc)).trans (Eng.bind_error (checkBuilding_error hstate)))
  · exact runCommand_error ((Eng.bind_ok (hsource hsrc)).trans
      ((Eng.bind_ok (checkBuilding_ok (hbuilding.1 hstate))).trans (Eng.bind_error (countSource_stops hn hopen hshut))))
  · have htooBig : ∀ x, tooBig x ↔ overflowsAt sl.weights s.sourceAmount x := fun x =>
      (overflowsAt_sourceAmount s sl.weights x).symm
    obtain ⟨hfits, hover⟩ := raiseWeights_outcome (exec_tblIncs hsrc (hbuilding.1 hstate) hopen)
    simp only [htooBig]
    refine ⟨fun h => ?_, hover⟩
    have hweights : (sl.weights.mapIdx fun x w => word (w.toNat + rise x)) = addWeights sl.weights s.sourceAmount :=
      (addWeights_eq_word _ _).symm
    rw [hweights]
    exact hfits h

/-! ### TBL.FIN (41_prefix_table.md R183) -/

section
variable {k : Fin 16} {s : State}

theorem tblFin_preset (h : (s.slot k).preset = true) : succeeds (.tblFin k) s s := by
  refine runCommand_ok ((Eng.bind_ok (Eng.get_run s)).trans ?_)
  rw [if_pos h]
  rfl

theorem tblFin_empty (huser : (s.slot k).preset = false) (h : (s.slot k).alpha = .empty) :
    failsWith (.tblFin k) s (.illegalState k.val) s := by
  refine runCommand_error ((Eng.bind_ok (Eng.get_run s)).trans ?_)
  rw [if_neg (by simp [huser])]
  exact Eng.bind_error (require_error (by simp [h]))

variable (huser : (s.slot k).preset = false) (hcreated : (s.slot k).alpha ≠ .empty)
include huser hcreated

theorem tblFin_stores (h : maxCodeLen (build s.params.builder ((s.slot k).weights.map BitVec.toNat)) ≤ Config.maxCode) :
    succeeds (.tblFin k) s { s with slots := s.slots.set k ((s.slot k).finalized s.params.builder) } := by
  refine runCommand_ok ((Eng.bind_ok (Eng.get_run s)).trans ?_)
  rw [if_neg (by simp [huser])]
  refine (Eng.bind_ok (require_ok (by simpa using hcreated))).trans ?_
  rw [if_neg (Nat.not_lt.2 h)]
  rfl

theorem tblFin_overflows
    (h : Config.maxCode < maxCodeLen (build s.params.builder ((s.slot k).weights.map BitVec.toNat))) :
    failsWith (.tblFin k) s
      (.overflow (maxCodeLen (build s.params.builder ((s.slot k).weights.map BitVec.toNat)))) s := by
  refine runCommand_error ((Eng.bind_ok (Eng.get_run s)).trans ?_)
  rw [if_neg (by simp [huser])]
  refine (Eng.bind_ok (require_ok (by simpa using hcreated))).trans ?_
  rw [if_pos h]
  rfl

end

/-- Settles O37: what BUILD answers is stored unless a code is longer than MAXCODE. -/
theorem tableFinalize : Obligations.TableFinalize := by
  intro k s sl codes
  refine ⟨tblFin_preset, tblFin_empty, fun huser hcreated hshort => ?_, fun c hc huser hcreated hlong hmax => ?_⟩
  · exact tblFin_stores huser hcreated (maxCodeLen_le_iff.2 hshort)
  · have hlen : maxCodeLen codes = c.length :=
      Nat.le_antisymm (maxCodeLen_le_iff.2 hmax) (maxCodeLen_le_iff.1 (le_refl _) c hc)
    rw [← hlen]
    exact tblFin_overflows huser hcreated (hlong.trans_eq hlen.symm)

end Sys2Proof.Machine
end

section
/-! SUPPORT. Proofs: The commands that look into a slot -/

namespace Sys2Proof.Machine

/-! ### TBL.CODE, TBL.INFO, TBL.WGT (41_prefix_table.md R194, R196, R197) -/

/-- A value below 2^64 can be read back from its two words. -/
theorem two_words_value {v : Nat} (h : v < 2 ^ 64) : 2 ^ 32 * (word (v / 2 ^ 32)).toNat + (word v).toNat = v := by
  rw [word_toNat (by omega), word, BitVec.toNat_ofNat]
  exact Nat.div_add_mod v (2 ^ 32)

section
variable {k : Fin 16} {s : State}

theorem tblCode_unbuilt (h : (s.slot k).final = false) : failsWith (.tblCode k) s (.unbuilt k.val) s :=
  runCommand_error (Eng.bind_error (require_error h))

theorem checkBuilt_ok (h : (s.slot k).final = true) : (checkBuilt k).run s = .ok () s := require_ok h

theorem tblCode_badSymbol (hfinal : (s.slot k).final = true) (h : (s.slot k).alpha.size ≤ s.arg0.toNat) :
    failsWith (.tblCode k) s (.badOperand 2) s :=
  runCommand_error ((Eng.bind_ok (checkBuilt_ok hfinal)).trans
    (Eng.bind_error (require_error (decide_eq_false (Nat.not_lt.2 h)))))

theorem tblCode_reports (hfinal : (s.slot k).final = true) (h : s.arg0.toNat < (s.slot k).alpha.size) :
    succeeds (.tblCode k) s { s with
      res0 := word (bitsVal ((s.slot k).code s.arg0.toNat))
      res1 := word (bitsVal ((s.slot k).code s.arg0.toNat) / 2 ^ 32)
      res2 := word ((s.slot k).code s.arg0.toNat).length } :=
  runCommand_ok ((Eng.bind_ok (checkBuilt_ok hfinal)).trans ((Eng.bind_ok (require_ok (decide_eq_true h))).trans
    (Eng.bind_ok (Eng.get_run s))))

theorem tblInfo_reports : succeeds (.tblInfo k) s { s with
    res0 := word (s.slot k).alpha.size, res1 := word (s.slot k).final.toNat, res2 := word (s.slot k).preset.toNat } :=
  rfl

theorem tblWgt_empty (h : (s.slot k).alpha = .empty) : failsWith (.tblWgt k) s (.illegalState k.val) s :=
  runCommand_error (Eng.bind_error (require_error (by simp [h])))

theorem tblWgt_badSymbol (hcreated : (s.slot k).alpha ≠ .empty) (h : (s.slot k).alpha.size ≤ s.arg0.toNat) :
    failsWith (.tblWgt k) s (.badOperand 2) s :=
  runCommand_error ((Eng.bind_ok (require_ok (by simpa using hcreated))).trans
    (Eng.bind_error (require_error (decide_eq_false (Nat.not_lt.2 h)))))

theorem tblWgt_reports {w : Word} (hcreated : (s.slot k).alpha ≠ .empty) (h : s.arg0.toNat < (s.slot k).alpha.size)
    (hw : (s.slot k).weights[s.arg0.toNat]? = some w) : succeeds (.tblWgt k) s { s with res0 := w } := by
  have hweight : word ((s.slot k).weights.getD s.arg0.toNat 0#32).toNat = w := by
    rw [List.getD_eq_getElem?_getD, hw, Option.getD_some, word, BitVec.ofNat_toNat, BitVec.setWidth_eq]
  rw [← hweight]
  exact runCommand_ok ((Eng.bind_ok (require_ok (by simpa using hcreated))).trans
    ((Eng.bind_ok (require_ok (decide_eq_true h))).trans (Eng.bind_ok (Eng.get_run s))))

end

theorem encode_queries : ∀ k : Fin 16, encode (.tblCode k) = word (0x24 + 2 ^ 8 * k.val) ∧
    encode (.tblInfo k) = word (0x26 + 2 ^ 8 * k.val) ∧ encode (.tblWgt k) = word (0x27 + 2 ^ 8 * k.val) := by decide

/-- Settles O38: the checks in their order; the code's value, of 64 bits at most, stands in the two words. -/
theorem tableQueries : Obligations.TableQueries := by
  intro k s sl x
  refine ⟨encode_queries k, tblCode_unbuilt, tblCode_badSymbol, fun hfinal hx hlen => ?_, tblInfo_reports, tblWgt_empty,
    tblWgt_badSymbol, fun _ => tblWgt_reports⟩
  have hlt := bitsVal_lt (sl.code x)
  have hvalue := two_words_value (hlt.trans_le (Nat.pow_le_pow_right (by decide) hlen))
  refine ⟨_, _, tblCode_reports hfinal hx, ?_, ?_⟩
  · exact (congrArg (natBits _) hvalue).trans (natBits_bitsVal _)
  · exact hvalue.trans_lt hlt

/-! ### TBL.DEC (41_prefix_table.md R193, R195) -/

section
variable {k : Fin 16} {s : State}

/-- The walk takes every bit left when no code comes. -/
theorem decodeNext_truncated (h : s.canRead s.avail = true) (hno : ∀ c ∈ (s.slot k).codes, ¬ c <+: s.sourceRest) :
    (decodeNext k).run.run s = .ok none (s.skip s.avail) := by
  obtain ⟨hsrc, -, -⟩ := State.canRead_iff.1 h
  have hlen : s.sourceRest.length = s.avail := streamBits_length _ _ _ _
  have hwalk := decodeLoop_walks (t := k) (fuel := 1) (p := []) (by rwa [hlen]) (List.prefix_refl s.sourceRest)
    fun c hc hcu => absurd hcu (hno c hc)
  have hend : readBit.run.run (s.skip s.avail) = .ok none (s.skip s.avail) := by
    rw [readBit_run, if_pos (by rw [State.skip_avail hsrc (le_refl _)]; omega)]
  rw [hlen] at hwalk
  rw [decodeNext, Rd.bind_some (Rd.get_run s), hwalk, decodeLoop, Rd.bind_none hend]

variable (hsrc : s.sourceOk = true) (hfinal : (s.slot k).final = true)
include hsrc hfinal

/-- Past its checks TBL.DEC succeeds where the walk finds a symbol, with the bits it took. -/
theorem tblDec_decodes {x n : Nat} (hn : n ≤ s.avail) (h : (decodeNext k).run.run s = .ok (some x) (s.skip n)) :
    succeeds (.tblDec k) s { s.skip n with res0 := word x, res2 := word n } := by
  have hsource : checkSource.run s = .ok () s := require_ok hsrc
  have htook : (s.skip n).rpos.toNat - s.rpos.toNat = n := by
    rw [State.skip_rpos_toNat hsrc hn, Nat.add_sub_cancel_left]
  have hend : succeeds (.tblDec k) s
      { s.skip n with res0 := word x, res2 := word ((s.skip n).rpos.toNat - s.rpos.toNat) } :=
    runCommand_ok ((Eng.bind_ok hsource).trans ((Eng.bind_ok (checkBuilt_ok hfinal)).trans
      ((Eng.bind_ok (Eng.get_run s)).trans (Eng.bind_ok (orTruncated_some h)))))
  rwa [htook] at hend

/-- Past its checks TBL.DEC ends as the walk does that an error ends, or that runs out of bits. -/
theorem tblDec_error {e : Raised} {t : State} (h : (orTruncated (decodeNext k)).run s = .error e t) :
    failsWith (.tblDec k) s e t := by
  have hsource : checkSource.run s = .ok () s := require_ok hsrc
  exact runCommand_error ((Eng.bind_ok hsource).trans ((Eng.bind_ok (checkBuilt_ok hfinal)).trans
    ((Eng.bind_ok (Eng.get_run s)).trans (Eng.bind_error h))))

end

/-- Settles O39: the walk to the next code, to the last bit, or to the first bit that may not be read. -/
theorem tableDecode : Obligations.TableDecode := by
  intro k s hsrc hfinal hpf
  refine ⟨fun x c hx hcode hread => ?_, fun hno hread => ?_, fun q hstop hno => ?_⟩
  · obtain ⟨hlt, -⟩ := List.getElem?_eq_some_iff.1 hx
    have hc : (s.slot k).code x = c := by rw [Slot.code, List.getD_eq_getElem?_getD, hx, Option.getD_some]
    obtain ⟨-, hlen, -⟩ := State.canRead_iff.1 hread
    subst hc
    exact tblDec_decodes hsrc hfinal hlen (decodeNext_whole hpf hlt hread hcode)
  · rw [← State.skip_rpos_toNat hsrc (le_refl s.avail)]
    exact tblDec_error hsrc hfinal (orTruncated_none (decodeNext_truncated hread hno))
  · exact tblDec_error hsrc hfinal (orTruncated_error (decodeNext_stops hsrc hstop hno))

end Sys2Proof.Machine
end

section
/-! SUPPORT. Proofs: Units written at WPOS, fields read at RPOS -/

namespace Sys2Proof.Machine

/-! ### Units written one after the other, each all or nothing (40_bitstream.md R145) -/

/-- Bit strings written one after the other, each all or nothing. -/
def writeUnits : List Bits → Eng Unit
  | [] => pure ()
  | u :: us => do
    writeString u
    writeUnits us

section
variable {s : State} {us : List Bits}

/-- Units that can be written are all written. -/
theorem writeUnits_whole (h : s.canWrite us.flatten.length = true) :
    (writeUnits us).run s = .ok () (s.emit us.flatten) := by
  induction us generalizing s with
  | nil =>
    rw [List.flatten_nil, State.emit_nil]
    rfl
  | cons u us ih =>
    rw [List.flatten_cons, List.length_append, State.canWrite_add] at h
    obtain ⟨hfirst, hothers⟩ := h
    obtain ⟨hdst, hfit, -⟩ := State.canWrite_iff.1 hfirst
    have hcap := State.destOk_bits hdst
    rw [writeUnits, Eng.bind_ok (writeString_whole hfirst), ih hothers, State.emit_emit (by omega), List.flatten_cons]

/-- Units that can be written are units at which writing stops nowhere. -/
theorem State.stopAt_of_canWrite (h : s.canWrite us.flatten.length = true) : s.stopAt s.wpos.toNat us = none :=
  have ⟨_, hfit, hok⟩ := State.canWrite_iff.1 h
  State.stopAt_eq_none hfit hok

/-- A unit at which writing does not stop can be written, wherever WPOS stands. -/
theorem State.canWrite_of_stopAt {u : Bits} (hdst : s.destOk = true) (h : s.stopAt s.wpos.toNat [u] = none) :
    s.canWrite u.length = true := by
  have hfit : s.wpos.toNat + u.length ≤ 8 * s.dstCap.toNat := by
    by_contra hfull
    rw [State.stopAt_full (by omega)] at h
    cases h
  have hok := (State.stopAt_none h (by omega)).2
  rw [List.flatten_singleton] at hok
  exact State.canWrite_iff.2 ⟨hdst, hfit, hok⟩

/-- One unit that cannot be written ends with its error, the bits before kept. -/
theorem writeString_stopAt {u : Bits} {q : Nat} {err : Raised} (hdst : s.destOk = true)
    (h : s.stopAt s.wpos.toNat [u] = some (q, err)) :
    s.wpos.toNat ≤ q ∧ q - s.wpos.toNat ≤ u.length ∧
      (writeString u).run s = .error err (s.emit (u.take (q - s.wpos.toNat))) := by
  rcases State.stopAt_single h with ⟨hfull, rfl, rfl⟩ | ⟨i, hi, hfit, rfl, rfl, hok, hbad⟩
  · refine ⟨Nat.le_refl _, by omega, ?_⟩
    rw [Nat.sub_self, List.take_zero, State.emit_nil, writeString_full hfull]
  · refine ⟨Nat.le_add_right _ _, by omega, ?_⟩
    rw [Nat.add_sub_cancel_left, writeString_stops hdst hfit hi (spanOk_iff.2 hok) hbad]

/-- Where a unit cannot be written the writing ends with that error, the bits before kept. -/
theorem writeUnits_stops {q : Nat} {err : Raised} (hdst : s.destOk = true)
    (h : s.stopAt s.wpos.toNat us = some (q, err)) :
    (writeUnits us).run s = .error err (s.emit (us.flatten.take (q - s.wpos.toNat))) := by
  induction us generalizing s with
  | nil => cases h
  | cons u us ih =>
    rw [State.stopAt_cons, Option.or_eq_some_iff] at h
    rcases h with hu | ⟨hnone, hus⟩
    · obtain ⟨-, hq, hrun⟩ := writeString_stopAt hdst hu
      rw [writeUnits, Eng.bind_error hrun, List.flatten_cons, List.take_append_of_le_length hq]
    · have hfirst := State.canWrite_of_stopAt hdst hnone
      obtain ⟨-, hfit, -⟩ := State.canWrite_iff.1 hfirst
      have hcap := State.destOk_bits hdst
      have hpos : (s.emit u).wpos.toNat = s.wpos.toNat + u.length := State.emit_wpos_toNat (by omega)
      obtain ⟨hq, -, -⟩ := State.stopAt_some hus hfit
      have hrest := ih (s := s.emit u) hdst (by rwa [hpos])
      rw [writeUnits, Eng.bind_ok (writeString_whole hfirst), hrest, State.emit_emit (by omega), hpos, List.flatten_cons,
        ← List.take_length_add_append]
      congr 3
      omega

/-- The first unit of several that does not fit ends the writing, those before written. -/
theorem State.stopAt_of_full {vs : List Bits} {u : Bits} (h : s.canWrite us.flatten.length = true)
    (hfull : 8 * s.dstCap.toNat < s.wpos.toNat + us.flatten.length + u.length) :
    s.stopAt s.wpos.toNat (us ++ u :: vs) =
      some (s.wpos.toNat + us.flatten.length, .outputFull (s.wpos.toNat + us.flatten.length)) := by
  rw [State.stopAt_append, State.stopAt_of_canWrite h, Option.none_or, State.stopAt_cons, State.stopAt_full hfull,
    Option.some_or]

theorem State.stopAt_of_writeStopAt {n q : Nat} {err : Raised} (h : s.writeStopAt us = some (n, q, err)) :
    s.stopAt s.wpos.toNat us = some (q, err) := by
  rw [State.stopAt, ← State.writeStopAt, h]
  rfl

end

/-! ### Fields and bytes read at RPOS (40_bitstream.md R142, R143) -/

section
variable {s : State} {m n q : Nat}

/-- Reading stops past bits that can be read. -/
theorem State.readStopsAt_add (hsrc : s.sourceOk = true) (h : s.readStopsAt (m + n) = true) :
    s.canRead m = true ∧ (s.skip m).readStopsAt n = true := by
  obtain ⟨hlt, -, hbad⟩ := State.readStopsAt_iff.1 h
  obtain ⟨hfirst, hothers⟩ := State.canRead_add.1 (State.readStopsAt_skip hsrc h).1
  obtain ⟨-, -, hok⟩ := State.canRead_iff.1 hothers
  refine ⟨hfirst, State.readStopsAt_iff.2 ⟨?_, spanOk_iff.2 hok, ?_⟩⟩
  · rw [State.skip_avail hsrc (by omega)]
    omega
  · rwa [State.skip_rpos_toNat hsrc (by omega), Nat.add_assoc]

/-- The bits that follow a beginning of those left are left past it. -/
theorem State.prefix_skip {u v : Bits} (h : s.canRead u.length = true) (huv : u ++ v <+: s.sourceRest) :
    v <+: (s.skip u.length).sourceRest := by
  obtain ⟨hsrc, hlen, -⟩ := State.canRead_iff.1 h
  obtain ⟨rest, hrest⟩ := huv
  exact ⟨rest, by rw [State.skip_sourceRest hsrc hlen, ← hrest, List.append_assoc, List.drop_left]⟩

/-- A field that comes next is read with its value. -/
theorem readBits_field {v : Nat} (h : s.canRead n = true) (hv : natBits n v <+: s.sourceRest) :
    (readBits n).run.run s = .ok (some (v % 2 ^ n)) (s.skip n) := by
  obtain ⟨rest, hrest⟩ := hv
  rw [readBits_whole h, ← hrest, List.take_left' (natBits_length n v), bitsVal_natBits]

theorem readByte_next {b : Byte} (h : s.canRead 8 = true) (hb : natBits 8 b.toNat <+: s.sourceRest) :
    readByte.run.run s = .ok (some b) (s.skip 8) := by
  rw [readByte, Rd.bind_some (readBits_field h hb), Nat.mod_eq_of_lt b.isLt, byte_toNat_self]
  rfl

theorem readByte_short (h : s.avail < 8) : readByte.run.run s = .ok none s := Rd.bind_none (readBits_short h)

theorem readByte_stops (hsrc : s.sourceOk = true) (hlen : 8 ≤ s.avail) (hq : q < 8) (h : s.readStopsAt q = true) :
    readByte.run.run s = .error (.bus (s.srcAddr.toNat + (s.rpos.toNat + q) / 8)) (s.skip q) :=
  Rd.bind_error (readBits_stops hsrc hlen hq h)

end

/-! ### Bits read back where they were written (20_memory.md R72, 30_encoding.md R100) -/

/-- Stored bits are the stream bits from their place on. -/
theorem streamBits_storeBits (base p : Nat) (bs : Bits) {m : Memory} (h : Memory.wf m = true)
    (hfit : base + (p + bs.length + 7) / 8 ≤ 2 ^ 32) : streamBits (storeBits base p bs m) base p bs.length = bs := by
  refine List.ext_getElem (streamBits_length _ _ _ _) fun i hi hi' => ?_
  simp only [streamBits, List.getElem_map, List.getElem_range]
  rw [streamBit_storeBits base p bs h hfit, if_pos (by omega), Nat.add_sub_cancel_left, List.getD_eq_getElem _ _ hi']

/-- The bits a command wrote come next for a reader placed where it wrote them. -/
theorem State.prefix_of_emit {s u : State} {bs : Bits} (hwf : Memory.wf s.mem = true) (hwrite : s.canWrite bs.length = true)
    (hread : u.canRead bs.length = true) (hmem : u.mem = (s.emit bs).mem) (haddr : u.srcAddr = s.dstAddr)
    (hpos : u.rpos = s.wpos) : bs <+: u.sourceRest := by
  obtain ⟨hdst, hfit, -⟩ := State.canWrite_iff.1 hwrite
  obtain ⟨-, hlen, -⟩ := State.canRead_iff.1 hread
  obtain ⟨rest, hrest⟩ := Nat.exists_eq_add_of_le hlen
  have hend : s.dstAddr.toNat + s.dstCap.toNat ≤ 2 ^ 32 := by
    simp only [State.destOk, bufferOk, Bool.and_eq_true, decide_eq_true_eq] at hdst
    exact hdst.2
  have hstored := streamBits_storeBits s.dstAddr.toNat s.wpos.toNat bs hwf (by omega)
  rw [State.sourceRest, hrest, streamBits_append, hmem, haddr, hpos]
  exact ⟨_, congrArg (· ++ _) hstored.symm⟩

end Sys2Proof.Machine
end

section
/-! SUPPORT. Proofs: The bucket varint commands -/

namespace Sys2Proof.Machine

/-! ### Buckets (42_varint.md R210, R211) -/

theorem bucketFrom_eq_findIdx (v : Nat) (ws : List Nat) (k : Nat) :
    bucketFrom v ws k = k + ws.findIdx (fun w => decide (v < 2 ^ w)) := by
  induction ws generalizing k with
  | nil => rfl
  | cons w ws ih =>
    rw [bucketFrom, List.findIdx_cons, ih]
    split_ifs with h
    · simp [h]
    · simp [h]
      omega

theorem bucket_eq_findIdx (v : Nat) : bucket v = Config.vintWidths.findIdx (fun w => decide (v < 2 ^ w)) := by
  rw [bucket, bucketFrom_eq_findIdx, Nat.zero_add]

theorem vintWidth_eq_getElem {k : Nat} (h : k < Config.vintWidths.length) : vintWidth k = Config.vintWidths[k] :=
  List.getD_eq_getElem _ _ h

theorem bucket_lt {v : Nat} (h : v < 2 ^ 31) : bucket v < Config.vintWidths.length := by
  rw [bucket_eq_findIdx]
  exact List.findIdx_lt_length_of_exists ⟨31, by decide, by simpa using h⟩

/-- The bucket of a value is wide enough for it. -/
theorem lt_two_pow_bucket {v : Nat} (h : v < 2 ^ 31) : v < 2 ^ vintWidth (bucket v) := by
  have hlt := bucket_lt h
  rw [vintWidth_eq_getElem hlt]
  simp only [bucket_eq_findIdx] at hlt ⊢
  simpa using List.findIdx_getElem (w := hlt)

/-- No bucket before that of a value is wide enough for it. -/
theorem two_pow_le_of_lt_bucket {v j : Nat} (h : v < 2 ^ 31) (hj : j < bucket v) : 2 ^ vintWidth j ≤ v := by
  rw [vintWidth_eq_getElem (hj.trans (bucket_lt h))]
  rw [bucket_eq_findIdx] at hj
  simpa using List.not_of_lt_findIdx hj

/-! ### VI.ENC (42_varint.md R211, R218) -/

/-- The two units of a bucket varint: selector and raw field. -/
def vintUnits (vint : Slot) (v : Nat) : List Bits := [vint.code (bucket v), natBits (vintWidth (bucket v)) v]

@[simp] theorem vintUnits_flatten (vint : Slot) (v : Nat) : (vintUnits vint v).flatten = vintBits vint v := by
  simp [vintUnits, vintBits, vintFieldBits]

section
variable {s t : State}

/-- A value below 2^31 is written as its two units. -/
theorem vEncode_run {v : Nat} (hv : v < 2 ^ 31) :
    (vEncode v).run s = (writeUnits (vintUnits (s.slot vintSlot) v)).run s := by
  have hfield : writeUnits [natBits (vintWidth (bucket v)) v] = writeBits v (vintWidth (bucket v)) := by
    simp [writeUnits, writeBits]
  rw [vEncode, if_neg (by omega), vintUnits, writeUnits, hfield, EStateM.run_bind, EStateM.run_bind, writeCode_run]

theorem viEnc_writes (hv : s.arg0.toNat < 2 ^ 31)
    (h : s.canWrite (vintBits (s.slot vintSlot) s.arg0.toNat).length = true) :
    succeeds .viEnc s { s.emit (vintBits (s.slot vintSlot) s.arg0.toNat) with
      res0 := word (bucket s.arg0.toNat), res2 := word (vintBits (s.slot vintSlot) s.arg0.toNat).length } := by
  obtain ⟨hdst, -, -⟩ := State.canWrite_iff.1 h
  have hrun : (vEncode s.arg0.toNat).run s = .ok () (s.emit (vintBits (s.slot vintSlot) s.arg0.toNat)) := by
    rw [vEncode_run hv, writeUnits_whole (by rwa [vintUnits_flatten]), vintUnits_flatten]
  have hlen : (vintBits (s.slot vintSlot) s.arg0.toNat).length =
      (s.slot vintSlot).codeLen (bucket s.arg0.toNat) + vintWidth (bucket s.arg0.toNat) := by
    simp [vintBits, vintFieldBits, Slot.codeLen]
  have hdest : checkDest.run s = .ok () s := require_ok hdst
  rw [hlen]
  exact runCommand_ok ((Eng.bind_ok hdest).trans ((Eng.bind_ok hrun).trans ((Eng.bind_ok (setRes0_run _ _)).trans
    (Eng.bind_ok (Eng.get_run _)))))

theorem viEnc_error {e : Raised} (hdst : s.destOk = true) (h : (vEncode s.arg0.toNat).run s = .error e t) :
    failsWith .viEnc s e t := by
  have hdest : checkDest.run s = .ok () s := require_ok hdst
  exact runCommand_error ((Eng.bind_ok hdest).trans (Eng.bind_error h))

/-- Where selector or raw field cannot be written VI.ENC ends, the bits before kept. -/
theorem viEnc_stops {q : Nat} {e : Raised} (hv : s.arg0.toNat < 2 ^ 31) (hdst : s.destOk = true)
    (h : s.stopAt s.wpos.toNat (vintUnits (s.slot vintSlot) s.arg0.toNat) = some (q, e)) :
    failsWith .viEnc s e (s.emit ((vintBits (s.slot vintSlot) s.arg0.toNat).take (q - s.wpos.toNat))) :=
  viEnc_error hdst (by rw [vEncode_run hv, writeUnits_stops hdst h, vintUnits_flatten])

theorem viEnc_overflow (hv : 2 ^ 31 ≤ s.arg0.toNat) (hdst : s.destOk = true) :
    failsWith .viEnc s (.overflow s.arg0.toNat) s := by
  refine viEnc_error hdst ?_
  rw [vEncode, if_pos hv]
  rfl

end

/-- Settles O40: the two units written, or the first of them that cannot be written. -/
theorem varintEncode : Obligations.VarintEncode := by
  intro s v selector
  refine ⟨viEnc_writes, viEnc_overflow, fun hv hdst hfull => ?_, fun hv hsel hfull => ?_, fun n q e hv hdst hstop =>
    viEnc_stops hv hdst (State.stopAt_of_writeStopAt hstop)⟩
  · have hstop : s.stopAt s.wpos.toNat (vintUnits (s.slot vintSlot) v) = some (s.wpos.toNat, .outputFull s.wpos.toNat) := by
      rw [vintUnits, State.stopAt_cons, State.stopAt_full hfull, Option.some_or]
    simpa using viEnc_stops hv hdst hstop
  · obtain ⟨hdst, -, -⟩ := State.canWrite_iff.1 hsel
    have hbits : vintBits (s.slot vintSlot) v = selector ++ natBits (vintWidth (bucket v)) v := rfl
    have hstop := State.stopAt_of_full (us := [selector]) (u := natBits (vintWidth (bucket v)) v) (vs := [])
      (by rwa [List.flatten_singleton]) (by rwa [List.flatten_singleton, Nat.add_assoc, ← List.length_append])
    have hend := viEnc_stops hv hdst hstop
    rw [List.flatten_singleton, Nat.add_sub_cancel_left] at hend
    rwa [hbits, List.take_left] at hend

/-! ### VI.DEC (42_varint.md R212, R219) -/

section
variable {s t : State} {k v : Nat}

/-- What VI.DEC does once its walk has a value. -/
theorem viDec_value (hsrc : s.sourceOk = true) (h : vDecode.run.run s = .ok (some (v, k)) t) :
    succeeds .viDec s { t with res0 := word v, res1 := word k, res2 := word (vintWidth k) } := by
  have hsource : checkSource.run s = .ok () s := require_ok hsrc
  exact runCommand_ok ((Eng.bind_ok hsource).trans (Eng.bind_ok (orTruncated_some h)))

theorem viDec_truncated {n : Nat} (hsrc : s.sourceOk = true) (hn : n ≤ s.avail)
    (h : vDecode.run.run s = .ok none (s.skip n)) : failsWith .viDec s (.truncated (s.rpos.toNat + n)) (s.skip n) := by
  have hsource : checkSource.run s = .ok () s := require_ok hsrc
  rw [← State.skip_rpos_toNat hsrc hn]
  exact runCommand_error ((Eng.bind_ok hsource).trans (Eng.bind_error (orTruncated_none h)))

theorem viDec_error {e : Raised} (hsrc : s.sourceOk = true) (h : vDecode.run.run s = .error e t) :
    failsWith .viDec s e t := by
  have hsource : checkSource.run s = .ok () s := require_ok hsrc
  exact runCommand_error ((Eng.bind_ok hsource).trans (Eng.bind_error (orTruncated_error h)))

variable (hpf : PrefixFree (s.slot vintSlot).codes) (hk : k < (s.slot vintSlot).codes.length)
include hpf hk

/-- Past a whole selector the walk goes on with its raw field. -/
theorem vDecode_selector (h : s.canRead ((s.slot vintSlot).code k).length = true)
    (hcode : (s.slot vintSlot).code k <+: s.sourceRest) :
    vDecode.run.run s =
      (readBits (vintWidth k) >>= fun v => pure (v, k)).run.run (s.skip ((s.slot vintSlot).code k).length) := by
  rw [vDecode, Rd.bind_some (decodeNext_whole hpf hk h hcode)]

/-- A bucket varint that comes next is read, whichever the bucket. -/
theorem vDecode_whole (hv : v < 2 ^ vintWidth k) (hbits : vintFieldBits (s.slot vintSlot) k v <+: s.sourceRest)
    (h : s.canRead (((s.slot vintSlot).code k).length + vintWidth k) = true) :
    vDecode.run.run s = .ok (some (v, k)) (s.skip (((s.slot vintSlot).code k).length + vintWidth k)) := by
  obtain ⟨hsel, hraw⟩ := State.canRead_add.1 h
  have hfield := readBits_field hraw (State.prefix_skip hsel hbits)
  rw [Nat.mod_eq_of_lt hv] at hfield
  rw [vDecode_selector hpf hk hsel ((List.prefix_append _ _).trans hbits), Rd.bind_some hfield, State.skip_skip]
  rfl

/-- A selector whose raw field is cut: the selector stays consumed. -/
theorem vDecode_cut (hcode : (s.slot vintSlot).code k <+: s.sourceRest) (h : s.canRead ((s.slot vintSlot).code k).length = true)
    (hshort : s.avail < ((s.slot vintSlot).code k).length + vintWidth k) :
    vDecode.run.run s = .ok none (s.skip ((s.slot vintSlot).code k).length) := by
  obtain ⟨hsrc, hlen, -⟩ := State.canRead_iff.1 h
  rw [vDecode_selector hpf hk h hcode]
  refine Rd.bind_none (readBits_short ?_)
  rw [State.skip_avail hsrc hlen]
  omega

/-- A raw field with a byte that may not be accessed, `n` bits into it. -/
theorem vDecode_stops (hsrc : s.sourceOk = true) (hcode : (s.slot vintSlot).code k <+: s.sourceRest) {n : Nat}
    (hn : n < vintWidth k) (hlen : ((s.slot vintSlot).code k).length + vintWidth k ≤ s.avail)
    (h : s.readStopsAt (((s.slot vintSlot).code k).length + n) = true) :
    vDecode.run.run s =
      .error (.bus (s.srcAddr.toNat + (s.rpos.toNat + (((s.slot vintSlot).code k).length + n)) / 8))
        (s.skip (((s.slot vintSlot).code k).length + n)) := by
  obtain ⟨hsel, hstop⟩ := State.readStopsAt_add hsrc h
  have hroom : vintWidth k ≤ (s.skip ((s.slot vintSlot).code k).length).avail := by
    rw [State.skip_avail hsrc (by omega)]
    omega
  have hraw := readBits_stops (s := s.skip ((s.slot vintSlot).code k).length) hsrc hroom hn hstop
  rw [State.skip_rpos_toNat hsrc (by omega), State.skip_skip, Nat.add_assoc] at hraw
  rw [vDecode_selector hpf hk hsel hcode]
  exact Rd.bind_error hraw

end

/-- Settles O41: the selector decoded, then its raw field read all or nothing. -/
theorem varintDecode : Obligations.VarintDecode := by
  intro s hsrc hpf
  refine ⟨fun k v c hc _ => ?_, fun hno hread => ?_, fun q hstop hno => ?_⟩
  · obtain ⟨hk, -⟩ := List.getElem?_eq_some_iff.1 hc
    obtain rfl : (s.slot vintSlot).code k = c := by rw [Slot.code, List.getD_eq_getElem?_getD, hc, Option.getD_some]
    refine ⟨fun hv hbits hread => viDec_value hsrc (vDecode_whole hpf hk hv hbits hread), fun hcode hread hshort => ?_,
      fun q hcode hlow hhigh hlen hstop => ?_⟩
    · exact viDec_truncated hsrc (State.canRead_iff.1 hread).2.1 (vDecode_cut hpf hk hcode hread hshort)
    · obtain ⟨n, rfl⟩ := Nat.exists_eq_add_of_le hlow
      exact viDec_error hsrc (vDecode_stops hpf hk hsrc hcode (by omega) hlen hstop)
  · exact viDec_truncated hsrc (le_refl _) (Rd.bind_none (decodeNext_truncated hread hno))
  · exact viDec_error hsrc (Rd.bind_error (decodeNext_stops hsrc hstop hno))

/-! ### What VI.ENC wrote is read back (42_varint.md R213) -/

/-- Settles O42: the bits that VI.ENC stored come next for VI.DEC, in the bucket of the value. -/
theorem varintRoundTrip : Obligations.VarintRoundTrip := by
  intro v hv
  refine ⟨⟨bucket_lt hv, lt_two_pow_bucket hv, fun j => two_pow_le_of_lt_bucket hv⟩, ?_⟩
  intro s u hwf harg hpf hcodes hwrite hslots haddr hpos hread
  have hslot : u.slot vintSlot = s.slot vintSlot := congrArg (·[vintSlot]) hslots
  have hvalue : s.arg0.toNat = v := by rw [harg, word_toNat (by omega)]
  refine ⟨_, viEnc_writes (s := s) (by rwa [hvalue]) (by rwa [hvalue]), State.complete_err _ _, fun hmem => ?_⟩
  rw [hvalue] at hmem
  have hbits : vintBits (s.slot vintSlot) v <+: u.sourceRest :=
    State.prefix_of_emit hwf hwrite hread hmem haddr hpos
  rw [← hslot] at hpf hcodes hbits hread
  rw [vintBits, vintFieldBits, List.length_append, natBits_length] at hread
  have hlt : bucket v < (u.slot vintSlot).codes.length := hcodes ▸ bucket_lt hv
  have hdec := viDec_value (State.canRead_iff.1 hread).1 (vDecode_whole hpf hlt (lt_two_pow_bucket hv) hbits hread)
  exact ⟨_, hdec, State.complete_err _ _, harg.symm⟩

end Sys2Proof.Machine
end

section
/-! SUPPORT. Proofs: The standard uvarint commands -/

namespace Sys2Proof.Machine

/-! ### UV.ENC (42_varint.md R215, R220) -/

section
variable {s t : State}

theorem writeBytes_eq_writeUnits (bs : List Byte) : writeBytes bs = writeUnits (byteUnits bs) := by
  induction bs with
  | nil => rfl
  | cons b bs ih =>
    rw [writeBytes, ih]
    rfl

/-- The value that UV.ENC encodes: ARG1 and ARG0 (42_varint.md R220). -/
def State.wideArg (s : State) : Nat := s.arg1.toNat * 2 ^ 32 + s.arg0.toNat

theorem State.wideArg_lt (s : State) : s.wideArg < 2 ^ 64 := by
  have := s.arg0.isLt
  have := s.arg1.isLt
  rw [State.wideArg]
  omega

theorem uvEncode_eq_writeUnits {v : Nat} (h : v < 2 ^ 64) : uvEncode v = writeUnits (byteUnits (uvarint v)) := by
  rw [uvEncode, uvBytes_eq_uvarint _ (h.trans (by decide)), writeBytes_eq_writeUnits]

theorem uvEnc_writes (h : s.canWrite (8 * (uvarint s.wideArg).length) = true) :
    succeeds .uvEnc s { s.emit (bytesBits (uvarint s.wideArg)) with res2 := word (uvarint s.wideArg).length } := by
  obtain ⟨hdst, hfit, -⟩ := State.canWrite_iff.1 h
  have hcap := State.destOk_bits hdst
  have hdest : checkDest.run s = .ok () s := require_ok hdst
  have hrun : (uvEncode s.wideArg).run s = .ok () (s.emit (bytesBits (uvarint s.wideArg))) := by
    rw [uvEncode_eq_writeUnits s.wideArg_lt, writeUnits_whole (by rwa [byteUnits_flatten, bytesBits_length]),
      byteUnits_flatten]
  have hcount : ((s.emit (bytesBits (uvarint s.wideArg))).wpos.toNat - s.wpos.toNat) / 8 = (uvarint s.wideArg).length := by
    rw [State.emit_wpos_toNat (by rw [bytesBits_length]; omega), bytesBits_length]
    omega
  have hend : succeeds .uvEnc s { s.emit (bytesBits (uvarint s.wideArg)) with
      res2 := word (((s.emit (bytesBits (uvarint s.wideArg))).wpos.toNat - s.wpos.toNat) / 8) } :=
    runCommand_ok ((Eng.bind_ok hdest).trans ((Eng.bind_ok (Eng.get_run s)).trans ((Eng.bind_ok hrun).trans
      (Eng.bind_ok (Eng.get_run _)))))
  rwa [hcount] at hend

/-- Where a byte cannot be written UV.ENC ends, the bits before kept. -/
theorem uvEnc_stops {q : Nat} {e : Raised} (hdst : s.destOk = true)
    (h : s.stopAt s.wpos.toNat (byteUnits (uvarint s.wideArg)) = some (q, e)) :
    failsWith .uvEnc s e (s.emit ((bytesBits (uvarint s.wideArg)).take (q - s.wpos.toNat))) := by
  have hdest : checkDest.run s = .ok () s := require_ok hdst
  have hrun := writeUnits_stops hdst h
  rw [← uvEncode_eq_writeUnits s.wideArg_lt, byteUnits_flatten] at hrun
  exact runCommand_error ((Eng.bind_ok hdest).trans ((Eng.bind_ok (Eng.get_run s)).trans (Eng.bind_error hrun)))

/-- The first byte without room ends UV.ENC, the bytes before it written. -/
theorem uvEnc_full {xs ys : List Byte} {y : Byte} (hbytes : uvarint s.wideArg = xs ++ y :: ys)
    (h : s.canWrite (8 * xs.length) = true) (hfull : 8 * s.dstCap.toNat < s.wpos.toNat + 8 * (xs.length + 1)) :
    failsWith .uvEnc s (.outputFull (s.wpos.toNat + 8 * xs.length)) (s.emit (bytesBits xs)) := by
  obtain ⟨hdst, -, -⟩ := State.canWrite_iff.1 h
  have hbits : (byteUnits xs).flatten.length = 8 * xs.length := by rw [byteUnits_flatten, bytesBits_length]
  have hunits : byteUnits (uvarint s.wideArg) = byteUnits xs ++ natBits 8 y.toNat :: byteUnits ys := by
    rw [hbytes, byteUnits, List.map_append, List.map_cons]
    rfl
  have hstop : s.stopAt s.wpos.toNat (byteUnits (uvarint s.wideArg)) =
      some (s.wpos.toNat + 8 * xs.length, .outputFull (s.wpos.toNat + 8 * xs.length)) := by
    rw [hunits, State.stopAt_of_full (by rwa [hbits]) (by rw [hbits, natBits_length]; omega), hbits]
  have hend := uvEnc_stops hdst hstop
  rwa [Nat.add_sub_cancel_left, hbytes, bytesBits_append, List.take_left' (bytesBits_length xs)] at hend

end

/-! ### The loop of UVDecode (42_varint.md R216) -/

section
variable {s t : State} {left x sh : Nat} {b : Byte}

/-- Continued bytes that come next are taken, their groups added. -/
theorem uvDecodeLoop_continued {bs : List Byte} (hbs : ∀ y ∈ bs, 128 ≤ y.toNat) (h : s.canRead (8 * bs.length) = true)
    (hbits : bytesBits bs <+: s.sourceRest) :
    (uvDecodeLoop (bs.length + left) x sh).run s =
      (uvDecodeLoop left (x + uvValue bs * 2 ^ sh) (sh + 7 * bs.length)).run (s.skip (8 * bs.length)) := by
  induction bs generalizing s x sh with
  | nil => simp [uvValue]
  | cons b bs ih =>
    rw [List.length_cons, Nat.mul_succ, Nat.add_comm, State.canRead_add] at h
    obtain ⟨hfirst, hothers⟩ := h
    rw [bytesBits_cons] at hbits
    have hb : ¬ b.toNat < 128 := Nat.not_lt.2 (hbs b List.mem_cons_self)
    have hnext := State.prefix_skip (u := natBits 8 b.toNat) (by rwa [natBits_length]) hbits
    rw [natBits_length] at hnext
    have hvalue : x + b.toNat % 128 * 2 ^ sh + uvValue bs * 2 ^ (sh + 7) = x + uvValue (b :: bs) * 2 ^ sh := by
      rw [uvValue, pow_add]
      ring
    rw [List.length_cons, Nat.add_right_comm, uvDecodeLoop,
      Eng.bind_ok (readByte_next hfirst ((List.prefix_append _ _).trans hbits))]
    simp only [if_neg hb]
    rw [ih (fun y hy => hbs y (List.mem_cons_of_mem _ hy)) hothers hnext, hvalue, State.skip_skip]
    congr 2 <;> ring

theorem uvDecodeLoop_cut (h : s.avail < 8) : (uvDecodeLoop (left + 1) x sh).run s = .ok .fail s := by
  rw [uvDecodeLoop, Eng.bind_ok (readByte_short h)]
  rfl

theorem uvDecodeLoop_error {e : Raised} (h : readByte.run.run s = .error e t) :
    (uvDecodeLoop (left + 1) x sh).run s = .error e t := by
  rw [uvDecodeLoop, Eng.bind_error h]

/-- The last byte ends the loop with the value, unless it is the tenth and above 1. -/
theorem uvDecodeLoop_last (h : readByte.run.run s = .ok (some b) t) (hb : b.toNat < 128) (hten : left = 0 → b.toNat ≤ 1) :
    (uvDecodeLoop (left + 1) x sh).run s = .ok (.value (x + b.toNat * 2 ^ sh)) t := by
  rw [uvDecodeLoop, Eng.bind_ok h]
  simp only [if_pos hb]
  rw [if_neg fun hbig => absurd (hten hbig.1) (by omega)]
  rfl

/-- A tenth byte above 1 overflows, continued or not. -/
theorem uvDecodeLoop_overflow (h : readByte.run.run s = .ok (some b) t) (hb : 1 < b.toNat) :
    (uvDecodeLoop 1 x sh).run s = .ok .overflow t := by
  rw [uvDecodeLoop, Eng.bind_ok h]
  by_cases hlast : b.toNat < 128
  · simp only [if_pos hlast]
    rw [if_pos ⟨trivial, hb⟩]
    rfl
  · simp only [if_neg hlast]
    rfl

end

/-! ### UV.DEC (42_varint.md R221) -/

section
variable {s t : State} {n : Nat}

theorem uvDec_error {e : Raised} (hsrc : s.sourceOk = true) (h : uvDecode.run s = .error e t) :
    failsWith .uvDec s e t := by
  have hsource : checkSource.run s = .ok () s := require_ok hsrc
  exact runCommand_error ((Eng.bind_ok hsource).trans ((Eng.bind_ok (Eng.get_run s)).trans (Eng.bind_error h)))

theorem uvDec_fail (hsrc : s.sourceOk = true) (hn : n ≤ s.avail) (h : uvDecode.run s = .ok .fail (s.skip n)) :
    failsWith .uvDec s (.truncated (s.rpos.toNat + n)) (s.skip n) := by
  have hsource : checkSource.run s = .ok () s := require_ok hsrc
  rw [← State.skip_rpos_toNat hsrc hn]
  exact runCommand_error ((Eng.bind_ok hsource).trans ((Eng.bind_ok (Eng.get_run s)).trans ((Eng.bind_ok h).trans
    (Eng.bind_ok (Eng.get_run _)))))

/-- The bytes that UV.DEC counts, RPOS having moved past `n` of them. -/
theorem State.skip_bytes (hsrc : s.sourceOk = true) (hn : 8 * n ≤ s.avail) :
    ((s.skip (8 * n)).rpos.toNat - s.rpos.toNat) / 8 = n := by
  rw [State.skip_rpos_toNat hsrc hn]
  omega

theorem uvDec_overflow (hsrc : s.sourceOk = true) (hn : 8 * n ≤ s.avail)
    (h : uvDecode.run s = .ok .overflow (s.skip (8 * n))) : failsWith .uvDec s (.overflow n) (s.skip (8 * n)) := by
  have hsource : checkSource.run s = .ok () s := require_ok hsrc
  have hend : failsWith .uvDec s (.overflow (((s.skip (8 * n)).rpos.toNat - s.rpos.toNat) / 8)) (s.skip (8 * n)) :=
    runCommand_error ((Eng.bind_ok hsource).trans ((Eng.bind_ok (Eng.get_run s)).trans ((Eng.bind_ok h).trans
      (Eng.bind_ok (Eng.get_run _)))))
  rwa [State.skip_bytes hsrc hn] at hend

theorem uvDec_value {v : Nat} (hsrc : s.sourceOk = true) (hn : 8 * n ≤ s.avail)
    (h : uvDecode.run s = .ok (.value v) (s.skip (8 * n))) :
    succeeds .uvDec s { s.skip (8 * n) with res0 := word v, res1 := word (v / 2 ^ 32), res2 := word n } := by
  have hsource : checkSource.run s = .ok () s := require_ok hsrc
  have hend : succeeds .uvDec s { s.skip (8 * n) with
      res0 := word v
      res1 := word (v / 2 ^ 32)
      res2 := word (((s.skip (8 * n)).rpos.toNat - s.rpos.toNat) / 8) } :=
    runCommand_ok ((Eng.bind_ok hsource).trans ((Eng.bind_ok (Eng.get_run s)).trans (Eng.bind_ok h)))
  rwa [State.skip_bytes hsrc hn] at hend

/-- Past continued bytes the decoder goes on with those still allowed. -/
theorem uvDecode_continued {bs : List Byte} {left : Nat} (hlen : bs.length + left = 10) (hbs : ∀ y ∈ bs, 128 ≤ y.toNat)
    (h : s.canRead (8 * bs.length) = true) (hbits : bytesBits bs <+: s.sourceRest) :
    uvDecode.run s = (uvDecodeLoop left (uvValue bs) (7 * bs.length)).run (s.skip (8 * bs.length)) := by
  have hloop := uvDecodeLoop_continued (left := left) (x := 0) (sh := 0) hbs h hbits
  rwa [hlen, Nat.zero_add, Nat.zero_add, pow_zero, Nat.mul_one] at hloop

/-- The byte behind continued ones is read where it can be. -/
theorem readByte_behind {bs : List Byte} {b : Byte} (h : s.canRead (8 * (bs.length + 1)) = true)
    (hbits : bytesBits (bs ++ [b]) <+: s.sourceRest) : s.canRead (8 * bs.length) = true ∧
      readByte.run.run (s.skip (8 * bs.length)) = .ok (some b) (s.skip (8 * (bs.length + 1))) := by
  rw [Nat.mul_succ] at h ⊢
  obtain ⟨hfirst, hlast⟩ := State.canRead_add.1 h
  rw [bytesBits_append, bytesBits_cons, bytesBits_nil, List.append_nil] at hbits
  have hnext := State.prefix_skip (by rwa [bytesBits_length]) hbits
  rw [bytesBits_length] at hnext
  rw [readByte_next hlast hnext, State.skip_skip]
  exact ⟨hfirst, rfl⟩

section
variable {bs : List Byte} (hlen : bs.length < 10) (hbs : ∀ y ∈ bs, 128 ≤ y.toNat) (hbits : bytesBits bs <+: s.sourceRest)
include hlen hbs hbits

/-- Continued bytes with a byte behind them that may not be accessed, at its bit `n`. -/
theorem uvDec_stops (hsrc : s.sourceOk = true) (hn : n < 8) (hroom : 8 * bs.length + 8 ≤ s.avail)
    (hstop : s.readStopsAt (8 * bs.length + n) = true) :
    failsWith .uvDec s (.bus (s.srcAddr.toNat + (s.rpos.toNat + (8 * bs.length + n)) / 8)) (s.skip (8 * bs.length + n)) := by
  obtain ⟨hread, hbad⟩ := State.readStopsAt_add hsrc hstop
  have hbyte : 8 ≤ (s.skip (8 * bs.length)).avail := by
    rw [State.skip_avail hsrc (by omega)]
    omega
  have herror := readByte_stops (s := s.skip (8 * bs.length)) hsrc hbyte hn hbad
  rw [State.skip_rpos_toNat hsrc (by omega), State.skip_skip, Nat.add_assoc] at herror
  refine uvDec_error hsrc ?_
  rw [uvDecode_continued (left := 9 - bs.length + 1) (by omega) hbs hread hbits]
  exact uvDecodeLoop_error herror

/-- Continued bytes with no whole byte behind them. -/
theorem uvDec_cut (hshort : s.avail < 8 * bs.length + 8) (hread : s.canRead (8 * bs.length) = true) :
    failsWith .uvDec s (.truncated (s.rpos.toNat + 8 * bs.length)) (s.skip (8 * bs.length)) := by
  obtain ⟨hsrc, hfit, -⟩ := State.canRead_iff.1 hread
  refine uvDec_fail hsrc hfit ?_
  rw [uvDecode_continued (left := 9 - bs.length + 1) (by omega) hbs hread hbits]
  exact uvDecodeLoop_cut (by rw [State.skip_avail hsrc hfit]; omega)

end

/-- A whole uvarint that comes next is read with its value. -/
theorem uvDec_whole {bs : List Byte} (hwf : uvWellFormed bs = true) (hbits : bytesBits bs <+: s.sourceRest)
    (hread : s.canRead (8 * bs.length) = true) :
    succeeds .uvDec s { s.skip (8 * bs.length) with
      res0 := word (uvValue bs), res1 := word (uvValue bs / 2 ^ 32), res2 := word bs.length } := by
  rcases List.eq_nil_or_concat bs with rfl | ⟨front, last, rfl⟩
  · cases hwf
  · rw [List.concat_eq_append] at hwf hbits hread ⊢
    obtain ⟨hlast, hfront, hnine, hten⟩ := (uvWellFormed_iff front last).1 hwf
    obtain ⟨hsrc, hfit, -⟩ := State.canRead_iff.1 hread
    have hvalue : uvValue (front ++ [last]) = uvValue front + last.toNat * 2 ^ (7 * front.length) := by
      rw [uvValue_append, uvValue, uvValue, Nat.mod_eq_of_lt hlast, pow_mul]
      ring
    rw [List.length_append, List.length_singleton] at hread hfit ⊢
    obtain ⟨hbefore, hbyte⟩ := readByte_behind hread hbits
    rw [bytesBits_append] at hbits
    refine uvDec_value hsrc hfit ?_
    rw [uvDecode_continued (left := 9 - front.length + 1) (by omega) hfront hbefore ((List.prefix_append _ _).trans hbits),
      hvalue]
    exact uvDecodeLoop_last hbyte hlast fun h => hten (by omega)

/-- Nine continued bytes and a tenth above 1 pass 64 bits. -/
theorem uvDec_past {bs : List Byte} {b : Byte} (hlen : bs.length = 9) (hbs : ∀ y ∈ bs, 128 ≤ y.toNat) (hb : 1 < b.toNat)
    (hbits : bytesBits (bs ++ [b]) <+: s.sourceRest) (hread : s.canRead 80 = true) :
    failsWith .uvDec s (.overflow 10) (s.skip 80) := by
  obtain ⟨hsrc, hfit, -⟩ := State.canRead_iff.1 hread
  obtain ⟨hbefore, hbyte⟩ := readByte_behind (by rwa [hlen]) hbits
  rw [bytesBits_append] at hbits
  refine uvDec_overflow (n := 10) hsrc hfit ?_
  rw [uvDecode_continued (left := 1) (by omega) hbs hbefore ((List.prefix_append _ _).trans hbits),
    uvDecodeLoop_overflow hbyte hb, hlen]

end

/-- Settles O43: the bytes written one after the other, and read one after the other up to the one that ends the loop. -/
theorem uvarintCommands : Obligations.UvarintCommands := by
  intro s e
  refine ⟨uvEnc_writes, fun n hn hwrite hfull => ?_,
    fun n q r hdst hstop => uvEnc_stops hdst (State.stopAt_of_writeStopAt hstop),
    fun b q hlen hb hbits hlow hhigh hroom hsrc hstop => ?_, fun b hlen hb hbits => uvDec_cut hlen hb hbits,
    fun b => uvDec_whole, fun b x => uvDec_past⟩
  · have hsplit : e = e.take n ++ e[n] :: e.drop (n + 1) := by
      rw [← List.drop_eq_getElem_cons hn, List.take_append_drop]
    have hlen : (e.take n).length = n := List.length_take_of_le hn.le
    have hend := uvEnc_full hsplit (by rwa [hlen]) (by rwa [hlen])
    rwa [hlen] at hend
  · obtain ⟨n, rfl⟩ := Nat.exists_eq_add_of_le hlow
    exact uvDec_stops hlen hb hbits hsrc (by omega) hroom hstop

end Sys2Proof.Machine
end

section
/-! SUPPORT. Proofs: The format walks, byte by byte -/

namespace Sys2Proof.Machine

/-! ### One item of a stream (43_format_walker.md R230 to R233) -/

/-- The part of a walk that carries one item where `p` is expected: a structural byte is copied; a literal goes through
the transform `x`, which does not tell its byte, so the part answers `b` for it. -/
def WalkPhase.item (x : Rd Unit) (p : WalkPhase) (b : Byte) : Rd Byte :=
  if p.slots = 0 then copyByte else x >>= fun _ => pure b

/-- What stands for the byte `b` where `p` is expected. -/
def WalkPhase.unit (code : Byte → Bits) (p : WalkPhase) (b : Byte) : Bits :=
  if p.slots = 0 then natBits 8 b.toNat else code b

/-- The state once a token has asked for `n` literal slots. -/
def State.asked (s : State) (n : Nat) : State :=
  { s with eng := { s.eng with requested := s.eng.requested + n, lit := n } }

/-- The state once one more literal slot is filled. -/
def State.filled (s : State) : State :=
  { s with eng := { s.eng with lit := s.eng.lit - 1, completed := s.eng.completed + 1 } }

/-- The engine-internal state after the byte `b` where `p` was expected. -/
def Engine.past (bias : Nat) (p : WalkPhase) (b : Byte) (e : Engine) : Engine :=
  { e with
    requested := e.requested + if p.slots = 0 then (p.next bias b).slots else 0
    completed := e.completed + if p.slots = 0 then 0 else 1
    lit := (p.next bias b).slots }

/-- The engine-internal state after a stream's bytes. -/
def Engine.walked (bias : Nat) : WalkPhase → List Byte → Engine → Engine
  | _, [], e => e
  | p, b :: bs, e => Engine.walked bias (p.next bias b) bs (e.past bias p b)

section
variable {bias : Nat} {p : WalkPhase} {b : Byte} {s : State}

theorem WalkPhase.item_structural (hp : p.slots = 0) (x : Rd Unit) : p.item x b = copyByte := if_pos hp

theorem WalkPhase.item_literal (hp : p.slots ≠ 0) (x : Rd Unit) : p.item x b = x >>= fun _ => pure b := if_neg hp

@[simp] theorem lz4After_slots (n m : Nat) : (lz4After n m).slots = n := by
  rcases Nat.eq_zero_or_pos n with rfl | hn
  · rfl
  · rw [lz4After, if_neg hn.ne', WalkPhase.slots]

@[simp] theorem snappyAfter_slots (n : Nat) : (snappyAfter n).slots = n := by
  rcases Nat.eq_zero_or_pos n with rfl | hn
  · rfl
  · rw [snappyAfter, if_neg hn.ne', WalkPhase.slots]

/-- Behind a literal slot one slot fewer is still to come. -/
theorem WalkPhase.next_slots (hp : p.slots ≠ 0) : (p.next bias b).slots = p.slots - 1 := by
  cases p with
  | lz4Literals left m | snappyLiterals left =>
    rw [WalkPhase.next]
    split_ifs with hlast
    · exact (Nat.sub_eq_zero_of_le hlast).symm
    · rfl
  | _ => exact absurd rfl hp

/-- A structural byte asks for the literal slots that are expected next. -/
theorem State.asked_past (hp : p.slots = 0) :
    s.asked (p.next bias b).slots = { s with eng := s.eng.past bias p b } := by
  simp [State.asked, Engine.past, hp]

/-- A literal fills the slot that was expected. -/
theorem State.filled_past (hp : p.slots ≠ 0) (hlit : s.eng.lit = p.slots) :
    s.filled = { s with eng := s.eng.past bias p b } := by
  simp [State.filled, Engine.past, hp, hlit, WalkPhase.next_slots hp]

theorem State.asked_zero (h : s.eng.lit = 0) : s.asked 0 = s := by
  rw [State.asked, Nat.add_zero, ← h]

theorem walkUnits_cons (code : Byte → Bits) (bs : List Byte) :
    walkUnits bias code p (b :: bs) = p.unit code b :: walkUnits bias code (p.next bias b) bs := by
  by_cases hp : p.slots = 0 <;> simp [walkUnits, WalkPhase.unit, hp]

theorem Engine.walked_requested (bs : List Byte) (e : Engine) :
    (e.walked bias p bs).requested = e.requested + walkRequested bias p bs := by
  induction bs generalizing p e with
  | nil => rfl
  | cons b bs ih => rw [Engine.walked, ih, walkRequested, Engine.past, Nat.add_assoc]

theorem Engine.walked_completed (bs : List Byte) (e : Engine) :
    (e.walked bias p bs).completed = e.completed + walkCompleted bias p bs := by
  induction bs generalizing p e with
  | nil => rfl
  | cons b bs ih =>
    have hcount : walkCompleted bias p (b :: bs) =
        (if p.slots = 0 then 0 else 1) + walkCompleted bias (p.next bias b) bs := by
      by_cases hp : p.slots = 0 <;> simp [walkCompleted, hp, Nat.add_comm]
    rw [Engine.walked, ih, hcount, Engine.past, Nat.add_assoc]

/-- A command's counters begin at 0. -/
theorem Engine.idle_walked_requested (bs : List Byte) :
    (Engine.idle.walked bias p bs).requested = walkRequested bias p bs :=
  (Engine.walked_requested bs _).trans (Nat.zero_add _)

theorem Engine.idle_walked_completed (bs : List Byte) :
    (Engine.idle.walked bias p bs).completed = walkCompleted bias p bs :=
  (Engine.walked_completed bs _).trans (Nat.zero_add _)

/-- The literal slots still to come are those that the stream's bytes leave unfilled. -/
theorem Engine.walked_lit (bs : List Byte) {e : Engine} (he : e.lit = p.slots) :
    (e.walked bias p bs).lit = (walkEnd bias p bs).slots := by
  induction bs generalizing p e with
  | nil => exact he
  | cons b bs ih => exact ih rfl

end

/-! ### What a walk still has to do (43_format_walker.md R235, R237, R238) -/

/-- The walk with the transform `x` still has `m` to do where `p` is expected and `left` bits are left: each of its
loops has more rounds than that. -/
inductive Resumes (x : Rd Unit) (left : Nat) : WalkPhase → Rd Unit → Prop
  | lz4Token {o : Nat} (ho : left < o) : Resumes x left .lz4Token (lz4Loop x o)
  | lz4Extension {i o : Nat} (hi : left < i) (ho : left < o) (n m : Nat) : Resumes x left (.lz4Extension n m)
      (extension i n >>= fun n => literalSlots x n >>= fun _ => lz4Tail m >>= fun _ => lz4Loop x o)
  | lz4Literals {o : Nat} (ho : left < o) (n m : Nat) : Resumes x left (.lz4Literals (n + 1) m)
      (slotLoop x (n + 1) >>= fun _ => lz4Tail m >>= fun _ => lz4Loop x o)
  | lz4Offset {o : Nat} (ho : left < o) (n m : Nat) : Resumes x left (.lz4Offset (n + 1) m)
      (copyBytes (n + 1) >>= fun _ => nibbleLength m >>= fun _ => lz4Loop x o)
  | lz4MatchExtension {i o : Nat} (hi : left < i) (ho : left < o) (n : Nat) : Resumes x left .lz4MatchExtension
      (extension i n >>= fun _ => lz4Loop x o)
  | snappyPreamble {i : Nat} (hi : left < i) : Resumes x left .snappyPreamble
      (snappyPreamble i >>= fun _ => get >>= fun s => snappyLoop x (s.avail + 1))
  | snappyTag {o : Nat} (ho : left < o) : Resumes x left .snappyTag (snappyLoop x o)
  | snappyLength {o : Nat} (ho : left < o) (n scale v : Nat) : Resumes x left (.snappyLength (n + 1) scale v)
      (copyBytes (n + 1) >>= fun bs => get >>= fun s =>
        literalSlots x (v + littleEndian bs * scale + s.params.snappyBias) >>= fun _ => snappyLoop x o)
  | snappyLiterals {o : Nat} (ho : left < o) (n : Nat) : Resumes x left (.snappyLiterals (n + 1))
      (slotLoop x (n + 1) >>= fun _ => snappyLoop x o)
  | snappyCopy {o : Nat} (ho : left < o) (n : Nat) : Resumes x left (.snappyCopy (n + 1))
      (copyBytes (n + 1) >>= fun _ => snappyLoop x o)

/-- In the state `s` the part `m` comes to do what a walk still does where `p` is expected, as many literal slots being
asked for as `p` has. -/
def Reaches (x : Rd Unit) (p : WalkPhase) (m : Rd Unit) (s : State) : Prop :=
  ∃ m', Resumes x s.avail p m' ∧ m.run.run s = m'.run.run (s.asked p.slots)

section
variable {x : Rd Unit} {left : Nat} {p : WalkPhase} {m : Rd Unit} {s : State}

/-- Where nothing is asked for, what is still to do may be left as it is. -/
theorem Resumes.reaches (h : Resumes x s.avail p m) (hp : p.slots = 0) (hlit : s.eng.lit = 0) : Reaches x p m s :=
  ⟨m, h, by rw [hp, State.asked_zero hlit]⟩

/-- A part may be replaced by one that runs alike. -/
theorem Reaches.of_run {m' : Rd Unit} (h : Reaches x p m' s) (hrun : m.run.run s = m'.run.run s) : Reaches x p m s :=
  h.imp fun _ ⟨hres, heq⟩ => ⟨hres, hrun.trans heq⟩

/-- The literal slots of a token are asked for before any of them is filled. -/
theorem literalSlots_run (x : Rd Unit) (n : Nat) (f : Unit → Rd Unit) (s : State) :
    (literalSlots x n >>= f).run.run s = (slotLoop x n >>= f).run.run (s.asked n) := by
  rw [literalSlots, bind_assoc, Rd.lift_bind_ok (modifyEng_run _ s)]
  rfl

/-- The slots of an LZ4 sequence, then its offset, whether there are any or none. -/
theorem Reaches.lz4Slots {o : Nat} (ho : s.avail < o) (n m : Nat) :
    Reaches x (lz4After n m) (literalSlots x n >>= fun _ => lz4Tail m >>= fun _ => lz4Loop x o) s := by
  rw [Reaches, lz4After_slots, literalSlots_run]
  rcases n with _ | n
  · refine ⟨_, Resumes.lz4Offset ho 1 m, ?_⟩
    simp [slotLoop, lz4Tail]
  · exact ⟨_, Resumes.lz4Literals ho n m, rfl⟩

/-- The slots of a Snappy literal token, then the next tag, whether there are any or none. -/
theorem Reaches.snappySlots {o : Nat} (ho : s.avail < o) (n : Nat) :
    Reaches x (snappyAfter n) (literalSlots x n >>= fun _ => snappyLoop x o) s := by
  rw [Reaches, snappyAfter_slots, literalSlots_run]
  rcases n with _ | n
  · exact ⟨_, Resumes.snappyTag ho, by simp [slotLoop]⟩
  · exact ⟨_, Resumes.snappyLiterals ho n, rfl⟩

/-! ### A structural byte of each kind, and what is still to do behind it -/

/-- Where `p` is expected the part `m` copies a byte, and behind the byte `b`, with fewer bits left, it comes to what is
expected next. -/
def Copies (bias : Nat) (x : Rd Unit) (left : Nat) (p : WalkPhase) (m : Rd Unit) : Prop :=
  ∃ f : Byte → Rd Unit, m = copyByte >>= f ∧ ∀ (b : Byte) (s : State), s.params.snappyBias = bias → s.eng.lit = 0 →
    s.avail < left → Reaches x (p.next bias b) (f b) s

variable {bias : Nat}

/-- A length code of 15 has an extension, read by a loop of more rounds than bits are left. -/
theorem nibbleLength_long (f : Nat → Rd Unit) (s : State) :
    (nibbleLength 15 >>= f).run.run s = (extension (s.avail + 1) 15 >>= f).run.run s := rfl

theorem nibbleLength_short {n : Nat} (hn : n ≠ 15) : nibbleLength n = pure n := if_neg hn

theorem lz4Loop_succ (x : Rd Unit) (o : Nat) : lz4Loop x (o + 1) = copyByte >>= fun tok =>
    nibbleLength (tok.toNat / 16) >>= fun n => literalSlots x n >>= fun _ => lz4Tail (tok.toNat % 16) >>= fun _ =>
      lz4Loop x o := by
  simp [lz4Loop, lz4Sequence, lz4Tail]

theorem lz4Loop_copies {o : Nat} (ho : left < o + 1) : Copies bias x left .lz4Token (lz4Loop x (o + 1)) := by
  refine ⟨_, lz4Loop_succ x o, fun b s _ hlit hleft => ?_⟩
  rw [WalkPhase.next]
  split_ifs with hlong
  · rw [hlong]
    exact ((Resumes.lz4Extension (Nat.lt_succ_self _) (by omega) 15 _).reaches rfl hlit).of_run (nibbleLength_long _ s)
  · rw [nibbleLength_short hlong, pure_bind]
    exact Reaches.lz4Slots (by omega) _ _

/-- An extension byte is added; the one below 255 ends the extension. -/
theorem extension_succ (i n : Nat) (f : Nat → Rd Unit) : extension (i + 1) n >>= f = copyByte >>= fun b =>
    if b.toNat < 255 then f (n + b.toNat) else extension i (n + b.toNat) >>= f := by
  rw [extension, bind_assoc]
  refine congrArg (copyByte >>= ·) (funext fun b => ?_)
  split_ifs
  · exact pure_bind _ _
  · rfl

theorem lz4Extension_copies {i o : Nat} (hi : left < i + 1) (ho : left < o) (n m : Nat) :
    Copies bias x left (.lz4Extension n m)
      (extension (i + 1) n >>= fun n => literalSlots x n >>= fun _ => lz4Tail m >>= fun _ => lz4Loop x o) := by
  refine ⟨_, extension_succ i n _, fun b s _ hlit hleft => ?_⟩
  rw [WalkPhase.next]
  split_ifs with hb
  · exact Reaches.lz4Slots (by omega) _ _
  · obtain hlast : b.toNat = 255 := by omega
    rw [hlast]
    exact (Resumes.lz4Extension (by omega) (by omega) _ _).reaches rfl hlit

theorem lz4MatchExtension_copies {i o : Nat} (hi : left < i + 1) (ho : left < o) (n : Nat) :
    Copies bias x left .lz4MatchExtension (extension (i + 1) n >>= fun _ => lz4Loop x o) := by
  refine ⟨_, extension_succ i n _, fun b s _ hlit hleft => ?_⟩
  rw [WalkPhase.next]
  split_ifs with hb
  · exact (Resumes.lz4Token (by omega)).reaches rfl hlit
  · exact (Resumes.lz4MatchExtension (by omega) (by omega) _).reaches rfl hlit

theorem copyBytes_succ (n : Nat) (f : List Byte → Rd Unit) :
    copyBytes (n + 1) >>= f = copyByte >>= fun b => copyBytes n >>= fun bs => f (b :: bs) := by
  simp [copyBytes]

theorem lz4Offset_copies {o : Nat} (ho : left < o) (n m : Nat) : Copies bias x left (.lz4Offset (n + 1) m)
    (copyBytes (n + 1) >>= fun _ => nibbleLength m >>= fun _ => lz4Loop x o) := by
  refine ⟨_, copyBytes_succ n _, fun b s _ hlit hleft => ?_⟩
  rw [WalkPhase.next]
  rcases n with _ | n
  · rw [if_neg (by decide), copyBytes, pure_bind]
    split_ifs with hlong
    · rw [hlong]
      exact ((Resumes.lz4MatchExtension (Nat.lt_succ_self _) (by omega) 15).reaches rfl hlit).of_run
        (nibbleLength_long _ s)
    · rw [nibbleLength_short hlong, pure_bind]
      exact (Resumes.lz4Token (by omega)).reaches rfl hlit
  · rw [if_pos (by omega)]
    exact (Resumes.lz4Offset (by omega) n m).reaches rfl hlit

theorem snappyPreamble_copies {i : Nat} (hi : left < i + 1) : Copies bias x left .snappyPreamble
    (snappyPreamble (i + 1) >>= fun _ => get >>= fun s => snappyLoop x (s.avail + 1)) := by
  refine ⟨_, bind_assoc .., fun b s _ hlit hleft => ?_⟩
  rw [WalkPhase.next]
  split_ifs with hb
  · exact ((Resumes.snappyTag (Nat.lt_succ_self _)).reaches rfl hlit).of_run rfl
  · exact (Resumes.snappyPreamble (by omega)).reaches rfl hlit

theorem snappyLoop_succ (x : Rd Unit) (o : Nat) : snappyLoop x (o + 1) = copyByte >>= fun tag =>
    if tag.toNat % 4 = 0 then
      snappyLength (tag.toNat / 4) >>= fun n => literalSlots x n >>= fun _ => snappyLoop x o
    else copyBytes (copyTokenBytes (tag.toNat % 4)) >>= fun _ => snappyLoop x o := by
  rw [snappyLoop, snappyToken, bind_assoc]
  refine congrArg (copyByte >>= ·) (funext fun b => ?_)
  split_ifs <;> simp

theorem snappyLength_short_run {sel : Nat} (hsel : sel < 60) (f : Nat → Rd Unit) (s : State) :
    (snappyLength sel >>= f).run.run s = (f (sel + s.params.snappyBias)).run.run s := by
  rw [snappyLength, if_pos hsel]
  rfl

theorem snappyLength_long_eq {sel : Nat} (hsel : ¬ sel < 60) (f : Nat → Rd Unit) : snappyLength sel >>= f =
    copyBytes (sel - 59) >>= fun bs => get >>= fun s => f (littleEndian bs + s.params.snappyBias) := by
  rw [snappyLength, if_neg hsel]
  simp

/-- A copy token has at least one byte behind its tag (30_encoding.md R110). -/
theorem copyTokenBytes_succ {kind : Nat} (h0 : kind ≠ 0) (h4 : kind < 4) : ∃ n, copyTokenBytes kind = n + 1 := by
  interval_cases kind
  · exact absurd rfl h0
  · exact ⟨0, rfl⟩
  · exact ⟨1, rfl⟩
  · exact ⟨3, rfl⟩

theorem snappyLoop_copies {o : Nat} (ho : left < o + 1) : Copies bias x left .snappyTag (snappyLoop x (o + 1)) := by
  refine ⟨_, snappyLoop_succ x o, fun b s hbias hlit hleft => ?_⟩
  rw [WalkPhase.next]
  split_ifs with hkind hsel
  · exact (Reaches.snappySlots (o := o) (by omega) _).of_run (by rw [snappyLength_short_run hsel, hbias])
  · obtain ⟨n, hn⟩ : ∃ n, b.toNat / 4 - 59 = n + 1 := ⟨b.toNat / 4 - 60, by omega⟩
    rw [snappyLength_long_eq hsel, hn]
    simpa using (Resumes.snappyLength (x := x) (left := s.avail) (o := o) (by omega) n 1 0).reaches rfl hlit
  · obtain ⟨n, hn⟩ := copyTokenBytes_succ hkind (Nat.mod_lt _ (by decide))
    rw [hn]
    exact (Resumes.snappyCopy (by omega) n).reaches rfl hlit

theorem snappyLength_copies {o : Nat} (ho : left < o) (n scale v : Nat) : Copies bias x left
    (.snappyLength (n + 1) scale v) (copyBytes (n + 1) >>= fun bs => get >>= fun s =>
      literalSlots x (v + littleEndian bs * scale + s.params.snappyBias) >>= fun _ => snappyLoop x o) := by
  refine ⟨_, copyBytes_succ n _, fun b s hbias hlit hleft => ?_⟩
  have hvalue (bs : List Byte) : v + littleEndian (b :: bs) * scale =
      v + b.toNat * scale + littleEndian bs * (256 * scale) := by
    rw [littleEndian]
    ring
  simp only [hvalue]
  rw [WalkPhase.next]
  rcases n with _ | n
  · rw [if_pos (Nat.le_refl _), copyBytes, pure_bind, littleEndian, Nat.zero_mul, Nat.add_zero]
    rw [← hbias]
    exact (Reaches.snappySlots (by omega) _).of_run rfl
  · rw [if_neg (by omega)]
    exact (Resumes.snappyLength (by omega) n _ _).reaches rfl hlit

theorem snappyCopy_copies {o : Nat} (ho : left < o) (n : Nat) : Copies bias x left (.snappyCopy (n + 1))
    (copyBytes (n + 1) >>= fun _ => snappyLoop x o) := by
  refine ⟨_, copyBytes_succ n _, fun b s _ hlit hleft => ?_⟩
  rw [WalkPhase.next]
  rcases n with _ | n
  · rw [if_pos (Nat.le_refl _), copyBytes, pure_bind]
    exact (Resumes.snappyTag (by omega)).reaches rfl hlit
  · rw [if_neg (by omega)]
    exact (Resumes.snappyCopy (by omega) n).reaches rfl hlit

/-- Where a structural byte is expected the walk copies one. -/
theorem Resumes.copies (h : Resumes x left p m) (hp : p.slots = 0) (bias : Nat) : Copies bias x left p m := by
  have hsucc {i : Nat} (hi : left < i) : ∃ k, i = k + 1 := ⟨i - 1, by omega⟩
  cases h with
  | lz4Token ho =>
    obtain ⟨_, rfl⟩ := hsucc ho
    exact lz4Loop_copies ho
  | lz4Extension hi ho n m =>
    obtain ⟨_, rfl⟩ := hsucc hi
    exact lz4Extension_copies hi ho n m
  | lz4Literals ho n m => exact absurd hp (Nat.succ_ne_zero n)
  | lz4Offset ho n m => exact lz4Offset_copies ho n m
  | lz4MatchExtension hi ho n =>
    obtain ⟨_, rfl⟩ := hsucc hi
    exact lz4MatchExtension_copies hi ho n
  | snappyPreamble hi =>
    obtain ⟨_, rfl⟩ := hsucc hi
    exact snappyPreamble_copies hi
  | snappyTag ho =>
    obtain ⟨_, rfl⟩ := hsucc ho
    exact snappyLoop_copies ho
  | snappyLength ho n scale v => exact snappyLength_copies ho n scale v
  | snappyLiterals ho n => exact absurd hp (Nat.succ_ne_zero n)
  | snappyCopy ho n => exact snappyCopy_copies ho n

/-! ### A literal, and what is still to do behind it (43_format_walker.md R233) -/

/-- Where `p` is expected the part `m` transforms a literal, and behind it, with fewer bits left and the slot counted as
filled, it comes to what is expected next. -/
def Fills (bias : Nat) (x : Rd Unit) (left : Nat) (p : WalkPhase) (m : Rd Unit) : Prop :=
  ∃ m₁ : Rd Unit, (∀ s : State, s.eng.lit = p.slots → m.run.run s = (x >>= fun _ => m₁).run.run s) ∧
    ∀ (b : Byte) (s : State), s.avail < left →
      ∃ m', Resumes x s.avail (p.next bias b) m' ∧ m₁.run.run s = m'.run.run s.filled

/-- What is done behind the transform of a literal when `n` slots more are still to come. -/
def fillMore (x : Rd Unit) (n : Nat) (f : Unit → Rd Unit) : Rd Unit := do
  modifyEng (fun e => { e with lit := e.lit - 1, completed := e.completed + 1 })
  slotLoop x n >>= f

theorem fillMore_run (x : Rd Unit) (n : Nat) (f : Unit → Rd Unit) (s : State) :
    (fillMore x n f).run.run s = (slotLoop x n >>= f).run.run s.filled := Rd.lift_bind_ok (modifyEng_run _ s)

theorem slotLoop_run (n : Nat) (f : Unit → Rd Unit) (hlit : s.eng.lit ≠ 0) :
    (slotLoop x (n + 1) >>= f).run.run s = (x >>= fun _ => fillMore x n f).run.run s := by
  rw [slotLoop, bind_assoc, Rd.bind_some (Rd.get_run s), if_neg hlit]
  simp only [bind_assoc, fillMore]

theorem lz4Literals_fills {o : Nat} (ho : left < o) (n m : Nat) : Fills bias x left (.lz4Literals (n + 1) m)
    (slotLoop x (n + 1) >>= fun _ => lz4Tail m >>= fun _ => lz4Loop x o) := by
  refine ⟨_, fun s hlit => slotLoop_run n _ (hlit ▸ Nat.succ_ne_zero n), fun b s hleft => ?_⟩
  rw [fillMore_run, WalkPhase.next]
  rcases n with _ | n
  · refine ⟨_, Resumes.lz4Offset (hleft.trans ho) 1 m, ?_⟩
    simp [slotLoop, lz4Tail]
  · exact ⟨_, Resumes.lz4Literals (hleft.trans ho) n m, rfl⟩

theorem snappyLiterals_fills {o : Nat} (ho : left < o) (n : Nat) : Fills bias x left (.snappyLiterals (n + 1))
    (slotLoop x (n + 1) >>= fun _ => snappyLoop x o) := by
  refine ⟨_, fun s hlit => slotLoop_run n _ (hlit ▸ Nat.succ_ne_zero n), fun b s hleft => ?_⟩
  rw [fillMore_run, WalkPhase.next]
  rcases n with _ | n
  · exact ⟨_, Resumes.snappyTag (hleft.trans ho), by simp [slotLoop]⟩
  · exact ⟨_, Resumes.snappyLiterals (hleft.trans ho) n, rfl⟩

/-- Where a literal is expected the walk transforms one. -/
theorem Resumes.fills (h : Resumes x left p m) (hp : p.slots ≠ 0) (bias : Nat) : Fills bias x left p m := by
  cases h with
  | lz4Literals ho n m => exact lz4Literals_fills ho n m
  | snappyLiterals ho n => exact snappyLiterals_fills ho n
  | _ => exact absurd rfl hp

/-! ### One item after the other -/

/-- A walk carries the item that is expected; behind it the walk still has to do what is expected next. -/
theorem Resumes.item (h : Resumes x left p m) (bias : Nat) (b : Byte) : ∃ f : Byte → Rd Unit,
    (∀ s : State, s.eng.lit = p.slots → m.run.run s = (p.item x b >>= f).run.run s) ∧
    ∀ s : State, s.params.snappyBias = bias → s.eng.lit = p.slots → s.avail < left →
      ∃ m', Resumes x s.avail (p.next bias b) m' ∧
        (f b).run.run s = m'.run.run { s with eng := s.eng.past bias p b } := by
  by_cases hp : p.slots = 0
  · obtain ⟨f, rfl, hf⟩ := h.copies hp bias
    refine ⟨f, fun s _ => by rw [WalkPhase.item_structural hp], fun s hbias hlit hleft => ?_⟩
    rw [← State.asked_past hp]
    exact hf b s hbias (hlit.trans hp) hleft
  · obtain ⟨m₁, hm, hnext⟩ := h.fills hp bias
    refine ⟨fun _ => m₁, fun s hlit => ?_, fun s _ hlit hleft => ?_⟩
    · rw [hm s hlit, WalkPhase.item_literal hp, bind_assoc]
      rfl
    · rw [← State.filled_past hp hlit]
      exact hnext b s hleft

end

end Sys2Proof.Machine
end

section
/-! SUPPORT. Proofs: The items of a walk carried from the source to the destination -/

namespace Sys2Proof.Machine

/-! ### A part that carries an item, and the ways in which it ends (20_memory.md R64, R65, 40_bitstream.md R145) -/

/-- With the source accessible up to byte `f`, the part `m` reads `u`, writes `v`, all or nothing, and answers `a`; or
ends where `v` cannot be written; or, with nothing written, at source byte `f`. -/
structure Carries {α : Type} (s : State) (f : Nat) (m : Rd α) (a : α) (u v : Bits) : Prop where
  whole {r : Nat} {w rest : Bits} {e : Engine} : w.length ≤ 8 * s.dstCap.toNat → s.Left r (u ++ rest) →
    r + u.length ≤ 8 * f → s.stopAt w.length [v] = none →
    m.run.run (s.working r w e) = .ok (some a) (s.working (r + u.length) (w ++ v) e)
  stops {r : Nat} {w rest : Bits} {e : Engine} {q : Nat} {err : Raised} : w.length ≤ 8 * s.dstCap.toNat →
    s.Left r (u ++ rest) → r + u.length ≤ 8 * f → s.stopAt w.length [v] = some (q, err) →
    m.run.run (s.working r w e) = .error err (s.working (r + u.length) ((w ++ v).take q) e)
  shut {r : Nat} {w rest : Bits} {e : Engine} : w.length ≤ 8 * s.dstCap.toNat → s.Left r (u ++ rest) → r ≤ 8 * f →
    8 * f < r + u.length → m.run.run (s.working r w e) = .error (.bus (s.srcAddr.toNat + f)) (s.working (8 * f) w e)

section
variable {α β : Type} {s : State} {f r : Nat} {w rest : Bits} {e : Engine} {a : α} {u v : Bits}

/-- Nothing to write can always be written. -/
theorem State.stopAt_empty (hw : w.length ≤ 8 * s.dstCap.toNat) : s.stopAt w.length [[]] = none :=
  State.stopAt_eq_none (by simpa using hw) (by simp)

/-- A part that writes nothing is kept by nothing from answering. -/
theorem Carries.reads {m : Rd α} (hm : Carries s f m a u []) (hw : w.length ≤ 8 * s.dstCap.toNat)
    (hleft : s.Left r (u ++ rest)) (hr : r + u.length ≤ 8 * f) :
    m.run.run (s.working r w e) = .ok (some a) (s.working (r + u.length) w e) := by
  have hrun := hm.whole (e := e) hw hleft hr (State.stopAt_empty hw)
  rwa [List.append_nil] at hrun

/-- A part that reads, then one that writes. -/
theorem Carries.bind {m : Rd α} {g : α → Rd β} {c : β} (hm : Carries s f m a u []) (hg : Carries s f (g a) c [] v) :
    Carries s f (m >>= g) c u v where
  whole hw hleft hr hnone := (Rd.bind_some (hm.reads hw hleft hr)).trans (hg.whole hw hleft.drop hr hnone)
  stops hw hleft hr hstop := (Rd.bind_some (hm.reads hw hleft hr)).trans (hg.stops hw hleft.drop hr hstop)
  shut hw hleft hr hf := Rd.bind_error (hm.shut hw hleft hr hf)

/-- What a part answers may be put in its place. -/
theorem Carries.answer {m : Rd α} (hm : Carries s f m a u v) (c : β) : Carries s f (m >>= fun _ => pure c) c u v where
  whole hw hleft hr hnone := (Rd.bind_some (hm.whole hw hleft hr hnone)).trans (Rd.pure_run c _)
  stops hw hleft hr hstop := Rd.bind_error (hm.stops hw hleft hr hstop)
  shut hw hleft hr hf := Rd.bind_error (hm.shut hw hleft hr hf)

theorem writeString_carries (h : Buffers s) (v : Bits) : Carries s f (liftM (writeString v)) () [] v where
  whole hw _ _ hnone := Rd.lift_ok (writeString_working_whole h hw hnone).1
  stops hw _ _ hstop := Rd.lift_error (writeString_working_stops h hw hstop)
  shut _ _ hr hf := absurd hr (Nat.not_le.2 hf)

theorem writeCode_carries (h : Buffers s) (t : Fin 16) (x : Nat) :
    Carries s f (liftM (writeCode t x)) () [] ((s.slot t).code x) where
  whole hw _ _ hnone := Rd.lift_ok ((writeCode_run t x _).trans (writeString_working_whole h hw hnone).1)
  stops hw _ _ hstop := Rd.lift_error ((writeCode_run t x _).trans (writeString_working_stops h hw hstop))
  shut _ _ hr hf := absurd hr (Nat.not_le.2 hf)

/-- A part that writes nothing is kept by nothing from writing. -/
theorem Carries.of_read {m : Rd α}
    (whole : ∀ {r : Nat} {w rest : Bits} {e : Engine}, w.length ≤ 8 * s.dstCap.toNat → s.Left r (u ++ rest) →
      r + u.length ≤ 8 * f → m.run.run (s.working r w e) = .ok (some a) (s.working (r + u.length) w e))
    (shut : ∀ {r : Nat} {w rest : Bits} {e : Engine}, w.length ≤ 8 * s.dstCap.toNat → s.Left r (u ++ rest) →
      r ≤ 8 * f → 8 * f < r + u.length →
      m.run.run (s.working r w e) = .error (.bus (s.srcAddr.toNat + f)) (s.working (8 * f) w e)) :
    Carries s f m a u [] where
  whole hw hleft hr _ := by rw [List.append_nil, whole hw hleft hr]
  stops hw _ _ hstop := by rw [State.stopAt_empty hw] at hstop; cases hstop
  shut := shut

/-- The bits left are those past RPOS. -/
theorem State.Left.avail (h : Buffers s) (hleft : s.Left r u) (w : Bits) (e : Engine) :
    (s.working r w e).avail = u.length := by
  have hlen := hleft.length
  have hsrc := h.source
  rw [State.avail, State.working_rpos, State.working_srcLen, word_toNat (by omega)]
  omega

variable (h : Opened s f) (hsrc : s.sourceOk = true)
include h hsrc

theorem readByte_carries (b : Byte) : Carries s f readByte b (natBits 8 b.toNat) [] := by
  refine .of_read (fun hw hleft hr => ?_) (fun {r w rest e} hw hleft hr hf => ?_)
  · exact readByte_working h hsrc hw hleft hr
  · have hlen := hleft.length
    have havail := hleft.avail h.toBuffers w e
    have hsmall := h.source
    rw [List.length_append, natBits_length] at hlen havail
    rw [natBits_length] at hf
    have hpos : (word r).toNat = r := word_toNat (by omega)
    have hstop := readByte_stops (s := s.working r w e) hsrc (by omega) (by omega)
      (h.readStopsAt hsrc (by omega) (Nat.add_sub_cancel' hr))
    rwa [State.working_skip, State.working_rpos, hpos, Nat.add_sub_cancel' hr,
      Nat.mul_div_cancel_left _ (by decide)] at hstop

/-- A structural byte (43_format_walker.md R231). -/
theorem copyByte_carries (b : Byte) : Carries s f copyByte b (natBits 8 b.toNat) (natBits 8 b.toNat) :=
  (readByte_carries h hsrc b).bind ((writeString_carries h.toBuffers _).answer b)

theorem xformPass_carries (b : Byte) : Carries s f xformPass () (natBits 8 b.toNat) (natBits 8 b.toNat) :=
  (readByte_carries h hsrc b).bind (writeString_carries h.toBuffers _)

theorem xformComp_carries (t : Fin 16) (b : Byte) :
    Carries s f (xformComp t) () (natBits 8 b.toNat) ((s.slot t).code b.toNat) :=
  (readByte_carries h hsrc b).bind (writeCode_carries h.toBuffers t _)

omit h hsrc in
/-- No code ends inside another. -/
theorem PrefixFree.not_prefix_take {codes : List Bits} (hpf : PrefixFree codes) {c u : Bits} (hu : u ∈ codes)
    (hc : c ∈ codes) {n : Nat} (hn : n < u.length) : ¬ c <+: u.take n := fun hprefix => by
  have hne : c ≠ u := fun heq => by
    have hle := hprefix.length_le
    rw [heq, List.length_take] at hle
    omega
  exact hpf.not_mem_of_prefix hu (hprefix.trans (List.take_prefix _ _)) hne hc

variable {k : Fin 16} (hpf : PrefixFree (s.slot k).codes)
include hpf

theorem decodeNext_carries {y : Nat} (hy : y < (s.slot k).codes.length) :
    Carries s f (decodeNext k) y ((s.slot k).code y) [] := by
  have hmem : (s.slot k).code y ∈ (s.slot k).codes := by
    rw [Slot.code, List.getD_eq_getElem _ _ hy]
    exact List.getElem_mem hy
  refine .of_read (fun {r w rest e} hw hleft hr => ?_) (fun {r w rest e} hw hleft hr hf => ?_)
  · have hnext : (s.slot k).code y <+: (s.working r w e).sourceRest := by
      rw [hleft.working_rest h.toBuffers hw]
      exact List.prefix_append _ _
    rw [← State.working_skip]
    exact decodeNext_whole (s := s.working r w e) hpf hy (h.canRead hsrc hr) hnext
  · have hlen := hleft.length
    rw [List.length_append] at hlen
    refine decodeNext_working_stops h hsrc (by omega) hw hr fun c hc => ?_
    rw [hleft.2, List.take_append_of_le_length (by omega)]
    exact hpf.not_prefix_take hmem hc (by omega)

theorem xformDecomp_carries (hlen : 256 ≤ (s.slot k).codes.length) (b : Byte) :
    Carries s f (xformDecomp k) () ((s.slot k).code b.toNat) (natBits 8 b.toNat) := by
  have hb : b.toNat < 256 := b.isLt
  refine (decodeNext_carries h hsrc hpf (hb.trans_le hlen)).bind ?_
  rw [if_neg (Nat.not_le.2 hb), byte_toNat_self]
  exact writeString_carries h.toBuffers _

end

/-! ### Where no further item can be read (43_format_walker.md R232, R234, R240) -/

section
variable {s : State} (h : Buffers s) {r : Nat} {w rest : Bits} {e : Engine}
include h

/-- Fewer than eight bits are left: no byte is read. -/
theorem readByte_runs_out (hleft : s.Left r rest) (hrest : rest.length < 8) :
    readByte.run.run (s.working r w e) = .ok none (s.working r w e) :=
  readByte_short (by rwa [hleft.avail h])

variable (hw : w.length ≤ 8 * s.dstCap.toNat) {k : Fin 16}
include hw

/-- No code comes: every bit left is consumed. -/
theorem xformDecomp_runs_out (hopen : s.sourceOpen = true) (hsrc : s.sourceOk = true) (hleft : s.Left r rest)
    (hno : ∀ c ∈ (s.slot k).codes, ¬ c <+: rest) :
    (xformDecomp k).run.run (s.working r w e) = .ok none (s.working (r + rest.length) w e) := by
  have hcount := hleft.length
  have hread : (s.working r w e).canRead rest.length = true := (Opened.of_open h hopen).canRead hsrc (by omega)
  have hrun := decodeNext_truncated (s := s.working r w e) (k := k) (by rwa [hleft.avail h])
    (by rwa [hleft.working_rest h hw])
  rw [hleft.avail h, State.working_skip] at hrun
  exact Rd.bind_none hrun

/-- The sentinel's code comes: it is consumed, and is no byte. -/
theorem xformDecomp_sentinel (hopen : s.sourceOpen = true) (hsrc : s.sourceOk = true) (hleft : s.Left r rest)
    (hpf : PrefixFree (s.slot k).codes) (hlen : (s.slot k).codes.length = 257)
    (hcode : (s.slot k).code sentinel <+: rest) :
    (xformDecomp k).run.run (s.working r w e) = .ok none (s.working (r + (s.slot k).codeLen sentinel) w e) := by
  obtain ⟨rest, rfl⟩ := hcode
  have hcount := hleft.length
  rw [List.length_append] at hcount
  have hdecode := decodeNext_carries (Opened.of_open h hopen) hsrc hpf (y := sentinel) (by rw [hlen]; decide)
  rw [xformDecomp, Rd.bind_some (hdecode.reads hw hleft (by omega))]
  rfl

end

end Sys2Proof.Machine
end

section
/-! SUPPORT. Proofs: The walks of any stream -/

namespace Sys2Proof.Machine

/-! ### Streams of items (43_format_walker.md R230) -/

section
variable {bias : Nat} {code : Byte → Bits}

theorem walkUnits_append (p : WalkPhase) (xs ys : List Byte) : walkUnits bias code p (xs ++ ys) =
    walkUnits bias code p xs ++ walkUnits bias code (walkEnd bias p xs) ys := by
  simp only [walkUnits, walkItems_append, List.map_append]

theorem walkUnits_take (p : WalkPhase) (xs : List Byte) (n : Nat) :
    (walkUnits bias code p xs).take n = walkUnits bias code p (xs.take n) := by
  rw [walkUnits, walkUnits, ← List.map_take]
  congr 1
  induction xs generalizing p n with
  | nil => simp
  | cons b bs ih => cases n <;> simp [ih]

/-- The unit behind those of `xs`. -/
theorem walkUnits_concat (p : WalkPhase) (xs : List Byte) (b : Byte) : (walkUnits bias code p (xs ++ [b])).flatten =
    (walkUnits bias code p xs).flatten ++ (walkEnd bias p xs).unit code b := by
  rw [walkUnits_append, walkUnits_cons, List.flatten_append, List.flatten_cons]
  simp [walkUnits]

end

/-! ### A walk up to the item that ends it -/

section
variable {s : State} {f : Nat} {x : Rd Unit} {src dst : Byte → Bits}

/-- With the source accessible up to byte `f`, the transform `x` carries each literal byte from the bits `src`, of which
there are some, to the bits `dst`. -/
structure Transports (s : State) (f : Nat) (x : Rd Unit) (src dst : Byte → Bits) : Prop extends Opened s f where
  sourceOk : s.sourceOk = true
  carries : ∀ b, Carries s f x () (src b) (dst b)
  nonempty : ∀ b, src b ≠ []

variable (hx : Transports s f x src dst)
include hx

/-- A structural byte is carried as it is, a literal by the transform. -/
theorem Transports.item (p : WalkPhase) (b : Byte) :
    Carries s f (p.item x b) b (p.unit src b) (p.unit dst b) := by
  by_cases hp : p.slots = 0
  · simpa [WalkPhase.item, WalkPhase.unit, hp] using copyByte_carries hx.toOpened hx.sourceOk b
  · simpa [WalkPhase.item, WalkPhase.unit, hp] using (hx.carries b).answer b

theorem Transports.unit_pos (p : WalkPhase) (b : Byte) : 0 < (p.unit src b).length := by
  rw [WalkPhase.unit]
  split_ifs
  · simp
  · exact List.length_pos_iff.2 (hx.nonempty b)

variable {bias : Nat} (hbias : s.params.snappyBias = bias)
include hbias

/-- A walk gets past the bytes whose items can be read and written. -/
theorem Resumes.past {bs : List Byte} {p : WalkPhase} {m : Rd Unit} {r : Nat} {w rest : Bits} {e : Engine}
    (hm : Resumes x ((walkUnits bias src p bs).flatten ++ rest).length p m) (he : e.lit = p.slots)
    (hleft : s.Left r ((walkUnits bias src p bs).flatten ++ rest))
    (hr : r + (walkUnits bias src p bs).flatten.length ≤ 8 * f) (hw : w.length ≤ 8 * s.dstCap.toNat)
    (hnone : s.stopAt w.length (walkUnits bias dst p bs) = none) :
    ∃ m', Resumes x rest.length (walkEnd bias p bs) m' ∧
      m.run.run (s.working r w e) = m'.run.run (s.working (r + (walkUnits bias src p bs).flatten.length)
        (w ++ (walkUnits bias dst p bs).flatten) (e.walked bias p bs)) := by
  induction bs generalizing p m r w e with
  | nil => exact ⟨m, hm, by simp [walkUnits, Engine.walked]⟩
  | cons b bs ih =>
    have hunit := hx.unit_pos p b
    rw [walkUnits_cons, List.flatten_cons] at hm hleft hr ⊢
    rw [walkUnits_cons, State.stopAt_cons, Option.or_eq_none_iff, ← List.length_append] at hnone
    rw [List.length_append] at hr
    rw [List.append_assoc] at hm hleft
    obtain ⟨hfirst, hothers⟩ := hnone
    have hfit := (State.stopAt_none hfirst hw).1
    rw [List.flatten_singleton, ← List.length_append] at hfit
    obtain ⟨g, hstart, hnext⟩ := hm.item bias b
    have hitem := (hx.item p b).whole (e := e) hw hleft (by omega) hfirst
    have hrest := hleft.drop
    have havail := hrest.avail hx.toBuffers (w ++ p.unit dst b) e
    obtain ⟨m₁, hm₁, hrun⟩ := hnext (s.working (r + (p.unit src b).length) (w ++ p.unit dst b) e) hbias he
      (by rw [havail, List.length_append (as := p.unit src b)]; omega)
    obtain ⟨m', hm', hrun'⟩ := ih (e := e.past bias p b) (havail ▸ hm₁) rfl hrest (by omega) hfit hothers
    refine ⟨m', hm', ?_⟩
    rw [hstart _ he, Rd.bind_some hitem, hrun]
    refine hrun'.trans ?_
    rw [walkUnits_cons, List.flatten_cons, List.length_append, Nat.add_assoc, List.append_assoc]
    rfl

end

/-! ### The walk commands (43_format_walker.md R241, R242) -/

theorem walkLz4_reaches (x : Rd Unit) {s : State} (hlit : s.eng.lit = 0) : Reaches x .lz4Token (walkLz4 x) s :=
  ((Resumes.lz4Token (Nat.lt_succ_self _)).reaches rfl hlit).of_run rfl

theorem walkSnappy_reaches (x : Rd Unit) {s : State} (hlit : s.eng.lit = 0) :
    Reaches x .snappyPreamble (walkSnappy x) s :=
  ((Resumes.snappyPreamble (Nat.lt_succ_self _)).reaches rfl hlit).of_run rfl

/-- Past its checks the command `i` walks the source, `p` being expected first, with the transform `x`. -/
def Walks (i : Instr) (s : State) (p : WalkPhase) (x : Rd Unit) : Prop :=
  p.slots = 0 ∧ ∃ walk : Rd Unit, Reaches x p walk (s.working 0 [] Engine.idle) ∧
    ∃ m : Eng Unit, exec i s = runCommand m s ∧ m.run s = (walkBody walk).run (s.working 0 [] Engine.idle)

/-- RES1 and RES2 report the counters of a stream's bytes (43_format_walker.md R233, R242). -/
def State.counted (s : State) (bias : Nat) (p : WalkPhase) (xs : List Byte) : State :=
  { s with res1 := word (walkRequested bias p xs), res2 := word (walkCompleted bias p xs) }

section
variable {s : State} (hok : s.buffersOk = true)
include hok

theorem inspectCommand_run (walk : Rd Unit) :
    (inspectCommand walk).run s = (walkBody walk).run (s.working 0 [] Engine.idle) := by
  rw [inspectCommand, Eng.bind_ok (checkBuffers_ok hok), Eng.bind_ok (startHighLevel_working s)]

theorem tableWalkCommand_run {t : Fin 16} (hfinal : (s.slot t).final = true) (hsize : 256 ≤ (s.slot t).alpha.size)
    (walk : Rd Unit) : (tableWalkCommand t walk).run s = (walkBody walk).run (s.working 0 [] Engine.idle) := by
  have hbytes : (checkByteTable t).run s = .ok () s := require_ok (by simpa using hsize)
  rw [tableWalkCommand, Eng.bind_ok (checkBuffers_ok hok), Eng.bind_ok (checkBuilt_ok hfinal), Eng.bind_ok hbytes,
    Eng.bind_ok (startHighLevel_working s)]

omit hok in
/-- The table that a walk command uses is FINAL and has every byte's code (60_exceptions.md R325 code 8). -/
theorem tableReady_walk {i : Instr} {t : Fin 16} (htable : codeTable i = some (t, fun a => decide (256 ≤ a.size)))
    (hready : tableReady i s = true) : (s.slot t).final = true ∧ 256 ≤ (s.slot t).alpha.size := by
  simpa [tableReady, htable] using hready

/-- Each walk of a plain stream has a transform that begins with a byte of the source and carries that byte. -/
theorem plainWalk_walks {i : Instr} (hready : tableReady i s = true) {p : WalkPhase} {code : Byte → Bits}
    (hplain : plainWalk s i = some (p, code)) : ∃ g : Byte → Rd Unit, Walks i s p (readByte >>= g) ∧
      ∀ f, Opened s f → Transports s f (readByte >>= g) (fun b => natBits 8 b.toNat) code := by
  have hsrc := (s.buffersOk_iff.1 hok).1
  have hbyte (b : Byte) : natBits 8 b.toNat ≠ [] := List.ne_nil_of_length_pos (by rw [natBits_length]; decide)
  unfold plainWalk at hplain
  split at hplain <;> cases hplain
  · exact ⟨_, ⟨rfl, _, walkLz4_reaches xformPass rfl, _, rfl, inspectCommand_run hok _⟩,
      fun _ h => ⟨h, hsrc, xformPass_carries h hsrc, hbyte⟩⟩
  · exact ⟨_, ⟨rfl, _, walkSnappy_reaches xformPass rfl, _, rfl, inspectCommand_run hok _⟩,
      fun _ h => ⟨h, hsrc, xformPass_carries h hsrc, hbyte⟩⟩
  · obtain ⟨hfinal, hsize⟩ := tableReady_walk rfl hready
    exact ⟨_, ⟨rfl, _, walkLz4_reaches (xformComp _) rfl, _, rfl, tableWalkCommand_run hok hfinal hsize _⟩,
      fun _ h => ⟨h, hsrc, xformComp_carries h hsrc _, hbyte⟩⟩
  · obtain ⟨hfinal, hsize⟩ := tableReady_walk rfl hready
    exact ⟨_, ⟨rfl, _, walkSnappy_reaches (xformComp _) rfl, _, rfl, tableWalkCommand_run hok hfinal hsize _⟩,
      fun _ h => ⟨h, hsrc, xformComp_carries h hsrc _, hbyte⟩⟩

/-- Each walk of a compressed stream has the transform that carries a code to its byte. -/
theorem codedWalk_walks {i : Instr} (hready : tableReady i s = true) {p : WalkPhase} {k : Fin 16}
    (hcoded : codedWalk i = some (p, k)) (hpf : PrefixFree (s.slot k).codes)
    (hlen : (s.slot k).codes.length = (s.slot k).alpha.size) : Walks i s p (xformDecomp k) ∧
      ∀ f, Opened s f →
        Transports s f (xformDecomp k) (fun b => (s.slot k).code b.toNat) (fun b => natBits 8 b.toNat) := by
  have hsrc := (s.buffersOk_iff.1 hok).1
  have hcarries (hsize : 256 ≤ (s.slot k).alpha.size) (f : Nat) (h : Opened s f) :
      Transports s f (xformDecomp k) (fun b => (s.slot k).code b.toNat) (fun b => natBits 8 b.toNat) := by
    rw [← hlen] at hsize
    refine ⟨h, hsrc, xformDecomp_carries h hsrc hpf hsize, fun b => ?_⟩
    rw [Slot.code, List.getD_eq_getElem _ _ (b.isLt.trans_le hsize)]
    exact hpf.1 _ (List.getElem_mem _)
  unfold codedWalk at hcoded
  split at hcoded <;> cases hcoded
  · obtain ⟨hfinal, hsize⟩ := tableReady_walk rfl hready
    exact ⟨⟨rfl, _, walkLz4_reaches _ rfl, _, rfl, tableWalkCommand_run hok hfinal hsize _⟩, hcarries hsize⟩
  · obtain ⟨hfinal, hsize⟩ := tableReady_walk rfl hready
    exact ⟨⟨rfl, _, walkSnappy_reaches _ rfl, _, rfl, tableWalkCommand_run hok hfinal hsize _⟩, hcarries hsize⟩

end

section
variable {s : State} (h : Buffers s) {walk : Rd Unit} {r : Nat} {w : Bits} {e : Engine}
  (hw : w.length ≤ 8 * s.dstCap.toNat)
include h hw

/-- A walk that an error ends reports its counters and the bytes begun. -/
theorem walkBody_error {err : Raised}
    (hwalk : walk.run.run (s.working 0 [] Engine.idle) = .error err (s.working r w e)) :
    (walkBody walk).run (s.working 0 [] Engine.idle) = .error err
      { s.working r w e with
        res0 := word ((w.length + 7) / 8), res1 := word e.requested, res2 := word e.completed } := by
  have hcap := h.dest
  have hbytes : (s.working r w e).outputBytes = (w.length + 7) / 8 := by
    rw [State.outputBytes, State.working_wpos, word_toNat (by omega)]
  rw [walkBody, reporting_error (Eng.bind_error hwalk), walkReport, hbytes]
  rfl

/-- A walk that stops is closed, and its counters are reported. -/
theorem walkBody_stops
    (hmem : ∀ i < w.length, memOk s.params (s.dstAddr.toNat + i / 8) = true)
    (hwalk : walk.run.run (s.working 0 [] Engine.idle) = .ok none (s.working r w e)) :
    (walkBody walk).run (s.working 0 [] Engine.idle) = .ok ()
      { s.working r (padded w) e with
        res0 := word ((padded w).length / 8), res1 := word e.requested, res2 := word e.completed } := by
  have hclose := close_working (r := r) (e := e) h hw hmem
  refine reporting_ok ?_
  rw [Eng.bind_ok hwalk, Eng.bind_ok hclose, Eng.bind_ok (setRes0_run _ _), Eng.bind_ok (Eng.get_run _),
    Eng.bind_ok (setRes1_run _ _), Eng.bind_ok (Eng.get_run _), setRes2_run]
  rfl

end

/-! ### How a walk command ends (43_format_walker.md R234, R242, 60_exceptions.md R329) -/

section
variable {i : Instr} {s : State} {f bias : Nat} {p : WalkPhase} {x : Rd Unit} {src dst : Byte → Bits}
  (hx : Transports s f x src dst) (hbias : s.params.snappyBias = bias) (hwalks : Walks i s p x)

section
variable {xs : List Byte} (hread : (walkUnits bias src p xs).flatten <+: s.sourceStream)
  (hr : (walkUnits bias src p xs).flatten.length ≤ 8 * f) (hnone : s.stopAt 0 (walkUnits bias dst p xs) = none)
include hx hbias hwalks hread hr hnone

/-- The command comes to the item behind those of `xs`, and then ends as its walk does. -/
theorem Walks.past (b : Byte) : ∃ (walk : Rd Unit) (g : Byte → Rd Unit) (cmd : Eng Unit),
    exec i s = runCommand cmd s ∧ cmd.run s = (walkBody walk).run (s.working 0 [] Engine.idle) ∧
    walk.run.run (s.working 0 [] Engine.idle) = ((walkEnd bias p xs).item x b >>= g).run.run
      (s.working (walkUnits bias src p xs).flatten.length (walkUnits bias dst p xs).flatten
        (Engine.idle.walked bias p xs)) := by
  obtain ⟨hp, walk, ⟨m, hm, hwalk⟩, cmd, hexec, hcmd⟩ := hwalks
  obtain ⟨rest, hrest⟩ := hread
  have hleft : s.Left 0 ((walkUnits bias src p xs).flatten ++ rest) := hrest ▸ State.Left.start s
  rw [hleft.avail hx.toBuffers] at hm
  rw [hp, State.asked_zero rfl] at hwalk
  obtain ⟨m', hm', hrun⟩ := hm.past hx hbias (e := Engine.idle) (w := []) hp.symm hleft (by omega)
    (Nat.zero_le _) hnone
  obtain ⟨g, hstart, -⟩ := hm'.item bias b
  rw [Nat.zero_add, List.nil_append, hstart _ (Engine.walked_lit xs hp.symm)] at hrun
  exact ⟨walk, g, cmd, hexec, hcmd, hwalk.trans hrun⟩

/-- The command ends with the error of the item behind those of `xs`. -/
theorem Walks.fails (b : Byte) {r : Nat} {w : Bits} {err : Raised} (hw : w.length ≤ 8 * s.dstCap.toNat)
    (hitem : ∀ e, ((walkEnd bias p xs).item x b).run.run (s.working (walkUnits bias src p xs).flatten.length
      (walkUnits bias dst p xs).flatten e) = .error err (s.working r w e)) :
    failsWith i s err ((s.produced r w ((w.length + 7) / 8)).counted bias p xs) := by
  obtain ⟨walk, g, cmd, hexec, hcmd, hwalk⟩ := hwalks.past hx hbias hread hr hnone b
  have hend := runCommand_error (hcmd.trans (walkBody_error hx.toBuffers hw (hwalk.trans (Rd.bind_error (hitem _)))))
  rw [← hexec, Engine.idle_walked_requested, Engine.idle_walked_completed] at hend
  exact hend

/-- The command succeeds where the item behind those of `xs` cannot be read. -/
theorem Walks.completes (b : Byte) {r : Nat}
    (hitem : ∀ e, ((walkEnd bias p xs).item x b).run.run (s.working (walkUnits bias src p xs).flatten.length
      (walkUnits bias dst p xs).flatten e) = .ok none (s.working r (walkUnits bias dst p xs).flatten e)) :
    succeeds i s ((s.produced r (padded (walkUnits bias dst p xs).flatten)
      ((padded (walkUnits bias dst p xs).flatten).length / 8)).counted bias p xs) := by
  obtain ⟨walk, g, cmd, hexec, hcmd, hwalk⟩ := hwalks.past hx hbias hread hr hnone b
  obtain ⟨hfit, hmem⟩ := State.stopAt_none hnone (Nat.zero_le _)
  have hend := runCommand_ok (hcmd.trans
    (walkBody_stops hx.toBuffers (by omega) (by simpa using hmem) (hwalk.trans (Rd.bind_none (hitem _)))))
  rw [← hexec, Engine.idle_walked_requested, Engine.idle_walked_completed] at hend
  exact hend

end

/-- The items of a stream stand in the source one behind the other. -/
theorem State.Left.of_items {ys zs : List Byte} {b : Byte}
    (hread : (walkUnits bias src p (ys ++ b :: zs)).flatten <+: s.sourceStream) :
    (walkUnits bias src p ys).flatten <+: s.sourceStream ∧
      ∃ rest, s.Left (walkUnits bias src p ys).flatten.length ((walkEnd bias p ys).unit src b ++ rest) := by
  rw [walkUnits_append, walkUnits_cons, List.flatten_append, List.flatten_cons] at hread
  obtain ⟨rest, hrest⟩ := hread
  rw [List.append_assoc, List.append_assoc] at hrest
  have hleft := (hrest ▸ State.Left.start s : s.Left 0 _).drop
  rw [Nat.zero_add] at hleft
  exact ⟨⟨_, hrest⟩, _, hleft⟩

/-- Where an item of a stream reaches past bit `q` and those before it do not, the item is one of the stream's. -/
theorem lt_length_of_items {xs : List Byte} {n q : Nat} (hle : (walkUnits bias src p (xs.take n)).flatten.length ≤ q)
    (hlt : q < (walkUnits bias src p (xs.take (n + 1))).flatten.length) : n < xs.length := by
  by_contra hall
  rw [List.take_of_length_le (by omega)] at hle hlt
  omega

/-- A stream's bytes up to the one at `n`, that one, and the others. -/
theorem exists_split {xs : List Byte} {n : Nat} (hn : n < xs.length) : ∃ ys b zs, xs = ys ++ b :: zs ∧ ys.length = n :=
  ⟨xs.take n, xs[n], xs.drop (n + 1), by rw [← List.drop_eq_getElem_cons hn, List.take_append_drop],
    List.length_take_of_le hn.le⟩

theorem take_split (ys : List Byte) (b : Byte) (zs : List Byte) : (ys ++ b :: zs).take (ys.length + 1) = ys ++ [b] := by
  simp [List.take_append]

/-- Writing a stream's items stops at the item of one byte. -/
theorem State.writeStop_item {xs : List Byte} {n q : Nat} {err : Raised}
    (hstop : s.writeStop (walkUnits bias dst p xs) = some (n, q, err)) :
    ∃ ys b zs, xs = ys ++ b :: zs ∧ ys.length = n ∧ s.stopAt 0 (walkUnits bias dst p ys) = none ∧
      s.stopAt (walkUnits bias dst p ys).flatten.length [(walkEnd bias p ys).unit dst b] = some (q, err) ∧
      (walkUnits bias dst p xs).flatten.take q =
        ((walkUnits bias dst p ys).flatten ++ (walkEnd bias p ys).unit dst b).take q := by
  obtain ⟨us, u, vs, hsplit, rfl, hus, hu⟩ := State.writeStop_split hstop
  have hbits := flatten_take (vs := vs) hus hu
  rw [← hsplit] at hbits
  have hlen := congrArg List.length hsplit
  rw [walkUnits_length, List.length_append, List.length_cons] at hlen
  obtain ⟨ys, b, zs, rfl, hys⟩ := exists_split (xs := xs) (n := us.length) (by omega)
  rw [walkUnits_append, walkUnits_cons] at hsplit
  obtain ⟨rfl, htail⟩ := List.append_inj hsplit (by rw [walkUnits_length, hys])
  obtain ⟨rfl, -⟩ := List.cons_eq_cons.1 htail
  exact ⟨ys, b, zs, rfl, hys, hus, hu, hbits⟩

include hx hbias hwalks

/-- The command ends at the first item that cannot be written. -/
theorem Walks.fails_writing (hf : f = s.srcLen.toNat) {xs : List Byte}
    (hread : (walkUnits bias src p xs).flatten <+: s.sourceStream) {n q : Nat} {err : Raised}
    (hstop : s.writeStop (walkUnits bias dst p xs) = some (n, q, err)) :
    failsWith i s err ((s.produced (walkUnits bias src p (xs.take (n + 1))).flatten.length
      ((walkUnits bias dst p xs).flatten.take q) ((q + 7) / 8)).counted bias p (xs.take n)) := by
  obtain ⟨ys, b, zs, rfl, rfl, hnone, hitem, hbits⟩ := State.writeStop_item hstop
  obtain ⟨hbefore, rest, hleft⟩ := State.Left.of_items hread
  have hroom := State.stopAt_room hnone
  obtain ⟨htake, hcap⟩ := State.stopAt_length hroom hitem
  have hcount := hleft.length
  rw [List.length_append] at hcount
  have hend := hwalks.fails hx hbias hbefore (by omega) hnone b (by rwa [htake])
    fun e => (hx.item _ b).stops hroom hleft (by omega) hitem
  rw [htake] at hend
  rwa [take_split, List.take_left, walkUnits_concat, List.length_append, hbits]

/-- The command ends at the first source byte that may not be accessed, when it is inside an item. -/
theorem Walks.fails_reading {xs : List Byte} (hread : (walkUnits bias src p xs).flatten <+: s.sourceStream) {n : Nat}
    (hle : (walkUnits bias src p (xs.take n)).flatten.length ≤ 8 * f)
    (hlt : 8 * f < (walkUnits bias src p (xs.take (n + 1))).flatten.length)
    (hnone : s.stopAt 0 (walkUnits bias dst p (xs.take n)) = none) :
    failsWith i s (.bus (s.srcAddr.toNat + f)) ((s.produced (8 * f) (walkUnits bias dst p (xs.take n)).flatten
      (((walkUnits bias dst p (xs.take n)).flatten.length + 7) / 8)).counted bias p (xs.take n)) := by
  obtain ⟨ys, b, zs, rfl, rfl⟩ := exists_split (lt_length_of_items hle hlt)
  obtain ⟨hbefore, rest, hleft⟩ := State.Left.of_items hread
  rw [List.take_left] at hle hnone ⊢
  rw [take_split, walkUnits_concat, List.length_append] at hlt
  have hroom := State.stopAt_room hnone
  exact hwalks.fails hx hbias hbefore hle hnone b hroom
    fun e => (hx.item _ b).shut hroom hleft hle hlt

end

end Sys2Proof.Machine
end

section
/-! SUPPORT. Proofs: The walk commands on any stream -/

namespace Sys2Proof.Machine

/-! ### Plain streams (43_format_walker.md R250 to R253) -/

/-- A plain stream's items are its bytes. -/
theorem byteUnits_eq_walkUnits (bias : Nat) (p : WalkPhase) (xs : List Byte) :
    byteUnits xs = walkUnits bias (fun b => natBits 8 b.toNat) p xs := (walkUnits_plain bias p xs).symm

theorem walkUnits_plain_flatten (bias : Nat) (p : WalkPhase) (xs : List Byte) :
    (walkUnits bias (fun b => natBits 8 b.toNat) p xs).flatten = bytesBits xs := by
  rw [← byteUnits_eq_walkUnits, byteUnits_flatten]

/-- With fewer than eight bits left no plain item can be read: each begins with a byte. -/
theorem plainItem_runs_out {s : State} (h : Buffers s) {r : Nat} {w rest : Bits} {e : Engine} (hleft : s.Left r rest)
    (hrest : rest.length < 8) (g : Byte → Rd Unit) (p : WalkPhase) (b : Byte) :
    (p.item (readByte >>= g) b).run.run (s.working r w e) = .ok none (s.working r w e) := by
  have hread := readByte_runs_out h (w := w) (e := e) hleft hrest
  by_cases hp : p.slots = 0
  · rw [WalkPhase.item_structural hp]
    exact Rd.bind_none hread
  · rw [WalkPhase.item_literal hp]
    exact Rd.bind_none (Rd.bind_none hread)

section
variable {s : State} {i : Instr} (hok : s.buffersOk = true) (hready : tableReady i s = true) {p : WalkPhase}
  {code : Byte → Bits} (hplain : plainWalk s i = some (p, code)) {bias : Nat} (hbias : s.params.snappyBias = bias)

theorem plainItems_prefix (s : State) (bias : Nat) (p : WalkPhase) :
    (walkUnits bias (fun b => natBits 8 b.toNat) p s.source).flatten <+: s.sourceStream := by
  rw [walkUnits_plain_flatten, s.sourceStream_eq]

theorem plainItems_take_length {n : Nat} (hn : n ≤ s.srcLen.toNat) :
    (walkUnits bias (fun b => natBits 8 b.toNat) p (s.source.take n)).flatten.length = 8 * n := by
  rw [walkUnits_plain_flatten, bytesBits_length, List.length_take_of_le (by rwa [s.source_length])]

include hok hready hplain hbias

/-- All of the source is walked, and then no byte is left. -/
theorem plainWalk_succeeds (hopen : s.sourceOpen = true) (hnone : s.writeStop (walkUnits bias code p s.source) = none) :
    succeeds i s ((s.produced (8 * s.srcLen.toNat) (padded (walkUnits bias code p s.source).flatten)
      ((padded (walkUnits bias code p s.source).flatten).length / 8)).counted bias p s.source) := by
  obtain ⟨g, hwalks, hx⟩ := plainWalk_walks hok hready hplain
  have h := Opened.of_open (Buffers.of_ok hok) hopen
  have hlen : (walkUnits bias (fun b => natBits 8 b.toNat) p s.source).flatten.length = 8 * s.srcLen.toNat := by
    rw [walkUnits_plain_flatten, bytesBits_length, s.source_length]
  have hleft : s.Left (8 * s.srcLen.toNat) [] := ⟨Nat.le_refl _, List.drop_of_length_le s.sourceStream_length.le⟩
  refine hwalks.completes (hx _ h) hbias (plainItems_prefix s bias p) hlen.le
    (State.stopAt_of_writeStop_none hnone) 0#8 fun e => ?_
  rw [hlen]
  exact plainItem_runs_out h.toBuffers hleft (by decide) g _ _

theorem plainWalk_fails_writing (hopen : s.sourceOpen = true) {n q : Nat} {err : Raised}
    (hstop : s.writeStop (walkUnits bias code p s.source) = some (n, q, err)) :
    failsWith i s err ((s.produced (8 * (n + 1)) ((walkUnits bias code p s.source).flatten.take q)
      ((q + 7) / 8)).counted bias p (s.source.take n)) := by
  obtain ⟨g, hwalks, hx⟩ := plainWalk_walks hok hready hplain
  have h := Opened.of_open (Buffers.of_ok hok) hopen
  obtain ⟨-, -, hn, -⟩ := writeStopFrom_some hstop
  rw [walkUnits_length, s.source_length] at hn
  rw [← plainItems_take_length (bias := bias) (p := p) (show n + 1 ≤ s.srcLen.toNat by omega)]
  exact hwalks.fails_writing (hx _ h) hbias rfl (plainItems_prefix s bias p) hstop

theorem plainWalk_fails_reading {f : Nat} (hshut : s.sourceShut f = true)
    (hnone : s.writeStop ((walkUnits bias code p s.source).take f) = none) :
    failsWith i s (.bus (s.srcAddr.toNat + f)) ((s.produced (8 * f) ((walkUnits bias code p s.source).take f).flatten
      ((((walkUnits bias code p s.source).take f).flatten.length + 7) / 8)).counted bias p (s.source.take f)) := by
  obtain ⟨g, hwalks, hx⟩ := plainWalk_walks hok hready hplain
  obtain ⟨h, hf⟩ := Opened.of_shut (Buffers.of_ok hok) hshut
  rw [walkUnits_take] at hnone ⊢
  exact hwalks.fails_reading (hx _ h) hbias (plainItems_prefix s bias p)
    (plainItems_take_length hf.le).le (by rw [plainItems_take_length hf]; omega) (State.stopAt_of_writeStop_none hnone)

end

/-- WK.INSPECT copies its source (43_format_walker.md R243). -/
theorem inspect_copies {s : State} {i : Instr} (hi : i = .wkInspectLz4 ∨ i = .wkInspectSnappy)
    (hready : s.ready (8 * s.srcLen.toNat) = true) :
    ∃ t, exec i s = .next t ∧ t.err = 0#8 ∧ t.mem = storeBits s.dstAddr.toNat 0 (bytesBits s.source) s.mem ∧
      t.res0 = s.srcLen ∧ t.rpos = word (8 * s.srcLen.toNat) ∧ t.wpos = word (8 * s.srcLen.toNat) := by
  obtain ⟨hok, hopen, -⟩ := State.ready_iff.1 hready
  have h := Ready.of_ready hready
  obtain ⟨p, hplain, htable⟩ : ∃ p, plainWalk s i = some (p, fun b => natBits 8 b.toNat) ∧ tableReady i s = true := by
    rcases hi with rfl | rfl
    · exact ⟨_, rfl, rfl⟩
    · exact ⟨_, rfl, rfl⟩
  have hlen : (bytesBits s.source).length = 8 * s.srcLen.toNat := by rw [bytesBits_length, s.source_length]
  have hnone : s.writeStop (walkUnits s.params.snappyBias (fun b => natBits 8 b.toNat) p s.source) = none := by
    refine Option.map_eq_none_iff.1 (State.stopAt_eq_none (pos := 0) ?_ fun q hq => ?_)
    · rw [walkUnits_plain_flatten, hlen, Nat.zero_add]
      exact h.fits
    · rw [walkUnits_plain_flatten, hlen] at hq
      rw [Nat.zero_add]
      exact h.writable q hq
  have hend := plainWalk_succeeds hok htable hplain rfl hopen hnone
  rw [walkUnits_plain_flatten, padded_bytesBits, hlen, Nat.mul_div_cancel_left _ (by decide)] at hend
  refine ⟨_, hend, by simp, rfl, ?_, rfl, congrArg word hlen⟩
  exact BitVec.eq_of_toNat_eq (word_toNat s.srcLen.isLt)

/-! ### Compressed streams (43_format_walker.md R254, R255) -/

/-- Where a decompressing walk stops no further item can be read (43_format_walker.md R232, R240). -/
theorem codedItem_runs_out {s : State} (hok : s.buffersOk = true) (hopen : s.sourceOpen = true) {k : Fin 16}
    (hpf : PrefixFree (s.slot k).codes) (hlen : (s.slot k).codes.length = (s.slot k).alpha.size) {r n : Nat}
    {w rest : Bits} (hw : w.length ≤ 8 * s.dstCap.toNat) (hleft : s.Left r rest) {p : WalkPhase}
    (hstop : walkStop (s.slot k) p rest = some n) (b : Byte) (e : Engine) :
    (p.item (xformDecomp k) b).run.run (s.working r w e) = .ok none (s.working (r + n) w e) := by
  have h := Buffers.of_ok hok
  have hsrc := (s.buffersOk_iff.1 hok).1
  unfold walkStop at hstop
  split_ifs at hstop with hp hshort hno hsentinel
  · cases hstop
    rw [WalkPhase.item_structural hp]
    exact Rd.bind_none (readByte_runs_out h hleft hshort)
  · cases hstop
    rw [WalkPhase.item_literal hp]
    exact Rd.bind_none (xformDecomp_runs_out h hw hopen hsrc hleft (by simpa [← List.isPrefixOf_iff_prefix] using hno))
  · cases hstop
    obtain ⟨halpha, hcode⟩ : (s.slot k).alpha = .a257 ∧ (s.slot k).code sentinel <+: rest := by simpa using hsentinel
    rw [WalkPhase.item_literal hp]
    exact Rd.bind_none (xformDecomp_sentinel h hw hopen hsrc hleft hpf (by rw [hlen, halpha]; rfl) hcode)

/-- The items of a stream with its literals coded under a table. -/
abbrev Slot.items (sl : Slot) (bias : Nat) (p : WalkPhase) (xs : List Byte) : List Bits :=
  walkUnits bias (fun b => sl.code b.toNat) p xs

section
variable {s : State} {i : Instr} (hok : s.buffersOk = true) (hready : tableReady i s = true) {p : WalkPhase}
  {k : Fin 16} (hcoded : codedWalk i = some (p, k)) (hpf : PrefixFree (s.slot k).codes)
  (hlen : (s.slot k).codes.length = (s.slot k).alpha.size)
variable {bias : Nat} (hbias : s.params.snappyBias = bias) {xs : List Byte}
  (hread : ((s.slot k).items bias p xs).flatten <+: s.sourceStream)
include hok hready hcoded hpf hlen hbias hread

/-- A stream's items are read up to where no further item can be read. -/
theorem codedWalk_succeeds (hopen : s.sourceOpen = true) (hnone : s.writeStop (byteUnits xs) = none) {r : Nat}
    (hstop : walkStop (s.slot k) (walkEnd bias p xs) (s.sourceStream.drop
      ((s.slot k).items bias p xs).flatten.length) = some r) :
    succeeds i s ((s.produced (((s.slot k).items bias p xs).flatten.length + r) (bytesBits xs)
      xs.length).counted bias p xs) := by
  obtain ⟨hwalks, hx⟩ := codedWalk_walks hok hready hcoded hpf hlen
  have h := Opened.of_open (Buffers.of_ok hok) hopen
  have hfit := hread.length_le
  rw [s.sourceStream_length] at hfit
  have hroom := State.stopAt_room (State.stopAt_of_writeStop_none hnone)
  rw [byteUnits_eq_walkUnits bias p] at hnone hroom
  have hend := hwalks.completes (hx _ h) hbias hread hfit (State.stopAt_of_writeStop_none hnone) 0#8
    fun e => codedItem_runs_out hok hopen hpf hlen hroom ⟨hfit, rfl⟩ hstop 0#8 e
  rwa [walkUnits_plain_flatten, padded_bytesBits, bytesBits_length, Nat.mul_div_cancel_left _ (by decide)] at hend

theorem codedWalk_fails_writing (hopen : s.sourceOpen = true) {n q : Nat} {err : Raised}
    (hstop : s.writeStop (byteUnits xs) = some (n, q, err)) :
    failsWith i s err ((s.produced ((s.slot k).items bias p (xs.take (n + 1))).flatten.length
      ((bytesBits xs).take q) ((q + 7) / 8)).counted bias p (xs.take n)) := by
  obtain ⟨hwalks, hx⟩ := codedWalk_walks hok hready hcoded hpf hlen
  have h := Opened.of_open (Buffers.of_ok hok) hopen
  rw [byteUnits_eq_walkUnits bias p] at hstop
  rw [← walkUnits_plain_flatten bias p]
  exact hwalks.fails_writing (hx _ h) hbias rfl hread hstop

/-- The first source byte that may not be accessed is inside an item of the stream. -/
theorem codedWalk_fails_inside {f n : Nat} (hshut : s.sourceShut f = true)
    (hle : ((s.slot k).items bias p (xs.take n)).flatten.length ≤ 8 * f)
    (hlt : 8 * f < ((s.slot k).items bias p (xs.take (n + 1))).flatten.length)
    (hnone : s.writeStop (byteUnits (xs.take n)) = none) :
    failsWith i s (.bus (s.srcAddr.toNat + f))
      ((s.produced (8 * f) (bytesBits (xs.take n)) n).counted bias p (xs.take n)) := by
  obtain ⟨hwalks, hx⟩ := codedWalk_walks hok hready hcoded hpf hlen
  obtain ⟨h, -⟩ := Opened.of_shut (Buffers.of_ok hok) hshut
  rw [byteUnits_eq_walkUnits bias p] at hnone
  have hend := hwalks.fails_reading (hx _ h) hbias hread hle hlt (State.stopAt_of_writeStop_none hnone)
  rwa [walkUnits_plain_flatten, bytesBits_length,
    List.length_take_of_le (lt_length_of_items hle hlt).le, show (8 * n + 7) / 8 = n by omega] at hend

/-- The first source byte that may not be accessed comes behind the stream, inside a code that is not finished. -/
theorem codedWalk_fails_behind {f : Nat} (hshut : s.sourceShut f = true) (hslots : (walkEnd bias p xs).slots ≠ 0)
    (hno : s.noCodeWithin (s.slot k) ((s.slot k).items bias p xs).flatten.length (8 * f) = true)
    (hnone : s.writeStop (byteUnits xs) = none) :
    failsWith i s (.bus (s.srcAddr.toNat + f)) ((s.produced (8 * f) (bytesBits xs) xs.length).counted bias p xs) := by
  obtain ⟨hwalks, hx⟩ := codedWalk_walks hok hready hcoded hpf hlen
  obtain ⟨h, hf⟩ := Opened.of_shut (Buffers.of_ok hok) hshut
  obtain ⟨hle, hno⟩ := State.noCodeWithin_iff.1 hno
  have hroom := State.stopAt_room (State.stopAt_of_writeStop_none hnone)
  rw [byteUnits_eq_walkUnits bias p] at hnone hroom
  have hend := hwalks.fails (hx _ h) hbias hread hle (State.stopAt_of_writeStop_none hnone) 0#8 hroom
    fun e => by
      rw [WalkPhase.item_literal hslots]
      exact Rd.bind_error (Rd.bind_error (decodeNext_working_stops h (s.buffersOk_iff.1 hok).1 hf hroom hle hno))
  rwa [walkUnits_plain_flatten, bytesBits_length, show (8 * xs.length + 7) / 8 = xs.length by omega] at hend

end

/-- Settles O45: the format machine byte by byte, along the bytes of a stream up to the item at which the walk ends. -/
theorem inspectIsIdentity : Obligations.InspectIsIdentity := by
  intro s i hok hready bias report
  refine ⟨?_, inspect_copies, ?_⟩
  · intro p code hplain units out
    refine ⟨?_, ?_, ?_⟩
    · exact plainWalk_succeeds hok hready hplain rfl
    · exact fun n q e hopen => plainWalk_fails_writing hok hready hplain rfl hopen
    · exact fun f => plainWalk_fails_reading hok hready hplain rfl
  · intro p k xs hcoded sl units read written hpf hlen hread
    have htake (n : Nat) : units.take n = sl.items bias p (xs.take n) := walkUnits_take p xs n
    refine ⟨?_, ?_, ?_, ?_⟩
    · exact fun r hopen hnone => codedWalk_succeeds hok hready hcoded hpf hlen rfl hread hopen hnone
    · intro n q e hopen hstop
      simp only [read, htake]
      exact codedWalk_fails_writing hok hready hcoded hpf hlen rfl hread hopen hstop
    · intro f n hshut hle hlt hnone
      simp only [read, htake] at hle hlt
      have hbytes : written.take n = byteUnits (xs.take n) := (List.map_take ..).symm
      exact codedWalk_fails_inside hok hready hcoded hpf hlen rfl hread hshut hle hlt (hbytes ▸ hnone)
    · exact fun f hshut hslots => codedWalk_fails_behind hok hready hcoded hpf hlen rfl hread hshut hslots

end Sys2Proof.Machine
end

section
/-! SUPPORT. Proofs: Whole blocks decoded, and the block round trip -/

namespace Sys2Proof.Machine

/-! ### Bytes written in the destination and read again (20_memory.md R72, 30_encoding.md R100) -/

/-- The buffer end that the check of the destination gives (10_state.md R31). -/
theorem State.destOk_end {s : State} (h : s.destOk = true) : s.dstAddr.toNat + s.dstCap.toNat ≤ 2 ^ 32 := by
  simp only [State.destOk, bufferOk, Bool.and_eq_true, decide_eq_true_eq] at h
  exact h.2

/-- Bits that a ready command has room for end below 2^32. -/
theorem State.ready_end {s : State} {room : Nat} (h : s.ready room = true) :
    s.dstAddr.toNat + (room + 7) / 8 ≤ 2 ^ 32 := by
  obtain ⟨hok, -, hfits, -⟩ := State.ready_iff.1 h
  obtain ⟨-, hdst, -⟩ := s.buffersOk_iff.1 hok
  have hend := State.destOk_end hdst
  omega

theorem bytesBits_injective : Function.Injective bytesBits := by
  intro xs
  induction xs with
  | nil =>
    intro ys h
    have hlen := congrArg List.length h
    rw [bytesBits_length, bytesBits_length, List.length_nil] at hlen
    exact (List.length_eq_zero_iff.1 (by omega)).symm
  | cons x xs ih =>
    rintro (_ | ⟨y, ys⟩) h
    · simpa using congrArg List.length h
    · obtain ⟨hhead, htail⟩ := List.append_inj h (by rw [natBits_length, natBits_length])
      have hvalue := congrArg bitsVal hhead
      rw [bitsVal_natBits, bitsVal_natBits, Nat.mod_eq_of_lt x.isLt, Nat.mod_eq_of_lt y.isLt] at hvalue
      rw [BitVec.eq_of_toNat_eq hvalue, ih htail]

/-- Bytes stored bit by bit are the bytes of the memory there. -/
theorem slice_storeBits {m : Memory} (hwf : Memory.wf m = true) {base : Nat} {xs : List Byte}
    (hfit : base + xs.length ≤ 2 ^ 32) : (storeBits base 0 (bytesBits xs) m).slice base xs.length = xs := by
  refine bytesBits_injective ?_
  have hstored := streamBits_storeBits base 0 (bytesBits xs) hwf (by rw [bytesBits_length]; omega)
  rwa [bytesBits_length, streamBits_slice] at hstored

/-- Whole bytes that a ready command stored in its destination, as the source of another. -/
theorem State.sourceStream_of_stored {s u : State} {bs : Bits} (hwf : Memory.wf s.mem = true)
    (hready : s.ready bs.length = true) (hbytes : bs.length % 8 = 0)
    (hmem : u.mem = storeBits s.dstAddr.toNat 0 bs s.mem) (haddr : u.srcAddr = s.dstAddr)
    (hlen : u.srcLen = word (bs.length / 8)) : u.sourceStream = bs := by
  have hcap := (Ready.of_ready hready).dest
  have hfits := (Ready.of_ready hready).fits
  have hend := State.ready_end hready
  have hbits : 8 * u.srcLen.toNat = bs.length := by
    rw [hlen, word_toNat (by omega)]
    omega
  rw [State.sourceStream, hbits, hmem, haddr]
  exact streamBits_storeBits s.dstAddr.toNat 0 bs hwf (by rwa [Nat.zero_add])

/-! ### How the decoding loop ends (44_block_codec.md R272) -/

section
variable {s : State} {f : Nat} (h : Opened s f) (hsrc : s.sourceOk = true) {k : Fin 16} {r : Nat} {w rest : Bits}
  {e : Engine} (hw : w.length ≤ 8 * s.dstCap.toNat)
include h hsrc hw

/-- The sentinel's code ends the loop; it is consumed. -/
theorem blockDecodeLoop_sentinel (hpf : PrefixFree (s.slot k).codes) (hlen : (s.slot k).codes.length = 257)
    (hleft : s.Left r ((s.slot k).code sentinel ++ rest)) (hr : r + ((s.slot k).code sentinel).length ≤ 8 * f)
    (fuel : Nat) : (blockDecodeLoop k (fuel + 1)).run.run (s.working r w e) =
      .ok (some ()) (s.working (r + ((s.slot k).code sentinel).length) w e) := by
  have hdecode := (decodeNext_carries h hsrc hpf (y := sentinel) (by rw [hlen]; decide)).reads (e := e) hw hleft hr
  rw [blockDecodeLoop, Rd.bind_some hdecode, if_pos (show 256 ≤ sentinel by decide)]
  rfl

/-- Bits that no code begins end the loop; all of them are consumed. -/
theorem blockDecodeLoop_runs_out (hleft : s.Left r rest) (hr : r + rest.length ≤ 8 * f)
    (hno : ∀ c ∈ (s.slot k).codes, ¬ c <+: rest) (fuel : Nat) :
    (blockDecodeLoop k (fuel + 1)).run.run (s.working r w e) = .ok none (s.working (r + rest.length) w e) := by
  have hread : (s.working r w e).canRead rest.length = true := h.canRead hsrc hr
  have hdecode := decodeNext_truncated (s := s.working r w e) (k := k) (by rwa [hleft.avail h.toBuffers])
    (by rwa [hleft.working_rest h.toBuffers hw])
  rw [hleft.avail h.toBuffers, State.working_skip] at hdecode
  exact Rd.bind_none hdecode

end

/-! ### BLK.DEC to its end -/

section
variable {k : Fin 16} {s : State} {xs : List Byte} (hready : s.ready (8 * xs.length) = true)
include hready

/-- Every byte can be written. -/
theorem byteUnits_fit : s.stopAt 0 (byteUnits xs) = none := by
  have h := Ready.of_ready hready
  refine State.stopAt_eq_none ?_ fun q hq => ?_
  · rw [byteUnits_flatten, bytesBits_length, Nat.zero_add]
    exact h.fits
  · rw [byteUnits_flatten, bytesBits_length] at hq
    rw [Nat.zero_add]
    exact h.writable q hq

variable (hfinal : (s.slot k).final = true) (halpha : (s.slot k).alpha = .a257)
include hfinal halpha

/-- BLK.DEC succeeds when its loop ends without an error, whichever way. -/
theorem blkDec_loop_ends {r : Nat} {o : Option Unit}
    (hloop : (blockDecodeLoop k (8 * s.srcLen.toNat + 1)).run.run (s.working 0 [] Engine.idle) =
      .ok o (s.working r (bytesBits xs) Engine.idle)) :
    succeeds (.blkDec k) s (s.produced r (bytesBits xs) xs.length) := by
  have h := Ready.of_ready hready
  have hbits := bytesBits_length xs
  have havail : (s.working 0 [] Engine.idle).avail = 8 * s.srcLen.toNat := rfl
  have hclose := close_working (r := r) (e := Engine.idle) h.toBuffers (hbits.trans_le h.fits)
    fun i hi => h.writable i (hbits ▸ hi)
  rw [padded_bytesBits, hbits, Nat.mul_div_cancel_left _ (by decide)] at hclose
  have hbody : (do
      let _ ← (blockDecodeLoop k ((← get).avail + 1)).run
      let n ← close
      setRes0 n : Eng Unit).run (s.working 0 [] Engine.idle) =
      .ok () { s.working r (bytesBits xs) Engine.idle with res0 := word xs.length } := by
    rw [Eng.bind_ok (Eng.get_run _), havail, Eng.bind_ok hloop, Eng.bind_ok hclose, setRes0_run]
  refine runCommand_ok (t := { s.working r (bytesBits xs) Engine.idle with res0 := word xs.length }) ?_
  rw [Eng.bind_ok (blockPrologue_working (State.ready_iff.1 hready).1 hfinal halpha)]
  exact reporting_ok hbody

variable (hpf : PrefixFree (s.slot k).codes) (hlen : (s.slot k).codes.length = 257)
include hpf hlen

/-- BLK.DEC of a whole-block stream stops at the sentinel. -/
theorem blkDec_sentinel (hblock : blockBits (s.slot k) xs <+: s.sourceStream) :
    succeeds (.blkDec k) s (s.produced (blockBits (s.slot k) xs).length (bytesBits xs) xs.length) := by
  have hr := Ready.of_ready hready
  obtain ⟨hok, hopen, -⟩ := State.ready_iff.1 hready
  have h := Opened.of_open hr.toBuffers hopen
  have hfits := hblock.length_le
  obtain ⟨rest, hrest⟩ := hblock
  rw [s.sourceStream_length, blockBits, List.length_append] at hfits
  rw [blockBits, List.append_assoc] at hrest
  obtain ⟨fuel, hpast⟩ := blkDec_past hok hpf hlen h ⟨_, hrest⟩ (by omega) (byteUnits_fit hready)
  have hleft := (hrest ▸ State.Left.start s : s.Left 0 (literalCodes (s.slot k) xs ++ _)).drop
  rw [Nat.zero_add] at hleft
  refine blkDec_loop_ends hready hfinal halpha (o := some ()) ?_
  rw [hpast, blockDecodeLoop_sentinel h (s.buffersOk_iff.1 hok).1 ((bytesBits_length xs).trans_le hr.fits) hpf hlen hleft
    (by omega), blockBits, List.length_append]

/-- BLK.DEC of a stream cut short stops where the codes end. -/
theorem blkDec_truncated {rest : Bits} (hsource : s.sourceStream = literalCodes (s.slot k) xs ++ rest)
    (hno : ∀ c ∈ (s.slot k).codes, ¬ c <+: rest) :
    succeeds (.blkDec k) s (s.produced (8 * s.srcLen.toNat) (bytesBits xs) xs.length) := by
  have hr := Ready.of_ready hready
  obtain ⟨hok, hopen, -⟩ := State.ready_iff.1 hready
  have h := Opened.of_open hr.toBuffers hopen
  have hleft := (hsource ▸ State.Left.start s : s.Left 0 (literalCodes (s.slot k) xs ++ rest)).drop
  rw [Nat.zero_add] at hleft
  have hbits := hleft.length
  obtain ⟨fuel, hpast⟩ := blkDec_past hok hpf hlen h ⟨rest, hsource.symm⟩ (by omega) (byteUnits_fit hready)
  refine blkDec_loop_ends hready hfinal halpha (o := none) ?_
  rw [hpast, blockDecodeLoop_runs_out h (s.buffersOk_iff.1 hok).1 ((bytesBits_length xs).trans_le hr.fits) hleft hbits.le
    hno, hbits]

end

/-- Settles O50: the loop past the bytes, then one of its two ends, the sentinel or no further code. -/
theorem blockDecode : Obligations.BlockDecode := by
  intro k s xs sl hfinal halpha hpf hlen hready
  exact ⟨blkDec_sentinel hready hfinal halpha hpf hlen,
    fun _ hsource hno => blkDec_truncated hready hfinal halpha hpf hlen hsource hno⟩

/-- Settles O51: the padded stream that BLK.ENC stored begins with the block's bits, which BLK.DEC decodes to the source
bytes, stored and read back. -/
theorem blockRoundTrip : Obligations.BlockRoundTrip := by
  intro k s u hfinal halpha hpf hlen hwf hready
  refine ⟨_, blockEncode k s hfinal halpha hready, State.complete_err _ _, fun hslots hmem haddr hsize hroom => ?_⟩
  have hslot : u.slot k = s.slot k := congrArg (·[k]) hslots
  have hstream : u.sourceStream = padded (blockBits (s.slot k) s.source) :=
    State.sourceStream_of_stored hwf hready (by rw [padded_length]; omega) hmem haddr hsize
  have hblock : blockBits (u.slot k) s.source <+: u.sourceStream := by
    rw [hstream, hslot]
    exact List.prefix_append _ _
  rw [← s.source_length] at hroom ⊢
  rw [← hslot] at hfinal halpha hpf hlen
  have hres : word s.source.length = s.srcLen := by rw [s.source_length, word, BitVec.ofNat_toNat, BitVec.setWidth_eq]
  refine ⟨_, blkDec_sentinel hroom hfinal halpha hpf hlen hblock, State.complete_err _ _, hres, ?_⟩
  have hwf' : Memory.wf u.mem = true := by
    rw [hmem]
    exact storeBits_wf s.dstAddr.toNat 0 _ hwf (by rw [Nat.zero_add]; exact State.ready_end hready)
  have hend := State.ready_end hroom
  exact slice_storeBits hwf' (by omega)

end Sys2Proof.Machine
end

section
/-! SUPPORT. Proofs: The candidate that Select takes, and what the scan's tokens rebuild -/

namespace Sys2Proof.Machine

/-! ### Select (45_lz77.md R295) -/

/-- Of the candidates below `n`, `best` has the least cost, and the lowest index of those that have it. -/
structure CheapestBelow (s : State) (h : List Nat) (n best : Nat) : Prop where
  below : best < n
  least : ∀ k < n, cost s h best ≤ cost s h k
  first : ∀ k < best, cost s h best < cost s h k

theorem CheapestBelow.zero (s : State) (h : List Nat) : CheapestBelow s h 1 0 :=
  ⟨Nat.zero_lt_one, fun k hk => by rw [Nat.lt_one_iff.1 hk], nofun⟩

/-- One more candidate is compared with the best so far, and wins only by a lower cost. -/
theorem CheapestBelow.succ {s : State} {h : List Nat} {n best : Nat} (hbest : CheapestBelow s h n best) :
    CheapestBelow s h (n + 1) (if cost s h n < cost s h best then n else best) := by
  obtain ⟨hbelow, hleast, hfirst⟩ := hbest
  split_ifs with hlower
  · refine ⟨Nat.lt_succ_self n, fun k hk => ?_, fun k hk => hlower.trans_le (hleast k hk)⟩
    rcases Nat.lt_succ_iff_lt_or_eq.1 hk with hk | rfl
    · exact hlower.le.trans (hleast k hk)
    · exact Nat.le_refl _
  · refine ⟨Nat.lt_succ_of_lt hbelow, fun k hk => ?_, hfirst⟩
    rcases Nat.lt_succ_iff_lt_or_eq.1 hk with hk | rfl
    · exact hleast k hk
    · exact Nat.not_lt.1 hlower

theorem select_cheapest (s : State) (h : List Nat) : CheapestBelow s h 4 (select s h) :=
  (CheapestBelow.zero s h).succ.succ.succ

/-- Settles O57: candidates 1, 2 and 3 compared in turn with the best of those before. -/
theorem selectLeastCost : Obligations.SelectLeastCost := fun s h =>
  ⟨(select_cheapest s h).below, (select_cheapest s h).least, (select_cheapest s h).first⟩

/-! ### Copies (45_lz77.md R289, R302) -/

/-- The bytes that a copy of `len` bytes from offset `off` appends to the output. -/
def copied : Nat → Nat → List Byte → List Byte
  | 0, _, _ => []
  | len + 1, off, out => out.getD off 0#8 :: copied len (off + 1) (out ++ [out.getD off 0#8])

theorem copyOut_eq (len off : Nat) (out : List Byte) : copyOut len off out = out ++ copied len off out := by
  induction len generalizing off out with
  | zero => rw [copyOut, copied, List.append_nil]
  | succ len ih => rw [copyOut, copied, ih, List.append_assoc, List.singleton_append]

@[simp] theorem copied_length (len off : Nat) (out : List Byte) : (copied len off out).length = len := by
  induction len generalizing off out with
  | zero => rfl
  | succ len ih => rw [copied, List.length_cons, ih]

/-- Two sequences have the same bytes as far as their common beginning reaches. -/
theorem getElem?_of_lt_commonPrefix {j : Nat} {xs ys : List Byte} (h : j < commonPrefix xs ys) : xs[j]? = ys[j]? := by
  induction xs generalizing j ys with
  | nil => simp [commonPrefix] at h
  | cons x xs ih =>
    cases ys with
    | nil => simp [commonPrefix] at h
    | cons y ys =>
      rw [commonPrefix] at h
      split_ifs at h with hxy
      · cases j with
        | zero => simpa using hxy
        | succ j => simpa using ih (Nat.lt_of_succ_lt_succ h)
      · cases h

/-- Where the bytes from `i` on and from `last` on agree, copying appends the bytes from `last` on. -/
theorem copyOut_take {xs : List Byte} {i last cp : Nat} (hi : i < last) (hend : last + cp ≤ xs.length)
    (hsame : ∀ j < cp, xs[i + j]? = xs[last + j]?) : copyOut cp i (xs.take last) = xs.take (last + cp) := by
  induction cp generalizing i last with
  | zero => rfl
  | succ cp ih =>
    have hbyte : (xs.take last).getD i 0#8 = xs[last] := by
      have hfirst := hsame 0 (Nat.succ_pos cp)
      rw [Nat.add_zero, Nat.add_zero] at hfirst
      rw [List.getD_eq_getElem?_getD, List.getElem?_take_of_lt hi, hfirst, List.getElem?_eq_getElem (by omega),
        Option.getD_some]
    have hnext : ∀ j < cp, xs[i + 1 + j]? = xs[last + 1 + j]? := fun j hj => by
      rw [Nat.add_assoc, Nat.add_assoc, Nat.add_comm 1]
      exact hsame (j + 1) (by omega)
    rw [copyOut, hbyte, ← List.take_succ_eq_append_getElem (by omega), ih (by omega) (by omega) hnext]
    congr 1
    omega

/-! ### The tokens of the scan (45_lz77.md R288 to R292) -/

section
variable (s : State) (xs : List Byte)

/-- A literal token appends its run. -/
theorem reconstruct_literalToken {first last : Nat} (hfirst : first ≤ last) (ts : List LzToken) :
    reconstruct (literalToken s xs first last :: ts) (xs.take first) = reconstruct ts (xs.take last) := by
  rw [literalToken, reconstruct, ← List.take_add, Nat.add_sub_cancel' hfirst]

theorem reconstruct_finalTokens (first : Nat) : reconstruct (finalTokens s xs first) (xs.take first) = some xs := by
  rw [finalTokens]
  split_ifs with hmore
  · rw [reconstruct_literalToken s xs hmore.le, List.take_length, reconstruct]
  · rw [reconstruct, List.take_of_length_le (by omega)]

theorem literalToken_ok (hsize : xs.length < 2 ^ 31) (first last : Nat) : (literalToken s xs first last).ok = true := by
  have hrun : ((xs.drop first).take (last - first)).length < 2 ^ 31 :=
    ((List.take_sublist _ _).trans (List.drop_sublist _ _)).length_le.trans_lt hsize
  rw [literalToken, LzToken.ok, Bool.and_eq_true, decide_eq_true_eq, decide_eq_true_eq]
  exact ⟨bestCandidate_lt s _, hrun⟩

/-- What a token of the scan is: it can be framed, and a substitution copies at least four bytes from an offset at least eight
bytes before the end of the source (45_lz77.md R287, R288). -/
structure Scanned (xs : List Byte) (k : LzToken) : Prop where
  framed : k.ok = true
  long : ∀ off len, k = .substitution off len → 4 ≤ len ∧ off + 8 ≤ xs.length

theorem literalToken_scanned (hsize : xs.length < 2 ^ 31) (first last : Nat) :
    Scanned xs (literalToken s xs first last) := ⟨literalToken_ok s xs hsize first last, nofun⟩

theorem finalTokens_scanned (hsize : xs.length < 2 ^ 31) (first : Nat) : ∀ k ∈ finalTokens s xs first, Scanned xs k := by
  rw [finalTokens]
  split_ifs
  · rintro k hk
    rw [List.mem_singleton.1 hk]
    exact literalToken_scanned s xs hsize _ _
  · nofun

/-- The offsets recorded before `last` end four bytes before it at the latest (45_lz77.md R288). -/
theorem seenAt_before {recorded : List Nat} {last : Nat} (h : ∀ p ∈ recorded, p + 4 ≤ last) :
    ∀ p ∈ seenAt last recorded, p + 4 ≤ last := by
  intro p hp
  rw [seenAt] at hp
  split_ifs at hp with hfour
  · rcases List.mem_cons.1 hp with rfl | hp
    · omega
    · exact h p hp
  · exact h p hp

/-- The tokens of the scan from `begin = first` and `end = last` on rebuild the source behind its first bytes. -/
theorem scanFrom_rebuilds (hsize : xs.length < 2 ^ 31) (fuel : Nat) {first last : Nat} {recorded : List Nat}
    (hfirst : first ≤ last) (hbefore : ∀ p ∈ recorded, p + 4 ≤ last) :
    reconstruct (scanFrom s xs fuel first last recorded) (xs.take first) = some xs ∧
      ∀ k ∈ scanFrom s xs fuel first last recorded, Scanned xs k := by
  induction fuel generalizing first last recorded with
  | zero => exact ⟨reconstruct_finalTokens s xs first, finalTokens_scanned s xs hsize first⟩
  | succ fuel ih =>
    by_cases hmore : last < xs.length
    · have hseen := seenAt_before hbefore
      rcases hmatch : matchAt xs (seenAt last recorded) last with _ | i
      · rw [scanFrom_none s xs fuel first last recorded hmore hmatch]
        exact ih (by omega) fun p hp => (hseen p hp).trans (Nat.le_succ _)
      · obtain ⟨hmem, hroom⟩ := matchAt_mem hmatch
        obtain ⟨hfour, hend⟩ := matchAt_length hmatch
        have hi := hseen i hmem
        rw [scanFrom_match s xs fuel first last recorded hmore hmatch]
        generalize hcp : commonPrefix (xs.drop i) (xs.drop last) = cp at hfour hend ⊢
        have hsame : ∀ j < cp, xs[i + j]? = xs[last + j]? := fun j hj => by
          have := getElem?_of_lt_commonPrefix (hcp ▸ hj)
          rwa [List.getElem?_drop, List.getElem?_drop] at this
        obtain ⟨hrest, htokens⟩ := ih (Nat.le_refl (last + cp)) fun p hp => (hseen p hp).trans (Nat.le_add_right _ _)
        constructor
        · rw [reconstruct_literalToken s xs hfirst, reconstruct, if_pos (by rw [List.length_take]; omega),
            copyOut_take (by omega) hend hsame]
          exact hrest
        · rintro k hk
          rcases List.mem_cons.1 hk with rfl | hk
          · exact literalToken_scanned s xs hsize _ _
          rcases List.mem_cons.1 hk with rfl | hk
          · refine ⟨by rw [LzToken.ok, Bool.and_eq_true, decide_eq_true_eq, decide_eq_true_eq]; omega, ?_⟩
            rintro off len ⟨⟩
            omega
          · exact htokens k hk
    · rw [scanFrom_end s xs fuel first last recorded hmore]
      exact ⟨reconstruct_finalTokens s xs first, finalTokens_scanned s xs hsize first⟩

end

theorem scanTokens_rebuild (s : State) {xs : List Byte} (hsize : xs.length ≤ Config.maxBuf) :
    reconstruct (scanTokens s xs) [] = some xs ∧ ∀ k ∈ scanTokens s xs, Scanned xs k :=
  scanFrom_rebuilds s xs (hsize.trans_lt (by decide)) xs.length (Nat.le_refl 0) nofun

/-- Settles O53, along the rounds of the scan: the tokens so far have rebuilt the source up to `begin`. -/
theorem scanTokensRebuild : Obligations.ScanTokensRebuild := by
  intro s xs hsize
  obtain ⟨hrebuild, hscanned⟩ := scanTokens_rebuild s hsize
  refine ⟨List.all_eq_true.2 fun k hk => (hscanned k hk).framed, hrebuild, fun off len hk => ?_, fun hshort =>
    List.all_eq_true.2 fun k hk => ?_⟩
  · obtain ⟨hlen, hoff⟩ := (hscanned _ hk).long off len rfl
    exact ⟨hlen, by omega⟩
  · cases k with
    | literal => rfl
    | substitution off len =>
      have := ((hscanned _ hk).long off len rfl).2
      omega

end Sys2Proof.Machine
end

section
/-! SUPPORT. Proofs: The steps of LZ.DECOMP, and where they end -/

namespace Sys2Proof.Machine

/-! ### Steps (45_lz77.md R301, R302) -/

/-- A step of the decoder: a field is read, all or nothing or not; a reconstructed byte is written; or an offset is held
against the output length. -/
inductive LzStep where
  | read (whole : Bool) (u : Bits)
  | write (b : Byte)
  | refer (off : Nat)

/-- The bits that a step reads. -/
def LzStep.bits : LzStep → Bits
  | .read _ u => u
  | .write _ | .refer _ => []

/-- The bytes that a step writes. -/
def LzStep.bytes : LzStep → List Byte
  | .write b => [b]
  | .read _ _ | .refer _ => []

/-- The field that a step reads, with whether it is read all or nothing. -/
def LzStep.field : LzStep → List (Bool × Bits)
  | .read whole u => [(whole, u)]
  | .write _ | .refer _ => []

/-- The bits that steps read. -/
def stepBits (ks : List LzStep) : Bits := ks.flatMap LzStep.bits

/-- The bytes that steps write. -/
def stepBytes (ks : List LzStep) : List Byte := ks.flatMap LzStep.bytes

/-- For each byte that steps write, the cursor when it is written; the steps begin at `r`. -/
def stepCursors : Nat → List LzStep → List Nat
  | _, [] => []
  | r, k :: ks => List.replicate k.bytes.length r ++ stepCursors (r + k.bits.length) ks

/-- Every offset that steps refer to lies in the output of the steps before, behind the output `out`. -/
def Refers : List Byte → List LzStep → Prop
  | _, [] => True
  | out, k :: ks => (∀ off, k = .refer off → off < out.length) ∧ Refers (out ++ k.bytes) ks

@[simp] theorem stepBits_nil : stepBits [] = [] := rfl

@[simp] theorem stepBits_cons (k : LzStep) (ks : List LzStep) : stepBits (k :: ks) = k.bits ++ stepBits ks := rfl

@[simp] theorem stepBits_append (ks js : List LzStep) : stepBits (ks ++ js) = stepBits ks ++ stepBits js :=
  List.flatMap_append

@[simp] theorem stepBytes_nil : stepBytes [] = [] := rfl

@[simp] theorem stepBytes_cons (k : LzStep) (ks : List LzStep) : stepBytes (k :: ks) = k.bytes ++ stepBytes ks := rfl

@[simp] theorem stepBytes_append (ks js : List LzStep) : stepBytes (ks ++ js) = stepBytes ks ++ stepBytes js :=
  List.flatMap_append

@[simp] theorem stepCursors_length (r : Nat) (ks : List LzStep) : (stepCursors r ks).length = (stepBytes ks).length := by
  induction ks generalizing r with
  | nil => rfl
  | cons k ks ih => simp [stepCursors, ih]

theorem stepCursors_append (r : Nat) (ks js : List LzStep) :
    stepCursors r (ks ++ js) = stepCursors r ks ++ stepCursors (r + (stepBits ks).length) js := by
  induction ks generalizing r with
  | nil => rfl
  | cons k ks ih => simp [stepCursors, ih, Nat.add_assoc]

/-- The cursors of steps lie between where the steps begin and where they end. -/
theorem stepCursors_bounds {r : Nat} {ks : List LzStep} :
    ∀ c ∈ stepCursors r ks, r ≤ c ∧ c ≤ r + (stepBits ks).length := by
  induction ks generalizing r with
  | nil => nofun
  | cons k ks ih =>
    intro c hc
    rw [stepBits_cons, List.length_append]
    rcases List.mem_append.1 hc with hc | hc
    · have := (List.mem_replicate.1 hc).2
      omega
    · have := ih c hc
      omega

theorem refers_append {out : List Byte} {ks js : List LzStep} :
    Refers out (ks ++ js) ↔ Refers out ks ∧ Refers (out ++ stepBytes ks) js := by
  induction ks generalizing out with
  | nil => simp [Refers]
  | cons k ks ih => simp [Refers, ih, and_assoc]

/-! ### How a step ends -/

/-- The engine-internal state when LZ.DECOMP has reconstructed `n` bytes (45_lz77.md R300). -/
def Engine.reconstructed (n : Nat) : Engine := { Engine.idle with outLen := n }

/-- LZ.DECOMP under way: it has read up to bit `r` of its source and reconstructed `out`. -/
def State.decoded (s : State) (r : Nat) (out : List Byte) : State :=
  s.working r (bytesBits out) (Engine.reconstructed out.length)

/-- LZ.DECOMP can stand at bit `r` of its source, with `out` reconstructed. -/
structure State.At (s : State) (r : Nat) (out : List Byte) : Prop where
  cursor : r ≤ 8 * s.srcLen.toNat
  written : s.stopAt 0 (byteUnits out) = none

/-- The step can be done at bit `r` behind the output `out`, the source being accessible up to byte `f`. -/
def LzStep.Passes (s : State) (f r : Nat) (out : List Byte) : LzStep → Prop
  | .read _ u => (∃ rest, s.Left r (u ++ rest)) ∧ r + u.length ≤ 8 * f
  | .write b => s.stopAt (8 * out.length) [natBits 8 b.toNat] = none
  | .refer off => off < out.length

/-- The step ends the decoding, by a read failure (`none`) or an error, in the state given: the source ends inside a field
(40_bitstream.md R142, 41_prefix_table.md R193), source byte `f` may not be accessed (20_memory.md R64), the byte cannot be
written (40_bitstream.md R145), or the offset is not below the output length (45_lz77.md R302). -/
inductive LzStep.Fails (s : State) (f r : Nat) (out : List Byte) : LzStep → Option Raised → State → Prop
  | cut {whole : Bool} {u rest : Bits} (hf : f = s.srcLen.toNat) (hleft : s.Left r rest) (hrest : rest <+: u)
      (hshort : rest.length < u.length) :
      Fails s f r out (.read whole u) none (s.decoded (r + if whole then 0 else rest.length) out)
  | shut {whole : Bool} {u rest : Bits} (hf : f < s.srcLen.toNat) (hleft : s.Left r (u ++ rest)) (hr : r ≤ 8 * f)
      (hin : 8 * f < r + u.length) :
      Fails s f r out (.read whole u) (some (.bus (s.srcAddr.toNat + f))) (s.decoded (8 * f) out)
  | full {b : Byte} {q : Nat} {err : Raised} (hstop : s.stopAt (8 * out.length) [natBits 8 b.toNat] = some (q, err)) :
      Fails s f r out (.write b) (some err)
        (s.working r ((bytesBits out ++ natBits 8 b.toNat).take q) (Engine.reconstructed out.length))
  | corrupt {off : Nat} (hoff : out.length ≤ off) : Fails s f r out (.refer off) (some (.corruptRef off)) (s.decoded r out)

/-- Every step can be done, one after the other. -/
def Passable (s : State) (f : Nat) : Nat → List Byte → List LzStep → Prop
  | _, _, [] => True
  | r, out, k :: ks => k.Passes s f r out ∧ Passable s f (r + k.bits.length) (out ++ k.bytes) ks

/-- One of the steps ends the decoding, those before it being done. -/
def StepsEnd (s : State) (f : Nat) : Nat → List Byte → List LzStep → Option Raised → State → Prop
  | _, _, [], _, _ => False
  | r, out, k :: ks, o, t =>
    k.Fails s f r out o t ∨ k.Passes s f r out ∧ StepsEnd s f (r + k.bits.length) (out ++ k.bytes) ks o t

section
variable {s : State} {f r : Nat} {out : List Byte} {ks js : List LzStep} {o : Option Raised} {t : State}

theorem passable_append : Passable s f r out (ks ++ js) ↔
    Passable s f r out ks ∧ Passable s f (r + (stepBits ks).length) (out ++ stepBytes ks) js := by
  induction ks generalizing r out with
  | nil => simp [Passable]
  | cons k ks ih => simp [Passable, ih, and_assoc, Nat.add_assoc]

theorem stepsEnd_append : StepsEnd s f r out (ks ++ js) o t ↔ StepsEnd s f r out ks o t ∨
    Passable s f r out ks ∧ StepsEnd s f (r + (stepBits ks).length) (out ++ stepBytes ks) js o t := by
  induction ks generalizing r out with
  | nil => simp [Passable, StepsEnd]
  | cons k ks ih =>
    simp only [List.cons_append, StepsEnd, ih, Passable, stepBits_cons, stepBytes_cons, List.length_append, Nat.add_assoc,
      List.append_assoc]
    tauto

/-- The first step that cannot be done ends the decoding. -/
theorem ends_of_split {k : LzStep} (hks : Passable s f r out ks)
    (hk : k.Fails s f (r + (stepBits ks).length) (out ++ stepBytes ks) o t) : StepsEnd s f r out (ks ++ k :: js) o t :=
  stepsEnd_append.2 (.inr ⟨hks, .inl hk⟩)

theorem State.At.fits (hat : s.At r out) : (bytesBits out).length ≤ 8 * s.dstCap.toNat := by
  have hroom := State.stopAt_room hat.written
  rwa [byteUnits_flatten] at hroom

/-- Where output is written its bytes may be accessed. -/
theorem State.At.writable (hat : s.At r out) : ∀ i < 8 * out.length, memOk s.params (s.dstAddr.toNat + i / 8) = true := by
  have hok := (State.stopAt_none hat.written (Nat.zero_le _)).2
  rw [byteUnits_flatten, bytesBits_length] at hok
  simpa using hok

theorem byteUnits_length (out : List Byte) : (byteUnits out).flatten.length = 8 * out.length := by
  rw [byteUnits_flatten, bytesBits_length]

theorem State.At.step (hat : s.At r out) {k : LzStep} (hk : k.Passes s f r out) :
    s.At (r + k.bits.length) (out ++ k.bytes) := by
  cases k with
  | read whole u =>
    obtain ⟨⟨rest, hleft⟩, -⟩ := hk
    refine ⟨hleft.drop.1, ?_⟩
    rw [LzStep.bytes, List.append_nil]
    exact hat.written
  | write b =>
    refine ⟨hat.cursor, ?_⟩
    rw [LzStep.bytes, byteUnits, List.map_append, State.stopAt_append, Option.or_eq_none_iff]
    refine ⟨hat.written, ?_⟩
    rw [Nat.zero_add, ← byteUnits, byteUnits_length]
    exact hk
  | refer off =>
    rw [LzStep.bytes, List.append_nil]
    exact hat

theorem State.At.steps (hat : s.At r out) (hks : Passable s f r out ks) :
    s.At (r + (stepBits ks).length) (out ++ stepBytes ks) := by
  induction ks generalizing r out with
  | nil => simpa using hat
  | cons k ks ih =>
    obtain ⟨hk, hks⟩ := hks
    have hnext := ih (hat.step hk) hks
    rwa [Nat.add_assoc, ← List.length_append, List.append_assoc] at hnext

end

/-! ### Parts of the decoder that do steps -/

/-- How a run ends that a read failure or an error ends. -/
def halted {α : Type} : Option Raised → State → EStateM.Result Raised State (Option α)
  | none, t => .ok none t
  | some e, t => .error e t

/-- From bit `r` and the output `out` the part `m` does the steps `ks` and answers `a`, or ends at the first step that
cannot be done. -/
structure Performs {α : Type} (s : State) (f r : Nat) (m : Rd α) (out : List Byte) (ks : List LzStep) (a : α) : Prop where
  passes : s.At r out → Passable s f r out ks →
    m.run.run (s.decoded r out) = .ok (some a) (s.decoded (r + (stepBits ks).length) (out ++ stepBytes ks))
  ends {o : Option Raised} {t : State} : s.At r out → StepsEnd s f r out ks o t → m.run.run (s.decoded r out) = halted o t

section
variable {α β : Type} {s : State} {f r : Nat} {out : List Byte} {ks js all : List LzStep} {a : α} {b : β}

theorem halted_bind {m : Rd α} {g : α → Rd β} {o : Option Raised} {t u : State} (h : m.run.run u = halted o t) :
    (m >>= g).run.run u = halted o t := by
  cases o with
  | none => exact Rd.bind_none h
  | some e => exact Rd.bind_error h

theorem Performs.pure (a : α) : Performs s f r (pure a) out [] a where
  passes _ _ := by rw [stepBytes_nil, List.append_nil]; rfl
  ends _ hends := absurd hends (by simp [StepsEnd])

/-- One part after the other. -/
theorem Performs.bind {m : Rd α} {g : α → Rd β} (hm : Performs s f r m out ks a)
    (hg : s.At (r + (stepBits ks).length) (out ++ stepBytes ks) →
      Performs s f (r + (stepBits ks).length) (g a) (out ++ stepBytes ks) js b)
    (hall : all = ks ++ js := by simp) : Performs s f r (m >>= g) out all b := by
  subst hall
  constructor
  · intro hat hpass
    obtain ⟨hks, hjs⟩ := passable_append.1 hpass
    have hnext := hat.steps hks
    rw [Rd.bind_some (hm.passes hat hks), (hg hnext).passes hnext hjs, stepBits_append, stepBytes_append,
      List.length_append, Nat.add_assoc, List.append_assoc]
  · intro o t hat hends
    rcases stepsEnd_append.1 hends with hks | ⟨hks, hjs⟩
    · exact halted_bind (hm.ends hat hks)
    · have hnext := hat.steps hks
      rw [Rd.bind_some (hm.passes hat hks)]
      exact (hg hnext).ends hnext hjs

/-- A part behind one that writes nothing. -/
theorem Performs.bind_reads {m : Rd α} {g : α → Rd β} (hm : Performs s f r m out ks a) (hreads : stepBytes ks = [])
    (hg : s.At (r + (stepBits ks).length) out → Performs s f (r + (stepBits ks).length) (g a) out js b)
    (hall : all = ks ++ js := by simp) : Performs s f r (m >>= g) out all b := by
  refine hm.bind ?_ hall
  rwa [hreads, List.append_nil]

theorem Performs.get_bind {g : State → Rd β} (h : s.At r out → Performs s f r (g (s.decoded r out)) out ks b) :
    Performs s f r (get >>= g) out ks b where
  passes hat hpass := (Rd.bind_some (Rd.get_run _)).trans ((h hat).passes hat hpass)
  ends hat hends := (Rd.bind_some (Rd.get_run _)).trans ((h hat).ends hat hends)

theorem Performs.of_at {m : Rd α} (h : s.At r out → Performs s f r m out ks a) : Performs s f r m out ks a where
  passes hat := (h hat).passes hat
  ends hat := (h hat).ends hat

/-- A part that runs as one that does the steps. -/
theorem Performs.congr {m m' : Rd α} (h : Performs s f r m out ks a)
    (heq : m'.run.run (s.decoded r out) = m.run.run (s.decoded r out)) : Performs s f r m' out ks a where
  passes hat hpass := heq.trans (h.passes hat hpass)
  ends hat hends := heq.trans (h.ends hat hends)

end

/-! ### At which step the decoding ends -/

section
variable {s : State} {f r : Nat} {out : List Byte} {ks : List LzStep} {rest : Bits}

/-- Steps whose fields are left, whose bytes can be written and whose offsets are good can be done. -/
theorem passable_of_whole (hrefers : Refers out ks) (hleft : s.Left r (stepBits ks ++ rest))
    (hr : r + (stepBits ks).length ≤ 8 * f) (hnone : s.stopAt (8 * out.length) (byteUnits (stepBytes ks)) = none) :
    Passable s f r out ks := by
  induction ks generalizing r out with
  | nil => exact trivial
  | cons k ks ih =>
    obtain ⟨hoff, hrefers⟩ := hrefers
    rw [stepBits_cons, List.append_assoc] at hleft
    rw [stepBits_cons, List.length_append] at hr
    rw [stepBytes_cons, byteUnits, List.map_append, State.stopAt_append, Option.or_eq_none_iff, ← byteUnits, ← byteUnits,
      byteUnits_length] at hnone
    obtain ⟨hk, hnone⟩ := hnone
    refine ⟨?_, ih hrefers hleft.drop (by omega) (by rwa [List.length_append, Nat.mul_add])⟩
    cases k with
    | read whole u => exact ⟨⟨_, hleft⟩, show r + u.length ≤ 8 * f by rw [LzStep.bits] at hr; omega⟩
    | write b => exact hk
    | refer off => exact hoff off rfl

/-- The step that writes byte `n` of the output. -/
theorem steps_split_byte {n : Nat} (hn : n < (stepBytes ks).length) : ∃ pre b post, ks = pre ++ .write b :: post ∧
    (stepBytes pre).length = n ∧ (stepCursors r ks).getD n 0 = r + (stepBits pre).length := by
  induction ks generalizing n r with
  | nil => cases hn
  | cons k ks ih =>
    have skip : k.bytes = [] → ∃ pre b post, k :: ks = pre ++ .write b :: post ∧ (stepBytes pre).length = n ∧
        (stepCursors r (k :: ks)).getD n 0 = r + (stepBits pre).length := fun hk => by
      rw [stepBytes_cons, hk, List.nil_append] at hn
      obtain ⟨pre, b, post, rfl, hlen, hcursor⟩ := ih (r := r + k.bits.length) hn
      refine ⟨k :: pre, b, post, rfl, by rw [stepBytes_cons, hk, List.nil_append, hlen], ?_⟩
      rw [stepCursors, hk, List.length_nil, List.replicate_zero, List.nil_append, hcursor, stepBits_cons,
        List.length_append, Nat.add_assoc]
    cases k with
    | read whole u => exact skip rfl
    | refer off => exact skip rfl
    | write b =>
      cases n with
      | zero => exact ⟨[], b, ks, rfl, rfl, rfl⟩
      | succ n =>
        obtain ⟨pre, c, post, rfl, hlen, hcursor⟩ := ih (r := r) (Nat.lt_of_succ_lt_succ hn)
        exact ⟨.write b :: pre, c, post, rfl, congrArg Nat.succ hlen, hcursor⟩

/-- The step that reads bit `N` of the source: the bytes written before it are those whose cursor is at most `N`. -/
theorem steps_split_bit {N : Nat} (hr : r ≤ N) (hN : N < r + (stepBits ks).length) :
    ∃ pre whole u post, ks = pre ++ .read whole u :: post ∧
      r + (stepBits pre).length ≤ N ∧ N < r + (stepBits pre).length + u.length ∧
      stepBytes pre = (stepBytes ks).take ((stepCursors r ks).countP (fun c => decide (c ≤ N))) ∧
      cutCursor (N - r) (ks.flatMap LzStep.field) =
        (stepBits pre).length + if whole then 0 else N - (r + (stepBits pre).length) := by
  induction ks generalizing r with
  | nil => simp at hN; omega
  | cons k ks ih =>
    rw [stepBits_cons, List.length_append] at hN
    have pass : r + k.bits.length ≤ N →
        cutCursor (N - r) ((k :: ks).flatMap LzStep.field) =
          k.bits.length + cutCursor (N - (r + k.bits.length)) (ks.flatMap LzStep.field) →
        ∃ pre whole u post, k :: ks = pre ++ .read whole u :: post ∧
          r + (stepBits pre).length ≤ N ∧ N < r + (stepBits pre).length + u.length ∧
          stepBytes pre = (stepBytes (k :: ks)).take ((stepCursors r (k :: ks)).countP (fun c => decide (c ≤ N))) ∧
          cutCursor (N - r) ((k :: ks).flatMap LzStep.field) =
            (stepBits pre).length + if whole then 0 else N - (r + (stepBits pre).length) := fun hk hcursor => by
      obtain ⟨pre, whole, u, post, rfl, hlow, hhigh, hbytes, hcut⟩ := ih hk (by omega)
      have hsum : r + (stepBits (k :: pre)).length = r + k.bits.length + (stepBits pre).length := by
        rw [stepBits_cons, List.length_append, Nat.add_assoc]
      refine ⟨k :: pre, whole, u, post, rfl, by rwa [hsum], by rwa [hsum], ?_, ?_⟩
      · rw [stepCursors, List.countP_append, List.countP_replicate, if_pos (by simpa using hr), stepBytes_cons,
          stepBytes_cons, List.take_length_add_append, hbytes]
      · rw [hcursor, hcut, hsum, stepBits_cons, List.length_append, Nat.add_assoc k.bits.length]
    cases k with
    | write b => exact pass hr (by simp [LzStep.field, LzStep.bits])
    | refer off => exact pass hr (by simp [LzStep.field, LzStep.bits])
    | read whole u =>
      rw [LzStep.bits] at hN pass
      by_cases hu : r + u.length ≤ N
      · refine pass hu ?_
        rw [List.flatMap_cons, LzStep.field, List.singleton_append, cutCursor, if_pos (by omega), Nat.sub_sub]
      · have hnone : (stepCursors (r + u.length) ks).countP (fun c => decide (c ≤ N)) = 0 := by
          rw [List.countP_eq_zero]
          intro c hc
          have := (stepCursors_bounds c hc).1
          simp
          omega
        refine ⟨[], whole, u, ks, rfl, hr, by simp; omega, ?_, ?_⟩
        · simp [stepCursors, LzStep.bytes, LzStep.bits, hnone]
        · rw [List.flatMap_cons, LzStep.field, List.singleton_append, cutCursor, if_neg (by omega)]
          simp

/-- Steps whose bits are all there write all their bytes. -/
theorem stepCursors_countP_all {N : Nat} (hN : r + (stepBits ks).length ≤ N) :
    (stepCursors r ks).countP (fun c => decide (c ≤ N)) = (stepBytes ks).length := by
  rw [← stepCursors_length r ks, List.countP_eq_length]
  intro c hc
  have := (stepCursors_bounds c hc).2
  simp
  omega

/-- Fields that are all there are all consumed. -/
theorem cutCursor_all {n : Nat} (hn : (stepBits ks).length ≤ n) :
    cutCursor n (ks.flatMap LzStep.field) = (stepBits ks).length := by
  induction ks generalizing n with
  | nil => rfl
  | cons k ks ih =>
    rw [stepBits_cons, List.length_append] at hn ⊢
    cases k with
    | read whole u =>
      rw [LzStep.bits] at hn ⊢
      rw [List.flatMap_cons, LzStep.field, List.singleton_append, cutCursor, if_pos (by omega), ih (by omega)]
    | write b => simpa [LzStep.field, LzStep.bits] using ih (by simpa [LzStep.bits] using hn)
    | refer off => simpa [LzStep.field, LzStep.bits] using ih (by simpa [LzStep.bits] using hn)

/-- The decoding ends at the byte that cannot be written. -/
theorem ends_full (hrefers : Refers [] ks) {n q : Nat} {err : Raised} (hleft : s.Left r (stepBits ks ++ rest))
    (hr : r + (stepBits ks).length ≤ 8 * f) (hstop : s.writeStop (byteUnits (stepBytes ks)) = some (n, q, err)) :
    ∃ e, StepsEnd s f r [] ks (some err)
      (s.working ((stepCursors r ks).getD n 0) ((bytesBits (stepBytes ks)).take q) e) := by
  obtain ⟨us, u, vs, hunits, rfl, hnone, hsome⟩ := State.writeStop_split hstop
  have hn : us.length < (stepBytes ks).length := by
    have hlen := congrArg List.length hunits
    rw [byteUnits, List.length_map, List.length_append, List.length_cons] at hlen
    omega
  obtain ⟨pre, b, post, hsplit, hlen, hcursor⟩ := steps_split_byte (r := r) hn
  have hpieces : byteUnits (stepBytes ks) = byteUnits (stepBytes pre) ++ natBits 8 b.toNat :: byteUnits (stepBytes post) := by
    simp [hsplit, byteUnits, LzStep.bytes]
  obtain ⟨hus, htail⟩ := List.append_inj (hunits.symm.trans hpieces) (by rw [byteUnits, List.length_map, hlen])
  obtain ⟨rfl, -⟩ := List.cons.inj htail
  have htake := flatten_take (vs := vs) hnone hsome
  rw [← hunits, byteUnits_flatten, hus, byteUnits_flatten] at htake
  rw [hus] at hnone
  rw [hus, byteUnits_length] at hsome
  rw [hcursor, htake]
  rw [hsplit, stepBits_append, List.append_assoc] at hleft
  rw [hsplit, stepBits_append, List.length_append] at hr
  rw [hsplit] at hrefers ⊢
  have hpre : Passable s f r [] pre := passable_of_whole (refers_append.1 hrefers).1 hleft (by omega) hnone
  exact ⟨_, ends_of_split hpre (.full hsome)⟩

variable (hrefers : Refers out ks)
include hrefers

/-- The decoding ends at the first field that lies beyond the source bytes that may be accessed. -/
theorem ends_shut (hf : f < s.srcLen.toNat) (hleft : s.Left r (stepBits ks ++ rest)) (hr : r ≤ 8 * f)
    (hin : 8 * f < r + (stepBits ks).length) {n : Nat}
    (hn : n = (stepCursors r ks).countP (fun c => decide (c ≤ 8 * f)))
    (hnone : s.stopAt (8 * out.length) (byteUnits ((stepBytes ks).take n)) = none) :
    StepsEnd s f r out ks (some (.bus (s.srcAddr.toNat + f))) (s.decoded (8 * f) (out ++ (stepBytes ks).take n)) := by
  obtain ⟨pre, whole, u, post, hsplit, hlow, hhigh, hbytes, -⟩ := steps_split_bit hr hin
  rw [hn, ← hbytes] at hnone ⊢
  rw [hsplit, stepBits_append, stepBits_cons, List.append_assoc, List.append_assoc, LzStep.bits] at hleft
  rw [hsplit] at hrefers ⊢
  exact ends_of_split (passable_of_whole (refers_append.1 hrefers).1 hleft hlow hnone) (.shut hf hleft.drop hlow hhigh)

/-- The decoding ends at the field that the source's end cuts. -/
theorem ends_cut {left : Bits} (hf : f = s.srcLen.toNat) (hleft : s.Left r left) (hcut : left <+: stepBits ks)
    (hshort : left.length < (stepBits ks).length) {n : Nat}
    (hn : n = (stepCursors r ks).countP (fun c => decide (c ≤ 8 * s.srcLen.toNat)))
    (hnone : s.stopAt (8 * out.length) (byteUnits ((stepBytes ks).take n)) = none) :
    StepsEnd s f r out ks none (s.decoded (r + cutCursor left.length (ks.flatMap LzStep.field))
      (out ++ (stepBytes ks).take n)) := by
  have hlen := hleft.length
  obtain ⟨pre, whole, u, post, hsplit, hlow, hhigh, hbytes, hcursor⟩ :=
    steps_split_bit (ks := ks) (N := 8 * s.srcLen.toNat) hleft.1 (by omega)
  rw [show 8 * s.srcLen.toNat - r = left.length by omega] at hcursor
  rw [hn, ← hbytes] at hnone ⊢
  rw [hcursor, ← Nat.add_assoc]
  rw [hsplit] at hrefers hcut ⊢
  rw [stepBits_append, stepBits_cons, LzStep.bits] at hcut
  obtain ⟨rest, rfl⟩ : stepBits pre <+: left :=
    List.prefix_of_prefix_length_le (List.prefix_append _ _) hcut (by omega)
  rw [List.prefix_append_right_inj] at hcut
  rw [List.length_append] at hlen
  have hrest : rest <+: u := List.prefix_of_prefix_length_le hcut (List.prefix_append _ _) (by omega)
  have hpre := passable_of_whole (refers_append.1 hrefers).1 hleft (f := f) (by omega) hnone
  have hend : LzStep.Fails s f (r + (stepBits pre).length) (out ++ stepBytes pre) (.read whole u) none _ :=
    .cut hf hleft.drop hrest (by omega)
  rw [show 8 * s.srcLen.toNat - (r + (stepBits pre).length) = rest.length by omega]
  exact ends_of_split hpre hend

end

end Sys2Proof.Machine
end

section
/-! SUPPORT. Proofs: The parts of LZ.DECOMP, step by step -/

namespace Sys2Proof.Machine

/-! ### Fields (40_bitstream.md R141 to R143, 41_prefix_table.md R192, R193) -/

/-- What the reading and writing of LZ.DECOMP rests on: the source is accessible up to byte `f`, the buffers pass the
checks, the memory is canonical, the selector tables hold codes. -/
structure Decoding (s : State) (f : Nat) : Prop extends Opened s f where
  checked : s.buffersOk = true
  canonical : Memory.wf s.mem = true
  selectors : selectorsOk s

section
variable {α : Type} {s : State} {f r : Nat} {out : List Byte} {a : α}

/-- A part that reads one field, and knows what to do when the source's end cuts it. -/
theorem Performs.of_carries {m : Rd α} {whole : Bool} {u : Bits} (hread : Carries s f m a u [])
    (hcut : ∀ {w rest : Bits} {e : Engine}, w.length ≤ 8 * s.dstCap.toNat → f = s.srcLen.toNat → s.Left r rest →
      rest <+: u → rest.length < u.length →
      m.run.run (s.working r w e) = .ok none (s.working (r + if whole then 0 else rest.length) w e)) :
    Performs s f r m out [.read whole u] a where
  passes hat hpass := by
    obtain ⟨⟨⟨rest, hleft⟩, hr⟩, -⟩ := hpass
    have hrun := hread.reads (e := Engine.reconstructed out.length) hat.fits hleft hr
    rw [stepBits_cons, stepBits_nil, stepBytes_cons, stepBytes_nil, LzStep.bits, LzStep.bytes, List.append_nil,
      List.append_nil, List.append_nil]
    exact hrun
  ends hat hends := by
    rcases hends with hfails | ⟨-, hnever⟩
    · cases hfails with
      | cut hf hleft hrest hshort => exact hcut hat.fits hf hleft hrest hshort
      | shut hf hleft hr hin => exact hread.shut hat.fits hleft hr hin
    · exact hnever.elim

variable (h : Decoding s f)
include h

theorem Decoding.sourceOk : s.sourceOk = true := (s.buffersOk_iff.1 h.checked).1

theorem readBit_performs (b : Bool) : Performs s f r readBit out [.read false [b]] b := by
  refine .of_carries (.of_read (fun {r w rest e} hw hleft hr => ?_) fun {r w rest e} hw hleft hr hf => ?_)
    fun {w rest e} hw hf hleft hrest hshort => ?_
  · rw [← State.working_skip]
    exact readBit_next (h.canRead h.sourceOk hr) (hleft.working_rest h.toBuffers hw)
  · rw [List.length_singleton] at hf
    obtain rfl : r = 8 * f := by omega
    have hlen := hleft.length
    have hsmall := h.source
    rw [List.length_append, List.length_singleton] at hlen
    have hstop := readBit_stops (s := s.working (8 * f) w e) (h.readStopsAt h.sourceOk (by omega) (Nat.add_zero _))
    rwa [State.working_rpos, word_toNat (by omega), Nat.mul_div_cancel_left _ (by decide)] at hstop
  · obtain rfl : rest = [] := List.eq_nil_of_length_eq_zero (by simpa using hshort)
    rw [readBit_run, if_pos (by rw [hleft.avail h.toBuffers]; simp)]
    rfl

/-- A field read all or nothing. -/
theorem readBits_performs (u : Bits) : Performs s f r (readBits u.length) out [.read true u] (bitsVal u) := by
  refine .of_carries (.of_read (fun {r w rest e} hw hleft hr => ?_) fun {r w rest e} hw hleft hr hf => ?_)
    fun {w rest e} hw hf hleft hrest hshort => ?_
  · have hrun := readBits_whole (h.canRead h.sourceOk hr (w := w) (e := e))
    rwa [hleft.working_rest h.toBuffers hw, List.take_left, State.working_skip] at hrun
  · have havail := hleft.avail h.toBuffers w e
    have hlen := hleft.length
    have hsmall := h.source
    rw [List.length_append] at havail hlen
    have hstop := readBits_stops (s := s.working r w e) (n := u.length) h.sourceOk (by omega) (by omega)
      (h.readStopsAt h.sourceOk (by omega) (Nat.add_sub_cancel' hr))
    rwa [State.working_skip, State.working_rpos, word_toNat (by omega), Nat.add_sub_cancel' hr,
      Nat.mul_div_cancel_left _ (by decide)] at hstop
  · exact readBits_short (by rwa [hleft.avail h.toBuffers])

theorem readByte_performs (b : Byte) : Performs s f r readByte out [.read true (natBits 8 b.toNat)] b := by
  have hbits := readBits_performs (r := r) (out := out) h (natBits 8 b.toNat)
  rw [natBits_length, bitsVal_natBits, Nat.mod_eq_of_lt b.isLt] at hbits
  refine hbits.bind_reads rfl (fun _ => ?_) rfl
  rw [byte_toNat_self]
  exact Performs.pure b

/-- A code; what is left of a code that is cut is consumed. -/
theorem decodeNext_performs {t : Fin 16} (hpf : PrefixFree (s.slot t).codes) {y : Nat} (hy : y < (s.slot t).codes.length) :
    Performs s f r (decodeNext t) out [.read false ((s.slot t).code y)] y := by
  refine .of_carries (decodeNext_carries h.toOpened h.sourceOk hpf hy) fun {w rest e} hw hf hleft hrest hshort => ?_
  have hmem : (s.slot t).code y ∈ (s.slot t).codes := by
    rw [Slot.code, List.getD_eq_getElem _ _ hy]
    exact List.getElem_mem hy
  have hno : ∀ c ∈ (s.slot t).codes, ¬ c <+: rest := fun c hc hprefix => by
    rw [List.prefix_iff_eq_take.1 hrest] at hprefix
    exact hpf.not_prefix_take hmem hc hshort hprefix
  have hcount := hleft.length
  have hread : (s.working r w e).canRead rest.length = true := h.canRead h.sourceOk (by omega)
  have hrun := decodeNext_truncated (s := s.working r w e) (k := t) (by rwa [hleft.avail h.toBuffers])
    (by rwa [hleft.working_rest h.toBuffers hw])
  rwa [hleft.avail h.toBuffers, State.working_skip] at hrun

/-! ### Bucket varints (42_varint.md R212) -/

omit h in
/-- A bucket varint, as the reader reads it. -/
def vintSteps (vint : Slot) (v : Nat) : List LzStep :=
  [.read false (vint.code (bucket v)), .read true (natBits (vintWidth (bucket v)) v)]

theorem vDecode_performs {v : Nat} (hv : v < 2 ^ 31) :
    Performs s f r vDecode out (vintSteps (s.slot vintSlot) v) (v, bucket v) := by
  obtain ⟨⟨hpf, hlen⟩, -⟩ := h.selectors
  refine (decodeNext_performs h hpf (y := bucket v) (hlen ▸ bucket_lt hv)).bind_reads rfl (fun _ => ?_) rfl
  have hraw := readBits_performs (r := r + (stepBits [.read false ((s.slot vintSlot).code (bucket v))]).length) (out := out) h
    (natBits (vintWidth (bucket v)) v)
  rw [natBits_length, bitsVal_natBits, Nat.mod_eq_of_lt (lt_two_pow_bucket hv)] at hraw
  exact hraw.bind_reads rfl (fun _ => Performs.pure _) rfl

/-! ### Reconstructed bytes (45_lz77.md R301, R302) -/

theorem outByte_performs (b : Byte) : Performs s f r (liftM (outByte b)) out [.write b] () where
  passes hat hpass := by
    obtain ⟨hwrite, -⟩ := hpass
    rw [LzStep.Passes, ← bytesBits_length] at hwrite
    have hrun : (writeByte b).run (s.decoded r out) = .ok () _ :=
      (writeString_working_whole (r := r) (e := Engine.reconstructed out.length) h.toBuffers hat.fits hwrite).1
    have hbyte : (outByte b).run (s.decoded r out) = .ok () (s.decoded r (out ++ [b])) := by
      rw [outByte, Eng.bind_ok hrun, modifyEng_working, State.decoded, bytesBits_append, bytesBits_cons,
        bytesBits_nil, List.append_nil, List.length_append]
      rfl
    exact Rd.lift_ok hbyte
  ends hat hends := by
    rcases hends with hfails | ⟨-, hnever⟩
    · cases hfails with
      | full hstop =>
        rw [← bytesBits_length] at hstop
        exact Rd.lift_error (Eng.bind_error (writeString_working_stops h.toBuffers hat.fits hstop))
    · exact hnever.elim

omit h in
/-- A part behind one that only looks at the state. -/
theorem Performs.value_bind {β : Type} {x : Eng α} {g : α → Rd β} {ks : List LzStep} {b : β}
    (hx : s.At r out → x.run (s.decoded r out) = .ok a (s.decoded r out)) (hg : Performs s f r (g a) out ks b) :
    Performs s f r (liftM x >>= g) out ks b where
  passes hat hpass := (Rd.lift_bind_ok (hx hat)).trans (hg.passes hat hpass)
  ends hat hends := (Rd.lift_bind_ok (hx hat)).trans (hg.ends hat hends)

/-- A byte of the output so far, read back. -/
theorem memRead_decoded (hat : s.At r out) {p : Nat} (hp : p < out.length) :
    (memRead (s.dstAddr.toNat + p)).run (s.decoded r out) = .ok (out.getD p 0#8) (s.decoded r out) := by
  have hok := hat.writable (8 * p) (by omega)
  rw [Nat.mul_div_cancel_left _ (by decide)] at hok
  have hend := State.destOk_end (s.buffersOk_iff.1 h.checked).2.1
  have hfits := hat.fits
  rw [bytesBits_length] at hfits
  have hslice := slice_storeBits h.canonical (base := s.dstAddr.toNat) (xs := out) (by omega)
  have hbyte : (s.decoded r out).mem.read (s.dstAddr.toNat + p) = out.getD p 0#8 := by
    have hget := congrArg (fun xs : List Byte => xs.getD p 0#8) hslice
    rw [← hget, Memory.slice, List.getD_eq_getElem _ _ (by simpa using hp), List.getElem_map, List.getElem_range]
    rfl
  rw [memRead_run, hbyte]
  exact if_pos hok

theorem copyLoop_performs (len : Nat) {p : Nat} (hp : p < out.length) :
    Performs s f r (liftM (copyLoop len p)) out ((copied len p out).map LzStep.write) () := by
  induction len generalizing p out with
  | zero => exact Performs.pure ()
  | succ len ih =>
    have hpush : Performs s f r (liftM (outByte (out.getD p 0#8)) >>= fun _ => liftM (copyLoop len (p + 1))) out
        ((copied (len + 1) p out).map LzStep.write) () := by
      refine (outByte_performs h (out.getD p 0#8)).bind (fun _ => ?_) rfl
      exact ih (by rw [stepBytes_cons, List.length_append]; simp [LzStep.bytes]; omega)
    rw [copyLoop, liftM_bind]
    refine Performs.get_bind fun hat => ?_
    rw [liftM_bind]
    refine Performs.value_bind (fun hat => memRead_decoded h hat hp) ?_
    rw [liftM_bind]
    exact hpush

omit h in
/-- An offset below the output length is held against it, and the steps behind it follow. -/
theorem Performs.refer {m : Rd α} {ks : List LzStep} {off : Nat} (hoff : off < out.length)
    (hm : Performs s f r m out ks a) : Performs s f r m out (.refer off :: ks) a where
  passes hat hpass := by
    have hrun := hm.passes hat (by simpa [LzStep.bits, LzStep.bytes] using hpass.2)
    simpa [LzStep.bits, LzStep.bytes] using hrun
  ends hat hends := by
    rcases hends with hfails | ⟨-, hks⟩
    · cases hfails with
      | corrupt hbad => omega
    · exact hm.ends hat (by simpa [LzStep.bits, LzStep.bytes] using hks)

omit h in
theorem copyRef_corrupt {off : Nat} (hoff : out.length ≤ off) (len : Nat) :
    (copyRef off len).run (s.decoded r out) = .error (.corruptRef off) (s.decoded r out) := by
  have hcond : (s.decoded r out).eng.outLen ≤ off := hoff
  rw [copyRef, Eng.bind_ok (Eng.get_run _), if_pos hcond]
  rfl

omit h in
theorem copyRef_good {off : Nat} (hoff : off < out.length) (len : Nat) :
    (copyRef off len).run (s.decoded r out) = (copyLoop len off).run (s.decoded r out) := by
  have hcond : ¬ (s.decoded r out).eng.outLen ≤ off := Nat.not_le.2 hoff
  rw [copyRef, Eng.bind_ok (Eng.get_run _), if_neg hcond]

/-- The steps of `Copy(off, len)` behind the output `out` (45_lz77.md R302). -/
def copySteps (out : List Byte) (off len : Nat) : List LzStep := .refer off :: (copied len off out).map LzStep.write

theorem copyRef_performs (off len : Nat) : Performs s f r (liftM (copyRef off len)) out (copySteps out off len) () := by
  rcases Nat.lt_or_ge off out.length with hoff | hoff
  · have hcopy := (copyLoop_performs (r := r) h len hoff).refer hoff
    have hrun : (liftM (copyRef off len) : Rd Unit).run.run (s.decoded r out) =
        (liftM (copyLoop len off) : Rd Unit).run.run (s.decoded r out) := by
      rcases hloop : (copyLoop len off).run (s.decoded r out) with ⟨⟨⟩, t⟩ | ⟨e, t⟩
      · rw [Rd.lift_ok hloop, Rd.lift_ok ((copyRef_good hoff len).trans hloop)]
      · rw [Rd.lift_error hloop, Rd.lift_error ((copyRef_good hoff len).trans hloop)]
    exact hcopy.congr hrun
  · have hnever : ¬ (LzStep.refer off).Passes s f r out := Nat.not_lt.2 hoff
    refine ⟨fun _ hpass => absurd hpass.1 hnever, fun _ hends => ?_⟩
    rcases hends with hfails | ⟨hpass, -⟩
    · cases hfails with
      | corrupt => exact Rd.lift_error (copyRef_corrupt hoff len)
    · exact absurd hpass hnever

/-! ### Tokens (45_lz77.md R301) -/

/-- The steps of a literal run under a table. -/
def runSteps (sl : Slot) (run : List Byte) : List LzStep :=
  run.flatMap (fun b => [.read false (sl.code b.toNat), .write b])

theorem decodeRun_performs {k : Nat} (hk : k < 4) (run : List Byte) :
    Performs s f r (decodeRun k run.length) out (runSteps (s.slot (candSlot k)) run) () := by
  obtain ⟨-, -, hcand⟩ := h.selectors
  obtain ⟨hpf, hlen⟩ := hcand k hk
  induction run generalizing r out with
  | nil => exact Performs.pure ()
  | cons b run ih =>
    refine (decodeNext_performs h hpf (y := b.toNat) (hlen ▸ b.isLt)).bind_reads rfl (fun _ => ?_) rfl
    rw [byte_toNat_self]
    exact (outByte_performs h b).bind (fun _ => ih) rfl

/-- The fields of a substitution token. -/
def substitutionReads (vint : Slot) (off len : Nat) : List LzStep :=
  .read false [true] :: .read false [true] :: (vintSteps vint off ++ vintSteps vint len)

/-- The steps of a token behind the output `out`. -/
def LzToken.steps (s : State) (out : List Byte) : LzToken → List LzStep
  | .literal k run =>
    .read false [false] :: vintSteps (s.slot vintSlot) run.length ++ [.read false ((s.slot metaSlot).code k)] ++
      runSteps (s.slot (candSlot k)) run
  | .substitution off len =>
    substitutionReads (s.slot vintSlot) off len ++ copySteps out off len

/-- The steps of the End token. -/
def endSteps : List LzStep := [.read false [true], .read false [false]]

theorem token_performs_literal {k : Nat} {run : List Byte} (hok : (LzToken.literal k run).ok = true) :
    Performs s f r token out ((LzToken.literal k run).steps s out) false := by
  simp only [LzToken.ok, Bool.and_eq_true, decide_eq_true_eq] at hok
  obtain ⟨hk, hrun⟩ := hok
  obtain ⟨-, ⟨hpf, hlen⟩, -⟩ := h.selectors
  refine (readBit_performs h false).bind_reads rfl (fun _ => ?_) rfl
  refine (vDecode_performs h hrun).bind_reads rfl (fun _ => ?_) rfl
  refine (decodeNext_performs h hpf (y := k) (hlen ▸ hk)).bind_reads rfl (fun _ => ?_) rfl
  exact (decodeRun_performs h hk run).bind (fun _ => Performs.pure false) (List.append_nil _).symm

theorem token_performs_substitution {off len : Nat} (hok : (LzToken.substitution off len).ok = true) :
    Performs s f r token out ((LzToken.substitution off len).steps s out) false := by
  simp only [LzToken.ok, Bool.and_eq_true, decide_eq_true_eq] at hok
  obtain ⟨hoff, hlen⟩ := hok
  refine (readBit_performs h true).bind_reads rfl (fun _ => ?_) rfl
  refine (readBit_performs h true).bind_reads rfl (fun _ => ?_) rfl
  refine (vDecode_performs h hoff).bind_reads rfl (fun _ => ?_) rfl
  refine (vDecode_performs h hlen).bind_reads rfl (fun _ => ?_) rfl
  exact (copyRef_performs h off len).bind (fun _ => Performs.pure false) (List.append_nil _).symm

theorem token_performs {k : LzToken} (hok : k.ok = true) : Performs s f r token out (k.steps s out) false := by
  cases k with
  | literal k run => exact token_performs_literal h hok
  | substitution off len => exact token_performs_substitution h hok

theorem token_performs_end : Performs s f r token out endSteps true := by
  refine (readBit_performs h true).bind_reads rfl (fun _ => ?_) rfl
  exact (readBit_performs h false).bind_reads rfl (fun _ => Performs.pure true) rfl

/-- The steps of tokens behind the output `out`. -/
def tokenSteps (s : State) : List Byte → List LzToken → List LzStep
  | _, [] => []
  | out, k :: ts => k.steps s out ++ tokenSteps s (out ++ stepBytes (k.steps s out)) ts

omit h in
/-- A token begins with a bit. -/
theorem LzToken.steps_pos (s : State) (out : List Byte) (k : LzToken) : 0 < (stepBits (k.steps s out)).length := by
  cases k <;> simp [LzToken.steps, substitutionReads, LzStep.bits]

/-- Tokens and then the End token, when the rounds allowed are more than the bits left. -/
theorem tokenLoop_performs {fuel : Nat} (hfuel : 8 * s.srcLen.toNat < r + fuel) {ts : List LzToken}
    (hok : ∀ k ∈ ts, k.ok = true) : Performs s f r (tokenLoop fuel) out (tokenSteps s out ts ++ endSteps) () := by
  induction ts generalizing fuel r out with
  | nil =>
    cases fuel with
    | zero => exact .of_at fun hat => absurd hat.cursor (by omega)
    | succ fuel => exact (token_performs_end h).bind_reads rfl (fun _ => Performs.pure ()) (List.append_nil _).symm
  | cons k ts ih =>
    cases fuel with
    | zero => exact .of_at fun hat => absurd hat.cursor (by omega)
    | succ fuel =>
      have hpos := LzToken.steps_pos s out k
      refine (token_performs h (hok k List.mem_cons_self)).bind (fun _ => ?_) (List.append_assoc _ _ _)
      exact ih (by omega) fun j hj => hok j (List.mem_cons_of_mem k hj)

end

end Sys2Proof.Machine
end

section
/-! SUPPORT. Proofs: The container that LZ.DECOMP reads -/

namespace Sys2Proof.Machine

/-! ### The hint (42_varint.md R216, 45_lz77.md R303) -/

/-- The hint as a reader: one that has no value is a read failure, since LZ.DECOMP then goes on as after one
(45_lz77.md R303). -/
def readHint (left x sh : Nat) : Rd Nat := do
  match ← uvDecodeLoop left x sh with
  | .value v => pure v
  | _ => failure

/-- The steps of the hint. -/
def hintSteps (hint : List Byte) : List LzStep := hint.map (fun b => .read true (natBits 8 b.toNat))

section
variable {t u : State} {left x sh : Nat}

theorem readHint_of_value {v : Nat} (h : (uvDecodeLoop left x sh).run t = .ok (.value v) u) :
    (readHint left x sh).run.run t = .ok (some v) u := Rd.lift_bind_ok h

theorem readHint_of_fail (h : (uvDecodeLoop left x sh).run t = .ok .fail u) :
    (readHint left x sh).run.run t = .ok none u := Rd.lift_bind_ok h

theorem readHint_of_overflow (h : (uvDecodeLoop left x sh).run t = .ok .overflow u) :
    (readHint left x sh).run.run t = .ok none u := Rd.lift_bind_ok h

theorem readHint_of_error {e : Raised} (h : (uvDecodeLoop left x sh).run t = .error e u) :
    (readHint left x sh).run.run t = .error e u := Rd.lift_bind_error h

/-- The hint begins with a byte. -/
theorem readHint_succ (t : State) : (readHint (left + 1) x sh).run.run t = (readByte >>= fun b =>
    if b.toNat < 128 then if left = 0 ∧ 1 < b.toNat then failure else pure (x + b.toNat * 2 ^ sh)
    else readHint left (x + b.toNat % 128 * 2 ^ sh) (sh + 7)).run.run t := by
  rcases hbyte : readByte.run.run t with ⟨_ | b, u⟩ | ⟨e, u⟩
  · rw [Rd.bind_none hbyte]
    refine readHint_of_fail ?_
    rw [uvDecodeLoop, Eng.bind_ok hbyte]
    rfl
  · rw [Rd.bind_some hbyte]
    by_cases hlast : b.toNat < 128
    · by_cases hbig : left = 0 ∧ 1 < b.toNat
      · rw [if_pos hlast, if_pos hbig]
        obtain ⟨rfl, hb⟩ := hbig
        exact readHint_of_overflow (uvDecodeLoop_overflow hbyte hb)
      · rw [if_pos hlast, if_neg hbig]
        exact readHint_of_value (uvDecodeLoop_last hbyte hlast (by omega))
    · rw [if_neg hlast]
      have hloop : (uvDecodeLoop (left + 1) x sh).run t =
          (uvDecodeLoop left (x + b.toNat % 128 * 2 ^ sh) (sh + 7)).run u := by
        rw [uvDecodeLoop, Eng.bind_ok hbyte]
        simp only [if_neg hlast]
      rcases hrest : (uvDecodeLoop left (x + b.toNat % 128 * 2 ^ sh) (sh + 7)).run u with ⟨v | _ | _, u'⟩ | ⟨e, u'⟩
      · rw [readHint_of_value hrest, readHint_of_value (hloop.trans hrest)]
      · rw [readHint_of_fail hrest, readHint_of_fail (hloop.trans hrest)]
      · rw [readHint_of_overflow hrest, readHint_of_overflow (hloop.trans hrest)]
      · rw [readHint_of_error hrest, readHint_of_error (hloop.trans hrest)]
  · rw [Rd.bind_error hbyte]
    exact readHint_of_error (uvDecodeLoop_error hbyte)

end

section
variable {s : State} {f r : Nat} {out : List Byte} (h : Decoding s f)
include h

/-- Continued bytes and a last one are read. -/
theorem readHint_performs {front : List Byte} {last : Byte} {left : Nat} (hfront : ∀ b ∈ front, 128 ≤ b.toNat)
    (hlast : last.toNat < 128) (hten : left = 0 → last.toNat ≤ 1) (x sh : Nat) :
    ∃ v, Performs s f r (readHint (front.length + (left + 1)) x sh) out (hintSteps (front ++ [last])) v := by
  induction front generalizing r x sh with
  | nil =>
    rw [List.length_nil, Nat.zero_add]
    refine ⟨x + last.toNat * 2 ^ sh, Performs.congr ?_ (readHint_succ _)⟩
    refine (readByte_performs h last).bind_reads rfl (fun _ => ?_) rfl
    rw [if_pos hlast, if_neg fun hbig => absurd (hten hbig.1) (Nat.not_le.2 hbig.2)]
    exact Performs.pure _
  | cons b front ih =>
    have hb := hfront b List.mem_cons_self
    obtain ⟨v, hrest⟩ := ih (r := r + (stepBits [.read true (natBits 8 b.toNat)]).length)
      (fun c hc => hfront c (List.mem_cons_of_mem b hc)) (x + b.toNat % 128 * 2 ^ sh) (sh + 7)
    refine ⟨v, ?_⟩
    rw [List.length_cons, Nat.add_right_comm]
    refine Performs.congr ?_ (readHint_succ _)
    refine (readByte_performs h b).bind_reads rfl (fun _ => ?_) rfl
    rw [if_neg (Nat.not_lt.2 hb)]
    exact hrest

theorem hint_performs {hint : List Byte} (hwf : uvWellFormed hint = true) :
    ∃ v, Performs s f r (readHint Config.uvMaxBytes 0 0) out (hintSteps hint) v := by
  rcases List.eq_nil_or_concat hint with rfl | ⟨front, last, rfl⟩
  · cases hwf
  · rw [List.concat_eq_append] at hwf ⊢
    obtain ⟨hlast, hfront, hnine, hten⟩ := (uvWellFormed_iff front last).1 hwf
    have hlen : Config.uvMaxBytes = front.length + (9 - front.length + 1) := by
      rw [Config.uvMaxBytes]
      omega
    rw [hlen]
    exact readHint_performs h hfront hlast (fun _ => hten (by omega)) 0 0

/-! ### The container (45_lz77.md R305) -/

omit h in
/-- What LZ.DECOMP reads: the hint, then the tokens. -/
def readContainer : Rd Unit := do
  let _ ← readHint Config.uvMaxBytes 0 0
  tokenLoop ((← get).avail + 1)

omit h in
/-- The steps of a container. -/
def containerSteps (s : State) (hint : List Byte) (ts : List LzToken) : List LzStep :=
  hintSteps hint ++ (tokenSteps s [] ts ++ endSteps)

omit h in
theorem State.decoded_avail (hsmall : 8 * s.srcLen.toNat < 2 ^ 32) (hr : r ≤ 8 * s.srcLen.toNat) :
    (s.decoded r out).avail = 8 * s.srcLen.toNat - r := by
  rw [State.avail, State.decoded, State.working_rpos, State.working_srcLen, word_toNat (by omega)]

omit h in
theorem hintSteps_bytes (hint : List Byte) : stepBytes (hintSteps hint) = [] := by
  induction hint with
  | nil => rfl
  | cons b hint ih => exact ih

theorem readContainer_performs {hint : List Byte} (hwf : uvWellFormed hint = true) {ts : List LzToken}
    (hok : ∀ k ∈ ts, k.ok = true) : Performs s f 0 readContainer [] (containerSteps s hint ts) () := by
  obtain ⟨v, hhint⟩ := hint_performs (r := 0) (out := []) h hwf
  refine hhint.bind_reads (hintSteps_bytes hint) (fun _ => Performs.get_bind fun hat => ?_) rfl
  have hcursor := hat.cursor
  rw [State.decoded_avail h.source hcursor]
  exact tokenLoop_performs h (by omega) hok

end

/-! ### What the steps of a container read and write (30_encoding.md R115, R116) -/

section
variable {s : State}

theorem runSteps_bits (sl : Slot) (run : List Byte) : stepBits (runSteps sl run) = literalCodes sl run := by
  induction run with
  | nil => rfl
  | cons b run ih => exact congrArg (sl.code b.toNat ++ ·) ih

theorem runSteps_bytes (sl : Slot) (run : List Byte) : stepBytes (runSteps sl run) = run := by
  induction run with
  | nil => rfl
  | cons b run ih => exact congrArg (b :: ·) ih

theorem writeSteps_bits (bs : List Byte) : stepBits (bs.map LzStep.write) = [] := by
  induction bs with
  | nil => rfl
  | cons b bs ih => exact ih

theorem writeSteps_bytes (bs : List Byte) : stepBytes (bs.map LzStep.write) = bs := by
  induction bs with
  | nil => rfl
  | cons b bs ih => exact congrArg (b :: ·) ih

theorem substitutionReads_bytes (vint : Slot) (off len : Nat) : stepBytes (substitutionReads vint off len) = [] := rfl

theorem steps_bits (out : List Byte) (k : LzToken) : stepBits (k.steps s out) = k.bits s := by
  cases k with
  | literal k run => simp [LzToken.steps, LzToken.bits, vintSteps, vintBits, vintFieldBits, LzStep.bits, runSteps_bits]
  | substitution off len =>
    simp [LzToken.steps, substitutionReads, LzToken.bits, vintSteps, vintBits, vintFieldBits, LzStep.bits, copySteps,
      writeSteps_bits]

theorem steps_bytes_literal (out : List Byte) (k : Nat) (run : List Byte) :
    stepBytes ((LzToken.literal k run).steps s out) = run := by
  simp [LzToken.steps, vintSteps, LzStep.bytes, runSteps_bytes]

theorem steps_bytes_substitution (out : List Byte) (off len : Nat) :
    stepBytes ((LzToken.substitution off len).steps s out) = copied len off out := by
  simp [LzToken.steps, substitutionReads_bytes, LzStep.bytes, copySteps, writeSteps_bytes]

theorem tokenSteps_bits (out : List Byte) (ts : List LzToken) :
    stepBits (tokenSteps s out ts) = ts.flatMap (LzToken.bits s) := by
  induction ts generalizing out with
  | nil => rfl
  | cons k ts ih => rw [tokenSteps, stepBits_append, steps_bits, ih, List.flatMap_cons]

/-! ### Which offsets they refer to (45_lz77.md R302) -/

/-- Steps that refer to no offset. -/
theorem refers_of_none {ks : List LzStep} (h : ∀ off, LzStep.refer off ∉ ks) (out : List Byte) : Refers out ks := by
  induction ks generalizing out with
  | nil => exact trivial
  | cons k ks ih =>
    refine ⟨fun off hk => absurd ?_ (h off), ih (fun off hmem => h off (List.mem_cons_of_mem k hmem)) _⟩
    rw [hk]
    exact List.mem_cons_self

theorem literal_refers (out : List Byte) (k : Nat) (run : List Byte) :
    Refers out ((LzToken.literal k run).steps s out) :=
  refers_of_none (by simp [LzToken.steps, vintSteps, runSteps]) out

theorem substitutionReads_refers (vint : Slot) (off len : Nat) (out : List Byte) :
    Refers out (substitutionReads vint off len) :=
  refers_of_none (by simp [substitutionReads, vintSteps]) out

theorem substitution_refers {out : List Byte} {off : Nat} (hoff : off < out.length) (len : Nat) :
    Refers out ((LzToken.substitution off len).steps s out) := by
  refine refers_append.2 ⟨substitutionReads_refers _ off len out, ?_⟩
  rw [substitutionReads_bytes, List.append_nil]
  exact ⟨by rintro _ ⟨⟩; exact hoff, refers_of_none (by simp) _⟩

/-- The steps of tokens write what the tokens rebuild, and refer to offsets of the output. -/
theorem tokenSteps_rebuild {ts : List LzToken} {out all : List Byte} (h : reconstruct ts out = some all) :
    out ++ stepBytes (tokenSteps s out ts) = all ∧ Refers out (tokenSteps s out ts) := by
  induction ts generalizing out with
  | nil =>
    refine ⟨?_, trivial⟩
    rw [tokenSteps, stepBytes_nil, List.append_nil]
    exact Option.some.inj h
  | cons k ts ih =>
    rw [tokenSteps, stepBytes_append, ← List.append_assoc, refers_append]
    cases k with
    | literal k run =>
      rw [reconstruct] at h
      rw [steps_bytes_literal]
      exact ⟨(ih h).1, literal_refers out k run, (ih h).2⟩
    | substitution off len =>
      rw [reconstruct, copyOut_eq] at h
      split_ifs at h with hoff
      rw [steps_bytes_substitution]
      exact ⟨(ih h).1, substitution_refers hoff len, (ih h).2⟩

/-! ### When they write (45_lz77.md R301, R302) -/

/-- Behind steps that write nothing the cursors are those of the steps that follow. -/
theorem stepCursors_reads {r : Nat} {ks js : List LzStep} (h : stepBytes ks = []) :
    stepCursors r (ks ++ js) = stepCursors (r + (stepBits ks).length) js := by
  have hnone : stepCursors r ks = [] := List.eq_nil_of_length_eq_zero (by rw [stepCursors_length, h, List.length_nil])
  rw [stepCursors_append, hnone, List.nil_append]

theorem runSteps_cursors (r : Nat) (sl : Slot) (run : List Byte) : stepCursors r (runSteps sl run) =
    (List.range run.length).map (fun j => r + (literalCodes sl (run.take (j + 1))).length) := by
  induction run generalizing r with
  | nil => rfl
  | cons b run ih =>
    have hsplit : runSteps sl (b :: run) = .read false (sl.code b.toNat) :: .write b :: runSteps sl run := rfl
    rw [hsplit, stepCursors, stepCursors, ih]
    simp [List.range_succ_eq_map, LzStep.bytes, LzStep.bits, literalCodes, Function.comp_def, Nat.add_assoc]

theorem writeSteps_cursors (r : Nat) (bs : List Byte) : stepCursors r (bs.map LzStep.write) = List.replicate bs.length r := by
  induction bs with
  | nil => rfl
  | cons b bs ih => exact congrArg (r :: ·) ih

theorem steps_cursors (out : List Byte) (r : Nat) (k : LzToken) : stepCursors r (k.steps s out) = k.cursors s r := by
  have hbits := steps_bits (s := s) out k
  cases k with
  | literal k run =>
    rw [LzToken.steps] at hbits ⊢
    rw [stepBits_append _ (runSteps _ _), runSteps_bits] at hbits
    rw [stepCursors_reads rfl, runSteps_cursors, LzToken.cursors, ← hbits, List.length_append, ← Nat.add_assoc,
      Nat.add_sub_cancel]
  | substitution off len =>
    rw [LzToken.steps] at hbits ⊢
    rw [stepBits_append, copySteps, stepBits_cons, writeSteps_bits, LzStep.bits, List.append_nil, List.append_nil] at hbits
    rw [stepCursors_reads (substitutionReads_bytes _ off len), hbits, LzToken.cursors, copySteps, stepCursors,
      writeSteps_cursors, copied_length]
    rfl

theorem tokenSteps_cursors (out : List Byte) (r : Nat) (ts : List LzToken) :
    stepCursors r (tokenSteps s out ts) = outputCursors s r ts := by
  induction ts generalizing out r with
  | nil => rfl
  | cons k ts ih => rw [tokenSteps, stepCursors_append, steps_cursors, ih, outputCursors, steps_bits]

/-! ### Their fields -/

theorem runSteps_fields (sl : Slot) (run : List Byte) :
    (runSteps sl run).flatMap LzStep.field = run.map (fun b => (false, sl.code b.toNat)) := by
  induction run with
  | nil => rfl
  | cons b run ih => exact congrArg ((false, sl.code b.toNat) :: ·) ih

theorem writeSteps_fields (bs : List Byte) : (bs.map LzStep.write).flatMap LzStep.field = [] := by
  induction bs with
  | nil => rfl
  | cons b bs ih => exact ih

theorem steps_fields (out : List Byte) (k : LzToken) : (k.steps s out).flatMap LzStep.field = k.fields s := by
  cases k with
  | literal k run => simp [LzToken.steps, LzToken.fields, vintSteps, vintFields, LzStep.field, runSteps_fields]
  | substitution off len =>
    simp [LzToken.steps, substitutionReads, LzToken.fields, vintSteps, vintFields, LzStep.field, copySteps,
      writeSteps_fields]

theorem tokenSteps_fields (out : List Byte) (ts : List LzToken) :
    (tokenSteps s out ts).flatMap LzStep.field = ts.flatMap (LzToken.fields s) := by
  induction ts generalizing out with
  | nil => rfl
  | cons k ts ih => rw [tokenSteps, List.flatMap_append, steps_fields, ih, List.flatMap_cons]

/-! ### The container as a whole -/

theorem hintSteps_bits (hint : List Byte) : stepBits (hintSteps hint) = bytesBits hint := by
  induction hint with
  | nil => rfl
  | cons b hint ih => exact congrArg (natBits 8 b.toNat ++ ·) ih

theorem hintSteps_fields (hint : List Byte) :
    (hintSteps hint).flatMap LzStep.field = hint.map (fun b => (true, natBits 8 b.toNat)) := by
  induction hint with
  | nil => rfl
  | cons b hint ih => exact congrArg ((true, natBits 8 b.toNat) :: ·) ih

theorem containerSteps_bits (hint : List Byte) (ts : List LzToken) :
    stepBits (containerSteps s hint ts) = containerBits s hint ts := by
  rw [containerSteps, stepBits_append, stepBits_append, hintSteps_bits, tokenSteps_bits, ← List.append_assoc]
  rfl

theorem containerSteps_fields (hint : List Byte) (ts : List LzToken) :
    (containerSteps s hint ts).flatMap LzStep.field = containerFields s hint ts := by
  rw [containerSteps, List.flatMap_append, List.flatMap_append, hintSteps_fields, tokenSteps_fields, ← List.append_assoc]
  rfl

theorem containerSteps_cursors (hint : List Byte) (ts : List LzToken) :
    stepCursors 0 (containerSteps s hint ts) = outputCursors s (8 * hint.length) ts := by
  rw [containerSteps, stepCursors_reads (hintSteps_bytes hint), hintSteps_bits, bytesBits_length, Nat.zero_add,
    stepCursors_append, tokenSteps_cursors]
  exact List.append_nil _

theorem containerSteps_rebuild {hint : List Byte} {ts : List LzToken} {out : List Byte} (h : reconstruct ts [] = some out) :
    stepBytes (containerSteps s hint ts) = out ∧ Refers [] (containerSteps s hint ts) := by
  obtain ⟨hbytes, hrefers⟩ := tokenSteps_rebuild (s := s) h
  rw [List.nil_append] at hbytes
  constructor
  · rw [containerSteps, stepBytes_append, stepBytes_append, hintSteps_bytes, hbytes]
    exact List.append_nil _
  · rw [containerSteps, refers_append, refers_append, hintSteps_bytes]
    exact ⟨refers_of_none (by simp [hintSteps]) _, hrefers, refers_of_none (by simp [endSteps]) _⟩

end

end Sys2Proof.Machine
end

section
/-! SUPPORT. Proofs: LZ.DECOMP to its end, and the LZ77 round trip -/

namespace Sys2Proof.Machine

/-! ### LZ.DECOMP with the hint and the tokens in one reader (45_lz77.md R303, R305) -/

/-- What LZ.DECOMP does once it has started. -/
def lzDecompBody : Eng Unit := readContainer.run >>= fun _ => close >>= fun n => setRes0 n

section
variable {α β : Type} {s t u : State}

/-- What follows a part depends on the end of that part alone. -/
theorem Eng.bind_congr {x y : Eng α} (f : α → Eng β) (h : x.run t = y.run u) : (x >>= f).run t = (y >>= f).run u := by
  rcases hy : y.run u with ⟨a, v⟩ | ⟨e, v⟩
  · rw [Eng.bind_ok (h.trans hy), Eng.bind_ok hy]
  · rw [Eng.bind_error (h.trans hy), Eng.bind_error hy]

theorem readContainer_of_value {v : Nat} (h : uvDecode.run t = .ok (.value v) u) :
    readContainer.run.run t = (tokenLoop (u.avail + 1)).run.run u :=
  (Rd.bind_some (readHint_of_value h)).trans (Rd.bind_some (Rd.get_run u))

theorem readContainer_of_fail (h : uvDecode.run t = .ok .fail u) : readContainer.run.run t = .ok none u :=
  Rd.bind_none (readHint_of_fail h)

theorem readContainer_of_overflow (h : uvDecode.run t = .ok .overflow u) : readContainer.run.run t = .ok none u :=
  Rd.bind_none (readHint_of_overflow h)

theorem readContainer_of_error {e : Raised} (h : uvDecode.run t = .error e u) : readContainer.run.run t = .error e u :=
  Rd.bind_error (readHint_of_error h)

theorem runCommand_congr {m m' : Eng Unit} (h : m.run t = m'.run u) : runCommand m t = runCommand m' u := by
  rw [runCommand, h, ← runCommand]

theorem reporting_congr {report : State → State} {x y : Eng α} (h : x.run t = y.run t) :
    (reporting report x).run t = (reporting report y).run t := by
  rcases hy : y.run t with ⟨a, v⟩ | ⟨e, v⟩
  · rw [reporting_ok (h.trans hy), reporting_ok hy]
  · rw [reporting_error (h.trans hy), reporting_error hy]

/-- A hint without a value and tokens cut short lead to the same end of the command. -/
theorem execLzDecomp_eq (hok : s.buffersOk = true) :
    execLzDecomp s = runCommand (reporting lzDecompReport lzDecompBody) (s.working 0 [] Engine.idle) := by
  refine runCommand_congr ?_
  rw [Eng.bind_ok (checkBuffers_ok hok), Eng.bind_ok (startHighLevel_working s)]
  refine reporting_congr ?_
  rcases hhint : uvDecode.run (s.working 0 [] Engine.idle) with ⟨v | _ | _, u⟩ | ⟨e, u⟩
  · rw [Eng.bind_ok hhint, lzDecompBody]
    refine (Eng.bind_ok (Eng.get_run u)).trans ?_
    exact (Eng.bind_congr _ (readContainer_of_value hhint)).symm
  · rw [Eng.bind_ok hhint, lzDecompBody, Eng.bind_ok (readContainer_of_fail hhint)]
  · rw [Eng.bind_ok hhint, lzDecompBody, Eng.bind_ok (readContainer_of_overflow hhint)]
  · rw [Eng.bind_error hhint, lzDecompBody, Eng.bind_error (readContainer_of_error hhint)]

end

/-! ### How LZ.DECOMP ends (45_lz77.md R305, 60_exceptions.md R329) -/

section
variable {s : State} (hok : s.buffersOk = true)
include hok

/-- LZ.DECOMP succeeds when its reader ends without an error, at a value or not. -/
theorem lzDecomp_ok {r : Nat} {out : List Byte} {o : Option Unit} (hnone : s.stopAt 0 (byteUnits out) = none)
    (h : readContainer.run.run (s.decoded 0 []) = .ok o (s.decoded r out)) :
    succeeds .lzDecomp s (s.produced r (bytesBits out) out.length) := by
  obtain ⟨hfit, hwritable⟩ := State.stopAt_none hnone (Nat.zero_le _)
  simp only [byteUnits_flatten, Nat.zero_add] at hfit hwritable
  have hclose := close_working (r := r) (e := Engine.reconstructed out.length) (Buffers.of_ok hok) hfit hwritable
  rw [padded_bytesBits, bytesBits_length, Nat.mul_div_cancel_left _ (by decide)] at hclose
  have hbody : lzDecompBody.run (s.decoded 0 []) = .ok () { s.decoded r out with res0 := word out.length } := by
    rw [lzDecompBody, Eng.bind_ok h, State.decoded, Eng.bind_ok hclose, setRes0_run]
  have hend := (execLzDecomp_eq hok).trans (runCommand_ok (reporting_ok hbody))
  exact hend

/-- An error keeps what is written and reports the bytes begun. -/
theorem lzDecomp_error {r : Nat} {w : Bits} {e : Engine} {err : Raised} (hw : w.length ≤ 8 * s.dstCap.toNat)
    (h : readContainer.run.run (s.decoded 0 []) = .error err (s.working r w e)) :
    failsWith .lzDecomp s err (s.produced r w ((w.length + 7) / 8)) := by
  have hcap := (Buffers.of_ok hok).dest
  have hbytes : (s.working r w e).outputBytes = (w.length + 7) / 8 := by
    rw [State.outputBytes, State.working_wpos, word_toNat (by omega)]
  have hreport : (lzDecompReport (s.working r w e)).takeError err = (s.produced r w ((w.length + 7) / 8)).takeError err := by
    rw [lzDecompReport, hbytes]
    rfl
  have hbody : lzDecompBody.run (s.decoded 0 []) = .error err (s.working r w e) := Eng.bind_error h
  rw [failsWith, ← hreport]
  exact (execLzDecomp_eq hok).trans (runCommand_error (reporting_error hbody))

end

/-! ### LZ.DECOMP of the steps of a container -/

theorem State.At.start (s : State) : s.At 0 [] := ⟨Nat.zero_le _, rfl⟩

section
variable {s : State} {f : Nat} (h : Decoding s f) {hint : List Byte} {ts : List LzToken}
  (hwf : uvWellFormed hint = true) (hok : ∀ k ∈ ts, k.ok = true)
include h hwf hok

/-- Steps that can all be done are done. -/
theorem lzDecomp_passes (hpass : Passable s f 0 [] (containerSteps s hint ts)) :
    succeeds .lzDecomp s (s.produced (stepBits (containerSteps s hint ts)).length
      (bytesBits (stepBytes (containerSteps s hint ts))) (stepBytes (containerSteps s hint ts)).length) := by
  have hrun := (readContainer_performs h hwf hok).passes (State.At.start s) hpass
  have hat := (State.At.start s).steps hpass
  rw [Nat.zero_add, List.nil_append] at hrun hat
  exact lzDecomp_ok h.checked hat.written hrun

/-- A read failure ends the decoding with success. -/
theorem lzDecomp_stops {r : Nat} {out : List Byte} (hnone : s.stopAt 0 (byteUnits out) = none)
    (hends : StepsEnd s f 0 [] (containerSteps s hint ts) none (s.decoded r out)) :
    succeeds .lzDecomp s (s.produced r (bytesBits out) out.length) :=
  lzDecomp_ok h.checked hnone ((readContainer_performs h hwf hok).ends (State.At.start s) hends)

/-- An error ends it with the error. -/
theorem lzDecomp_fails {r : Nat} {w : Bits} {e : Engine} {err : Raised} (hw : w.length ≤ 8 * s.dstCap.toNat)
    (hends : StepsEnd s f 0 [] (containerSteps s hint ts) (some err) (s.working r w e)) :
    failsWith .lzDecomp s err (s.produced r w ((w.length + 7) / 8)) :=
  lzDecomp_error h.checked hw ((readContainer_performs h hwf hok).ends (State.At.start s) hends)

/-- An error behind whole bytes. -/
theorem lzDecomp_fails_bytes {r : Nat} {out : List Byte} {err : Raised} (hnone : s.stopAt 0 (byteUnits out) = none)
    (hends : StepsEnd s f 0 [] (containerSteps s hint ts) (some err) (s.decoded r out)) :
    failsWith .lzDecomp s err (s.produced r (bytesBits out) out.length) := by
  have hroom := State.stopAt_room hnone
  rw [byteUnits_flatten] at hroom
  have hend := lzDecomp_fails h hwf hok hroom hends
  rwa [bytesBits_length, show (8 * out.length + 7) / 8 = out.length by omega] at hend

end

/-! ### Whole containers and bad offsets (45_lz77.md R301, R302, R305) -/

theorem Decoding.of_open {s : State} (hmem : Memory.wf s.mem = true) (hsel : selectorsOk s) (hok : s.buffersOk = true)
    (hopen : s.sourceOpen = true) : Decoding s s.srcLen.toNat :=
  ⟨Opened.of_open (Buffers.of_ok hok) hopen, hok, hmem, hsel⟩

theorem Decoding.of_shut {s : State} {f : Nat} (hmem : Memory.wf s.mem = true) (hsel : selectorsOk s)
    (hok : s.buffersOk = true) (hshut : s.sourceShut f = true) : Decoding s f ∧ f < s.srcLen.toNat := by
  obtain ⟨hopened, hf⟩ := Opened.of_shut (Buffers.of_ok hok) hshut
  exact ⟨⟨hopened, hok, hmem, hsel⟩, hf⟩

theorem Decoding.of_ready {s : State} {room : Nat} (hmem : Memory.wf s.mem = true) (hsel : selectorsOk s)
    (hready : s.ready room = true) : Decoding s s.srcLen.toNat := by
  obtain ⟨hok, hopen, -⟩ := State.ready_iff.1 hready
  exact .of_open hmem hsel hok hopen

/-- What is left at the start of a source that begins with some bits, all of them inside it. -/
theorem State.Left.of_prefix {s : State} {u : Bits} (h : u <+: s.sourceStream) :
    (∃ rest, s.Left 0 (u ++ rest)) ∧ u.length ≤ 8 * s.srcLen.toNat := by
  have hlen := h.length_le
  rw [s.sourceStream_length] at hlen
  obtain ⟨rest, hrest⟩ := h
  exact ⟨⟨rest, hrest ▸ State.Left.start s⟩, hlen⟩

section
variable {s : State} {f : Nat} {hint : List Byte} {ts : List LzToken} {out : List Byte} (hmem : Memory.wf s.mem = true)
  (hsel : selectorsOk s) (hwf : uvWellFormed hint = true) (hok : ∀ k ∈ ts, k.ok = true)
  (hrebuild : reconstruct ts [] = some out)
include hmem hsel hwf hok hrebuild

/-- A whole container is decoded up to its End token. -/
theorem lzDecomp_whole (hready : s.ready (8 * out.length) = true) (hstream : containerBits s hint ts <+: s.sourceStream) :
    succeeds .lzDecomp s (s.produced (containerBits s hint ts).length (bytesBits out) out.length) := by
  obtain ⟨hbytes, hrefers⟩ := containerSteps_rebuild (s := s) (hint := hint) hrebuild
  obtain ⟨⟨rest, hleft⟩, hlen⟩ := State.Left.of_prefix hstream
  rw [← containerSteps_bits] at hleft hlen
  have hpass := passable_of_whole hrefers hleft (f := s.srcLen.toNat) (by omega)
    (by rw [hbytes]; exact byteUnits_fit hready)
  have hend := lzDecomp_passes (.of_ready hmem hsel hready) hwf hok hpass
  rwa [containerSteps_bits, hbytes] at hend

end

theorem tokenSteps_append (s : State) (out : List Byte) (ts : List LzToken) (k : LzToken) :
    tokenSteps s out (ts ++ [k]) =
      tokenSteps s out ts ++ k.steps s (out ++ stepBytes (tokenSteps s out ts)) := by
  induction ts generalizing out with
  | nil => simp [tokenSteps]
  | cons j ts ih => rw [List.cons_append, tokenSteps, ih, tokenSteps, List.append_assoc, stepBytes_append, List.append_assoc]

/-- The steps of a container up to the offset of its last token, a substitution. -/
def stepsToOffset (s : State) (hint : List Byte) (ts : List LzToken) (off len : Nat) : List LzStep :=
  hintSteps hint ++ (tokenSteps s [] ts ++ substitutionReads (s.slot vintSlot) off len)

section
variable {s : State} {hint : List Byte} {ts : List LzToken} {out : List Byte}

theorem containerSteps_substitution (off len : Nat) : ∃ post,
    containerSteps s hint (ts ++ [.substitution off len]) = stepsToOffset s hint ts off len ++ .refer off :: post := by
  refine ⟨(copied len off (stepBytes (tokenSteps s [] ts))).map LzStep.write ++ endSteps, ?_⟩
  simp only [containerSteps, tokenSteps_append, LzToken.steps, copySteps, stepsToOffset, List.append_assoc,
    List.cons_append, List.nil_append]

theorem stepsToOffset_bits (off len : Nat) : stepBits (stepsToOffset s hint ts off len) =
    bytesBits hint ++ (ts ++ [LzToken.substitution off len]).flatMap (LzToken.bits s) := by
  have hreads : stepBits (substitutionReads (s.slot vintSlot) off len) = (LzToken.substitution off len).bits s := by
    rw [← steps_bits [], LzToken.steps, stepBits_append, copySteps, stepBits_cons, writeSteps_bits]
    exact (List.append_nil _).symm
  rw [stepsToOffset, stepBits_append, stepBits_append, hintSteps_bits, tokenSteps_bits, hreads, List.flatMap_append,
    List.flatMap_singleton]

theorem stepsToOffset_rebuild (hrebuild : reconstruct ts [] = some out) (off len : Nat) :
    stepBytes (stepsToOffset s hint ts off len) = out ∧ Refers [] (stepsToOffset s hint ts off len) := by
  obtain ⟨hbytes, hrefers⟩ := tokenSteps_rebuild (s := s) hrebuild
  rw [List.nil_append] at hbytes
  constructor
  · rw [stepsToOffset, stepBytes_append, stepBytes_append, hintSteps_bytes, hbytes, substitutionReads_bytes,
      List.nil_append, List.append_nil]
  · rw [stepsToOffset, refers_append, refers_append, hintSteps_bytes]
    exact ⟨refers_of_none (by simp [hintSteps]) _, hrefers, substitutionReads_refers _ off len _⟩

/-- A substitution whose offset is not below the output length. -/
theorem lzDecomp_corrupt (hmem : Memory.wf s.mem = true) (hsel : selectorsOk s) (hwf : uvWellFormed hint = true)
    (hok : ∀ k ∈ ts, k.ok = true) (hrebuild : reconstruct ts [] = some out) (hready : s.ready (8 * out.length) = true)
    {off len : Nat} (hoff : off < 2 ^ 31) (hlen : len < 2 ^ 31) (hbad : out.length ≤ off)
    (hstream : bytesBits hint ++ (ts ++ [LzToken.substitution off len]).flatMap (LzToken.bits s) <+: s.sourceStream) :
    failsWith .lzDecomp s (.corruptRef off)
      (s.produced (bytesBits hint ++ (ts ++ [LzToken.substitution off len]).flatMap (LzToken.bits s)).length
        (bytesBits out) out.length) := by
  obtain ⟨hbytes, hrefers⟩ := stepsToOffset_rebuild (s := s) (hint := hint) hrebuild off len
  obtain ⟨post, hsplit⟩ := containerSteps_substitution (s := s) (hint := hint) (ts := ts) off len
  obtain ⟨⟨rest, hleft⟩, hinside⟩ := State.Left.of_prefix hstream
  rw [← stepsToOffset_bits] at hleft hinside ⊢
  have hnone := byteUnits_fit hready
  have hpass := passable_of_whole hrefers hleft (f := s.srcLen.toNat) (by omega) (by rwa [hbytes])
  have hall : ∀ k ∈ ts ++ [LzToken.substitution off len], k.ok = true := fun k hk => by
    rcases List.mem_append.1 hk with hk | hk
    · exact hok k hk
    · rw [List.mem_singleton.1 hk, LzToken.ok, Bool.and_eq_true, decide_eq_true_eq, decide_eq_true_eq]
      exact ⟨hoff, hlen⟩
  have hends := ends_of_split (js := post) hpass (.corrupt (off := off) (by rwa [hbytes]))
  rw [← hsplit, Nat.zero_add, List.nil_append, hbytes] at hends
  exact lzDecomp_fails_bytes (.of_ready hmem hsel hready) hwf hall hnone hends

end

/-! ### Containers that are not decoded to their end (45_lz77.md R304, R305) -/

section
variable {s : State} {hint : List Byte} {ts : List LzToken} {out : List Byte} (hmem : Memory.wf s.mem = true)
  (hsel : selectorsOk s) (hwf : uvWellFormed hint = true) (hok : ∀ k ∈ ts, k.ok = true)
  (hrebuild : reconstruct ts [] = some out)
include hmem hsel hwf hok hrebuild

/-- A container that is cut short gives the bytes whose fields are whole. -/
theorem lzDecomp_cut (hstream : s.sourceStream <+: containerBits s hint ts) {n : Nat}
    (hn : n = (outputCursors s (8 * hint.length) ts).countP (fun r => decide (r ≤ 8 * s.srcLen.toNat)))
    (hready : s.ready (8 * (out.take n).length) = true) :
    succeeds .lzDecomp s (s.produced (cutCursor (8 * s.srcLen.toNat) (containerFields s hint ts))
      (bytesBits (out.take n)) (out.take n).length) := by
  obtain ⟨hbytes, hrefers⟩ := containerSteps_rebuild (s := s) (hint := hint) hrebuild
  rw [← containerSteps_cursors] at hn
  rw [← containerSteps_fields]
  have hlen := hstream.length_le
  rw [s.sourceStream_length] at hlen
  rcases hlen.lt_or_eq with hlt | heq
  · have hnone := byteUnits_fit hready
    rw [← containerSteps_bits] at hstream hlt
    have hends := ends_cut hrefers (f := s.srcLen.toNat) rfl (State.Left.start s) hstream
      (by rwa [s.sourceStream_length]) hn (by rwa [hbytes])
    rw [s.sourceStream_length, hbytes, Nat.zero_add, List.nil_append] at hends
    exact lzDecomp_stops (.of_ready hmem hsel hready) hwf hok hnone hends
  · have hwhole := hstream.eq_of_length (by rw [s.sourceStream_length, heq])
    rw [← containerSteps_bits] at heq
    have hall := stepCursors_countP_all (ks := containerSteps s hint ts) (r := 0) (N := 8 * s.srcLen.toNat) (by omega)
    have htake : out.take n = out := by rw [hn, hall, hbytes, List.take_length]
    rw [htake] at hready ⊢
    rw [cutCursor_all heq.ge, containerSteps_bits]
    exact lzDecomp_whole hmem hsel hwf hok hrebuild hready (hwhole ▸ List.prefix_refl _)

variable (hbuf : s.buffersOk = true) (hstream : containerBits s hint ts <+: s.sourceStream)
include hbuf hstream

/-- A byte that cannot be written. -/
theorem lzDecomp_full {n q : Nat} {err : Raised} (hopen : s.sourceOpen = true)
    (hstop : s.writeStop (byteUnits out) = some (n, q, err)) :
    failsWith .lzDecomp s err
      (s.produced ((outputCursors s (8 * hint.length) ts).getD n 0) ((bytesBits out).take q) ((q + 7) / 8)) := by
  obtain ⟨hbytes, hrefers⟩ := containerSteps_rebuild (s := s) (hint := hint) hrebuild
  obtain ⟨⟨rest, hleft⟩, hlen⟩ := State.Left.of_prefix hstream
  rw [← containerSteps_bits] at hleft hlen
  obtain ⟨-, hlt, hroom⟩ := State.stopAt_some (State.stopAt_of_writeStop_some hstop) (Nat.zero_le _)
  rw [byteUnits_flatten, Nat.zero_add] at hlt
  have hw : ((bytesBits out).take q).length = q := List.length_take_of_le hlt.le
  obtain ⟨e, hends⟩ := ends_full hrefers (f := s.srcLen.toNat) hleft (by omega) (by rwa [hbytes])
  rw [containerSteps_cursors, hbytes] at hends
  have hend := lzDecomp_fails (.of_open hmem hsel hbuf hopen) hwf hok (by rwa [hw]) hends
  rwa [hw] at hend

/-- A source byte that may not be accessed. -/
theorem lzDecomp_shut {f n : Nat} (hshut : s.sourceShut f = true) (hin : 8 * f < (containerBits s hint ts).length)
    (hn : n = (outputCursors s (8 * hint.length) ts).countP (fun r => decide (r ≤ 8 * f)))
    (hstop : s.writeStop (byteUnits (out.take n)) = none) :
    failsWith .lzDecomp s (.bus (s.srcAddr.toNat + f)) (s.produced (8 * f) (bytesBits (out.take n)) n) := by
  obtain ⟨hbytes, hrefers⟩ := containerSteps_rebuild (s := s) (hint := hint) hrebuild
  obtain ⟨⟨rest, hleft⟩, -⟩ := State.Left.of_prefix hstream
  rw [← containerSteps_bits] at hleft hin
  rw [← containerSteps_cursors] at hn
  obtain ⟨h, hf⟩ := Decoding.of_shut hmem hsel hbuf hshut
  have hnone := State.stopAt_of_writeStop_none hstop
  have hends := ends_shut hrefers hf hleft (Nat.zero_le _) (by omega) hn (by rwa [hbytes])
  rw [hbytes, List.nil_append] at hends
  have hlen : (out.take n).length = n := by
    refine List.length_take_of_le ?_
    rw [hn, ← hbytes, ← stepCursors_length 0]
    exact List.countP_le_length
  have hend := lzDecomp_fails_bytes h hwf hok hnone hends
  rwa [hlen] at hend

end

/-! ### Hints that cannot be read (45_lz77.md R303) -/

section
variable {s : State} {b : List Byte} (hb : ∀ y ∈ b, 128 ≤ y.toNat) (hready : s.ready 0 = true)
include hready

/-- LZ.DECOMP whose hint has no value writes nothing. -/
theorem lzDecomp_no_hint {r : Nat} (h : readContainer.run.run (s.decoded 0 []) = .ok none (s.working r [] Engine.idle)) :
    succeeds .lzDecomp s (s.produced r [] 0) :=
  lzDecomp_ok (out := []) (State.ready_iff.1 hready).1 rfl h

/-- Source bytes can be read from the start. -/
theorem start_canRead {n : Nat} (hn : n ≤ s.srcLen.toNat) : (s.working 0 [] Engine.idle).canRead (8 * n) = true := by
  obtain ⟨hok, hopen, -⟩ := State.ready_iff.1 hready
  exact (Opened.of_open (Buffers.of_ok hok) hopen).canRead (s.buffersOk_iff.1 hok).1 (by omega)

theorem start_sourceRest : (s.working 0 [] Engine.idle).sourceRest = bytesBits s.source := by
  rw [(State.Left.start s).working_rest (Ready.of_ready hready).toBuffers (Nat.zero_le _), s.sourceStream_eq]

include hb

/-- A source of fewer than ten bytes, all of them continued. -/
theorem lzDecomp_hint_cut (hsource : s.source = b) (hlen : b.length < 10) :
    succeeds .lzDecomp s (s.produced (8 * b.length) [] 0) := by
  have hcount : b.length = s.srcLen.toNat := hsource ▸ s.source_length
  have hbits : bytesBits b <+: (s.working 0 [] Engine.idle).sourceRest := by rw [start_sourceRest hready, hsource]
  refine lzDecomp_no_hint hready (readContainer_of_fail ?_)
  have hread := start_canRead hready hcount.le
  have havail : (s.decoded (8 * b.length) []).avail < 8 := by
    rw [State.decoded_avail (Ready.of_ready hready).source (by omega)]
    omega
  refine (uvDecode_continued (left := 9 - b.length + 1) (by omega) hb hread hbits).trans ?_
  rw [State.working_skip, Nat.zero_add]
  exact uvDecodeLoop_cut havail

/-- Nine continued bytes and a tenth above 1. -/
theorem lzDecomp_hint_overflow {x : Byte} (hlen : b.length = 9) (hx : 1 < x.toNat) (hsource : b ++ [x] <+: s.source) :
    succeeds .lzDecomp s (s.produced 80 [] 0) := by
  have hcount := hsource.length_le
  rw [s.source_length, List.length_append, List.length_singleton] at hcount
  have hbits : bytesBits (b ++ [x]) <+: (s.working 0 [] Engine.idle).sourceRest := by
    obtain ⟨rest, hrest⟩ := hsource
    rw [start_sourceRest hready, ← hrest, bytesBits_append (b ++ [x])]
    exact List.prefix_append _ _
  obtain ⟨hread, hbyte⟩ := readByte_behind (start_canRead hready hcount) hbits
  rw [bytesBits_append] at hbits
  refine lzDecomp_no_hint hready (readContainer_of_overflow ?_)
  refine (uvDecode_continued (left := 1) (by omega) hb hread ((List.prefix_append _ _).trans hbits)).trans ?_
  rw [uvDecodeLoop_overflow hbyte hx, State.working_skip, hlen]

end

/-- Settles O55: the container as steps that are done in turn, and for each clause the step at which they end. -/
theorem lzDecompress : Obligations.LzDecompress := by
  intro s hmem
  refine ⟨fun hint ts out hsel hwf hframed hrebuild => ?_, fun b hb hready =>
    ⟨lzDecomp_hint_cut hb hready, fun _ => lzDecomp_hint_overflow hb hready⟩⟩
  have hok := List.all_eq_true.1 hframed
  refine ⟨fun hready => ⟨lzDecomp_whole hmem hsel hwf hok hrebuild hready, fun _ _ =>
    lzDecomp_corrupt hmem hsel hwf hok hrebuild hready⟩, fun hstream =>
    lzDecomp_cut hmem hsel hwf hok hrebuild hstream rfl, fun hbuf hstream => ⟨fun _ _ _ =>
    lzDecomp_full hmem hsel hwf hok hrebuild hbuf hstream, fun f hshut hin => ?_⟩⟩
  intro n hstop
  rw [← List.map_take] at hstop
  exact lzDecomp_shut hmem hsel hwf hok hrebuild hbuf hstream hshut hin rfl hstop

/-! ### The round trip (45_lz77.md R298, R305) -/

/-- A container's bits follow from the tables. -/
theorem containerBits_of_slots {s u : State} (hslots : u.slots = s.slots) (hint : List Byte) (ts : List LzToken) :
    containerBits u hint ts = containerBits s hint ts := by
  have hbits : LzToken.bits u = LzToken.bits s := by
    funext k
    cases k <;> simp only [LzToken.bits, State.slot, hslots]
  rw [containerBits, hbits, ← containerBits]

theorem selectorsOk_of_slots {s u : State} (hslots : u.slots = s.slots) (h : selectorsOk s) : selectorsOk u := by
  simpa only [selectorsOk, State.slot, hslots] using h

theorem State.source_small {s : State} (h : s.sourceOk = true) : s.source.length ≤ Config.maxBuf := by
  rw [State.sourceOk, bufferOk, Bool.and_eq_true, decide_eq_true_eq] at h
  rw [s.source_length]
  exact h.1

/-- Settles O56: the padded container that LZ.COMP stored begins with the bits of tokens that rebuild the source, which
LZ.DECOMP decodes, stored and read back. -/
theorem lzRoundTrip : Obligations.LzRoundTrip := by
  intro s u hsel hwf hready
  refine ⟨_, (lzCompress s).1 hready, State.complete_err _ _, fun hslots hmem haddr hsize hroom => ?_⟩
  have hstream : u.sourceStream = padded (containerBits s (uvarint s.srcLen.toNat) (scanTokens s s.source)) :=
    State.sourceStream_of_stored hwf hready (by rw [padded_length]; omega) hmem haddr hsize
  have hcontainer : containerBits u (uvarint s.srcLen.toNat) (scanTokens s s.source) <+: u.sourceStream := by
    rw [hstream, containerBits_of_slots hslots]
    exact List.prefix_append _ _
  have hwf' : Memory.wf u.mem = true := by
    rw [hmem]
    exact storeBits_wf s.dstAddr.toNat 0 _ hwf (by rw [Nat.zero_add]; exact State.ready_end hready)
  obtain ⟨hsource, -⟩ := s.buffersOk_iff.1 (State.ready_iff.1 hready).1
  obtain ⟨hrebuild, hscanned⟩ := scanTokens_rebuild s (State.source_small hsource)
  have hhint := uvWellFormed_uvarint (s.srcLen.isLt.trans (by decide : 2 ^ 32 < 2 ^ 64))
  rw [← s.source_length] at hroom
  have hend := State.ready_end hroom
  have hdecomp := lzDecomp_whole hwf' (selectorsOk_of_slots hslots hsel) hhint (fun k hk => (hscanned k hk).framed)
    hrebuild hroom hcontainer
  have hres : word s.source.length = s.srcLen := by rw [s.source_length, word, BitVec.ofNat_toNat, BitVec.setWidth_eq]
  refine ⟨_, hdecomp, State.complete_err _ _, hres, ?_⟩
  rw [← s.source_length]
  exact slice_storeBits hwf' (by omega)

end Sys2Proof.Machine
end

section
/-! SUPPORT. Proofs: The engine's turn, NOP and the interrupt -/

namespace Sys2Proof.Machine

/-! ### The engine's turn (60_exceptions.md R320, R341) -/

/-- Settles O6, by the two ways in which the engine's turn comes next. -/
theorem stepRunsDecoded : Obligations.StepRunsDecoded := by
  intro s
  refine ⟨fun i hb hd => ⟨fun hev => ?_, fun rest hev => ?_⟩, fun hb => ⟨fun hev => ?_, fun rest hev => ?_⟩⟩
  · rw [step_of_noEvent hev, engineTurn_of_decode hb hd]
  · exact (step_of_engine hev).trans (engineTurn_of_decode (s := { s with events := rest }) hb hd)
  · rw [step_of_noEvent hev, engineTurn_of_idle hb]
  · exact (step_of_engine hev).trans (engineTurn_of_idle (s := { s with events := rest }) hb)

/-! ### Every command completes (60_exceptions.md R320 step 4, R322) -/

/-- From `s` to `t` the fields that completion works on are kept. -/
structure SameFlags (s t : State) : Prop where
  ctrl : t.ctrl = s.ctrl
  status : t.status = s.status
  errInfo : t.errInfo = s.errInfo

/-- No part of a command touches CTRL, STATUS or ERRINFO. -/
theorem sameFlags_admits (i : Instr) : Admits i SameFlags where
  refl _ := ⟨rfl, rfl, rfl⟩
  trans _ _ _ h h' := ⟨h'.ctrl.trans h.ctrl, h'.status.trans h.status, h'.errInfo.trans h.errInfo⟩
  res0 _ _ _ := ⟨rfl, rfl, rfl⟩
  res1 _ _ _ := ⟨rfl, rfl, rfl⟩
  res2 _ _ _ := ⟨rfl, rfl, rfl⟩
  read _ _ _ := ⟨rfl, rfl, rfl⟩
  write _ _ _ _ _ := ⟨rfl, rfl, rfl⟩
  start _ _ := ⟨rfl, rfl, rfl⟩
  engine _ _ _ := ⟨rfl, rfl, rfl⟩
  slot _ _ _ _ _ := ⟨rfl, rfl, rfl⟩

theorem SameFlags.lost {s t : State} (h : SameFlags s t) : t.lost = s.lost := by
  rw [State.lost, h.status, ← State.lost]

/-- Settles O8: a command ends by success or by an error, and both complete it. -/
theorem everyCommandCompletes : Obligations.EveryCommandCompletes := by
  intro i s
  obtain ⟨u, hu, hend | ⟨e, hend⟩⟩ := exec_ends s (sameFlags_admits i)
  · exact ⟨_, hend, by simp, by simp, by simp [hu.lost], rfl, fun _ => hu.errInfo⟩
  · exact ⟨_, hend, by simp, by simp, by simp [hu.lost], rfl,
      fun h => absurd h (by simpa using e.code_range.1)⟩

/-! ### NOP (60_exceptions.md R335) -/

/-- Settles O29: the word is the encoder's, and the command is its completion alone. -/
theorem nopCompletes : Obligations.NopCompletes := by
  refine ⟨fun c => ⟨fun h => (encodeOfDecode c .nop h).2.symm, ?_⟩, fun s => ⟨s.complete 0#8, rfl, rfl, ?_⟩⟩
  · rintro rfl
    rfl
  · rw [State.irq, State.complete_done, Bool.and_true]
    rfl

/-! ### The interrupt (60_exceptions.md R330) -/

/-- A write to CTRL sets IE from bit 0, and no other flag. -/
theorem State.writeCtrl_irq (s : State) (v : Word) : (s.writeCtrl v).irq = (v.getLsbD 0 && s.done) := by
  have hbit : (v &&& 1#32).getLsbD 0 = v.getLsbD 0 := by simp
  rw [State.irq, State.ie, State.writeCtrl_ctrl, hbit]
  rfl

/-- Settles O22: IE stands in CTRL, which no command changes, and DONE in STATUS, which every update of the flags sets. -/
theorem interrupt : Obligations.Interrupt := by
  refine ⟨fun i s t h => ?_, fun s v => ⟨rfl, s.writeCtrl_irq v, ?_, ?_, ?_⟩⟩
  · obtain ⟨u, hu, -, hdone, -⟩ := everyCommandCompletes i s
    obtain rfl : t = u := by simpa using h.symm.trans hu
    rw [State.irq, hdone, Bool.and_true, State.ie, (exec_sameRegisters h).ctrl, ← State.ie]
  · rw [State.irq, State.acknowledge_done, ← Bool.and_assoc]
    rfl
  · rw [State.irq, State.accept_done, Bool.and_false]
  · rw [State.irq, State.setLost_done]
    rfl

end Sys2Proof.Machine
end

section
/-! SUPPORT. Proofs: Illegal command words -/

namespace Sys2Proof.Machine

/-! ### The fields of a word, under their masks (30_encoding.md R90) -/

/-- Under the mask of a field, two words are alike exactly when they have the field alike. -/
theorem and_mask_eq_iff {c d mask : Word} {p n : Nat} (h : ∀ i < 32, mask.getLsbD i = decide (p ≤ i ∧ i < p + n))
    (hn : p + n ≤ 32) : c &&& mask = d &&& mask ↔ c.extractLsb' p n = d.extractLsb' p n := by
  refine ⟨fun heq => BitVec.eq_of_getLsbD_eq fun i hi => ?_, fun heq => ?_⟩
  · have hbit := congrArg (fun v => BitVec.getLsbD v (p + i)) heq
    simpa [BitVec.getLsbD_and, h (p + i) (by omega), hi] using hbit
  · rw [← field_placed h, heq, field_placed h]

theorem extractLsb'_one_eq_iff (c d : Word) (p : Nat) :
    c.extractLsb' p 1 = d.extractLsb' p 1 ↔ c.getLsbD p = d.getLsbD p := by
  have bit (v : Word) : v.extractLsb' p 1 = BitVec.ofBool (v.getLsbD p) := by
    ext i hi
    simp [Nat.lt_one_iff.1 hi]
  rw [bit, bit]
  exact ⟨fun h => by simpa using congrArg (BitVec.getLsbD · 0) h, congrArg BitVec.ofBool⟩

theorem opField_eq_iff (c d : Word) : c &&& 0xFF#32 = d &&& 0xFF#32 ↔ Decode.opField c = Decode.opField d :=
  and_mask_eq_iff (n := 8) (by decide) (by decide)

theorem formatField_eq_iff (c d : Word) :
    c &&& 0x1000#32 = d &&& 0x1000#32 ↔ Decode.formatField c = Decode.formatField d :=
  (and_mask_eq_iff (p := 12) (n := 1) (by decide) (by decide)).trans (extractLsb'_one_eq_iff c d 12)

theorem slotField_eq_zero_iff (c : Word) : c &&& 0xF00#32 = 0#32 ↔ Decode.slotField c = 0 := by
  rw [← BitVec.zero_and (x := 0xF00#32), and_mask_eq_iff (p := 8) (n := 4) (by decide) (by decide), ← BitVec.toFin_inj]
  rfl

theorem wideField_eq_false_iff (c : Word) : c &&& 0x2000#32 = 0#32 ↔ Decode.wideField c = false := by
  rw [← BitVec.zero_and (x := 0x2000#32), and_mask_eq_iff (p := 13) (n := 1) (by decide) (by decide),
    extractLsb'_one_eq_iff]
  rfl

theorem countField_eq_zero_iff (c : Word) : c &&& 0x3F0000#32 = 0#32 ↔ Decode.countField c = 0 := by
  rw [← BitVec.zero_and (x := 0x3F0000#32), and_mask_eq_iff (p := 16) (n := 6) (by decide) (by decide), ← BitVec.toNat_inj]
  rfl

/-- Two words are alike under two masks together exactly when they are under each. -/
theorem and_or_eq_iff {c d a b : Word} :
    c &&& (a ||| b) = d &&& (a ||| b) ↔ c &&& a = d &&& a ∧ c &&& b = d &&& b := by
  have left (v : Word) : v &&& (a ||| b) &&& a = v &&& a := by
    ext i
    simp only [BitVec.getElem_and, BitVec.getElem_or]
    grind
  have right (v : Word) : v &&& (a ||| b) &&& b = v &&& b := by
    ext i
    simp only [BitVec.getElem_and, BitVec.getElem_or]
    grind
  refine ⟨fun h => ⟨?_, ?_⟩, fun ⟨ha, hb⟩ => ?_⟩
  · rw [← left c, h, left]
  · rw [← right c, h, right]
  · rw [BitVec.and_or_distrib_left, ha, hb, ← BitVec.and_or_distrib_left]

/-! ### The bits that an opcode wants to be 0 (30_encoding.md R92) -/

/-- A field's mask, or none where the field is used. -/
def maskUnless (used : Bool) (mask : Word) : Word := if used then 0#32 else mask

/-- The reserved bits, and the fields T, Z and N where the opcode does not use them. -/
def zeroMask (op : Byte) : Word :=
  Decode.reservedMask ||| (maskUnless (slotOpcodes.contains op) 0xF00#32 |||
    (maskUnless (op == 0x20#8) 0x2000#32 ||| maskUnless (countOpcodes.contains op) 0x3F0000#32))

theorem and_or_eq_zero_iff {c a b : Word} : c &&& (a ||| b) = 0#32 ↔ c &&& a = 0#32 ∧ c &&& b = 0#32 := by
  rw [BitVec.and_or_distrib_left, BitVec.or_eq_zero_iff]

theorem and_maskUnless_iff {c : Word} {used : Bool} {mask : Word} :
    c &&& maskUnless used mask = 0#32 ↔ (used = false → c &&& mask = 0#32) := by
  cases used <;> simp [maskUnless]

theorem and_zeroMask_iff (c : Word) (op : Byte) : c &&& zeroMask op = 0#32 ↔
    c &&& Decode.reservedMask = 0#32 ∧ (op ∉ slotOpcodes → Decode.slotField c = 0) ∧
      (op ≠ 0x20#8 → Decode.wideField c = false) ∧ (op ∉ countOpcodes → Decode.countField c = 0) := by
  simp only [zeroMask, and_or_eq_zero_iff, and_maskUnless_iff, slotField_eq_zero_iff, wideField_eq_false_iff,
    countField_eq_zero_iff, List.contains_eq_mem, decide_eq_false_iff_not, beq_eq_false_iff_ne, ne_eq]

/-- Not illegal is an opcode of the map, every other bit that the opcode does not use 0, F only on WK.*. -/
theorem not_illegalWord_iff (c : Word) : ¬ illegalWord c ↔ Decode.opField c ∈ legalOpcodes ∧
    (Decode.formatField c = true → Decode.opField c ∈ formatOpcodes) ∧ c &&& zeroMask (Decode.opField c) = 0#32 := by
  rw [and_zeroMask_iff, illegalWord]
  simp only [not_or, not_and, not_not, ne_eq]
  grind

/-! ### The rows of the opcode map (30_encoding.md R93) -/

/-- A row's mask keeps OP, F and the bits that the opcode wants to be 0; its pattern has an opcode of the map, and F only
on WK.*. -/
theorem opcodeRows_fields : ∀ r ∈ opcodeRows, r.mask = 0xFF#32 ||| (0x1000#32 ||| zeroMask (Decode.opField r.pattern)) ∧
    r.pattern &&& r.mask = r.pattern ∧ r.pattern &&& zeroMask (Decode.opField r.pattern) = 0#32 ∧
    Decode.opField r.pattern ∈ legalOpcodes ∧
    (Decode.formatField r.pattern = true → Decode.opField r.pattern ∈ formatOpcodes) := by decide

/-- Every opcode of the map has a row with F = 0, those of WK.* one with F = 1. -/
theorem exists_opcodeRow : ∀ op ∈ legalOpcodes, ∀ format : Bool, (format = true → op ∈ formatOpcodes) →
    ∃ r ∈ opcodeRows, Decode.opField r.pattern = op ∧ Decode.formatField r.pattern = format := by decide

theorem opcodeRow_selects_iff {r : Row} (hr : r ∈ opcodeRows) (c : Word) : r.selects c = true ↔
    Decode.opField c = Decode.opField r.pattern ∧ Decode.formatField c = Decode.formatField r.pattern ∧
      c &&& zeroMask (Decode.opField r.pattern) = 0#32 := by
  obtain ⟨hmask, hpattern, hzero, -⟩ := opcodeRows_fields r hr
  rw [Row.selects_iff]
  conv_lhs => rhs; rw [← hpattern]
  rw [hmask, and_or_eq_iff, and_or_eq_iff, opField_eq_iff, formatField_eq_iff, hzero]

/-- A word selects a row exactly when none of the grounds of 60_exceptions.md R324 holds. -/
theorem exists_row_selects_iff (c : Word) : (∃ r ∈ opcodeRows, r.selects c = true) ↔ ¬ illegalWord c := by
  rw [not_illegalWord_iff]
  constructor
  · rintro ⟨r, hr, hsel⟩
    obtain ⟨-, -, -, hop, hformat⟩ := opcodeRows_fields r hr
    obtain ⟨hsameOp, hsameFormat, hzero⟩ := (opcodeRow_selects_iff hr c).1 hsel
    rw [hsameOp, hsameFormat]
    exact ⟨hop, hformat, hzero⟩
  · rintro ⟨hop, hformat, hzero⟩
    obtain ⟨r, hr, hsameOp, hsameFormat⟩ := exists_opcodeRow _ hop _ hformat
    exact ⟨r, hr, (opcodeRow_selects_iff hr c).2 ⟨hsameOp.symm, hsameFormat.symm, hsameOp ▸ hzero⟩⟩

theorem decode_of_illegal {c : Word} (h : ∀ r ∈ opcodeRows, r.selects c = false) :
    decode c = .error (illegalGround c) := by
  have hnone : opcodeRows.find? (fun r => r.selects c) = none :=
    List.find?_eq_none.2 fun r hr => by simp [h r hr]
  rw [decode, hnone]

/-- Settles O5: the rows are those of the legal words, and no row is the decoder's error. -/
theorem illegalWords : Obligations.IllegalWords := by
  intro c
  have hgrounds : (∀ r ∈ opcodeRows, r.selects c = false) ↔ illegalWord c := by
    simpa using not_congr (exists_row_selects_iff c)
  refine ⟨hgrounds, ?_⟩
  rintro s hev hb rfl hillegal
  rw [step_of_noEvent hev, engineTurn_of_illegal hb (decode_of_illegal (hgrounds.2 hillegal)), State.takeError,
    Raised.info, word, BitVec.ofNat_toNat, BitVec.setWidth_eq]
  rfl

end Sys2Proof.Machine
end

section
/-! SUPPORT. Proofs: The checks of a command, in their order -/

namespace Sys2Proof.Machine

/-! ### The checks (60_exceptions.md R323, R325) -/

/-- The first of the operand checks that fails. -/
def operandError (i : Instr) (s : State) : Option Raised :=
  if 32 < countOperand i then some (.badOperand 1)
  else if readsSource i = true ∧ s.sourceOk = false then some (.badOperand 5)
  else if writesDest i = true ∧ s.destOk = false then some (.badOperand 6)
  else if highLevel i = true ∧ s.disjoint = false then some (.badOperand 7)
  else none

/-- The first of the checks of the table that fails. -/
def tableError (i : Instr) (s : State) : Option Raised :=
  match codeTable i with
  | some (k, suits) =>
    if (s.slot k).final = false then some (.unbuilt k.val)
    else if suits (s.slot k).alpha = false then some (.badOperand 8)
    else none
  | none => none

/-- The first check that fails. -/
def checkError (i : Instr) (s : State) : Option Raised := (operandError i s).or (tableError i s)

/-- A check that only some commands make. -/
def checkWhen (b : Bool) (m : Eng Unit) : Eng Unit := if b then m else pure ()

@[simp] theorem checkWhen_true (m : Eng Unit) : checkWhen true m = m := rfl

@[simp] theorem checkWhen_false (m : Eng Unit) : checkWhen false m = pure () := rfl

def checkOperands (i : Instr) : Eng Unit := do
  checkCount (countOperand i)
  checkWhen (readsSource i) checkSource
  checkWhen (writesDest i) checkDest
  checkWhen (highLevel i) (require State.disjoint (.badOperand 7))

def checkTable (i : Instr) : Eng Unit :=
  match codeTable i with
  | some (k, suits) => do
    checkBuilt k
    require (fun s => suits (s.slot k).alpha) (.badOperand 8)
  | none => pure ()

/-- How a part that only checks ends: with the error, or as if nothing had happened. -/
def checked (e : Option Raised) (s : State) : EStateM.Result Raised State Unit :=
  match e with
  | some e => .error e s
  | none => .ok () s

theorem checked_bind {m : Eng Unit} {f : Unit → Eng Unit} {e e' : Option Raised} {s : State}
    (hm : m.run s = checked e s) (hf : (f ()).run s = checked e' s) : (m >>= f).run s = checked (e.or e') s := by
  cases e with
  | none => exact (Eng.bind_ok hm).trans hf
  | some e => exact Eng.bind_error hm

theorem require_checked (cond : State → Bool) (e : Raised) (s : State) :
    (require cond e).run s = checked (if cond s = false then some e else none) s := by
  rw [require_run]
  cases cond s <;> rfl

theorem checkWhen_checked (b : Bool) (cond : State → Bool) (e : Raised) (s : State) :
    (checkWhen b (require cond e)).run s = checked (if b = true ∧ cond s = false then some e else none) s := by
  cases b with
  | false => rfl
  | true => simpa using require_checked cond e s

theorem checkOperands_run (i : Instr) (s : State) : (checkOperands i).run s = checked (operandError i s) s := by
  refine (checked_bind (require_checked _ _ s) (checked_bind (checkWhen_checked _ _ _ s)
    (checked_bind (checkWhen_checked _ _ _ s) (checkWhen_checked _ _ _ s)))).trans ?_
  rw [operandError]
  congr 1
  split_ifs <;> simp_all

theorem checkTable_run (i : Instr) (s : State) : (checkTable i).run s = checked (tableError i s) s := by
  unfold checkTable tableError
  rcases codeTable i with _ | ⟨k, suits⟩
  · rfl
  · refine (checked_bind (require_checked _ _ s) (require_checked _ _ s)).trans ?_
    dsimp only
    congr 1
    split_ifs <;> rfl

/-- The checks with which a command begins. -/
def checks (i : Instr) : Eng Unit := checkOperands i >>= fun _ => checkTable i

theorem checks_run (i : Instr) (s : State) : (checks i).run s = checked (checkError i s) s :=
  checked_bind (checkOperands_run i s) (checkTable_run i s)

theorem checkCount_zero : checkCount 0 = pure () := rfl

theorem require_true (e : Raised) : require (fun _ => true) e = pure () := rfl

theorem Alphabet.size_eq_257_iff (a : Alphabet) : decide (a.size = 257) = (a == .a257) := by
  cases a <;> rfl

/-- A command begins with its checks. -/
theorem exec_checks (i : Instr) (s : State) : ∃ m : Eng Unit, exec i s = runCommand (checks i >>= fun _ => m) s := by
  cases i
  all_goals
    simp only [checks, checkOperands, checkTable, countOperand, readsSource, writesDest, highLevel, codeTable,
      checkCount_zero, checkWhen_true, checkWhen_false, require_true, pure_bind, bind_assoc,
      Alphabet.size_eq_257_iff]
  case nop | tblInfo =>
    simp only [exec, execNop, execTblInfo]
    exact ⟨_, rfl⟩
  case wkInspectLz4 | wkInspectSnappy | lzComp | lzDecomp =>
    simp only [exec, execWkInspectLz4, execWkInspectSnappy, inspectCommand, execLzComp, execLzDecomp, checkBuffers,
      bind_assoc]
    exact ⟨_, rfl⟩
  case wkCompLz4 | wkCompSnappy | wkDecompLz4 | wkDecompSnappy =>
    simp only [exec, execWkCompLz4, execWkCompSnappy, execWkDecompLz4, execWkDecompSnappy, tableWalkCommand,
      checkBuffers, bind_assoc]
    exact ⟨_, rfl⟩
  case blkEnc | blkDec =>
    simp only [exec, execBlkEnc, execBlkDec, blockPrologue, checkBuffers, bind_assoc]
    exact ⟨_, rfl⟩
  all_goals exact ⟨_, rfl⟩

/-- The first check that fails ends the command. -/
theorem failsWith_of_checkError {i : Instr} {s : State} {e : Raised} (h : checkError i s = some e) :
    failsWith i s e s := by
  obtain ⟨m, hm⟩ := exec_checks i s
  have hrun : (checks i).run s = .error e s := by rw [checks_run, h, checked]
  exact hm.trans (runCommand_error (Eng.bind_error hrun))

theorem checkError_of_operandError {i : Instr} {s : State} {e : Raised} (h : operandError i s = some e) :
    checkError i s = some e := by
  rw [checkError, h, Option.some_or]

theorem checkError_of_operands {i : Instr} {s : State} (h : operandError i s = none) :
    checkError i s = tableError i s := by
  rw [checkError, h, Option.none_or]

/-- A high-level command has no count, reads the source and writes the destination. -/
theorem highLevel_operands {i : Instr} (h : highLevel i = true) :
    countOperand i = 0 ∧ readsSource i = true ∧ writesDest i = true := by
  cases i <;> simp_all [highLevel, countOperand, readsSource, writesDest]

/-- A command with a table has no count, and is a high-level one exactly when it writes the destination. -/
theorem codeTable_operands {i : Instr} {k : Fin 16} {suits : Alphabet → Bool} (h : codeTable i = some (k, suits)) :
    countOperand i = 0 ∧ highLevel i = writesDest i := by
  cases i <;> simp_all [codeTable, highLevel, countOperand, writesDest]

/-- Settles O25, by the first check that fails. -/
theorem bufferChecks : Obligations.BufferChecks := by
  intro i s
  have fails {e : Raised} (h : operandError i s = some e) : failsWith i s e s :=
    failsWith_of_checkError (checkError_of_operandError h)
  refine ⟨fun hn => fails ?_, fun hn hr hs => fails ?_, fun hn hs hw hd => fails ?_, fun hl hs hd hj => fails ?_⟩
  · simp [operandError, hn]
  · simp [operandError, Nat.not_lt.2 hn, hr, hs]
  · have hsource : ¬ (readsSource i = true ∧ s.sourceOk = false) := fun h => by simp [hs h.1] at h
    simp [operandError, Nat.not_lt.2 hn, hsource, hw, hd]
  · obtain ⟨hn, hr, hw⟩ := highLevel_operands hl
    simp [operandError, hn, hr, hw, hs, hd, hl, hj]

/-- Settles O26, by the first check that fails, the operands being right. -/
theorem tableChecks : Obligations.TableChecks := by
  intro i k suits s hk hsource hdest
  obtain ⟨hn, hl⟩ := codeTable_operands hk
  have hoperands : operandError i s = none := by
    rw [operandError, hn, hl]
    split_ifs <;> simp_all
  have fails {e : Raised} (h : tableError i s = some e) : failsWith i s e s :=
    failsWith_of_checkError ((checkError_of_operands hoperands).trans h)
  refine ⟨fun hf => fails ?_, fun hf hs => fails ?_⟩
  · simp [tableError, hk, hf]
  · simp [tableError, hk, hf, hs]

end Sys2Proof.Machine
end

section
/-! SUPPORT. Proofs: The error codes that every part of a command can raise -/

namespace Sys2Proof.Machine

/-- Every error of the part has its code in the list. -/
def Raises {α : Type} (C : List Byte) (m : Eng α) : Prop := ∀ s e t, m.run s = .error e t → e.code ∈ C

/-- `Raises` of a reader. -/
abbrev RdRaises {α : Type} (C : List Byte) (m : Rd α) : Prop := Raises C m.run

section
variable {α β : Type} {C : List Byte}

/-! ### How the codes of parts compose -/

theorem Raises.pure (a : α) : Raises C (pure a : Eng α) := fun _ _ _ h => nomatch h

theorem Raises.throw {e : Raised} (h : e.code ∈ C) : Raises C (throw e : Eng α) := fun _ _ _ h' => by
  cases h'
  exact h

theorem Raises.get : Raises C (get : Eng State) := fun _ _ _ h => nomatch h

theorem Raises.modify (f : State → State) : Raises C (modify f : Eng Unit) := fun _ _ _ h => nomatch h

theorem Raises.bind {x : Eng α} {f : α → Eng β} (hx : Raises C x) (hf : ∀ a, Raises C (f a)) : Raises C (x >>= f) :=
  fun s e t h => by
    rcases hrun : x.run s with ⟨a, u⟩ | ⟨e', u⟩
    · rw [Eng.bind_ok hrun] at h
      exact hf a u e t h
    · rw [Eng.bind_error hrun] at h
      cases h
      exact hx s e t hrun

theorem Raises.reporting {report : State → State} {m : Eng α} (hm : Raises C m) : Raises C (reporting report m) :=
  fun s e t h => by
    rcases hrun : m.run s with ⟨a, u⟩ | ⟨e', u⟩
    · rw [reporting_ok hrun] at h
      cases h
    · rw [reporting_error hrun] at h
      cases h
      exact hm s e u hrun

theorem Raises.require {cond : State → Bool} {e : Raised} (h : e.code ∈ C) : Raises C (require cond e) := by
  intro s e' t h'
  rw [require_run] at h'
  split_ifs at h'
  cases h'
  exact h

theorem RdRaises.bind {x : Rd α} {f : α → Rd β} (hx : RdRaises C x) (hf : ∀ a, RdRaises C (f a)) :
    RdRaises C (x >>= f) := by
  unfold RdRaises
  rw [OptionT.run_bind]
  refine Raises.bind hx fun a => ?_
  rcases a with _ | a
  · exact Raises.pure _
  · exact hf a

theorem RdRaises.lift {m : Eng α} (hm : Raises C m) : RdRaises C (liftM m : Rd α) :=
  Raises.bind hm fun a => Raises.pure (some a)

theorem RdRaises.pure (a : α) : RdRaises C (pure a : Rd α) := Raises.pure (some a)

theorem RdRaises.failure : RdRaises C (failure : Rd α) := Raises.pure none

theorem RdRaises.get_bind {f : State → Rd β} (h : ∀ s, RdRaises C (f s)) : RdRaises C (get >>= f) :=
  RdRaises.bind (RdRaises.lift Raises.get) h

/-- A read failure of a primitive is ERR_TRUNCATED (60_exceptions.md R326). -/
theorem Raises.orTruncated (h1 : 1#8 ∈ C) {m : Rd α} (hm : RdRaises C m) : Raises C (orTruncated m) := by
  refine Raises.bind hm fun a => ?_
  rcases a with _ | a
  · exact Raises.bind Raises.get fun _ => Raises.throw h1
  · exact Raises.pure a

theorem raiseWeights_raises (h3 : 3#8 ∈ C) (t : Fin 16) (amount : Nat → Nat) : Raises C (raiseWeights t amount) := by
  refine Raises.bind Raises.get fun s => ?_
  dsimp only
  rcases firstOverflow (s.slot t).weights amount with _ | x
  · exact Raises.modify _
  · exact Raises.throw h3

/-! ### Parts that access bytes and read bits (20_memory.md R64, R65) -/

section
variable (h9 : 9#8 ∈ C)
include h9

theorem memRead_raises (a : Nat) : Raises C (memRead a) := fun s e t h => by
  rw [memRead_run] at h
  split_ifs at h
  cases h
  exact h9

theorem countSource_raises (n a : Nat) (cnt : List Nat) : Raises C (countSource n a cnt) := by
  induction n generalizing a cnt with
  | zero => exact Raises.pure cnt
  | succ n ih => exact Raises.bind (memRead_raises h9 a) fun _ => ih _ _

theorem readBit_raises : RdRaises C readBit := fun s e t h => by
  rw [readBit_run] at h
  split_ifs at h
  cases h
  exact h9

theorem readBitsLoop_raises (n v : Nat) : RdRaises C (readBitsLoop n v) := by
  induction n generalizing v with
  | zero => exact RdRaises.pure v
  | succ n ih => exact RdRaises.bind (readBit_raises h9) fun _ => ih _

theorem readBits_raises (n : Nat) : RdRaises C (readBits n) := by
  refine RdRaises.get_bind fun s => ?_
  split_ifs
  · exact RdRaises.bind RdRaises.failure fun _ => readBitsLoop_raises h9 _ _
  · exact readBitsLoop_raises h9 n 0

theorem readByte_raises : RdRaises C readByte := RdRaises.bind (readBits_raises h9 8) fun _ => RdRaises.pure _

theorem decodeLoop_raises (t : Fin 16) (fuel : Nat) (p : Bits) : RdRaises C (decodeLoop t fuel p) := by
  induction fuel generalizing p with
  | zero => exact RdRaises.failure
  | succ fuel ih =>
    refine RdRaises.bind (readBit_raises h9) fun b => RdRaises.get_bind fun s => ?_
    rcases findCode (p ++ [b]) (s.slot t).codes 0 with _ | x
    · exact ih _
    · exact RdRaises.pure x

theorem decodeNext_raises (t : Fin 16) : RdRaises C (decodeNext t) :=
  RdRaises.get_bind fun _ => decodeLoop_raises h9 t _ _

theorem vDecode_raises : RdRaises C vDecode :=
  RdRaises.bind (decodeNext_raises h9 _) fun _ => RdRaises.bind (readBits_raises h9 _) fun _ => RdRaises.pure _

theorem uvDecodeLoop_raises (left x sh : Nat) : Raises C (uvDecodeLoop left x sh) := by
  induction left generalizing x sh with
  | zero => exact Raises.pure _
  | succ left ih =>
    refine Raises.bind (readByte_raises h9) fun b => ?_
    rcases b with _ | b
    · exact Raises.pure _
    · dsimp only
      split_ifs
      · exact Raises.pure _
      · exact Raises.pure _
      · exact ih _ _

theorem uvDecode_raises : Raises C uvDecode := uvDecodeLoop_raises h9 _ _ _

/-! ### Parts that write bits (40_bitstream.md R144) -/

variable (h8 : 8#8 ∈ C)
include h8

theorem writeBit_raises (b : Bool) : Raises C (writeBit b) := fun s e t h => by
  rw [writeBit_run] at h
  split_ifs at h
  · cases h
    exact h8
  · cases h
    exact h9

theorem writeBitList_raises (bs : Bits) : Raises C (writeBitList bs) := by
  induction bs with
  | nil => exact Raises.pure ()
  | cons b bs ih => exact Raises.bind (writeBit_raises h9 h8 b) fun _ => ih

theorem writeString_raises (bs : Bits) : Raises C (writeString bs) := by
  refine Raises.bind Raises.get fun s => ?_
  split_ifs
  · exact Raises.bind (Raises.throw h8) fun _ => writeBitList_raises h9 h8 bs
  · exact writeBitList_raises h9 h8 bs

theorem writeCode_raises (t : Fin 16) (x : Nat) : Raises C (writeCode t x) :=
  Raises.bind Raises.get fun _ => writeString_raises h9 h8 _

theorem writeByte_raises (b : Byte) : Raises C (writeByte b) := writeString_raises h9 h8 _

theorem writeBytes_raises (bs : List Byte) : Raises C (writeBytes bs) := by
  induction bs with
  | nil => exact Raises.pure ()
  | cons b bs ih => exact Raises.bind (writeByte_raises h9 h8 b) fun _ => ih

theorem vEncode_raises (h3 : 3#8 ∈ C) (v : Nat) : Raises C (vEncode v) := by
  have fields : Raises C (writeCode vintSlot (bucket v) >>= fun _ => writeBits v (vintWidth (bucket v))) :=
    Raises.bind (writeCode_raises h9 h8 _ _) fun _ => writeString_raises h9 h8 _
  unfold vEncode
  split_ifs
  · exact Raises.bind (Raises.throw h3) fun _ => fields
  · exact fields

theorem alignLoop_raises (fuel : Nat) : Raises C (alignLoop fuel) := by
  induction fuel with
  | zero => exact Raises.pure ()
  | succ fuel ih =>
    refine Raises.bind Raises.get fun s => ?_
    split_ifs
    · exact Raises.bind (writeBit_raises h9 h8 false) fun _ => ih
    · exact Raises.pure _

theorem close_raises : Raises C close :=
  Raises.bind (alignLoop_raises h9 h8 8) fun _ => Raises.bind Raises.get fun _ => Raises.pure _

/-! ### The loops of BLK.* and LZ.DECOMP -/

theorem encodeLoop_raises (t : Fin 16) (n : Nat) : RdRaises C (encodeLoop t n) := by
  induction n with
  | zero => exact RdRaises.pure ()
  | succ n ih =>
    exact RdRaises.bind (readByte_raises h9) fun _ =>
      RdRaises.bind (RdRaises.lift (writeCode_raises h9 h8 _ _)) fun _ => ih

theorem blockDecodeLoop_raises (t : Fin 16) (fuel : Nat) : RdRaises C (blockDecodeLoop t fuel) := by
  induction fuel with
  | zero => exact RdRaises.failure
  | succ fuel ih =>
    refine RdRaises.bind (decodeNext_raises h9 t) fun x => ?_
    split_ifs
    · exact RdRaises.pure ()
    · exact RdRaises.bind (RdRaises.lift (writeByte_raises h9 h8 _)) fun _ => ih

theorem outByte_raises (v : Byte) : Raises C (outByte v) :=
  Raises.bind (writeByte_raises h9 h8 v) fun _ => Raises.modify _

theorem copyLoop_raises (len p : Nat) : Raises C (copyLoop len p) := by
  induction len generalizing p with
  | zero => exact Raises.pure ()
  | succ len ih =>
    exact Raises.bind Raises.get fun _ => Raises.bind (memRead_raises h9 _) fun _ =>
      Raises.bind (outByte_raises h9 h8 _) fun _ => ih _

theorem decodeRun_raises (k r : Nat) : RdRaises C (decodeRun k r) := by
  induction r with
  | zero => exact RdRaises.pure ()
  | succ r ih =>
    exact RdRaises.bind (decodeNext_raises h9 _) fun _ =>
      RdRaises.bind (RdRaises.lift (outByte_raises h9 h8 _)) fun _ => ih

section
variable (h2 : 2#8 ∈ C)
include h2

theorem copyRef_raises (off len : Nat) : Raises C (copyRef off len) := by
  refine Raises.bind Raises.get fun s => ?_
  split_ifs
  · exact Raises.bind (Raises.throw h2) fun _ => copyLoop_raises h9 h8 _ _
  · exact copyLoop_raises h9 h8 _ _

theorem token_raises : RdRaises C token := by
  refine RdRaises.bind (readBit_raises h9) fun c => ?_
  split_ifs
  · refine RdRaises.bind (readBit_raises h9) fun c2 => ?_
    split_ifs
    · exact RdRaises.bind (vDecode_raises h9) fun _ => RdRaises.bind (vDecode_raises h9) fun _ =>
        RdRaises.bind (RdRaises.lift (copyRef_raises h9 h8 h2 _ _)) fun _ => RdRaises.pure false
    · exact RdRaises.pure true
  · exact RdRaises.bind (vDecode_raises h9) fun _ => RdRaises.bind (decodeNext_raises h9 _) fun _ =>
      RdRaises.bind (decodeRun_raises h9 h8 _ _) fun _ => RdRaises.pure false

theorem tokenLoop_raises (fuel : Nat) : RdRaises C (tokenLoop fuel) := by
  induction fuel with
  | zero => exact RdRaises.failure
  | succ fuel ih =>
    refine RdRaises.bind (token_raises h9 h8 h2) fun last => ?_
    split_ifs
    · exact RdRaises.pure ()
    · exact ih

end

/-! ### The format walks, for every transform of a literal -/

theorem copyByte_raises : RdRaises C copyByte :=
  RdRaises.bind (readByte_raises h9) fun _ =>
    RdRaises.bind (RdRaises.lift (writeByte_raises h9 h8 _)) fun _ => RdRaises.pure _

theorem copyBytes_raises (n : Nat) : RdRaises C (copyBytes n) := by
  induction n with
  | zero => exact RdRaises.pure []
  | succ n ih =>
    exact RdRaises.bind (copyByte_raises h9 h8) fun _ => RdRaises.bind ih fun _ => RdRaises.pure _

theorem xformPass_raises : RdRaises C xformPass :=
  RdRaises.bind (readByte_raises h9) fun _ => RdRaises.lift (writeByte_raises h9 h8 _)

theorem xformComp_raises (t : Fin 16) : RdRaises C (xformComp t) :=
  RdRaises.bind (readByte_raises h9) fun _ => RdRaises.lift (writeCode_raises h9 h8 _ _)

theorem xformDecomp_raises (t : Fin 16) : RdRaises C (xformDecomp t) := by
  refine RdRaises.bind (decodeNext_raises h9 t) fun x => ?_
  have write := RdRaises.lift (writeByte_raises h9 h8 (byte x))
  split_ifs
  · exact RdRaises.bind RdRaises.failure fun _ => write
  · exact write

theorem extension_raises (fuel n : Nat) : RdRaises C (extension fuel n) := by
  induction fuel generalizing n with
  | zero => exact RdRaises.failure
  | succ fuel ih =>
    refine RdRaises.bind (copyByte_raises h9 h8) fun e => ?_
    split_ifs
    · exact RdRaises.pure _
    · exact ih _

theorem nibbleLength_raises (n : Nat) : RdRaises C (nibbleLength n) := by
  unfold nibbleLength
  split_ifs
  · exact RdRaises.get_bind fun _ => extension_raises h9 h8 _ _
  · exact RdRaises.pure n

theorem snappyPreamble_raises (fuel : Nat) : RdRaises C (snappyPreamble fuel) := by
  induction fuel with
  | zero => exact RdRaises.failure
  | succ fuel ih =>
    refine RdRaises.bind (copyByte_raises h9 h8) fun b => ?_
    split_ifs
    · exact RdRaises.pure ()
    · exact ih

theorem snappyLength_raises (sel : Nat) : RdRaises C (snappyLength sel) := by
  unfold snappyLength
  split_ifs
  · exact RdRaises.get_bind fun _ => RdRaises.pure _
  · exact RdRaises.bind (copyBytes_raises h9 h8 _) fun _ => RdRaises.get_bind fun _ => RdRaises.pure _

section
variable {x : Rd Unit} (hx : RdRaises C x)
include hx

omit h9 h8 in
theorem slotLoop_raises (fuel : Nat) : RdRaises C (slotLoop x fuel) := by
  induction fuel with
  | zero => exact RdRaises.pure ()
  | succ fuel ih =>
    refine RdRaises.get_bind fun s => ?_
    split_ifs
    · exact RdRaises.pure ()
    · exact RdRaises.bind hx fun _ => RdRaises.bind (RdRaises.lift (Raises.modify _)) fun _ => ih

omit h9 h8 in
theorem literalSlots_raises (n : Nat) : RdRaises C (literalSlots x n) :=
  RdRaises.bind (RdRaises.lift (Raises.modify _)) fun _ => slotLoop_raises hx n

theorem lz4Loop_raises (fuel : Nat) : RdRaises C (lz4Loop x fuel) := by
  have sequence : RdRaises C (lz4Sequence x) :=
    RdRaises.bind (copyByte_raises h9 h8) fun _ => RdRaises.bind (nibbleLength_raises h9 h8 _) fun _ =>
      RdRaises.bind (literalSlots_raises hx _) fun _ => RdRaises.bind (copyBytes_raises h9 h8 2) fun _ =>
        RdRaises.bind (nibbleLength_raises h9 h8 _) fun _ => RdRaises.pure ()
  induction fuel with
  | zero => exact RdRaises.failure
  | succ fuel ih => exact RdRaises.bind sequence fun _ => ih

theorem walkLz4_raises : RdRaises C (walkLz4 x) := RdRaises.get_bind fun _ => lz4Loop_raises h9 h8 hx _

theorem snappyToken_raises : RdRaises C (snappyToken x) := by
  refine RdRaises.bind (copyByte_raises h9 h8) fun tag => ?_
  split_ifs
  · exact RdRaises.bind (snappyLength_raises h9 h8 _) fun _ => literalSlots_raises hx _
  · exact RdRaises.bind (copyBytes_raises h9 h8 _) fun _ => RdRaises.pure ()

theorem snappyLoop_raises (fuel : Nat) : RdRaises C (snappyLoop x fuel) := by
  induction fuel with
  | zero => exact RdRaises.failure
  | succ fuel ih => exact RdRaises.bind (snappyToken_raises h9 h8 hx) fun _ => ih

theorem walkSnappy_raises : RdRaises C (walkSnappy x) :=
  RdRaises.get_bind fun _ => RdRaises.bind (snappyPreamble_raises h9 h8 _) fun _ =>
    RdRaises.get_bind fun _ => snappyLoop_raises h9 h8 hx _

end

end

end

end Sys2Proof.Machine
end

section
/-! SUPPORT. Proofs: The error codes of every command, and the results that a primitive's error leaves -/

namespace Sys2Proof.Machine

/-! ### Errors that leave the result registers alone (60_exceptions.md R329) -/

/-- RES0, RES1 and RES2 are kept. -/
structure SameResults (s t : State) : Prop where
  res0 : t.res0 = s.res0
  res1 : t.res1 = s.res1
  res2 : t.res2 = s.res2

theorem SameResults.refl (s : State) : SameResults s s := ⟨rfl, rfl, rfl⟩

theorem SameResults.trans (s t u : State) (h : SameResults s t) (h' : SameResults t u) : SameResults s u :=
  ⟨h'.res0.trans h.res0, h'.res1.trans h.res1, h'.res2.trans h.res2⟩

theorem readBit_sameResults : RdKeeps SameResults readBit := readBit_keeps SameResults.refl fun _ _ => ⟨rfl, rfl, rfl⟩

theorem writeBit_sameResults (b : Bool) : Keeps SameResults (writeBit b) :=
  writeBit_keeps SameResults.refl (fun _ _ _ _ => ⟨rfl, rfl, rfl⟩) b

/-- Every error of the part has its code in the list and leaves the result registers as they were before the part. -/
def RaisesKeeping {α : Type} (C : List Byte) (m : Eng α) : Prop :=
  ∀ s e t, m.run s = .error e t → e.code ∈ C ∧ SameResults s t

section
variable {α β : Type} {C : List Byte}

theorem RaisesKeeping.of_keeps {m : Eng α} (hm : Raises C m) (hk : Keeps SameResults m) : RaisesKeeping C m :=
  fun s e t h => ⟨hm s e t h, (hk s).2 e t h⟩

/-- A part that raises nothing may write its results. -/
theorem RaisesKeeping.of_sure {m : Eng α} (hm : Raises [] m) : RaisesKeeping C m :=
  fun s e t h => absurd (hm s e t h) List.not_mem_nil

theorem RaisesKeeping.bind {x : Eng α} {f : α → Eng β} (hx : Raises C x) (hk : Keeps SameResults x)
    (hf : ∀ a, RaisesKeeping C (f a)) : RaisesKeeping C (x >>= f) := fun s e t h => by
  rcases hrun : x.run s with ⟨a, u⟩ | ⟨e', u⟩
  · rw [Eng.bind_ok hrun] at h
    obtain ⟨he, ht⟩ := hf a u e t h
    exact ⟨he, SameResults.trans _ _ _ ((hk s).1 a u hrun) ht⟩
  · rw [Eng.bind_error hrun] at h
    cases h
    exact ⟨hx s e t hrun, (hk s).2 e t hrun⟩

theorem RaisesKeeping.get_bind {f : State → Eng β} (hf : ∀ s, RaisesKeeping C (f s)) : RaisesKeeping C (get >>= f) :=
  RaisesKeeping.bind Raises.get (Keeps.get SameResults.refl) hf

theorem RaisesKeeping.require {cond : State → Bool} {e : Raised} (h : e.code ∈ C) : RaisesKeeping C (require cond e) :=
  RaisesKeeping.of_keeps (Raises.require h) (require_keeps SameResults.refl cond e)

theorem RaisesKeeping.require_bind {cond : State → Bool} {e : Raised} {f : Unit → Eng β} (h : e.code ∈ C)
    (hf : RaisesKeeping C (f ())) : RaisesKeeping C (Machine.require cond e >>= f) :=
  RaisesKeeping.bind (Raises.require h) (require_keeps SameResults.refl cond e) fun _ => hf

/-- A primitive reads through the bit reader, and then reports. -/
theorem RaisesKeeping.read_bind {m : Rd α} {f : α → Eng β} (h1 : 1#8 ∈ C) (hm : RdRaises C m)
    (hk : RdKeeps SameResults m) (hf : ∀ a, RaisesKeeping C (f a)) : RaisesKeeping C (orTruncated m >>= f) :=
  RaisesKeeping.bind (Raises.orTruncated h1 hm) (Keeps.orTruncated SameResults.refl SameResults.trans hk) hf

theorem raiseWeights_raisesKeeping (h3 : 3#8 ∈ C) (t : Fin 16) (amount : Nat → Nat) : RaisesKeeping C (raiseWeights t amount) := by
  refine RaisesKeeping.get_bind fun s => ?_
  dsimp only
  rcases firstOverflow (s.slot t).weights amount with _ | x
  · exact RaisesKeeping.of_sure (Raises.modify _)
  · exact RaisesKeeping.of_keeps (Raises.throw h3) (Keeps.throw SameResults.refl _)

end

/-- The command is a run whose errors have codes of `errorCodes` and leave the result registers alone. -/
def FailsWithin (i : Instr) (s : State) : Prop := ∃ m, exec i s = runCommand m s ∧ RaisesKeeping (errorCodes i) m

/-- A code that stands in the list of the command. -/
theorem listed {i : Instr} {c : Byte} (h : (errorCodes i).contains c = true) : c ∈ errorCodes i := List.contains_iff_mem.1 h

/-- A primitive's error has one of its codes, and leaves the result registers alone. -/
theorem primitive_failsWithin {i : Instr} (hi : highLevel i = false) (s : State) : FailsWithin i s := by
  have refl := SameResults.refl
  have trans := SameResults.trans
  have hr := readBit_sameResults
  have hw := writeBit_sameResults
  have sure (f : State → State) : Raises [] (modify f : Eng Unit) := Raises.modify f
  cases i with
  | nop => exact ⟨pure (), rfl, RaisesKeeping.of_sure (Raises.pure ())⟩
  | bsRbit =>
    exact ⟨_, rfl, .require_bind (listed rfl) <| .read_bind (listed rfl) (readBit_raises (listed rfl)) hr fun _ =>
      .of_sure (sure _)⟩
  | bsRbyte =>
    exact ⟨_, rfl, .require_bind (listed rfl) <| .read_bind (listed rfl) (readByte_raises (listed rfl))
      (readByte_keeps refl trans hr) fun _ => .of_sure (sure _)⟩
  | bsRbits n =>
    exact ⟨_, rfl, .require_bind (listed rfl) <| .require_bind (listed rfl) <| .read_bind (listed rfl)
      (readBits_raises (listed rfl) n) (readBits_keeps refl trans hr n) fun _ => .of_sure (sure _)⟩
  | bsWbit =>
    exact ⟨_, rfl, .require_bind (listed rfl) <| .of_keeps (writeBit_raises (listed rfl) (listed rfl) _) (hw _)⟩
  | bsWbyte =>
    exact ⟨_, rfl, .require_bind (listed rfl) <| .of_keeps (writeByte_raises (listed rfl) (listed rfl) _)
      (writeByte_keeps refl trans hw _)⟩
  | bsWbits n =>
    exact ⟨_, rfl, .require_bind (listed rfl) <| .require_bind (listed rfl) <|
      .of_keeps (writeString_raises (listed rfl) (listed rfl) _) (writeString_keeps refl trans hw _)⟩
  | bsAlign =>
    exact ⟨_, rfl, .require_bind (listed rfl) <| .of_keeps (alignLoop_raises (listed rfl) (listed rfl) 8)
      (align_keeps refl trans hw)⟩
  | bsClose =>
    exact ⟨_, rfl, .require_bind (listed rfl) <| .bind (close_raises (listed rfl) (listed rfl))
      (close_keeps refl trans hw) fun _ => .of_sure (sure _)⟩
  | tblCreate t wide =>
    exact ⟨_, rfl, .require_bind (listed rfl) <| .get_bind fun _ => .of_sure (sure _)⟩
  | tblIncr t =>
    exact ⟨_, rfl, .require_bind (listed rfl) <| .require_bind (listed rfl) <| .require_bind (listed rfl) <|
      raiseWeights_raisesKeeping (listed rfl) _ _⟩
  | tblIncs t =>
    exact ⟨_, rfl, .require_bind (listed rfl) <| .require_bind (listed rfl) <|
      .bind (countSource_raises (listed rfl) _ _ _) (countSource_keeps refl trans _ _ _) fun _ =>
        raiseWeights_raisesKeeping (listed rfl) _ _⟩
  | tblFin t =>
    refine ⟨_, rfl, .get_bind fun u => ?_⟩
    dsimp only
    split_ifs
    · exact .of_sure (Raises.pure ())
    · exact .require_bind (listed rfl) <| .bind (Raises.throw (listed rfl)) (Keeps.throw refl _) fun _ => .of_sure (sure _)
    · exact .require_bind (listed rfl) <| .of_sure (sure _)
  | tblCode t =>
    exact ⟨_, rfl, .require_bind (listed rfl) <| .require_bind (listed rfl) <| .get_bind fun _ =>
      .of_sure (Raises.bind (sure _) fun _ => Raises.bind (sure _) fun _ => sure _)⟩
  | tblDec t =>
    exact ⟨_, rfl, .require_bind (listed rfl) <| .require_bind (listed rfl) <| .get_bind fun _ =>
      .read_bind (listed rfl) (decodeNext_raises (listed rfl) t) (decodeNext_keeps refl trans hr t) fun _ =>
        .of_sure (Raises.bind (sure _) fun _ => Raises.bind Raises.get fun _ => sure _)⟩
  | tblInfo t =>
    refine ⟨_, by rw [exec, execTblInfo], .get_bind fun _ => ?_⟩
    exact .of_sure (Raises.bind (sure _) fun _ => Raises.bind (sure _) fun _ => sure _)
  | tblWgt t =>
    exact ⟨_, rfl, .require_bind (listed rfl) <| .require_bind (listed rfl) <| .get_bind fun _ => .of_sure (sure _)⟩
  | viEnc =>
    exact ⟨_, rfl, .require_bind (listed rfl) <| .bind (vEncode_raises (listed rfl) (listed rfl) (listed rfl) _)
      (vEncode_keeps refl trans hw _) fun _ =>
        .of_sure (Raises.bind (sure _) fun _ => Raises.bind Raises.get fun _ => sure _)⟩
  | viDec =>
    exact ⟨_, rfl, .require_bind (listed rfl) <| .read_bind (listed rfl) (vDecode_raises (listed rfl))
      (vDecode_keeps refl trans hr) fun _ =>
        .of_sure (Raises.bind (sure _) fun _ => Raises.bind (sure _) fun _ => sure _)⟩
  | uvEnc =>
    exact ⟨_, rfl, .require_bind (listed rfl) <| .get_bind fun _ =>
      .bind (writeBytes_raises (listed rfl) (listed rfl) _) (uvEncode_keeps refl trans hw _) fun _ =>
        .of_sure (Raises.bind Raises.get fun _ => sure _)⟩
  | uvDec =>
    refine ⟨_, rfl, .require_bind (listed rfl) <| .get_bind fun _ =>
      .bind (uvDecode_raises (listed rfl)) (uvDecode_keeps refl trans hr) fun r => ?_⟩
    cases r with
    | value v =>
      exact .of_sure (Raises.bind (sure _) fun _ => Raises.bind (sure _) fun _ => Raises.bind Raises.get fun _ => sure _)
    | fail => exact .get_bind fun _ => .of_keeps (Raises.throw (listed rfl)) (Keeps.throw refl _)
    | overflow => exact .get_bind fun _ => .of_keeps (Raises.throw (listed rfl)) (Keeps.throw refl _)
  | wkInspectLz4 | wkInspectSnappy | wkCompLz4 | wkCompSnappy | wkDecompLz4 | wkDecompSnappy | blkEnc | blkDec | lzComp
  | lzDecomp => exact absurd hi (by simp [highLevel])

end Sys2Proof.Machine
end

section
/-! SUPPORT. Proofs: How LZ.COMP ends in every state -/

namespace Sys2Proof.Machine

/-! ### Where the source can be read up to (20_memory.md R64) -/

/-- Some byte of the source is the first that may not be accessed, or there is none. -/
theorem Opened.exists {s : State} (h : Buffers s) : ∃ f, Opened s f := by
  by_cases hshut : ∃ p, p < s.srcLen.toNat ∧ memOk s.params (s.srcAddr.toNat + p) = false
  · obtain ⟨hlt, hbad⟩ := Nat.find_spec hshut
    refine ⟨Nat.find hshut, h, hlt.le, fun p hp => ?_, fun _ => hbad⟩
    have hmin := Nat.find_min hshut hp
    simp only [not_and, Bool.not_eq_false] at hmin
    exact hmin (by omega)
  · simp only [not_exists, not_and, Bool.not_eq_false] at hshut
    exact ⟨s.srcLen.toNat, h, Nat.le_refl _, hshut, fun hlt => absurd hlt (Nat.lt_irrefl _)⟩

/-- A unit that cannot be written ends a command with ERR_OUTPUT_FULL or ERR_BUS. -/
theorem State.stopAt_code {s : State} {us : List Bits} {pos q : Nat} {err : Raised} (h : s.stopAt pos us = some (q, err)) :
    err.code ∈ [8#8, 9#8] := by
  induction us generalizing pos with
  | nil => cases h
  | cons u us ih =>
    rw [State.stopAt_cons, Option.or_eq_some_iff] at h
    rcases h with h | ⟨-, h⟩
    · rcases State.stopAt_single h with ⟨-, -, rfl⟩ | ⟨_, -, -, -, rfl, -⟩
      · exact List.mem_cons_self
      · exact List.mem_cons_of_mem _ List.mem_cons_self
    · exact ih h

/-! ### Parts that end at a shut source byte, if no field stops them before -/

section
variable {α β : Type} {s : State} {f : Nat} {e e' : Engine}

/-- What follows a part plays no role where one of the part's fields cannot be written. -/
theorem Writes.bind_stops {m : Eng α} {g : α → Eng β} {us : List Bits} {a : α} (hm : Writes s m e us a e') :
    Stops s (m >>= g) e us fun _ => e.counts := fun w hw q err hsome => by
  obtain ⟨e₁, hc, hrun⟩ := hm.stops w hw q err hsome
  exact ⟨e₁, hc, Eng.bind_error hrun⟩

/-- The part writes the tokens `ts` and then the fields `us`, and ends with ERR_BUS of source byte `f`; or it stops at the
first of these fields that cannot be written. It counts the tokens of `ts` that stand whole. -/
structure CutShort (s : State) (f : Nat) (m : Eng α) (e : Engine) (ts : List LzToken) (us : List Bits) : Prop where
  breaks : Breaks s f m e (tokenUnits s ts ++ us) (addTokens e.counts ts)
  stops : Stops s m e (tokenUnits s ts ++ us) fun n => addTokens e.counts (wholeTokens s ts n)

theorem CutShort.of_breaks {m : Eng α} (hm : Breaks s f m e [] e.counts) : CutShort s f m e [] [] := ⟨hm, nofun⟩

theorem CutShort.bind {m : Eng α} {g : α → Eng β} {ts : List LzToken} {us : List Bits} (hm : CutShort s f m e ts us) :
    CutShort s f (m >>= g) e ts us :=
  ⟨hm.breaks.bind, fun w hw q err hsome =>
    let ⟨e₁, hc, hrun⟩ := hm.stops w hw q err hsome
    ⟨e₁, hc, Eng.bind_error hrun⟩⟩

/-- Tokens written before a part that is cut short. -/
theorem CutShort.after {m : Eng α} {g : α → Eng β} {ts ts' : List LzToken} {us : List Bits} {a : α} (hm : Emits s m e ts a e')
    (hg : CutShort s f (g a) e' ts' us) : CutShort s f (m >>= g) e (ts ++ ts') us := by
  have hunits : tokenUnits s (ts ++ ts') ++ us = tokenUnits s ts ++ (tokenUnits s ts' ++ us) := by
    rw [tokenUnits_append, List.append_assoc]
  have hbreaks := hg.breaks
  rw [hm.counted, addTokens_append] at hbreaks
  constructor
  · exact hm.finishes.bind_breaks hbreaks hunits
  · rw [hunits]
    refine Stops.bind hm.finishes hm.stops hg.stops (fun n hn => by rw [wholeTokens_append_lt hn]) fun n => ?_
    rw [wholeTokens_append_ge (Nat.le_add_right _ _), hm.counted, addTokens_append, Nat.add_sub_cancel_left]

theorem CutShort.congr {m m' : Eng α} {ts : List LzToken} {us : List Bits} (hm : CutShort s f m e ts us)
    (heq : ∀ w, m'.run (s.working 0 w e) = m.run (s.working 0 w e)) : CutShort s f m' e ts us :=
  ⟨fun w => heq w ▸ hm.breaks w, fun w => heq w ▸ hm.stops w⟩

end

/-! ### The scan (45_lz77.md R288) -/

/-- The rounds of a scan write all tokens but a final literal, or are cut short after tokens of the scan. -/
def LoopCut (s : State) (f : Nat) (m : Eng Unit) (e : Engine) (tokens : List LzToken) : Prop :=
  (∃ ts e', tokens = ts ++ finalTokens s s.source e'.scanBegin ∧ e'.scanBegin ≤ f ∧ Emits s m e ts () e') ∨
    ∃ ts more, tokens = ts ++ more ∧ CutShort s f m e ts []

theorem LoopCut.after {s : State} {f : Nat} {m : Eng Unit} {g : Unit → Eng Unit} {e e' : Engine} {ts tokens : List LzToken}
    (hm : Emits s m e ts () e') (hg : LoopCut s f (g ()) e' tokens) : LoopCut s f (m >>= g) e (ts ++ tokens) := by
  rcases hg with ⟨ts', e'', split, reach, run⟩ | ⟨ts', more, split, run⟩
  · exact .inl ⟨ts ++ ts', e'', by rw [split, List.append_assoc], reach, hm.bind run rfl⟩
  · exact .inr ⟨ts ++ ts', more, by rw [split, List.append_assoc], CutShort.after hm run⟩

theorem LoopCut.congr {s : State} {f : Nat} {m m' : Eng Unit} {e : Engine} {tokens : List LzToken}
    (hm : LoopCut s f m e tokens) (heq : ∀ w, m'.run (s.working 0 w e) = m.run (s.working 0 w e)) :
    LoopCut s f m' e tokens := by
  rcases hm with ⟨ts, e', split, reach, run⟩ | ⟨ts, more, split, run⟩
  · exact .inl ⟨ts, e', split, reach, run.counted, fun w => heq w ▸ run.finishes w, fun w => heq w ▸ run.stops w⟩
  · exact .inr ⟨ts, more, split, run.congr heq⟩

section
variable {s : State} {f : Nat} (h : Opened s f)
include h

theorem scanLoop_cut (fuel : Nat) {e : Engine} {first last : Nat} {recorded : List Nat}
    (hscan : ScanState s e first last recorded) (hfirst : first ≤ last) (hf : first ≤ f) (hreach : Reach s f last) :
    LoopCut s f (scanLoop s.srcLen.toNat fuel) e (scanFrom s s.source fuel first last recorded) := by
  induction fuel generalizing e first last recorded with
  | zero => exact .inl ⟨[], e, by rw [hscan.start]; rfl, by rwa [hscan.start], Emits.silent (Writes.pure ()) rfl⟩
  | succ fuel ih =>
    by_cases hmore : last < s.srcLen.toNat
    · have hmore' : last < s.source.length := by rwa [s.source_length]
      refine LoopCut.congr (m := scanRound s.srcLen.toNat >>= fun _ => scanLoop s.srcLen.toNat fuel) ?_ fun w => ?_
      · cases scanRound_run h hscan hfirst hreach hmore with
        | missed e' nothing reach scan run =>
          rw [scanFrom_none _ _ _ _ _ _ hmore' nothing]
          exact LoopCut.after run (ih scan (by omega) hf reach)
        | matched i cp e' found common reach scan run =>
          rw [scanFrom_match _ _ _ _ _ _ hmore' found, ← common]
          exact LoopCut.after run (ih scan (Nat.le_refl _) reach (.inl reach))
        | broken shut run => exact .inr ⟨[], _, rfl, (CutShort.of_breaks run).bind⟩
      · rw [scanLoop, Eng.bind_ok (Eng.get_run _), State.working_eng, hscan.cursor, if_pos hmore]
    · refine LoopCut.congr (m := pure ()) ?_ fun w => ?_
      · rw [scanFrom_end _ _ _ _ _ _ (by rwa [s.source_length])]
        exact .inl ⟨[], e, by rw [hscan.start]; rfl, by rwa [hscan.start], Emits.silent (Writes.pure ()) rfl⟩
      · rw [scanLoop, Eng.bind_ok (Eng.get_run _), State.working_eng, hscan.cursor, if_neg hmore]

/-- A literal token whose run holds the byte that may not be accessed is cut short before its selector. -/
theorem emitLiteral_cut {e : Engine} {a b : Nat} (ha : a ≤ f) (hb : f < b) (hn : b ≤ s.srcLen.toNat) :
    CutShort s f (emitLiteral a b) e [] ([false] :: (vintFields (s.slot vintSlot) (b - a)).map Prod.snd) := by
  have hsmall := h.source
  refine ⟨emitLiteral_breaks h ha hb hn, ?_⟩
  have hfields := (writeBit_writes (e := e) h.toBuffers false).bind (f := fun _ => vEncode (b - a)) rfl
    (vEncode_writes h.toBuffers (by omega)) rfl
  rw [emitLiteral, ← bind_assoc]
  exact hfields.bind_stops

/-- Of a source whose byte `f` may not be accessed the scan writes tokens and fields of the next, and none of its fields
further than its selector. -/
theorem scanBody_cut (hf : f < s.srcLen.toNat) : ∃ ts more us, scanTokens s s.source = ts ++ more ∧
    (selectorsOk s → us <+: tokenUnits s more ∧ ∀ n ≤ us.flatten.length, wholeTokens s more n = []) ∧
      CutShort s f (scanBody s.srcLen.toNat) Engine.idle ts us := by
  have hloop := scanLoop_cut h s.srcLen.toNat (scanState_start s) (Nat.le_refl 0) (Nat.zero_le _) (.inl (Nat.zero_le _))
  rw [scanTokens, s.source_length]
  rcases hloop with ⟨ts, e', split, reach, run⟩ | ⟨ts, more, split, run⟩
  · have hmore : e'.scanBegin < s.srcLen.toNat := by omega
    rw [finalTokens, s.source_length, if_pos hmore] at split
    refine ⟨ts, _, [false] :: (vintFields (s.slot vintSlot) (s.srcLen.toNat - e'.scanBegin)).map Prod.snd, split,
      fun hsel => ?_, ?_⟩
    · obtain ⟨hprefix, hshort⟩ := literalToken_selector hsel s.source e'.scanBegin s.srcLen.toNat (by
        rw [List.length_take, List.length_drop, s.source_length, Nat.min_self])
      exact ⟨by rwa [tokenUnits_singleton], fun n hn => wholeTokens_head (by omega)⟩
    · have hlit := CutShort.after run (g := fun _ => do
        let first := (← get).eng.scanBegin
        if first < s.srcLen.toNat then emitLiteral first s.srcLen.toNat)
        ((emitLiteral_cut (e := e') h reach hf (Nat.le_refl _)).congr fun w => by
          rw [Eng.bind_ok (Eng.get_run _), State.working_eng, if_pos hmore])
      rwa [List.append_nil] at hlit
  · refine ⟨ts, more, [], split, fun _ => ⟨List.nil_prefix, fun n hn => ?_⟩, run.bind⟩
    obtain rfl : n = 0 := by simpa using hn
    exact wholeTokens_zero s more

end

/-! ### What is written before the stream is closed -/

/-- The tokens counted when `n` bits of the hint and the tokens `ts` are written. -/
def cutCounts (s : State) (ts : List LzToken) (n : Nat) : Nat × Nat :=
  addTokens (0, 0) (wholeTokens s ts (n - (hintUnits s).flatten.length))

/-- The hint, and tokens until a source byte may not be accessed. -/
theorem lzWrite_cut {s : State} {f : Nat} (h : Opened s f) (hf : f < s.srcLen.toNat) : ∃ ts us,
    Breaks s f (lzWrite s.srcLen.toNat) Engine.idle us (cutCounts s ts us.flatten.length) ∧
      Stops s (lzWrite s.srcLen.toNat) Engine.idle us (cutCounts s ts) ∧
      (selectorsOk s → us <+: lzUnits s ∧ ∀ n ≤ us.flatten.length, cutCounts s ts n = lzCounts s n) := by
  obtain ⟨ts, more, us, hsplit, hsel, hscan⟩ := scanBody_cut h hf
  have hlen := h.source
  have hhint := uvEncode_writes (e := Engine.idle) h.toBuffers (v := s.srcLen.toNat) (by omega)
  have hcut := hscan.bind (g := fun _ => emitEnd)
  refine ⟨ts, hintUnits s ++ (tokenUnits s ts ++ us), ?_, ?_, fun h' => ?_⟩
  · have hcount : cutCounts s ts (hintUnits s ++ (tokenUnits s ts ++ us)).flatten.length = addTokens (0, 0) ts := by
      rw [cutCounts, List.flatten_append, List.length_append, Nat.add_sub_cancel_left,
        wholeTokens_all s (by rw [List.flatten_append, List.length_append]; exact Nat.le_add_right _ _)]
    rw [hcount]
    exact hhint.bind_breaks hcut.breaks rfl
  · refine Stops.bind hhint.finishes hhint.stops hcut.stops (fun n hn => ?_) fun n => ?_
    · rw [cutCounts, show n - (hintUnits s).flatten.length = 0 from Nat.sub_eq_zero_of_le hn.le, wholeTokens_zero]
      rfl
    · rw [cutCounts, show (hintUnits s).flatten.length = _ from rfl, hintUnits, Nat.add_sub_cancel_left]
      rfl
  · obtain ⟨hprefix, hwhole⟩ := hsel h'
    constructor
    · rw [lzUnits_eq, hsplit, tokenUnits_append, List.prefix_append_right_inj, List.append_assoc,
        List.prefix_append_right_inj]
      exact hprefix.trans (List.prefix_append _ _)
    · intro n hn
      rw [List.flatten_append, List.length_append, List.flatten_append, List.length_append] at hn
      rw [cutCounts, lzCounts, hsplit]
      by_cases hts : n - (hintUnits s).flatten.length < (tokenUnits s ts).flatten.length
      · rw [wholeTokens_append_lt hts]
      · rw [wholeTokens_append_ge (by omega), hwhole _ (by omega), List.append_nil, wholeTokens_all s (by omega)]

/-- How the writing of the container ends: with all of it; or with ERR_OUTPUT_FULL or ERR_BUS, after bits of the
container, the tokens counted that stand whole in them. -/
theorem lzWrite_ends {s : State} (h : Buffers s) :
    (∃ e, s.stopAt 0 (lzUnits s) = none ∧ (lzWrite s.srcLen.toNat).run (s.working 0 [] Engine.idle) =
      .ok () (s.working 0 (lzUnits s).flatten e)) ∨
    ∃ err w e, (lzWrite s.srcLen.toNat).run (s.working 0 [] Engine.idle) = .error err (s.working 0 w e) ∧
      err.code ∈ [8#8, 9#8] ∧ w.length ≤ 8 * s.dstCap.toNat ∧
      (selectorsOk s → w = (lzUnits s).flatten.take w.length ∧ e.counts = lzCounts s w.length) := by
  have stops {us : List Bits} {count : Nat → Nat × Nat} {q : Nat} {err : Raised} (hq : s.stopAt 0 us = some (q, err))
      (hstops : Stops s (lzWrite s.srcLen.toNat) Engine.idle us count)
      (hus : selectorsOk s → us <+: lzUnits s ∧ ∀ n ≤ us.flatten.length, count n = lzCounts s n) :
      ∃ err w e, (lzWrite s.srcLen.toNat).run (s.working 0 [] Engine.idle) = .error err (s.working 0 w e) ∧
        err.code ∈ [8#8, 9#8] ∧ w.length ≤ 8 * s.dstCap.toNat ∧
        (selectorsOk s → w = (lzUnits s).flatten.take w.length ∧ e.counts = lzCounts s w.length) := by
    obtain ⟨-, hlt, hle⟩ := State.stopAt_some hq (Nat.zero_le _)
    rw [Nat.zero_add] at hlt
    obtain ⟨e, hcount, hrun⟩ := hstops [] (Nat.zero_le _) q err hq
    have hlen : (us.flatten.take q).length = q := by rw [List.length_take, Nat.min_eq_left hlt.le]
    refine ⟨err, us.flatten.take q, e, hrun, State.stopAt_code hq, by omega, fun hsel => ?_⟩
    obtain ⟨⟨vs, hvs⟩, hcounts⟩ := hus hsel
    rw [hlen, hcount, ← hcounts q hlt.le, ← hvs, List.flatten_append, List.take_append_of_le_length hlt.le]
    exact ⟨rfl, rfl⟩
  obtain ⟨f, hopened⟩ := Opened.exists h
  obtain hf | rfl := Nat.lt_or_eq_of_le hopened.inside
  · obtain ⟨ts, us, hbreaks, hstops, hus⟩ := lzWrite_cut hopened hf
    right
    rcases hstop : s.stopAt 0 us with _ | ⟨q, err⟩
    · obtain ⟨e, hcount, hrun⟩ := hbreaks [] (Nat.zero_le _) hstop
      have hfit := (State.stopAt_none hstop (Nat.zero_le _)).1
      rw [Nat.zero_add] at hfit
      refine ⟨_, _, e, hrun, by simp [Raised.code], hfit, fun hsel => ?_⟩
      obtain ⟨⟨vs, hvs⟩, hcounts⟩ := hus hsel
      rw [List.nil_append, ← hcounts _ (Nat.le_refl _), ← hvs, List.flatten_append, List.take_left]
      exact ⟨rfl, hcount⟩
    · exact stops hstop hstops hus
  · obtain ⟨e, hcount, hfinishes, hstops⟩ := lzWrite_run hopened
    rcases hstop : s.stopAt 0 (lzUnits s) with _ | ⟨q, err⟩
    · exact .inl ⟨e, rfl, hfinishes [] (Nat.zero_le _) hstop⟩
    · exact .inr (stops hstop hstops fun _ => ⟨List.prefix_refl _, fun _ _ => rfl⟩)

/-- An error of LZ.COMP behind its checks is ERR_OUTPUT_FULL or ERR_BUS, and leaves bits of the container and the tokens
that stand whole in them (60_exceptions.md R329). -/
theorem lzComp_ends {s t : State} {err : Raised} (hok : s.buffersOk = true)
    (h : (lzCompBody s.srcLen.toNat).run (s.working 0 [] Engine.idle) = .error err t) :
    err.code ∈ [8#8, 9#8] ∧ (selectorsOk s → failsWith .lzComp s err (s.lzCompAt t.wpos.toNat)) := by
  have hbuf := Buffers.of_ok hok
  have hcap := hbuf.dest
  rcases lzWrite_ends hbuf with ⟨e, hnone, hrun⟩ | ⟨err', w, e, hrun, hcode, hfit, hsel⟩
  · obtain ⟨hfit, hmem⟩ := State.stopAt_none hnone (Nat.zero_le _)
    rw [Nat.zero_add] at hfit
    have hclose := close_working (r := 0) (e := e) hbuf hfit fun i hi => by simpa using hmem i hi
    rw [lzCompBody, Eng.bind_ok hrun, Eng.bind_ok hclose] at h
    cases h
  · rw [lzCompBody, Eng.bind_error hrun] at h
    cases h
    refine ⟨hcode, fun h' => ?_⟩
    obtain ⟨hw, hcounts⟩ := hsel h'
    rw [State.working_wpos, word_toNat (by omega)]
    exact lzComp_error hok (by omega) hcounts (by rwa [← lzUnits_flatten]) rfl hrun

end Sys2Proof.Machine
end

section
/-! SUPPORT. Proofs: How a high-level command ends -/

namespace Sys2Proof.Machine

/-! ### A failed check (60_exceptions.md R323, R329) -/

/-- The codes that every high-level command can end with, and ERR_UNBUILT where it uses a table. -/
theorem highLevel_codes {i : Instr} (hi : highLevel i = true) :
    6#8 ∈ errorCodes i ∧ 8#8 ∈ errorCodes i ∧ 9#8 ∈ errorCodes i ∧ ((codeTable i).isSome → 4#8 ∈ errorCodes i) := by
  cases i <;> simp_all [highLevel, errorCodes, codeTable]

theorem operandError_code {i : Instr} {s : State} {e : Raised} (h : operandError i s = some e) : e.code = 6#8 := by
  rw [operandError] at h
  split_ifs at h <;> (cases h; rfl)

theorem tableError_code {i : Instr} {s : State} {e : Raised} (h : tableError i s = some e) :
    (codeTable i).isSome = true ∧ e.code = 4#8 ∨ e.code = 6#8 := by
  rw [tableError] at h
  rcases hk : codeTable i with _ | ⟨k, suits⟩
  · simp [hk] at h
  · simp only [hk] at h
    split_ifs at h
    · cases h
      exact .inl ⟨rfl, rfl⟩
    · cases h
      exact .inr rfl

/-- The checks of a high-level command raise ERR_UNBUILT and ERR_BAD_OPERAND only, and only where it lists them. -/
theorem checkError_code {i : Instr} {s : State} {e : Raised} (hi : highLevel i = true) (h : checkError i s = some e) :
    e.code ∈ errorCodes i ∧ e.code ∈ [4#8, 6#8, 7#8] := by
  obtain ⟨h6, -, -, h4⟩ := highLevel_codes hi
  rw [checkError, Option.or_eq_some_iff] at h
  rcases h with h | ⟨-, h⟩
  · rw [operandError_code h]
    exact ⟨h6, by simp⟩
  · rcases tableError_code h with ⟨hk, he⟩ | he
    · rw [he]
      exact ⟨h4 hk, by simp⟩
    · rw [he]
      exact ⟨h6, by simp⟩

/-- Checks that all pass have found the buffers right, and the table ready. -/
theorem checkError_none {i : Instr} {s : State} (hi : highLevel i = true) (h : checkError i s = none) :
    s.buffersOk = true ∧ tableReady i s = true := by
  obtain ⟨hn, hr, hw⟩ := highLevel_operands hi
  rw [checkError, Option.or_eq_none_iff] at h
  obtain ⟨hoperands, htable⟩ := h
  constructor
  · simp only [operandError, hn, hr, hw, hi] at hoperands
    split_ifs at hoperands with _ hs hd hj
    simp only [true_and, Bool.not_eq_false] at hs hd hj
    rw [State.buffersOk, hs, hd, hj]
    rfl
  · rw [tableReady]
    rcases hk : codeTable i with _ | ⟨k, suits⟩
    · rfl
    · simp only [tableError, hk] at htable
      split_ifs at htable with hf ha
      simp only [Bool.not_eq_false] at hf ha
      rw [Bool.and_eq_true]
      exact ⟨hf, ha⟩

/-! ### The run behind the checks (60_exceptions.md R320 step 3, R329) -/

/-- Behind the checks of a high-level command, its body runs from cursors at 0; an error in it is reported with the bytes
the output has touched. -/
structure RunsBody (i : Instr) (report : State → State) (body : Eng Unit) : Prop where
  run : ∀ s, exec i s = runCommand (checks i >>= fun _ => startHighLevel >>= fun _ => reporting report body) s
  bytes : ∀ u, (report u).res0 = word u.outputBytes
  wpos : ∀ u, (report u).wpos = u.wpos

/-- The checks of the commands without a table. -/
theorem checks_buffers {i : Instr} (hi : highLevel i = true) (hk : codeTable i = none) : checks i = checkBuffers := by
  obtain ⟨hn, hr, hw⟩ := highLevel_operands hi
  simp only [checks, checkOperands, checkTable, hn, hr, hw, hi, hk, checkCount_zero, checkWhen_true, pure_bind,
    bind_assoc, bind_pure_unit, checkBuffers]

/-- The checks of the commands with a table. -/
theorem checks_table {i : Instr} {k : Fin 16} {suits : Alphabet → Bool} (hi : highLevel i = true)
    (hk : codeTable i = some (k, suits)) : checks i = checkBuffers >>= fun _ => checkBuilt k >>= fun _ =>
      require (fun s => suits (s.slot k).alpha) (.badOperand 8) := by
  obtain ⟨hn, hr, hw⟩ := highLevel_operands hi
  simp only [checks, checkOperands, checkTable, hn, hr, hw, hi, hk, checkCount_zero, checkWhen_true, pure_bind,
    bind_assoc, checkBuffers]

/-- A walk and its epilogue (43_format_walker.md R234, R242). -/
def walkRun (walk : Rd Unit) : Eng Unit := do
  let _ ← walk.run
  let n ← close
  setRes0 n
  setRes1 (← get).eng.requested
  setRes2 (← get).eng.completed

theorem inspect_runsBody {i : Instr} {walk : Rd Unit} (hi : highLevel i = true) (hk : codeTable i = none)
    (h : ∀ s, exec i s = runCommand (inspectCommand walk) s) : RunsBody i walkReport (walkRun walk) :=
  ⟨fun s => by rw [h, checks_buffers hi hk]; rfl, fun _ => rfl, fun _ => rfl⟩

theorem tableWalk_runsBody {i : Instr} {walk : Rd Unit} {k : Fin 16} (hi : highLevel i = true)
    (hk : codeTable i = some (k, fun a => decide (256 ≤ a.size)))
    (h : ∀ s, exec i s = runCommand (tableWalkCommand k walk) s) : RunsBody i walkReport (walkRun walk) :=
  ⟨fun s => by rw [h, checks_table hi hk]; simp only [bind_assoc]; rfl, fun _ => rfl, fun _ => rfl⟩

theorem walkRun_raises {walk : Rd Unit} (h : RdRaises [8#8, 9#8] walk) : Raises [8#8, 9#8] (walkRun walk) :=
  Raises.bind h fun _ => Raises.bind (close_raises (by decide) (by decide)) fun _ =>
    Raises.bind (Raises.modify _) fun _ => Raises.bind Raises.get fun _ => Raises.bind (Raises.modify _) fun _ =>
      Raises.bind Raises.get fun _ => Raises.modify _

/-- The walk that a walker command makes. -/
theorem walker_runsBody {i : Instr} (hi : walker i = true) : ∃ walk, RunsBody i walkReport (walkRun walk) ∧
    RdRaises [8#8, 9#8] walk := by
  have h9 : 9#8 ∈ [8#8, 9#8] := by decide
  have h8 : 8#8 ∈ [8#8, 9#8] := by decide
  cases i with
  | wkInspectLz4 => exact ⟨_, inspect_runsBody rfl rfl fun _ => rfl, walkLz4_raises h9 h8 (xformPass_raises h9 h8)⟩
  | wkInspectSnappy => exact ⟨_, inspect_runsBody rfl rfl fun _ => rfl, walkSnappy_raises h9 h8 (xformPass_raises h9 h8)⟩
  | wkCompLz4 k => exact ⟨_, tableWalk_runsBody rfl rfl fun _ => rfl, walkLz4_raises h9 h8 (xformComp_raises h9 h8 k)⟩
  | wkCompSnappy k =>
    exact ⟨_, tableWalk_runsBody rfl rfl fun _ => rfl, walkSnappy_raises h9 h8 (xformComp_raises h9 h8 k)⟩
  | wkDecompLz4 k =>
    exact ⟨_, tableWalk_runsBody rfl rfl fun _ => rfl, walkLz4_raises h9 h8 (xformDecomp_raises h9 h8 k)⟩
  | wkDecompSnappy k =>
    exact ⟨_, tableWalk_runsBody rfl rfl fun _ => rfl, walkSnappy_raises h9 h8 (xformDecomp_raises h9 h8 k)⟩
  | nop | bsRbit | bsRbyte | bsRbits | bsWbit | bsWbyte | bsWbits | bsAlign | bsClose | tblCreate | tblIncr | tblIncs
  | tblFin | tblCode | tblDec | tblInfo | tblWgt | viEnc | viDec | uvEnc | uvDec | blkEnc | blkDec | lzComp | lzDecomp =>
    exact absurd hi (by simp [walker])

theorem block_runsBody {i : Instr} {body : Eng Unit} {k : Fin 16} (hi : highLevel i = true)
    (hk : codeTable i = some (k, fun a => decide (a.size = 257)))
    (h : ∀ s, exec i s = runCommand (blockPrologue k >>= fun _ => reporting blockReport body) s) :
    RunsBody i blockReport body :=
  ⟨fun s => by
    rw [h, checks_table hi hk]
    simp only [blockPrologue, bind_assoc, Alphabet.size_eq_257_iff], fun _ => rfl, fun _ => rfl⟩

/-- The run of BLK.* behind its prologue raises ERR_OUTPUT_FULL and ERR_BUS only. -/
theorem block_ends {i : Instr} (hi : highLevel i = true) (hw : walker i = false) (hc : i ≠ .lzComp) (hd : i ≠ .lzDecomp) :
    ∃ body, RunsBody i blockReport body ∧ Raises [8#8, 9#8] body := by
  have h9 : 9#8 ∈ [8#8, 9#8] := by decide
  have h8 : 8#8 ∈ [8#8, 9#8] := by decide
  cases i with
  | blkEnc k =>
    exact ⟨_, block_runsBody rfl rfl fun _ => rfl, Raises.bind Raises.get fun _ =>
      Raises.bind (encodeLoop_raises h9 h8 k _) fun _ => Raises.bind (writeCode_raises h9 h8 k _) fun _ =>
        Raises.bind (close_raises h9 h8) fun _ => Raises.modify _⟩
  | blkDec k =>
    exact ⟨_, block_runsBody rfl rfl fun _ => rfl, Raises.bind Raises.get fun _ =>
      Raises.bind (blockDecodeLoop_raises h9 h8 k _) fun _ => Raises.bind (close_raises h9 h8) fun _ => Raises.modify _⟩
  | lzComp => exact absurd rfl hc
  | lzDecomp => exact absurd rfl hd
  | wkInspectLz4 | wkInspectSnappy | wkCompLz4 | wkCompSnappy | wkDecompLz4 | wkDecompSnappy =>
    exact absurd hw (by simp [walker])
  | nop | bsRbit | bsRbyte | bsRbits | bsWbit | bsWbyte | bsWbits | bsAlign | bsClose | tblCreate | tblIncr | tblIncs
  | tblFin | tblCode | tblDec | tblInfo | tblWgt | viEnc | viDec | uvEnc | uvDec =>
    exact absurd hi (by simp [highLevel])

theorem lzComp_runsBody : RunsBody .lzComp lzCompReport (do
    let n := (← get).srcLen.toNat
    uvEncode n
    scan n
    let bytes ← close
    setRes0 bytes
    setRes1 (← get).eng.substitutions
    setRes2 (← get).eng.literals) :=
  ⟨fun s => by rw [checks_buffers rfl rfl]; rfl, fun _ => rfl, fun _ => rfl⟩

/-- The run of LZ.DECOMP behind its checks can also raise ERR_CORRUPT_REF (45_lz77.md R302). -/
theorem lzDecomp_ends : ∃ body, RunsBody .lzDecomp lzDecompReport body ∧ Raises [2#8, 8#8, 9#8] body := by
  have h9 : 9#8 ∈ [2#8, 8#8, 9#8] := by decide
  have h8 : 8#8 ∈ [2#8, 8#8, 9#8] := by decide
  have finish : Raises [2#8, 8#8, 9#8] (close >>= fun n => setRes0 n) :=
    Raises.bind (close_raises h9 h8) fun _ => Raises.modify _
  refine ⟨_, ⟨fun s => by rw [checks_buffers rfl rfl]; rfl, fun _ => rfl, fun _ => rfl⟩,
    Raises.bind (uvDecode_raises h9) fun r => ?_⟩
  cases r with
  | value v =>
    exact Raises.bind Raises.get fun _ => Raises.bind (tokenLoop_raises h9 h8 (by decide) _) fun _ => finish
  | fail => exact finish
  | overflow => exact finish

/-- Behind the checks of a high-level command an error is one that it lists, and none of those of the checks. -/
theorem exec_runsBody {i : Instr} (hi : highLevel i = true) : ∃ report body, RunsBody i report body ∧
    ∀ (s : State) e t, s.buffersOk = true → body.run (s.working 0 [] Engine.idle) = .error e t →
      e.code ∈ errorCodes i ∧ e.code ∉ [4#8, 6#8, 7#8] := by
  obtain ⟨-, h8, h9, -⟩ := highLevel_codes hi
  have written {c : Byte} (hc : c ∈ [8#8, 9#8]) : c ∈ errorCodes i ∧ c ∉ [4#8, 6#8, 7#8] := by
    simp only [List.mem_cons, List.not_mem_nil, or_false] at hc
    rcases hc with rfl | rfl
    · exact ⟨h8, by decide⟩
    · exact ⟨h9, by decide⟩
  by_cases hw : walker i = true
  · obtain ⟨walk, hrun, hraises⟩ := walker_runsBody hw
    exact ⟨_, _, hrun, fun s e t _ h => written (walkRun_raises hraises _ e t h)⟩
  by_cases hcomp : i = .lzComp
  · subst hcomp
    exact ⟨_, _, lzComp_runsBody, fun s e t hok h => written (lzComp_ends hok ((lzCompBody_eq s).symm.trans h)).1⟩
  by_cases hdecomp : i = .lzDecomp
  · subst hdecomp
    obtain ⟨body, hrun, hraises⟩ := lzDecomp_ends
    refine ⟨_, _, hrun, fun s e t _ h => ?_⟩
    rcases List.mem_cons.1 (hraises _ e t h) with hc | hc
    · rw [hc]
      exact ⟨by decide, by decide⟩
    · exact written hc
  · obtain ⟨body, hrun, hraises⟩ := block_ends hi (by simpa using hw) hcomp hdecomp
    exact ⟨_, _, hrun, fun s e t _ h => written (hraises _ e t h)⟩

/-- Behind its checks a high-level command is its body, run from cursors at 0. -/
theorem RunsBody.exec_eq {i : Instr} {report : State → State} {body : Eng Unit} (h : RunsBody i report body) {s : State}
    (hc : checkError i s = none) : exec i s = runCommand (reporting report body) (s.working 0 [] Engine.idle) := by
  have hchecks : (checks i).run s = .ok () s := by rw [checks_run, hc, checked]
  rw [h.run]
  exact runCommand_congr ((Eng.bind_ok hchecks).trans (Eng.bind_ok (startHighLevel_working s)))

/-- How an error ends a high-level command: a check fails, and nothing else happens; or the body raises one of the
command's other errors, and RES0 takes the bytes the output has touched (60_exceptions.md R329). -/
theorem highLevel_error {i : Instr} {s t : State} (hi : highLevel i = true) (h : exec i s = .next t) (herr : t.err ≠ 0#8) :
    (∃ e, checkError i s = some e ∧ t = s.takeError e) ∨
      (checkError i s = none ∧ t.err ∈ errorCodes i ∧ t.err ∉ [4#8, 6#8, 7#8] ∧
        t.res0 = word ((t.wpos.toNat + 7) / 8)) := by
  rcases hc : checkError i s with _ | e
  · obtain ⟨report, body, hruns, hcodes⟩ := exec_runsBody hi
    rw [hruns.exec_eq hc] at h
    right
    rcases hbody : body.run (s.working 0 [] Engine.idle) with ⟨⟨⟩, u⟩ | ⟨e, u⟩
    · rw [runCommand_ok (reporting_ok hbody)] at h
      cases h
      exact absurd (State.complete_err _ _) herr
    · rw [runCommand_error (reporting_error hbody)] at h
      cases h
      obtain ⟨hlisted, hother⟩ := hcodes s e u (checkError_none hi hc).1 hbody
      rw [State.takeError_err]
      refine ⟨rfl, hlisted, hother, (hruns.bytes u).trans ?_⟩
      rw [State.outputBytes, ← hruns.wpos u]
      rfl
  · left
    refine ⟨e, rfl, ?_⟩
    have hfails : exec i s = .next (s.takeError e) := failsWith_of_checkError hc
    simpa using h.symm.trans hfails

/-- Settles O9: a primitive's parts and a high-level command's checks and body raise only what the command lists. -/
theorem errorCodesRaised : Obligations.ErrorCodesRaised := by
  intro i s t h
  by_cases herr : t.err = 0#8
  · exact .inl herr
  right
  rcases hi : highLevel i with _ | _
  · obtain ⟨m, hm, hraises⟩ := primitive_failsWithin hi s
    rw [hm] at h
    rcases runCommand_next m s with ⟨u, -, hrun⟩ | ⟨e, u, hend, hrun⟩
    · rw [hrun] at h
      cases h
      exact absurd (State.complete_err _ _) herr
    · rw [hrun] at h
      cases h
      rw [State.takeError_err]
      exact (hraises s e u hend).1
  · rcases highLevel_error hi h herr with ⟨e, hc, rfl⟩ | ⟨-, hlisted, -⟩
    · rw [State.takeError_err]
      exact (checkError_code hi hc).1
    · exact hlisted

end Sys2Proof.Machine
end

section
/-! SUPPORT. Proofs: Where a walk of a plain source ends with an error -/

namespace Sys2Proof.Machine

/-- Units count up to the one in which the room ends. -/
theorem unitsWithin_split {us vs : List Bits} {u : Bits} {q : Nat} (hle : us.flatten.length ≤ q)
    (hlt : q < us.flatten.length + u.length) : unitsWithin q (us ++ u :: vs) = us.length := by
  rw [unitsWithin_append_ge hle, unitsWithin, if_neg (by omega), Nat.add_zero]

/-- The command ends with an error, the counters being those of the bytes of `xs` whose bits stand whole in the output
(43_format_walker.md R233, R242). -/
def EndsCounted (i : Instr) (s : State) (bias : Nat) (p : WalkPhase) (code : Byte → Bits) (xs : List Byte) : Prop :=
  ∃ ys b zs err r w, xs = ys ++ b :: zs ∧ (walkUnits bias code p ys).flatten.length ≤ w.length ∧
    w.length < (walkUnits bias code p ys).flatten.length + ((walkEnd bias p ys).unit code b).length ∧
    w.length ≤ 8 * s.dstCap.toNat ∧
    failsWith i s err ((s.produced r w ((w.length + 7) / 8)).counted bias p ys)

/-- The bytes that stand whole in the output are read off its length. -/
theorem take_unitsWithin {bias : Nat} {p : WalkPhase} {code : Byte → Bits} {ys zs : List Byte} {b : Byte} {q : Nat}
    (hle : (walkUnits bias code p ys).flatten.length ≤ q)
    (hlt : q < (walkUnits bias code p ys).flatten.length + ((walkEnd bias p ys).unit code b).length) :
    (ys ++ b :: zs).take (unitsWithin q (walkUnits bias code p (ys ++ b :: zs))) = ys := by
  rw [walkUnits_append, walkUnits_cons, unitsWithin_split hle hlt, walkUnits_length, List.take_left]

section
variable {i : Instr} {s : State} {f bias : Nat} {p : WalkPhase} {x : Rd Unit} {src dst : Byte → Bits}
  (hx : Transports s f x src dst) (hbias : s.params.snappyBias = bias) (hwalks : Walks i s p x)
include hx hbias hwalks

/-- The command ends at the first item that cannot be written, where no item before it reaches a byte that may not be
accessed. -/
theorem Walks.endsCounted_writing {xs : List Byte} (hread : (walkUnits bias src p xs).flatten <+: s.sourceStream)
    (hr : (walkUnits bias src p xs).flatten.length ≤ 8 * f) {n q : Nat} {err : Raised}
    (hstop : s.writeStop (walkUnits bias dst p xs) = some (n, q, err)) : EndsCounted i s bias p dst xs := by
  obtain ⟨ys, b, zs, rfl, rfl, hnone, hitem, -⟩ := State.writeStop_item hstop
  obtain ⟨hbefore, rest, hleft⟩ := State.Left.of_items hread
  rw [walkUnits_append, walkUnits_cons, List.flatten_append, List.flatten_cons, List.length_append,
    List.length_append] at hr
  have hroom := State.stopAt_room hnone
  obtain ⟨htake, hcap⟩ := State.stopAt_length hroom hitem
  obtain ⟨hle, hlt, -⟩ := State.stopAt_some hitem hroom
  rw [List.flatten_singleton] at hlt
  exact ⟨ys, b, zs, err, _, _, rfl, by rwa [htake], by rwa [htake], by rwa [htake],
    hwalks.fails hx hbias hbefore (by omega) hnone b (by rwa [htake])
      fun e => (hx.item _ b).stops hroom hleft (by omega) hitem⟩

end

theorem WalkPhase.unit_pos {code : Byte → Bits} (hcode : ∀ b, code b ≠ []) (p : WalkPhase) (b : Byte) :
    0 < (p.unit code b).length := by
  rw [WalkPhase.unit]
  split_ifs
  · rw [natBits_length]
    decide
  · exact List.length_pos_of_ne_nil (hcode b)

/-- A walk of a plain source succeeds, or ends with the counters of what stands whole in the output. -/
theorem plainWalk_ends {s : State} {i : Instr} (hok : s.buffersOk = true) (hready : tableReady i s = true)
    {p : WalkPhase} {code : Byte → Bits} (hplain : plainWalk s i = some (p, code)) (hcode : ∀ b, code b ≠ [])
    {bias : Nat} (hbias : s.params.snappyBias = bias) :
    (∃ t, succeeds i s t) ∨ EndsCounted i s bias p code s.source := by
  obtain ⟨g, hwalks, hx⟩ := plainWalk_walks hok hready hplain
  obtain ⟨f, h⟩ := Opened.exists (Buffers.of_ok hok)
  have hinside := h.inside
  have hread : (walkUnits bias (fun b => natBits 8 b.toNat) p (s.source.take f)).flatten <+: s.sourceStream := by
    refine List.IsPrefix.trans ?_ (plainItems_prefix s bias p)
    rw [walkUnits_plain_flatten, walkUnits_plain_flatten]
    conv_rhs => rw [← List.take_append_drop f s.source]
    rw [bytesBits_append]
    exact List.prefix_append _ _
  have hlen := plainItems_take_length (s := s) (bias := bias) (p := p) hinside
  rcases hstop : s.writeStop (walkUnits bias code p (s.source.take f)) with _ | ⟨n, q, err⟩
  · obtain hf | hf := Nat.lt_or_eq_of_le hinside
    · right
      have hnone := State.stopAt_of_writeStop_none hstop
      obtain ⟨ys, b, zs, hsplit, hys⟩ := exists_split (xs := s.source) (n := f) (by rwa [s.source_length])
      have htake : s.source.take f = ys := by rw [hsplit, ← hys, List.take_left]
      have hfails := hwalks.fails_reading (hx f h) hbias (plainItems_prefix s bias p) hlen.le
        (by rw [plainItems_take_length hf]; omega) hnone
      rw [htake] at hfails hnone
      have hpos := WalkPhase.unit_pos hcode (walkEnd bias p ys) b
      exact ⟨ys, b, zs, _, _, _, hsplit, Nat.le_refl _, by omega, State.stopAt_room hnone, hfails⟩
    · left
      subst hf
      rw [List.take_of_length_le s.source_length.le] at hstop
      have hopen : s.sourceOpen = true := State.sourceOpen_iff.2 h.opened
      exact ⟨_, plainWalk_succeeds hok hready hplain hbias hopen hstop⟩
  · right
    obtain ⟨ys, b, zs, err', r, w, hsplit, hend⟩ := hwalks.endsCounted_writing (hx f h) hbias hread hlen.le hstop
    refine ⟨ys, b, zs ++ s.source.drop f, err', r, w, ?_, hend⟩
    rw [← List.cons_append, ← List.append_assoc, ← hsplit, List.take_append_drop]

/-- RES1 and RES2 after an error in a walk of a plain source. -/
theorem plainWalk_results {s t : State} {i : Instr} (hok : s.buffersOk = true) (hready : tableReady i s = true)
    {p : WalkPhase} {code : Byte → Bits} (hplain : plainWalk s i = some (p, code)) (hcode : ∀ b, code b ≠ [])
    (hexec : exec i s = .next t) (herr : t.err ≠ 0#8) :
    let bias := s.params.snappyBias
    let xs := s.source.take (unitsWithin t.wpos.toNat (walkUnits bias code p s.source))
    t.res1 = word (walkRequested bias p xs) ∧ t.res2 = word (walkCompleted bias p xs) := by
  intro bias xs
  have hcap := (Buffers.of_ok hok).dest
  rcases plainWalk_ends hok hready hplain hcode (bias := bias) rfl with
    ⟨u, hend⟩ | ⟨ys, b, zs, err, r, w, hsplit, hle, hlt, hfit, hend⟩
  · obtain rfl : t = u.complete 0#8 := by simpa using hexec.symm.trans hend
    exact absurd (State.complete_err _ _) herr
  · obtain rfl : t = _ := by simpa using hexec.symm.trans hend
    have hwpos : (word w.length).toNat = w.length := word_toNat (by omega)
    have hxs : xs = ys := by
      change s.source.take (unitsWithin (word w.length).toNat (walkUnits bias code p s.source)) = ys
      rw [hwpos, hsplit]
      exact take_unitsWithin hle hlt
    rw [hxs]
    exact ⟨rfl, rfl⟩

end Sys2Proof.Machine
end

section
/-! SUPPORT. Proofs: Where a walk of a compressed source ends, for every table -/

namespace Sys2Proof.Machine

/-! ### Readers move RPOS on, and change nothing else (40_bitstream.md R141) -/

/-- From a state with a well-formed source to one with RPOS moved on within it. -/
def MovesOn (s t : State) : Prop := s.sourceOk = true → ∃ n ≤ s.avail, t = s.skip n

theorem MovesOn.refl (s : State) : MovesOn s s := fun _ => ⟨0, Nat.zero_le _, s.skip_zero.symm⟩

theorem MovesOn.trans (s t u : State) (h : MovesOn s t) (h' : MovesOn t u) : MovesOn s u := fun hsrc => by
  obtain ⟨m, hm, rfl⟩ := h hsrc
  obtain ⟨n, hn, rfl⟩ := h' hsrc
  rw [State.skip_avail hsrc hm] at hn
  exact ⟨m + n, by omega, s.skip_skip m n⟩

theorem State.skip_one (s : State) : s.skip 1 = { s with rpos := s.rpos + 1#32 } := by
  rw [State.skip, word, BitVec.ofNat_add, BitVec.ofNat_toNat, BitVec.setWidth_eq]

theorem readBit_movesOn : RdKeeps MovesOn readBit :=
  readBit_keeps MovesOn.refl fun s h _ => ⟨1, h, s.skip_one.symm⟩

theorem readBitsLoop_movesOn (n v : Nat) : RdKeeps MovesOn (readBitsLoop n v) :=
  readBitsLoop_keeps MovesOn.refl MovesOn.trans readBit_movesOn n v

theorem decodeLoop_movesOn (k : Fin 16) (fuel : Nat) (p : Bits) : RdKeeps MovesOn (decodeLoop k fuel p) := by
  have refl := MovesOn.refl
  have trans := MovesOn.trans
  induction fuel generalizing p with
  | zero => exact RdKeeps.failure refl
  | succ fuel ih =>
    refine RdKeeps.bind refl trans readBit_movesOn fun b => ?_
    refine RdKeeps.bind refl trans (RdKeeps.lift refl trans (Keeps.get refl)) fun s => ?_
    rcases findCode (p ++ [b]) (s.slot k).codes 0 with _ | x
    · exact ih _
    · exact RdKeeps.pure refl x

/-- Where the reader answers, it has read a bit. -/
def Consumes {α : Type} (m : Rd α) : Prop :=
  ∀ s a t, s.sourceOk = true → m.run.run s = .ok (some a) t → ∃ n, 0 < n ∧ n ≤ s.avail ∧ t = s.skip n

section
variable {α β : Type}

theorem Consumes.bind {m : Rd α} {f : α → Rd β} (hm : Consumes m) (hf : ∀ a, RdKeeps MovesOn (f a)) :
    Consumes (m >>= f) := fun s b t hsrc h => by
  rcases hrun : m.run.run s with ⟨_ | a, u⟩ | ⟨e, u⟩
  · rw [Rd.bind_none hrun] at h
    cases h
  · obtain ⟨k, hpos, hk, rfl⟩ := hm s a u hsrc hrun
    rw [Rd.bind_some hrun] at h
    obtain ⟨n, hn, rfl⟩ := (hf a (s.skip k)).1 _ t h hsrc
    rw [State.skip_avail hsrc hk] at hn
    exact ⟨k + n, by omega, by omega, s.skip_skip k n⟩
  · rw [Rd.bind_error hrun] at h
    cases h

theorem Consumes.get_bind {f : State → Rd β} (hf : ∀ s, Consumes (f s)) : Consumes (get >>= f) :=
  fun s b t hsrc h => hf s s b t hsrc ((Rd.bind_some (Rd.get_run s)).symm.trans h)

theorem Consumes.failure : Consumes (failure : Rd α) := fun s a t _ h => by cases h

end

theorem readBit_consumes : Consumes readBit := fun s b t hsrc h => by
  rw [readBit_run, ← s.skip_one] at h
  split_ifs at h with havail
  · cases h
  · injection h with _ ht
    exact ⟨1, Nat.one_pos, by omega, ht.symm⟩

theorem readByte_consumes : Consumes readByte := by
  refine Consumes.bind (Consumes.get_bind fun s => ?_) fun v => RdKeeps.pure MovesOn.refl (byte v)
  split_ifs
  · exact Consumes.failure.bind fun _ => readBitsLoop_movesOn _ _
  · exact readBit_consumes.bind fun b => readBitsLoop_movesOn _ _

theorem decodeNext_consumes (k : Fin 16) : Consumes (decodeNext k) := by
  refine Consumes.get_bind fun s => readBit_consumes.bind fun b => ?_
  refine RdKeeps.bind MovesOn.refl MovesOn.trans
    (RdKeeps.lift MovesOn.refl MovesOn.trans (Keeps.get MovesOn.refl)) fun u => ?_
  rcases findCode ([] ++ [b]) (u.slot k).codes 0 with _ | x
  · exact decodeLoop_movesOn k _ _
  · exact RdKeeps.pure MovesOn.refl x

/-! ### One item of a compressed source (43_format_walker.md R231, R232) -/

section
variable {s : State} (h : Buffers s) {r : Nat} {w : Bits} {e : Engine}
include h

/-- A reader answers with RPOS moved on, or fails or ends with an error, nothing else being changed. -/
theorem reader_ends {α : Type} {m : Rd α} (hsrc : s.sourceOk = true) (hk : RdKeeps MovesOn m) (hc : Consumes m)
    (hr : r ≤ 8 * s.srcLen.toNat) :
    (∃ a r', r < r' ∧ r' ≤ 8 * s.srcLen.toNat ∧ m.run.run (s.working r w e) = .ok (some a) (s.working r' w e)) ∨
      (∃ r', m.run.run (s.working r w e) = .ok none (s.working r' w e)) ∨
      ∃ err r', m.run.run (s.working r w e) = .error err (s.working r' w e) := by
  have hbits := h.source
  have havail : (s.working r w e).avail = 8 * s.srcLen.toNat - r := by
    rw [State.avail, State.working_rpos, State.working_srcLen, word_toNat (by omega)]
  rcases hrun : m.run.run (s.working r w e) with ⟨_ | a, t⟩ | ⟨err, t⟩
  · obtain ⟨n, -, rfl⟩ := (hk _).1 _ t hrun hsrc
    exact .inr (.inl ⟨r + n, by rw [State.working_skip]⟩)
  · obtain ⟨n, hpos, hn, rfl⟩ := hc (s.working r w e) a t hsrc hrun
    rw [havail] at hn
    exact .inl ⟨a, r + n, by omega, by omega, by rw [State.working_skip]⟩
  · obtain ⟨n, -, rfl⟩ := (hk _).2 err t hrun hsrc
    exact .inr (.inr ⟨err, r + n, by rw [State.working_skip]⟩)

/-- A byte is written whole, or some of its bits are. -/
theorem writeByte_ends (hw : w.length ≤ 8 * s.dstCap.toNat) (b : Byte) :
    (s.stopAt w.length [natBits 8 b.toNat] = none ∧
      (writeByte b).run (s.working r w e) = .ok () (s.working r (w ++ natBits 8 b.toNat) e)) ∨
      ∃ err v, (writeByte b).run (s.working r w e) = .error err (s.working r (w ++ v) e) ∧ v.length < 8 ∧
        (w ++ v).length ≤ 8 * s.dstCap.toNat := by
  rcases hstop : s.stopAt w.length [natBits 8 b.toNat] with _ | ⟨q, err⟩
  · exact .inl ⟨rfl, (writeString_working_whole h hw hstop).1⟩
  · obtain ⟨hle, hlt, hcap⟩ := State.stopAt_some hstop hw
    rw [List.flatten_singleton, natBits_length] at hlt
    have hrun := writeString_working_stops h hw hstop (r := r) (e := e)
    obtain ⟨i, rfl⟩ := Nat.exists_eq_add_of_le hle
    rw [List.take_length_add_append] at hrun
    have hlen : ((natBits 8 b.toNat).take i).length = i := by rw [List.length_take, natBits_length]; omega
    exact .inr ⟨err, _, hrun, by omega, by rw [List.length_append]; omega⟩

/-- How the part `m` that carries an item to the byte `b` ends: the byte is written, the bits read before; or none is read;
or an error ends it, less than a byte written. -/
def ItemEnds (s : State) (r : Nat) (w : Bits) (e : Engine) (m : Rd Byte) (b : Byte) : Prop :=
  (∃ r', r < r' ∧ r' ≤ 8 * s.srcLen.toNat ∧ s.stopAt w.length [natBits 8 b.toNat] = none ∧
    m.run.run (s.working r w e) = .ok (some b) (s.working r' (w ++ natBits 8 b.toNat) e)) ∨
  (∃ r', m.run.run (s.working r w e) = .ok none (s.working r' w e)) ∨
  ∃ err r' v, m.run.run (s.working r w e) = .error err (s.working r' (w ++ v) e) ∧ v.length < 8 ∧
    (w ++ v).length ≤ 8 * s.dstCap.toNat

variable (hw : w.length ≤ 8 * s.dstCap.toNat)
include hw

omit h in
/-- An item whose reading does not answer. -/
theorem ItemEnds.of_reader {α : Type} {m : Rd α} {g : α → Rd Byte} {b : Byte}
    (hread : (∃ r', m.run.run (s.working r w e) = .ok none (s.working r' w e)) ∨
      ∃ err r', m.run.run (s.working r w e) = .error err (s.working r' w e)) : ItemEnds s r w e (m >>= g) b := by
  rcases hread with ⟨r', hrun⟩ | ⟨err, r', hrun⟩
  · exact .inr (.inl ⟨r', Rd.bind_none hrun⟩)
  · exact .inr (.inr ⟨err, r', [], by rw [Rd.bind_error hrun, List.append_nil], by decide, by rwa [List.append_nil]⟩)

/-- An item whose reading leads to the byte `b`. -/
theorem ItemEnds.of_written {m : Rd Byte} {b : Byte} {r' : Nat} (hlt : r < r') (hle : r' ≤ 8 * s.srcLen.toNat)
    (hrun : m.run.run (s.working r w e) = (liftM (writeByte b) >>= fun _ => pure b : Rd Byte).run.run (s.working r' w e)) :
    ItemEnds s r w e m b := by
  rcases writeByte_ends h (r := r') (e := e) hw b with ⟨hnone, hwrite⟩ | ⟨err, v, hwrite, hv, hfit⟩
  · exact .inl ⟨r', hlt, hle, hnone, by rw [hrun, Rd.lift_bind_ok hwrite, Rd.pure_run]⟩
  · exact .inr (.inr ⟨err, r', v, by rw [hrun, Rd.lift_bind_error hwrite], hv, hfit⟩)

/-- Every item of a compressed source ends so, for some byte. -/
theorem codedItem_ends (hsrc : s.sourceOk = true) (hr : r ≤ 8 * s.srcLen.toNat) (k : Fin 16) (p : WalkPhase) :
    ∃ b, ItemEnds s r w e (p.item (xformDecomp k) b) b := by
  by_cases hp : p.slots = 0
  · have hread := reader_ends h (w := w) (e := e) hsrc
      (readByte_keeps MovesOn.refl MovesOn.trans readBit_movesOn) readByte_consumes hr
    simp only [WalkPhase.item_structural hp]
    rcases hread with ⟨b, r', hlt, hle, hrun⟩ | hend
    · exact ⟨b, ItemEnds.of_written h hw hlt hle (Rd.bind_some hrun)⟩
    · exact ⟨0#8, ItemEnds.of_reader hw hend⟩
  · have hread := reader_ends h (w := w) (e := e) hsrc
      (decodeNext_keeps MovesOn.refl MovesOn.trans readBit_movesOn k) (decodeNext_consumes k) hr
    simp only [WalkPhase.item_literal hp, xformDecomp, bind_assoc]
    rcases hread with ⟨y, r', hlt, hle, hrun⟩ | hend
    · refine ⟨byte y, ?_⟩
      by_cases hy : 256 ≤ y
      · refine .inr (.inl ⟨r', ?_⟩)
        rw [Rd.bind_some hrun, if_pos hy]
        rfl
      · refine ItemEnds.of_written h hw hlt hle ?_
        rw [Rd.bind_some hrun, if_neg hy]
    · exact ⟨0#8, ItemEnds.of_reader hw hend⟩

end

/-! ### The walk of a compressed source (43_format_walker.md R235, R238) -/

/-- How a part of a walk ends that begins with nothing read: it stops behind the bytes of `xs`, or an error ends it there,
less than a byte more written. The counters are those of `xs`. -/
def CodedEnds (s : State) (bias : Nat) (p : WalkPhase) (res : EStateM.Result Raised State (Option Unit)) : Prop :=
  (∃ r xs, s.stopAt 0 (byteUnits xs) = none ∧
    res = .ok none (s.working r (bytesBits xs) (Engine.idle.walked bias p xs))) ∨
  ∃ err r xs v, v.length < 8 ∧ (bytesBits xs ++ v).length ≤ 8 * s.dstCap.toNat ∧
    res = .error err (s.working r (bytesBits xs ++ v) (Engine.idle.walked bias p xs))

theorem Engine.walked_concat (bias : Nat) (p : WalkPhase) (xs : List Byte) (b : Byte) (e : Engine) :
    e.walked bias p (xs ++ [b]) = (e.walked bias p xs).past bias (walkEnd bias p xs) b := by
  induction xs generalizing p e with
  | nil => rfl
  | cons x xs ih => exact ih _ _

theorem walkEnd_concat (bias : Nat) (p : WalkPhase) (xs : List Byte) (b : Byte) :
    walkEnd bias p (xs ++ [b]) = (walkEnd bias p xs).next bias b := by
  induction xs generalizing p with
  | nil => rfl
  | cons x xs ih => exact ih _

theorem bytesBits_concat (xs : List Byte) (b : Byte) : bytesBits (xs ++ [b]) = bytesBits xs ++ natBits 8 b.toNat := by
  rw [bytesBits_append, bytesBits_cons, bytesBits_nil, List.append_nil]

/-- A unit behind those that can be written. -/
theorem State.stopAt_concat {s : State} {xs : List Byte} {b : Byte} (h : s.stopAt 0 (byteUnits xs) = none)
    (hb : s.stopAt (bytesBits xs).length [natBits 8 b.toNat] = none) : s.stopAt 0 (byteUnits (xs ++ [b])) = none := by
  rw [byteUnits, List.map_append, State.stopAt_append, Option.or_eq_none_iff, Nat.zero_add]
  exact ⟨h, by rwa [← byteUnits, byteUnits_flatten]⟩

theorem State.avail_working {s : State} (h : Buffers s) {r : Nat} (hr : r ≤ 8 * s.srcLen.toNat) (w : Bits) (e : Engine) :
    (s.working r w e).avail = 8 * s.srcLen.toNat - r := by
  have hbits := h.source
  rw [State.avail, State.working_rpos, State.working_srcLen, word_toNat (by omega)]

/-- What is still to do of a walk of a compressed source ends so: item by item, with fewer bits left for each. -/
theorem Resumes.codedEnds {s : State} (h : Buffers s) (hsrc : s.sourceOk = true) {bias : Nat}
    (hbias : s.params.snappyBias = bias) {k : Fin 16} {p : WalkPhase} (hp : p.slots = 0) (left : Nat) {r : Nat}
    {xs : List Byte} {m : Rd Unit} (hr : r ≤ 8 * s.srcLen.toNat) (hleft : left = 8 * s.srcLen.toNat - r)
    (hnone : s.stopAt 0 (byteUnits xs) = none) (hm : Resumes (xformDecomp k) left (walkEnd bias p xs) m) :
    CodedEnds s bias p (m.run.run (s.working r (bytesBits xs) (Engine.idle.walked bias p xs))) := by
  induction left using Nat.strong_induction_on generalizing r xs m with
  | _ left ih =>
    have hw : (bytesBits xs).length ≤ 8 * s.dstCap.toNat := by
      rw [← byteUnits_flatten]
      exact State.stopAt_room hnone
    have hlit : (Engine.idle.walked bias p xs).lit = (walkEnd bias p xs).slots := Engine.walked_lit xs hp.symm
    obtain ⟨b, hitem⟩ := codedItem_ends h (e := Engine.idle.walked bias p xs) hw hsrc hr k (walkEnd bias p xs)
    obtain ⟨f, hstart, hnext⟩ := hm.item bias b
    rw [hstart _ hlit]
    rcases hitem with ⟨r', hlt, hle, hb, hrun⟩ | ⟨r', hrun⟩ | ⟨err, r', v, hrun, hv, hfit⟩
    · have havail := State.avail_working h hle (bytesBits xs ++ natBits 8 b.toNat) (Engine.idle.walked bias p xs)
      obtain ⟨m', hm', hrun'⟩ := hnext (s.working r' (bytesBits xs ++ natBits 8 b.toNat) (Engine.idle.walked bias p xs))
        hbias hlit (by omega)
      rw [Rd.bind_some hrun, hrun']
      rw [havail, ← walkEnd_concat] at hm'
      have hend := ih _ (by omega) hle rfl (State.stopAt_concat hnone hb) hm'
      rwa [bytesBits_concat, Engine.walked_concat] at hend
    · exact .inl ⟨r', xs, hnone, Rd.bind_none hrun⟩
    · exact .inr ⟨err, r', xs, v, hv, hfit, Rd.bind_error hrun⟩

/-- The walk of WK.DECOMP, past its checks. -/
theorem codedWalk_eq {s : State} {i : Instr} (hok : s.buffersOk = true) (hready : tableReady i s = true) {p : WalkPhase}
    {k : Fin 16} (hcoded : codedWalk i = some (p, k)) : Walks i s p (xformDecomp k) := by
  unfold codedWalk at hcoded
  split at hcoded <;> cases hcoded
  · obtain ⟨hfinal, hsize⟩ := tableReady_walk rfl hready
    exact ⟨rfl, _, walkLz4_reaches _ rfl, _, rfl, tableWalkCommand_run hok hfinal hsize _⟩
  · obtain ⟨hfinal, hsize⟩ := tableReady_walk rfl hready
    exact ⟨rfl, _, walkSnappy_reaches _ rfl, _, rfl, tableWalkCommand_run hok hfinal hsize _⟩

/-- The whole bytes that bits written from the start of the destination begin with. -/
theorem slice_storeBits_append {m : Memory} (hwf : Memory.wf m = true) {base : Nat} {xs : List Byte} {v : Bits}
    (hfit : base + ((bytesBits xs ++ v).length + 7) / 8 ≤ 2 ^ 32) :
    (storeBits base 0 (bytesBits xs ++ v) m).slice base xs.length = xs := by
  refine bytesBits_injective ?_
  have hstored := streamBits_storeBits base 0 (bytesBits xs ++ v) hwf (by rwa [Nat.zero_add])
  rw [List.length_append, streamBits_append, bytesBits_length, streamBits_slice] at hstored
  exact (List.append_inj hstored (by simp [Memory.slice])).1

/-- RES1 and RES2 after an error in a walk of a compressed source: the counters of the bytes of the output. -/
theorem codedWalk_results {s t : State} {i : Instr} (hok : s.buffersOk = true) (hready : tableReady i s = true)
    {p : WalkPhase} {k : Fin 16} (hcoded : codedWalk i = some (p, k)) (hwf : Memory.wf s.mem = true)
    (hexec : exec i s = .next t) (herr : t.err ≠ 0#8) :
    let bias := s.params.snappyBias
    let xs := t.mem.slice s.dstAddr.toNat (t.wpos.toNat / 8)
    t.res1 = word (walkRequested bias p xs) ∧ t.res2 = word (walkCompleted bias p xs) := by
  intro bias xs
  have h := Buffers.of_ok hok
  have hcap := h.dest
  obtain ⟨hsrc, hdst, -⟩ := s.buffersOk_iff.1 hok
  obtain ⟨hp, walk, ⟨m, hm, hwalk⟩, cmd, hcmd, hrun⟩ := codedWalk_eq hok hready hcoded
  rw [hp, State.asked_zero rfl] at hwalk
  rw [State.avail_working h (Nat.zero_le _)] at hm
  have hends := hm.codedEnds (xs := []) h hsrc (bias := bias) rfl hp _ (Nat.zero_le _) rfl rfl
  rw [hcmd] at hexec
  rcases hends with ⟨r, ys, hnone, hstop⟩ | ⟨err, r, ys, v, hv, hfit, hstop⟩
  · obtain ⟨hroom, hmem⟩ := State.stopAt_none hnone (Nat.zero_le _)
    rw [byteUnits_flatten, Nat.zero_add] at hroom
    have hend := walkBody_stops h hroom (fun i hi => by simpa using hmem i (by rwa [byteUnits_flatten]))
      (hwalk.trans hstop)
    rw [runCommand_ok (hrun.trans hend)] at hexec
    cases hexec
    exact absurd (State.complete_err _ _) herr
  · have hend := walkBody_error h hfit (hwalk.trans hstop)
    rw [runCommand_error (hrun.trans hend), Engine.idle_walked_requested, Engine.idle_walked_completed] at hexec
    cases hexec
    have hlen : (bytesBits ys ++ v).length = 8 * ys.length + v.length := by rw [List.length_append, bytesBits_length]
    have hspan : s.dstAddr.toNat + s.dstCap.toNat ≤ 2 ^ 32 := by
      simp only [State.destOk, bufferOk, Bool.and_eq_true, decide_eq_true_eq] at hdst
      exact hdst.2
    have hxs : xs = ys := by
      change (storeBits s.dstAddr.toNat 0 (bytesBits ys ++ v) s.mem).slice s.dstAddr.toNat
        ((word (bytesBits ys ++ v).length).toNat / 8) = ys
      rw [word_toNat (by omega), show (bytesBits ys ++ v).length / 8 = ys.length by omega]
      exact slice_storeBits_append hwf (by omega)
    rw [hxs]
    exact ⟨rfl, rfl⟩

end Sys2Proof.Machine
end

section
/-! SUPPORT. Proofs: The result registers after an error -/

namespace Sys2Proof.Machine

/-- An error of a primitive leaves the result registers alone. -/
theorem primitive_error {i : Instr} {s t : State} (hi : highLevel i = false) (h : exec i s = .next t) (herr : t.err ≠ 0#8) :
    SameResults s t := by
  obtain ⟨m, hm, hraises⟩ := primitive_failsWithin hi s
  rw [hm] at h
  rcases runCommand_next m s with ⟨u, -, hrun⟩ | ⟨e, u, hend, hrun⟩
  · rw [hrun] at h
    cases h
    exact absurd (State.complete_err _ _) herr
  · rw [hrun] at h
    cases h
    obtain ⟨-, hres⟩ := hraises s e u hend
    exact ⟨hres.res0, hres.res1, hres.res2⟩

/-- RES1 and RES2 after an error of LZ.COMP: the tokens that stand whole in the output. -/
theorem lzComp_results {s t : State} (hc : checkError .lzComp s = none) (hsel : selectorsOk s)
    (h : exec .lzComp s = .next t) (herr : t.err ≠ 0#8) :
    t.res1 = (s.lzCompAt t.wpos.toNat).res1 ∧ t.res2 = (s.lzCompAt t.wpos.toNat).res2 := by
  have hok := (checkError_none rfl hc).1
  have hexec := h
  rw [lzComp_runsBody.exec_eq hc] at hexec
  rcases hbody : (lzCompBody s.srcLen.toNat).run (s.working 0 [] Engine.idle) with ⟨⟨⟩, u⟩ | ⟨e, u⟩
  · rw [runCommand_ok (reporting_ok ((lzCompBody_eq s).trans hbody))] at hexec
    cases hexec
    exact absurd (State.complete_err _ _) herr
  · rw [runCommand_error (reporting_error ((lzCompBody_eq s).trans hbody))] at hexec
    have hend := (lzComp_ends hok hbody).2 hsel
    have hwpos : t.wpos = u.wpos := by
      cases hexec
      rfl
    have ht : t = (s.lzCompAt u.wpos.toNat).takeError e := by simpa using h.symm.trans hend
    rw [hwpos, ht]
    exact ⟨rfl, rfl⟩

/-- BLK.* and LZ.DECOMP report in RES0 only. -/
theorem resultRegisters_res0 {i : Instr} (hi : highLevel i = true) (hw : walker i = false) (hc : i ≠ .lzComp) :
    resultRegisters i = (true, false, false) := by
  cases i <;> simp_all [highLevel, walker, resultRegisters]

/-- Settles O11, by how the command ends: a primitive, a failed check, or the body of a high-level command. -/
theorem resultsOnError : Obligations.ResultsOnError := by
  intro i s t h herr
  rcases hi : highLevel i with _ | _
  · obtain ⟨h0, h1, h2⟩ := primitive_error hi h herr
    exact ⟨fun _ => ⟨h0, h1, h2⟩, fun hhigh => absurd hhigh (by decide)⟩
  rcases highLevel_error hi h herr with ⟨e, hc, rfl⟩ | ⟨hc, -, hother, hres0⟩
  · refine ⟨fun _ => ⟨rfl, rfl, rfl⟩, fun _ hother => absurd ?_ hother⟩
    rw [State.takeError_err]
    exact (checkError_code hi hc).2
  · obtain ⟨hok, hready⟩ := checkError_none hi hc
    refine ⟨fun hcase => absurd hcase (by simpa using hother), fun _ _ => ⟨hres0, fun hw hcomp => ?_,
      fun p code hplain hcode => plainWalk_results hok hready hplain hcode h herr,
      fun p k hcoded hwf => codedWalk_results hok hready hcoded hwf h herr, ?_⟩⟩
    · have hregs := resultRegisters_res0 hi hw hcomp
      exact ⟨(exec_sameRegisters h).res1 (by rw [hregs]), (exec_sameRegisters h).res2 (by rw [hregs])⟩
    · rintro rfl hsel
      exact lzComp_results hc hsel h herr

end Sys2Proof.Machine
end

section
/-! SUPPORT. Proofs: The reset input -/

namespace Sys2Proof.Machine

/-- Reset leaves no byte open, or as many as the destination of the command that it abandons (log 8). -/
theorem State.abandonedBytes_cases (s : State) :
    s.abandonedBytes = 0 ∨
      (s.busy = true ∧ (∃ i, decode s.cmd = .ok i ∧ writesDest i = true) ∧ s.abandonedBytes = s.dstCap.toNat) := by
  unfold State.abandonedBytes State.running
  cases hb : s.busy with
  | false => exact .inl rfl
  | true =>
    rcases hd : decode s.cmd with g | i
    · exact .inl rfl
    · cases hw : writesDest i with
      | false => exact .inl (if_neg (by simp [hw]))
      | true => exact .inr ⟨rfl, ⟨i, rfl, hw⟩, if_pos hw⟩

/-- Free values over no more than a buffer's length leave every byte outside the buffer alone. -/
theorem scramble_read_or (n : Nat) (base len : Word) (hn : n ≤ len.toNat) (k : Nat) (m : Memory) (a : Nat) :
    inBuffer base len a = true ∨ (scramble n base.toNat k m).read a = m.read a := by
  rw [inBuffer_iff, or_iff_not_imp_left]
  exact fun ha => scramble_read _ _ _ _ _ (by omega)

/-- Settles O20, by whether a command that writes its destination is abandoned. -/
theorem resetInput : Obligations.ResetInput := by
  intro s rest hev
  have habandoned := State.abandonedBytes_cases { s with events := rest }
  refine ⟨_, _, step_of_reset hev, fun hidle => ?_, fun a => ?_⟩
  · have hnone : ({ s with events := rest } : State).abandonedBytes = 0 :=
      habandoned.resolve_right fun hrun => Bool.false_ne_true (hidle.symm.trans hrun.1)
    rw [hnone]
    rfl
  · obtain hnone | ⟨hbusy, hwrites, hall⟩ := habandoned
    · rw [hnone]
      exact .inr rfl
    · rw [hall]
      exact (scramble_read_or _ s.dstAddr s.dstCap le_rfl _ s.mem a).imp_left fun ha => ⟨hbusy, hwrites, ha⟩

end Sys2Proof.Machine
end

section
/-! SUPPORT. Proofs: The state after reset -/

namespace Sys2Proof.Machine

/-! ### The weights of the text table, symbol by symbol (41_prefix_table.md R186) -/

/-- What a class adds to the weight of symbol `s`: its amount for each time that `s` stands in it. -/
def classAmount (cls : List Byte × Word) (s : Nat) : Word := word (cls.1.countP (fun b => b.toNat == s)) * cls.2

/-- The weight of symbol `s` in a text table: 1, and what each class adds. -/
def symbolWeight (p : Params) (s : Nat) : Word :=
  (p.textSets.zip p.textAmounts).foldl (fun v cls => v + classAmount cls s) 1#32

theorem addClass_map_range (f : Nat → Word) (a : Nat) (cls : List Byte × Word) :
    addClass ((List.range a).map f) cls = (List.range a).map fun s => f s + classAmount cls s :=
  List.ext_getElem (by simp [addClass]) fun i _ _ => by simp [addClass, classAmount]

theorem textWeights_eq_map (p : Params) (a : Nat) : textWeights p a = (List.range a).map (symbolWeight p) := by
  have foldl_map : ∀ (classes : List (List Byte × Word)) (f : Nat → Word),
      classes.foldl addClass ((List.range a).map f) =
        (List.range a).map fun s => classes.foldl (fun v cls => v + classAmount cls s) (f s) := by
    intro classes
    induction classes with
    | nil => exact fun _ => rfl
    | cons cls classes ih => exact fun f => by simp only [List.foldl_cons, addClass_map_range, ih]
  rw [textWeights, show List.replicate a 1#32 = (List.range a).map fun _ => 1#32 by simp, foldl_map]
  rfl

/-- A class without repetitions counts each of its bytes once. -/
theorem countP_of_nodup {cls : List Byte} (h : (cls.map BitVec.toNat).Nodup) (s : Nat) :
    cls.countP (fun b => b.toNat == s) = if s ∈ cls.map BitVec.toNat then 1 else 0 := by
  rw [← h.count, List.count, List.countP_map]
  rfl

theorem byteRange_toNat {lo hi : Nat} (h : hi < 256) :
    (byteRange lo hi).map BitVec.toNat = List.range' lo (hi + 1 - lo) := by
  rw [byteRange, List.map_map, List.range'_eq_map_range]
  refine List.map_congr_left fun i hi => ?_
  have hlt : i < _ := List.mem_range.1 hi
  simp only [Function.comp_apply, byte, BitVec.toNat_ofNat]
  omega

theorem countP_byteRange {lo hi : Nat} (h : hi < 256) (s : Nat) :
    (byteRange lo hi).countP (fun b => b.toNat == s) = if lo ≤ s ∧ s ≤ hi then 1 else 0 := by
  have hmem : s ∈ (byteRange lo hi).map BitVec.toNat ↔ lo ≤ s ∧ s ≤ hi := by
    rw [byteRange_toNat h, List.mem_range'_1]
    omega
  rw [countP_of_nodup (by rw [byteRange_toNat h]; exact List.nodup_range')]
  exact if_congr hmem rfl rfl

/-- The weight of a symbol in the default text table, by class: the base weight 1 and the amount of R186. -/
def textWeight (x : Nat) : Nat :=
  if 0x61 ≤ x ∧ x ≤ 0x7A then 51
  else if 0x41 ≤ x ∧ x ≤ 0x5A then 9
  else if 0x30 ≤ x ∧ x ≤ 0x39 then 41
  else if x ∈ [0x20, 0x0A, 0x2C, 0x2E] then 78
  else if x ∈ [0x09, 0x0D, 0x21, 0x22, 0x27, 0x28, 0x29, 0x2D, 0x3A, 0x3B, 0x3F] then 29
  else 1

/-- The default weight of a symbol as a sum over the classes, each amount counted once or not at all. -/
theorem symbolWeight_default_sum (s : Nat) : symbolWeight defaultParams s =
    word (1 + (if 0x61 ≤ s ∧ s ≤ 0x7A then 1 else 0) * 50 + (if 0x41 ≤ s ∧ s ≤ 0x5A then 1 else 0) * 8 +
      (if 0x30 ≤ s ∧ s ≤ 0x39 then 1 else 0) * 40 + (if s ∈ [0x20, 0x0A, 0x2C, 0x2E] then 1 else 0) * 77 +
      (if s ∈ [0x09, 0x0D, 0x21, 0x22, 0x27, 0x28, 0x29, 0x2D, 0x3A, 0x3B, 0x3F] then 1 else 0) * 28) := by
  simp only [word, BitVec.ofNat_add, BitVec.ofNat_mul]
  simp only [symbolWeight, classAmount, defaultParams, defaultTextSets, List.zip_cons_cons, List.zip_nil_left,
    List.foldl_cons, List.foldl_nil, countP_byteRange (show 0x7A < 256 by decide),
    countP_byteRange (show 0x5A < 256 by decide), countP_byteRange (show 0x39 < 256 by decide)]
  rw [countP_of_nodup (by decide), countP_of_nodup (by decide)]
  rfl

/-- The default classes are disjoint, so at most one amount is added. -/
theorem symbolWeight_default (s : Nat) : (symbolWeight defaultParams s).toNat = textWeight s := by
  rw [symbolWeight_default_sum, word, BitVec.toNat_ofNat, textWeight]
  simp only [List.mem_cons, List.not_mem_nil, or_false]
  split_ifs <;> omega

theorem textWeights_default (a : Nat) :
    (textWeights defaultParams a).map BitVec.toNat = (List.range a).map textWeight := by
  rw [textWeights_eq_map, List.map_map]
  exact List.map_congr_left fun s _ => symbolWeight_default s

/-! ### The weights of the bit-count candidates (41_prefix_table.md R187) -/

/-- The number of one bits of a byte value. -/
def oneBits (b : Nat) : Nat := (List.range 8).countP (fun i => b.testBit i)

theorem natBits_eq_map (n v : Nat) : natBits n v = (List.range n).reverse.map v.testBit := by
  induction n with
  | zero => rfl
  | succ n ih => rw [natBits, ih, List.range_succ, List.reverse_append]; rfl

theorem popcount_eq_oneBits (b : Nat) : popcount b = oneBits b := by
  rw [popcount, natBits_eq_map, ← List.countP_eq_length_filter, List.countP_map, List.countP_reverse]
  rfl

theorem oneBits_le (b : Nat) : oneBits b ≤ 8 := List.countP_le_length

theorem map_word_toNat {f : Nat → Nat} (n : Nat) (h : ∀ b, f b < 2 ^ 32) :
    ((List.range n).map fun b => word (f b)).map BitVec.toNat = (List.range n).map f := by
  rw [List.map_map]
  exact List.map_congr_left fun b _ => Nat.mod_eq_of_lt (h b)

theorem hamLow_default : defaultParams.hamLow.map BitVec.toNat = (List.range 256).map fun b => 9 - oneBits b := by
  simp only [defaultParams, popcount_eq_oneBits]
  exact map_word_toNat 256 fun b => by omega

theorem hamHigh_default : defaultParams.hamHigh.map BitVec.toNat = (List.range 256).map fun b => 1 + oneBits b := by
  simp only [defaultParams, popcount_eq_oneBits]
  exact map_word_toNat 256 fun b => by have hle := oneBits_le b; omega

/-! ### The presets at reset (10_state.md R41, R42) -/

/-- The weights of the presets after reset, as the spec lists them (41_prefix_table.md R185 to R187, 42_varint.md R210,
45_lz77.md R296). -/
def resetWeights : Nat → List Nat
  | 0 => List.replicate 257 1
  | 1 => (List.range 257).map textWeight
  | 2 => (List.range 256).map textWeight
  | 3 => (List.range 256).map fun b => 9 - oneBits b
  | 4 => (List.range 256).map fun b => 1 + oneBits b
  | 5 => List.replicate 256 1
  | 6 => [8, 7, 6, 5, 4, 3, 2, 1]
  | 7 => [4, 3, 2, 1]
  | _ => []

/-- `resetWeights` is what the model's presets hold under the default parameters. -/
theorem presetWeights_default {k : Nat} (hk : k < 8) :
    (presetWeights defaultParams k).map BitVec.toNat = resetWeights k := by
  interval_cases k
  · exact List.map_replicate
  · exact textWeights_default 257
  · exact textWeights_default 256
  · exact hamLow_default
  · exact hamHigh_default
  · exact List.map_replicate
  · rfl
  · rfl

/-- A preset slot has its weights and the codes of BUILD, whatever its alphabet. -/
theorem resetSlots_presetSlot (p : Params) {k : Nat} (hk : k < 8) :
    ∃ alpha, (resetSlots p)[Fin.ofNat 16 k] = presetSlot p alpha k := by
  interval_cases k <;> exact ⟨_, rfl⟩

theorem reset_weights (k : Nat) (hk : k < 8) :
    (State.reset.slot (Fin.ofNat 16 k)).weights.map BitVec.toNat = resetWeights k := by
  obtain ⟨alpha, hslot⟩ := resetSlots_presetSlot defaultParams hk
  rw [State.slot, State.reset, State.afterReset, hslot]
  exact presetWeights_default hk

theorem reset_codes (k : Nat) (hk : k < 8) :
    (State.reset.slot (Fin.ofNat 16 k)).codes = referenceBuild (resetWeights k) := by
  obtain ⟨alpha, hslot⟩ := resetSlots_presetSlot defaultParams hk
  rw [State.slot, State.reset, State.afterReset, hslot, presetSlot, presetWeights_default hk]
  rfl

/-! ### The codes that the spec writes out (41_prefix_table.md R185, R187, 42_varint.md R210, 45_lz77.md R296) -/

theorem uni257_codes :
    referenceBuild (List.replicate 257 1) = (List.range 255).map (natBits 8) ++ [natBits 9 510, natBits 9 511] := by
  decide +kernel

theorem uniform256_codes : referenceBuild (List.replicate 256 1) = (List.range 256).map (natBits 8) := by
  decide +kernel

theorem vint_codes : referenceBuild [8, 7, 6, 5, 4, 3, 2, 1] =
    [natBits 2 0, natBits 2 1, natBits 3 4, natBits 3 5, natBits 3 6, natBits 4 14, natBits 5 30, natBits 5 31] := by
  decide +kernel

theorem meta_codes : referenceBuild [4, 3, 2, 1] = [natBits 1 0, natBits 2 2, natBits 3 6, natBits 3 7] := by
  decide +kernel

/-- Settles O21: each preset holds its listed weights and the reference builder's codes for them; the codes that the
spec writes out are evaluated. -/
theorem resetState : Obligations.ResetState := by
  refine ⟨⟨by decide, by decide, rfl⟩,
    ⟨reset_weights 0 (by decide), reset_weights 1 (by decide), reset_weights 2 (by decide),
      reset_weights 3 (by decide), reset_weights 4 (by decide), reset_weights 5 (by decide),
      reset_weights 6 (by decide), reset_weights 7 (by decide)⟩,
    fun k hk => ?_, ?_, ?_, ?_, ?_⟩
  · exact (reset_codes k hk).trans (congrArg referenceBuild (reset_weights k hk).symm)
  · exact (reset_codes 0 (by decide)).trans uni257_codes
  · exact (reset_codes 5 (by decide)).trans uniform256_codes
  · exact (reset_codes 6 (by decide)).trans vint_codes
  · exact (reset_codes 7 (by decide)).trans meta_codes

/-! ### The invariants at reset (10_state.md R44) -/

theorem textWeight_pos (x : Nat) : 0 < textWeight x := by
  unfold textWeight
  split_ifs <;> decide

theorem resetWeights_pos {k : Nat} (hk : k < 8) : ∀ n ∈ resetWeights k, 0 < n := by
  have htext (a : Nat) : ∀ n ∈ (List.range a).map textWeight, 0 < n :=
    List.forall_mem_map.2 fun x _ => textWeight_pos x
  interval_cases k
  · exact fun n hn => List.eq_of_mem_replicate hn ▸ Nat.one_pos
  · exact htext 257
  · exact htext 256
  · exact List.forall_mem_map.2 fun b _ => by have hle := oneBits_le b; omega
  · exact List.forall_mem_map.2 fun b _ => by omega
  · exact fun n hn => List.eq_of_mem_replicate hn ▸ Nat.one_pos
  · decide
  · decide

theorem presetWeights_ne_zero (k : Nat) (hk : k < 8) : ∀ w ∈ presetWeights defaultParams k, w ≠ 0#32 := by
  rintro w hw rfl
  have hmem : 0 ∈ resetWeights k := presetWeights_default hk ▸ List.mem_map.2 ⟨_, hw, rfl⟩
  exact (resetWeights_pos hk _ hmem).ne rfl

/-- No code of a preset comes near MAXCODE (10_state.md R44 item 3). The four tables whose weights differ have codes
that the spec does not list, so BUILD is run on them. -/
theorem presetCodes_short {k : Nat} (hk : k < 8) : maxCodeLen (referenceBuild (resetWeights k)) ≤ 64 := by
  interval_cases k
  · rw [resetWeights, uni257_codes]
    decide +kernel
  · decide +kernel
  · decide +kernel
  · decide +kernel
  · decide +kernel
  · rw [resetWeights, uniform256_codes]
    decide +kernel
  · rw [resetWeights, vint_codes]
    decide
  · rw [resetWeights, meta_codes]
    decide

/-- R9's defaults are as it asks of the parameters. -/
theorem defaultParams_wf : Params.wf defaultParams = true := by
  have hcodes : (List.range 8).all (fun i => decide
      (maxCodeLen (build defaultParams.builder ((presetWeights defaultParams i).map BitVec.toNat)) ≤
        Config.maxCode)) = true :=
    List.all_eq_true.2 fun k hk => by
      have hlt := List.mem_range.1 hk
      rw [presetWeights_default hlt]
      exact decide_eq_true (presetCodes_short hlt)
  have hweights : (defaultParams.vintWeights ++ defaultParams.metaWeights ++ defaultParams.hamLow ++
      defaultParams.hamHigh ++ textWeights defaultParams 256 ++ textWeights defaultParams 257).all (· != 0#32) =
        true := by
    simp only [List.all_append, Bool.and_eq_true, List.all_eq_true, bne_iff_ne]
    exact ⟨⟨⟨⟨⟨presetWeights_ne_zero 6 (by decide), presetWeights_ne_zero 7 (by decide)⟩,
      presetWeights_ne_zero 3 (by decide)⟩, presetWeights_ne_zero 4 (by decide)⟩,
      presetWeights_ne_zero 2 (by decide)⟩, presetWeights_ne_zero 1 (by decide)⟩
  have hlow : defaultParams.hamLow.length = 256 := by rw [defaultParams, List.length_map, List.length_range]
  have hhigh : defaultParams.hamHigh.length = 256 := by rw [defaultParams, List.length_map, List.length_range]
  rw [Params.wf, hcodes, hweights, hlow, hhigh]
  rfl

/-- The slot file after reset: presets by definition, and an EMPTY slot is a user slot of R43. -/
theorem slotsOk_afterReset (p : Params) (m : Memory) (events : List Event) (hostData : List Byte) (n : Nat) :
    slotsOk (State.afterReset p m events hostData n) := by
  intro k
  by_cases hk : k.val < 8
  · rw [if_pos hk]
    rfl
  · rw [if_neg hk]
    change userSlotOk p (resetSlots p)[k] = true
    rw [resetSlots_user p k hk]
    rfl

/-- Settles O24: the registers are 0, and R9's default parameters are well-formed. -/
theorem resetMeetsInvariants : Obligations.ResetMeetsInvariants where
  statusReserved := BitVec.zero_and
  ctrlReserved := BitVec.zero_and
  busyFlags _ := ⟨by decide, by decide, rfl⟩
  errRange := by decide
  okInfo _ := rfl
  engineIdle := rfl
  memory := State.reset_mem_wf
  slotFile := slotsOk_afterReset _ _ _ _ _
  parameters := defaultParams_wf

end Sys2Proof.Machine
end
